-- ==== Sys2Proof/Word.lean ====
section
/-!
DEFINITION. The word types of the device (R9, R13): lane words, scalars, bytes, lane masks.
-/
namespace Sys2Proof

/-- A 32-bit lane word: vN, ocN (R85). -/
abbrev Word := BitVec 32
/-- A 64-bit value: scalars, latches, special registers, register pairs (R9, R85). -/
abbrev DWord := BitVec 64
/-- The smallest addressable unit of memory (R9). -/
abbrev Byte := BitVec 8
/-- A lane mask: bit L stands for lane L (R8). -/
abbrev Mask := BitVec 32

end Sys2Proof
end

