-- ==== Sys2Proof/Config.lean ====
section
/-!
DEFINITION. What the specification leaves open: free values. None has a body, so no proof can learn one of them.
Log entry 1 names each of them.
-/
namespace Sys2Proof

/-- The arithmetic clocks that pass on a core in a step of the model, which CYCLE counts (R93, R3): how long a step takes is not
modelled. -/
opaque Config.clocksOf (core step : Nat) : DWord

/-- An unpredictable 64-bit value (R10), fresh for every index: poisoned data, CTRRD with events in flight,
NITCNT with folds of fragments still split, CXL.mem data of a poisoned line. -/
opaque Config.freeDWord (n : Nat) : DWord

/-- An unpredictable byte (R10), fresh for every index. -/
opaque Config.freeByte (n : Nat) : Byte

/-- An unpredictable choice between two outcomes, fresh for every index: the old or the new translation (R249),
whether an operation of an ended context is still performed (R36). -/
opaque Config.freeBool (n : Nat) : Bool

/-- Which of `n` things that may come next comes next at a step (R7, R219): the clock each would be ready at is not
modelled. Its user takes it modulo `n`. -/
opaque Config.pick (step n : Nat) : Nat

/-- How many steps something that may come next can be passed over before it must come (R219, R220): every clock is finite, and so is
every latency, but no number of the model's steps is stated. -/
opaque Config.patience : Nat

/-- What the sensor `n` of R298 finds at a step, in units of 1/16 degree: the world's. -/
opaque Config.temperature (n step : Nat) : BitVec 16

/-- An SM3 digest that an attestation report holds (R271), of the numbers that describe what is measured: the boot ROM (0) and the firmware
image (1), whose contents are not stated, the tables (2) and the configuration (3). -/
opaque Config.measure (what : Nat) (data : List Nat) : BitVec 256

/-- The signature of an attestation report (R271, R299): SM2 under a device key no program can read. -/
opaque Config.attest (nonce : DWord) (measured : List (BitVec 256)) : BitVec 512

end Sys2Proof
end

