-- ==== Sys2Proof/Syntax.lean ====
section
/-!
DEFINITION. Plerax instructions and the device's own steps, one constructor per row of spec/opcode_table.json.
Fields are the decoded fields of the encodings of R106-R130; rows without an encoding are steps of the engines,
the Ringmaster, the host and the platform, and carry the data the outside world supplies with them.
-/
namespace Sys2Proof

/-- The address spaces that name memory rows (R142). -/
inductive Space where
  | g | s | c | p | h | f
  deriving DecidableEq, Repr

/-- The XO layout of an XP word (R113). -/
structure XO where
  ty : BitVec 3
  pe : Bool
  pg : BitVec 3
  pn : Bool
  smod : BitVec 2
  roe : Bool
  rnd : BitVec 2
  sat : Bool
  dc : Bool
  srcc : BitVec 7
  deriving DecidableEq, Repr

/-- The XI layout of an XP word (R113). -/
structure XI where
  ty : BitVec 3
  pe : Bool
  pg : BitVec 3
  pn : Bool
  imm14 : BitVec 14
  deriving DecidableEq, Repr

/-- What stands before an A/B row, FDIV, an XSF row or a lane-exchange row: no XP word, XO or XI (R112, R113). -/
inductive Pfx where
  | none
  | xo (x : XO)
  | xi (x : XI)
  deriving DecidableEq, Repr

/-- The XM layout before an M row (R117). `low` is bits [18:9]: IMM10, or AOP, LOG and IMM5. -/
structure XM where
  ord : BitVec 2
  scope : BitVec 3
  hint : BitVec 2
  pe : Bool
  pg : BitVec 3
  pn : Bool
  ow : Bool
  low : BitVec 10
  deriving DecidableEq, Repr

/-- A3 format: srcB, srcA, dst, DB, DA, P (R108). -/
structure A3 where
  b : BitVec 7
  a : BitVec 7
  d : BitVec 7
  db : Bool
  da : Bool
  p : Bool
  x : Pfx
  deriving DecidableEq, Repr

/-- A3 format of a compare: the dst field holds COND and PD (R121), which stand beside this. -/
structure C3 where
  b : BitVec 7
  a : BitVec 7
  db : Bool
  da : Bool
  p : Bool
  x : Pfx
  deriving DecidableEq, Repr

/-- AF format without its funct7 (R108). -/
structure AF where
  a : BitVec 7
  d : BitVec 7
  da : Bool
  p : Bool
  x : Pfx
  deriving DecidableEq, Repr

/-- I format (R108). -/
structure IF where
  imm : BitVec 9
  a : BitVec 7
  d : BitVec 7
  p : Bool
  x : Pfx
  deriving DecidableEq, Repr

/-- I format of a compare (R121). -/
structure CI where
  imm : BitVec 9
  a : BitVec 7
  p : Bool
  x : Pfx
  deriving DecidableEq, Repr

/-- M format of a load or store (R108, R123). -/
structure MF where
  w : BitVec 3
  sb : BitVec 6
  off : BitVec 7
  data : BitVec 7
  p : Bool
  x : Option XM
  deriving DecidableEq, Repr

/-- M format of an atomic (R125): the XM word is required, and its AOP field is the constructor's. -/
structure AMO where
  w : BitVec 3
  sb : BitVec 6
  off : BitVec 7
  data : BitVec 7
  p : Bool
  ord : BitVec 2
  scope : BitVec 3
  hint : BitVec 2
  pe : Bool
  pg : BitVec 3
  pn : Bool
  ow : Bool
  log : Bool
  imm : BitVec 5
  deriving DecidableEq, Repr

/-- M format of PREF and CMO: an address and nothing else (R126). -/
structure AddrF where
  sb : BitVec 6
  off : BitVec 7
  p : Bool
  x : Option XM
  deriving DecidableEq, Repr

/-- I format of SLIDE without its immediate's fields (R124). -/
structure SlideF where
  a : BitVec 7
  d : BitVec 7
  p : Bool
  x : Pfx
  deriving DecidableEq, Repr

/-- The integer targets of FTOI (R328). -/
inductive IntFmt where
  | s32 | n32 | s64 | n64
  deriving DecidableEq, Repr

/-- The conditions of SCMP (R368). -/
inductive ScmpCond where
  | eq | ne | lt | le | ltu | leu
  deriving DecidableEq, Repr

/-- The operations of PLOP on predicates (R354). -/
inductive PlopOp where
  | and | or | xor | andn | orn | not | mov
  deriving DecidableEq, Repr

/-- A gang, named by the key of its resident group and its index. -/
structure GangRef where
  grp : Nat
  gang : Nat
  deriving DecidableEq, Repr

/-- A path (R274): a fragment of a gang, named by its split-table index. -/
structure FragRef where
  grp : Nat
  gang : Nat
  frag : Nat
  deriving DecidableEq, Repr

/-- The array segments that self-test (R266). -/
inductive Segment where
  | regBank (core part bank : Nat)
  | sramBank (core bank : Nat)
  | l2Way (slice way : Nat)
  | mirrorSub (die sub : Nat)
  | matrixSeg (core seg : Nat)
  deriving DecidableEq, Repr

/-- What an uncorrectable register error strikes (R261, R23). -/
inductive RegErr where
  | vreg (reg : BitVec 7) (lane : BitVec 5)
  | sreg (s : BitVec 6)
  | preg (p : BitVec 3)
  | splitEntry (i : BitVec 3)
  | splitRecord (i : BitVec 3)
  deriving DecidableEq, Repr

/-- What a flit asks for or brings. R292 gives bytes 9-15 as operation, length and flags without their codes. A request
names a virtual address of its context (R147); `atomic` carries AOP, size and the two operands, `add` a Mirror add of one
element of a FORMAT (R155); `checksum` carries the header of R253 under the sending hop's id, and its FORMAT (R256). -/
inductive FlitOp where
  | read (va : Nat) (len : Nat)
  | write (va : Nat) (data : List Byte)
  | atomic (aop : BitVec 4) (size : Nat) (va a b : Nat)
  | add (format : BitVec 4) (va v : Nat)
  | response (data : List Byte) (poison : Bool)
  | refusal (cls kind : Nat) (va : Nat)
  | checksum (header : List Byte) (format : BitVec 4)
  | acknowledge (upTo : BitVec 12) (again : Bool)
  deriving DecidableEq, Repr

/-- A fabric flit as it arrives (R292). -/
structure Flit where
  crcOk : Bool
  type : BitVec 8
  vc : BitVec 2
  seq : BitVec 12
  dst : BitVec 16
  src : BitVec 16
  ctx : BitVec 6
  op : FlitOp
  deriving DecidableEq, Repr

/-- Every row of spec/opcode_table.json: instructions first in their own words, then the steps of the device
(the constructors without fields stand last). -/
inductive Instr where
  | fadd (o : A3)  -- R319
  | fsub (o : A3)  -- R319
  | fmul (o : A3)  -- R319
  | ffma (o : A3)  -- R319
  | fmin (o : A3)  -- R326
  | fmax (o : A3)  -- R326
  | fscale (o : A3)  -- R319
  | fcmp (cond : BitVec 4) (pd : BitVec 3) (o : C3)  -- R321
  | faddF64 (o : A3)  -- R319
  | fsubF64 (o : A3)  -- R319
  | fmulF64 (o : A3)  -- R319
  | ffmaF64 (o : A3)  -- R319
  | frnd (ft rc : BitVec 2) (o : AF)  -- R327
  | fclass (ft : BitVec 2) (o : AF)  -- R320
  | digits (ft : BitVec 2) (o : AF)  -- R316
  | ftoi (it : IntFmt) (f64 : Bool) (rc : BitVec 2) (o : AF)  -- R328
  | itof (it : BitVec 3) (ft : BitVec 2) (o : AF)  -- R340
  | fcvt (dst src : BitVec 3) (h : Bool) (o : AF)  -- R322
  | fcvtToXs (src : BitVec 3) (o : AF)  -- R324
  | fcvtFromXs (dst : BitVec 3) (o : AF)  -- R324
  | mov (ty : BitVec 3) (o : AF)  -- R350
  | not (ty : BitVec 3) (o : AF)  -- R352
  | iabs (ty : BitVec 3) (o : AF)  -- R330
  | popc (ty : BitVec 3) (o : AF)  -- R355
  | clz (ty : BitVec 3) (o : AF)  -- R312
  | brev (ty : BitVec 3) (o : AF)  -- R312
  | iadd (o : A3)  -- R332
  | isub (o : A3)  -- R332
  | imul (o : A3)  -- R332
  | imulh (o : A3)  -- R337
  | imad (o : A3)  -- R337
  | imin (o : A3)  -- R332
  | imax (o : A3)  -- R332
  | icmp (cond : BitVec 4) (pd : BitVec 3) (o : C3)  -- R335
  | iadds (o : A3)  -- R333
  | isubs (o : A3)  -- R333
  | idot2 (o : A3)  -- R336
  | ishrr (o : A3)  -- R338
  | pks (o : A3)  -- R353
  | sel (o : A3)  -- R370
  | prmt (o : A3)  -- R357
  | bfx (o : A3)  -- R308
  | bfi (o : A3)  -- R308
  | and (o : A3)  -- R305
  | or (o : A3)  -- R352
  | xor (o : A3)  -- R352
  | shl (o : A3)  -- R369
  | shr (o : A3)  -- R369
  | sar (o : A3)  -- R369
  | icmpI (cond : BitVec 4) (pd : BitVec 3) (o : CI)  -- R335
  | iaddI (o : IF)  -- R332
  | imulI (o : IF)  -- R332
  | andI (o : IF)  -- R305
  | orI (o : IF)  -- R352
  | xorI (o : IF)  -- R352
  | shlI (o : IF)  -- R369
  | shrI (o : IF)  -- R369
  | sarI (o : IF)  -- R369
  | mov16 (s5 : BitVec 5) (d6 : BitVec 6)  -- R110
  | iadd16 (s5 : BitVec 5) (d6 : BitVec 6)  -- R110
  | isub16 (s5 : BitVec 5) (d6 : BitVec 6)  -- R110
  | imul16 (s5 : BitVec 5) (d6 : BitVec 6)  -- R110
  | imin16 (s5 : BitVec 5) (d6 : BitVec 6)  -- R110
  | imax16 (s5 : BitVec 5) (d6 : BitVec 6)  -- R110
  | and16 (s5 : BitVec 5) (d6 : BitVec 6)  -- R110
  | or16 (s5 : BitVec 5) (d6 : BitVec 6)  -- R110
  | xor16 (s5 : BitVec 5) (d6 : BitVec 6)  -- R110
  | shl16 (s5 : BitVec 5) (d6 : BitVec 6)  -- R110
  | shr16 (s5 : BitVec 5) (d6 : BitVec 6)  -- R110
  | sar16 (s5 : BitVec 5) (d6 : BitVec 6)  -- R110
  | fadd16 (s5 : BitVec 5) (d6 : BitVec 6)  -- R110
  | fsub16 (s5 : BitVec 5) (d6 : BitVec 6)  -- R110
  | fmul16 (s5 : BitVec 5) (d6 : BitVec 6)  -- R110
  | fmax16 (s5 : BitVec 5) (d6 : BitVec 6)  -- R110
  | illegal (n : BitVec 23) (p : Bool)  -- R111
  | ldG (o : MF)  -- R342
  | ldS (o : MF)  -- R342
  | ldC (o : MF)  -- R342
  | ldP (o : MF)  -- R342
  | ldH (o : MF)  -- R342
  | ldF (o : MF)  -- R342
  | stG (o : MF)  -- R379
  | stS (o : MF)  -- R379
  | stC (o : MF)  -- R379
  | stP (o : MF)  -- R379
  | stH (o : MF)  -- R379
  | stF (o : MF)  -- R379
  | atomAdd (sp : Space) (o : AMO)  -- R304
  | atomMin (sp : Space) (o : AMO)  -- R304
  | atomMinu (sp : Space) (o : AMO)  -- R304
  | atomMax (sp : Space) (o : AMO)  -- R304
  | atomMaxu (sp : Space) (o : AMO)  -- R304
  | atomMaxe (sp : Space) (o : AMO)  -- R302
  | atomAnd (sp : Space) (o : AMO)  -- R304
  | atomOr (sp : Space) (o : AMO)  -- R304
  | atomXor (sp : Space) (o : AMO)  -- R304
  | atomXchg (sp : Space) (o : AMO)  -- R304
  | atomFadd (sp : Space) (o : AMO)  -- R302
  | atomFmax (sp : Space) (o : AMO)  -- R302
  | acas (sp : Space) (o : AMO)  -- R304
  | xsadd (sp : Space) (o : AMO)  -- R385
  | pref (level : BitVec 2) (o : AddrF)  -- R356
  | cmo (level op : BitVec 2) (o : AddrF)  -- R313
  | cmoRange (level op : BitVec 2) (sb sa : BitVec 6) (p : Bool)  -- R313
  | fence (kind : BitVec 2) (scope : BitVec 3) (p : Bool)  -- R178
  | qswap (w : Bool) (sel : BitVec 2) (o : AF)  -- R360
  | qbcast (w : Bool) (sel : BitVec 2) (o : AF)  -- R360
  | shfl (o : A3)  -- R371
  | slideDown (dist : BitVec 5) (o : SlideF)  -- R376
  | slideUp (dist : BitVec 5) (o : SlideF)  -- R376
  | slideFill (up : Bool) (dist : BitVec 5) (fill : BitVec 6) (o : SlideF)  -- R376
  | match (w : Bool) (o : AF)  -- R346
  | redux (op : BitVec 4) (ty : BitVec 3) (o : AF)  -- R363
  | voteAny (ps pd : BitVec 3) (p : Bool)  -- R383
  | voteAll (ps pd : BitVec 3) (p : Bool)  -- R383
  | voteBal (ps : BitVec 3) (sd : BitVec 6) (p : Bool)  -- R383
  | elect (pd : BitVec 3) (p : Bool)  -- R317
  | readlnImm (lane : BitVec 5) (a : BitVec 7) (sd : BitVec 6) (da p : Bool) (x : Pfx)  -- R361
  | readlnScalar (sl : BitVec 6) (a : BitVec 7) (sd : BitVec 6) (da p : Bool) (x : Pfx)  -- R361
  | writelnImm (lane : BitVec 5) (sa : BitVec 6) (d : BitVec 7) (p : Bool) (x : Pfx)  -- R361
  | writelnScalar (sl : BitVec 6) (sa : BitVec 6) (d : BitVec 7) (p : Bool) (x : Pfx)  -- R361
  | sadd (sb sa sd : BitVec 6) (p : Bool)  -- R368
  | ssub (sb sa sd : BitVec 6) (p : Bool)  -- R368
  | smul (sb sa sd : BitVec 6) (p : Bool)  -- R368
  | sand (sb sa sd : BitVec 6) (p : Bool)  -- R368
  | sor (sb sa sd : BitVec 6) (p : Bool)  -- R368
  | sxor (sb sa sd : BitVec 6) (p : Bool)  -- R368
  | sshl (sb sa sd : BitVec 6) (p : Bool)  -- R368
  | sshr (sb sa sd : BitVec 6) (p : Bool)  -- R368
  | ssar (sb sa sd : BitVec 6) (p : Bool)  -- R368
  | smov (sa sd : BitVec 6) (p : Bool)  -- R368
  | ssel (sb sa sd : BitVec 6) (p : Bool)  -- R368
  | scmp (cond : ScmpCond) (sb sa sd : BitVec 6) (p : Bool)  -- R368
  | sli (imm : BitVec 16) (sd : BitVec 6) (p : Bool)  -- R374
  | sliSh (imm : BitVec 16) (sd : BitVec 6) (p : Bool)  -- R374
  | sld (sz : BitVec 3) (sp : BitVec 2) (imm sa sd : BitVec 6) (p : Bool)  -- R373
  | sst (sz : BitVec 3) (sp : BitVec 2) (imm sa sd : BitVec 6) (p : Bool)  -- R373
  | sread (sel sd : BitVec 6) (p : Bool)  -- R377
  | swrite (sa sel : BitVec 6) (p : Bool)  -- R377
  | plop (op : PlopOp) (pb pa pd : BitVec 3) (p : Bool)  -- R354
  | plopFroms (sa : BitVec 6) (pd : BitVec 3) (p : Bool)  -- R354
  | plopTos (pa : BitVec 3) (sd : BitVec 6) (p : Bool)  -- R354
  | fdiv (o : A3)  -- R325
  | frcp (ft : BitVec 2) (o : AF)  -- R325
  | frsq (ft : BitVec 2) (o : AF)  -- R325
  | fsqrt (ft : BitVec 2) (o : AF)  -- R325
  | fexp2 (ft : BitVec 2) (o : AF)  -- R325
  | flog2 (ft : BitVec 2) (o : AF)  -- R325
  | fsinpi (ft : BitVec 2) (o : AF)  -- R325
  | fcospi (ft : BitVec 2) (o : AF)  -- R325
  | braCond (disp : BitVec 19) (n : Bool) (pr : BitVec 3) (p : Bool)  -- R311
  | bra (disp : BitVec 19) (p : Bool)  -- R311
  | brv (disp : BitVec 19) (n : Bool) (pr : BitVec 3) (p : Bool)  -- R24
  | call (disp : BitVec 19) (p : Bool)  -- R311
  | braReg (vn : BitVec 6) (p : Bool)  -- R311
  | callReg (vn : BitVec 6) (p : Bool)  -- R311
  | ret (p : Bool)  -- R366
  | regangWait (p : Bool)  -- R26
  | regangTry (p : Bool)  -- R26
  | region (p : Bool)  -- R365
  | exit (p : Bool)  -- R28
  | nop (p : Bool)  -- R351
  | wait (fromS : Bool) (imm : BitVec 6) (sa : BitVec 6) (path : BitVec 3) (p : Bool)  -- R160
  | bar (id : BitVec 4) (sd : BitVec 6) (p : Bool)  -- R307
  | cbar (id : BitVec 4) (sd : BitVec 6) (p : Bool)  -- R307
  | copy (dir op : BitVec 2) (sb sa sk : BitVec 6) (p : Bool)  -- R163
  | binit (sb sa : BitVec 6) (p : Bool)  -- R164
  | bwait (sa : BitVec 6) (p : Bool)  -- R165
  | mldw (fmt : BitVec 3) (sb sa : BitVec 6) (p : Bool)  -- R194
  | mswap (p : Bool)  -- R195
  | mma (fmt : BitVec 3) (sb sa : BitVec 6) (tile : BitVec 3) (p : Bool)  -- R196
  | mfence (p : Bool)  -- R183
  | mwait (all : Bool) (tile : BitVec 3) (p : Bool)  -- R192
  | mdrain (mode : BitVec 2) (sb sa : BitVec 6) (tile : BitVec 3) (p : Bool)  -- R200
  | mzero (tile : BitVec 3) (p : Bool)  -- R199
  | trap (code : BitVec 6) (p : Bool)  -- R382
  | rett (p : Bool)  -- R367
  | bkpt (code : BitVec 6) (p : Bool)  -- R382
  | trace (tag : BitVec 5) (sa : BitVec 6) (p : Bool)  -- R381
  | ctrrd (n sd : BitVec 6) (p : Bool)  -- R315
  | progress (k : BitVec 3) (p : Bool)  -- R358
  | yield (p : Bool)  -- R386
  | lease (sa : BitVec 6) (p : Bool)  -- R345
  | sigchk (sa : BitVec 6) (p : Bool)  -- R268
  | jointComplete (grp : Nat) (mismatches : BitVec 2)  -- R192
  | loadComplete (g : GangRef) (op : Nat)  -- R159
  | storeAck (g : GangRef)  -- R151
  | cmoComplete (g : GangRef) (op : Nat)  -- R156
  | loggedAtomicGrant (g : GangRef) (op : Nat) (lane : Nat)  -- R227
  | replayWaitTimeout (g : GangRef) (op : Nat)  -- R227
  | copyElementWrite (core : Nat) (copy : Nat)  -- R164
  | qtailDoorbell (fn : Nat) (q : Nat) (val : BitVec 64)  -- R205
  | takeLaunchRecord (fn : Nat) (q : Nat)  -- R208
  | launchCompletion (launch : Nat)  -- R206
  | dispatchGroup (launch : Nat) (core : Nat)  -- R209
  | admitGroup (core : Nat)  -- R210
  | gangDeactivate (core : Nat)  -- R218
  | gangActivate (core : Nat)  -- R218
  | gangRotation (g : GangRef)  -- R218
  | footprintWindowEnd (g : GangRef)  -- R216
  | gangStarved (g : GangRef)  -- R219
  | quantumExpiry (grp : Nat)  -- R222
  | discard (grp : Nat)  -- R230
  | qpre (fn : Nat) (q : BitVec 6)  -- R233
  | groupHold (grp : Nat)  -- R231
  | stopRequest (fn : Nat) (val : BitVec 64)  -- R275
  | breakpointStop (r : FragRef)  -- R275
  | faultRecordWrite (fn : Nat)  -- R241
  | factRetry (fn : Nat)  -- R243
  | factAbandon (fn : Nat)  -- R243
  | factTerminate (fn : Nat)  -- R243
  | factReserved (fn : Nat)  -- R243
  | tlbInvalidate (fn : Nat) (val : BitVec 64)  -- R249
  | tlbInvalidateDone (fn : Nat)  -- R249
  | atsInvalidation (ctx : BitVec 6) (va : BitVec 64) (size : Nat)  -- R251
  | priResponse (ctx : BitVec 6) (va : BitVec 64) (ok : Bool)  -- R251
  | bankcfgScrWrite (core : Nat) (val : BitVec 16)  -- R149
  | bankSwitchDone (core : Nat) (bank : BitVec 4)  -- R149
  | queueReset (fn : Nat) (q : BitVec 6)  -- R285
  | traceSessionOpen (fn : Nat) (val : BitVec 64)  -- R282
  | traceSessionClose (fn : Nat) (val : BitVec 64)  -- R283
  | lanternStart (fn : Nat) (val : BitVec 64)  -- R277
  | counterWrap (fn : Nat) (n : BitVec 6)  -- R279
  | vfEnable (n : Nat) (val : BitVec 64)  -- R290
  | vfDisable (n : Nat) (val : BitVec 64)  -- R290
  | errorInject (val : BitVec 64)  -- R402
  | registerWrite (fn : Nat) (off : BitVec 16) (val : BitVec 64)  -- R12
  | memoryUe (level : BitVec 2) (pa : Nat)  -- R264
  | selfTestStart (seg : Segment)  -- R266
  | selfTestDone (seg : Segment) (pass : Bool)  -- R266
  | ringmasterBootDone (ok : Bool)  -- R269
  | clockStep (raise : Bool)  -- R3
  | bringUp (ok : Bool)  -- R296
  | hostLinkDown (port : Bool)  -- R286
  | hostLinkUp (port : Bool)  -- R286
  | fabricPortDown (port : BitVec 4)  -- R293
  | fabricPortUp (port : BitVec 4)  -- R293
  | flitReceive (port : BitVec 4) (flit : Flit)  -- R292
  | cxlMemRead (pa : Nat) (len : Nat)  -- R288
  | cxlMemWrite (pa : Nat) (data : List Byte)  -- R288, R168
  | attestationRequest (nonce : BitVec 64)  -- R299
  | reservedMajorOpcode (w : BitVec 32)  -- R131
  | xpPrefix (w : BitVec 32)  -- R112
  | uncorrectableRegisterError (g : GangRef) (target : RegErr)  -- R261
  | atsTranslationResponse (ctx : BitVec 6) (va : BitVec 64) (present : Bool) (hpa : Nat) (size : Nat) (rd wr : Bool)  -- R251
  | illegalHalfword  -- R111
  | worldSwitch  -- R233
  | ringmasterLockstepMismatch  -- R269
  | thermalTrip  -- R298
  | d3hotEntry  -- R297
  | d0Wake  -- R297
  | managementReset  -- R297
  | d3coldEntry  -- R297
  deriving DecidableEq, Repr

end Sys2Proof
end

