-- ==== Sys2Proof/WellFormed.lean ====
section
/-!
DEFINITION. Which instructions have an encoding: every code listed for its row, every unused field zero (R109, R120).
An encoding that breaks one of these rules raises ILLOP of kind RESERVED. The limits that raise kind OPERAND are
checked when the instruction issues, since they depend on the launch.
-/
namespace Sys2Proof

/-- What a row does with SRCC (R115, R120): nothing, the third source, the index of sx, the exponent scalar. -/
inductive SrccUse where
  | unused | srcC | sx
  deriving DecidableEq, Repr

/-- The prefix fields a row of R120 accepts: the layouts, the TY codes, the SMOD codes, O, S and SRCC. -/
structure PfxRule where
  xo : Bool
  xi : Bool
  tys : List Nat
  smods : List Nat
  o : Bool
  s : Bool
  srcc : SrccUse
  deriving DecidableEq, Repr

/-- The fields of an XO word against a row (R113, R120). -/
def XO.wf (r : PfxRule) (x : XO) : Bool :=
  r.xo && r.tys.contains x.ty.toNat && r.smods.contains x.smod.toNat
  && (x.roe || x.rnd == 0#2) && (r.o || !x.roe) && (r.s || !x.sat)
  && (match r.srcc with
      | .unused => x.srcc == 0#7 && !x.dc
      | .srcC => true
      | .sx => !x.srcc.getLsbD 6 && !x.dc)

/-- The fields of an XI word against a row (R113, R120). -/
def XI.wf (r : PfxRule) (x : XI) : Bool := r.xi && r.tys.contains x.ty.toNat

/-- A prefix against a row. A required prefix that is missing is an OPERAND matter (R120). -/
def Pfx.wf (r : PfxRule) : Pfx → Bool
  | .none => true
  | .xo x => x.wf r
  | .xi x => x.wf r

/-- FADD, FSUB, FMUL, FSCALE, FDIV (R120). -/
def ruleFloat : PfxRule := ⟨true, true, [0, 1, 2, 3], [0, 1, 3], true, false, .sx⟩
/-- FFMA (R120). -/
def ruleFma : PfxRule := ⟨true, true, [0, 1, 2, 3], [0, 1, 2, 3], true, false, .srcC⟩
/-- FADD.F64, FSUB.F64, FMUL.F64 (R120). -/
def ruleFloat64 : PfxRule := ⟨true, true, [0], [0, 1, 3], true, false, .sx⟩
/-- FFMA.F64 (R120). -/
def ruleFma64 : PfxRule := ⟨true, true, [0], [0, 1, 2, 3], true, false, .srcC⟩
/-- FMIN, FMAX (R120, R326). -/
def ruleMinMax : PfxRule := ⟨true, true, [0, 1, 2, 3], [0, 1, 3], false, false, .sx⟩
/-- FCMP (R120, R321). -/
def ruleFcmp : PfxRule := ⟨true, true, [0, 1], [0, 1, 3], false, false, .sx⟩
/-- FUN (R120). -/
def ruleFun : PfxRule := ⟨true, false, [0], [0, 1, 3], false, false, .unused⟩
/-- ITOF (R120, R339). -/
def ruleItof : PfxRule := ⟨true, false, [0], [0], true, false, .unused⟩
/-- FCVT to FP8 (R120, R322): SAT applies (R69). -/
def ruleFcvt8 : PfxRule := ⟨true, false, [0], [0], true, true, .unused⟩
/-- FCVT to XS (R324). -/
def ruleToXs : PfxRule := ⟨true, false, [0], [0], false, false, .sx⟩
/-- FCVT from XS (R324). -/
def ruleFromXs : PfxRule := ⟨true, false, [0], [0], true, false, .sx⟩
/-- IUN (R120). -/
def ruleIun : PfxRule := ⟨true, false, [0], [0], false, false, .unused⟩
/-- An integer row with SRCC as the index of sx, and its TY codes (R120). -/
def ruleInt (tys : List Nat) : PfxRule := ⟨true, true, tys, [0], false, false, .sx⟩
/-- An integer row with SRCC as the third source (R120). -/
def ruleIntC (tys : List Nat) : PfxRule := ⟨true, true, tys, [0], false, false, .srcC⟩
/-- PRMT: XO alone (R120). -/
def rulePrmt : PfxRule := ⟨true, false, [0], [0], false, false, .srcC⟩
/-- An I-format row: XI alone (R120). -/
def ruleI (tys : List Nat) : PfxRule := ⟨false, true, tys, [0], false, false, .unused⟩
/-- QX, SHFL, MATCH, READLN, WRITELN (R120). -/
def ruleLane : PfxRule := ⟨true, true, [0], [0], false, false, .sx⟩
/-- XSF (R120). -/
def ruleXsf : PfxRule := ⟨true, true, [0], [0, 1, 3], true, false, .sx⟩

/-- SEL requires PE = 1: its guard fields name the selector (R370). -/
def selPe : Pfx → Bool
  | .none => true
  | .xo x => x.pe
  | .xi x => x.pe

/-- SCOPE is a listed code, and 0 without ORD (R117). -/
def scopeOk (ord : BitVec 2) (scope : BitVec 3) : Bool :=
  decide (scope.toNat ≤ 4) && (ord != 0#2 || scope == 0#3)

/-- An XM word before LD, ST, PREF or CMO: the ORD codes the row accepts (R117). -/
def xmOk (ords : List Nat) : Option XM → Bool
  | none => true
  | some x => ords.contains x.ord.toNat && scopeOk x.ord x.scope

/-- PREF and CMO also require HINT 0 (R313, R356). -/
def hintless : Option XM → Bool
  | none => true
  | some x => x.hint == 0#2

/-- Load (R123, R343). -/
def ldOk (o : MF) : Bool := o.w != 7#3 && xmOk [0, 1] o.x
/-- Store (R123, R380). -/
def stOk (o : MF) : Bool := decide (o.w.toNat ≤ 4) && xmOk [0, 2] o.x
/-- Atomic of the listed widths, with or without LOG (R125, R303). -/
def amoOk (ws : List Nat) (logged : Bool) (o : AMO) : Bool :=
  ws.contains o.w.toNat && scopeOk o.ord o.scope && (logged || !o.log)

/-- Format class of a code of R122: 0 F32 or F64, 1 F16 or BF16, 2 FP8, 3 anything else. -/
def fcvtClass (c : BitVec 3) : Nat := match c.toNat with | 0 => 0 | 1 => 0 | 2 => 1 | 3 => 1 | 4 => 2 | 5 => 2 | _ => 3

/-- The pairs of R322 outside the XS forms, and where H may be 1. F64 to and from FP8 is not listed. -/
def fcvtOk (dst src : BitVec 3) (h : Bool) : Bool :=
  dst != src &&
  (match fcvtClass src, fcvtClass dst with
   | 0, 0 => !h
   | 0, 1 => true
   | 1, 0 => true
   | 1, 1 => !h
   | 0, 2 => src == 0#3
   | 1, 2 => true
   | 2, 1 => true
   | 2, 0 => dst == 0#3
   | 2, 2 => !h
   | _, _ => false)

/-- The prefix of an FCVT outside the XS forms. -/
def fcvtRule (dst : BitVec 3) : PfxRule := if fcvtClass dst = 2 then ruleFcvt8 else ruleItof

/-- The pairs of ITOF (R339). -/
def itofOk (it : BitVec 3) (ft : BitVec 2) : Bool :=
  (decide (it.toNat ≤ 3) && decide (ft.toNat ≤ 1)) || ((it == 4#3 || it == 5#3) && decide (2 ≤ ft.toNat))

/-- REDUX: listed operations and types; an override in FADD alone (R362). -/
def reduxOk (op : BitVec 4) (ty : BitVec 3) (x : Pfx) : Bool :=
  decide (op.toNat ≤ 9) && decide (ty.toNat ≤ 3)
  && x.wf ⟨true, false, [0], [0], op == 7#4, false, .unused⟩

/-- SLIDE from the next register: IMM14 is zero (R124). -/
def slideOk (x : Pfx) : Bool :=
  x.wf (ruleI [0]) && (match x with | .xi y => y.imm14 == 0#14 | _ => true)

/-- SLIDE from a scalar: the XI prefix names it (R124). -/
def slideFillOk (fill : BitVec 6) (x : Pfx) : Bool :=
  x.wf (ruleI [0]) && (match x with | .xi y => y.imm14 == fill.setWidth 14 | _ => false)

/-- Bits [8:2] of a word: the major opcode (R108). -/
def majorOf (w : Nat) : Nat := w / 4 % 128

/-- A 16-bit form other than the halfword 0x0000 (R111). -/
def half0 (s5 : BitVec 5) (d6 : BitVec 6) : Bool := s5 != 0#5 || d6 != 0#6

/-- The instruction has an encoding that is not RESERVED. Steps of the device have none and are always formed. -/
def Instr.wf : Instr → Bool
  | .fadd o => o.x.wf ruleFloat
  | .fsub o => o.x.wf ruleFloat
  | .fmul o => o.x.wf ruleFloat
  | .ffma o => o.x.wf ruleFma
  | .fmin o => o.x.wf ruleMinMax
  | .fmax o => o.x.wf ruleMinMax
  | .fscale o => o.x.wf ruleFloat
  | .fcmp c _ o => decide (c.toNat ≤ 7) && o.x.wf ruleFcmp
  | .faddF64 o => o.x.wf ruleFloat64
  | .fsubF64 o => o.x.wf ruleFloat64
  | .fmulF64 o => o.x.wf ruleFloat64
  | .ffmaF64 o => o.x.wf ruleFma64
  | .frnd _ _ o => o.x.wf ruleFun
  | .fclass _ o => o.x.wf ruleFun
  | .digits _ o => o.x.wf ruleFun
  | .ftoi _ _ _ o => o.x.wf ruleFun
  | .itof it ft o => itofOk it ft && o.x.wf ruleItof
  | .fcvt d s h o => fcvtOk d s h && o.x.wf (fcvtRule d)
  | .fcvtToXs s o => decide (s.toNat ≤ 1) && o.x.wf ruleToXs
  | .fcvtFromXs d o => decide (d.toNat ≤ 1) && o.x.wf ruleFromXs
  | .mov ty o => [0, 2].contains ty.toNat && o.x.wf ruleIun
  | .not ty o => [0, 2].contains ty.toNat && o.x.wf ruleIun
  | .iabs ty o => [0, 2, 4, 6].contains ty.toNat && o.x.wf ruleIun
  | .popc ty o => [0, 2].contains ty.toNat && o.x.wf ruleIun
  | .clz ty o => [0, 2].contains ty.toNat && o.x.wf ruleIun
  | .brev ty o => [0, 2].contains ty.toNat && o.x.wf ruleIun
  | .iadd o => o.x.wf (ruleInt [0, 1, 2, 3, 4, 5, 6, 7])
  | .isub o => o.x.wf (ruleInt [0, 1, 2, 3, 4, 5, 6, 7])
  | .imul o => o.x.wf (ruleInt [0, 1, 2, 3, 4, 5, 6, 7])
  | .imulh o => o.x.wf (ruleInt [0, 1, 2, 3])
  | .imad o => o.x.wf (ruleIntC [0, 1, 2, 3])
  | .imin o => o.x.wf (ruleInt [0, 1, 2, 3, 4, 5, 6, 7])
  | .imax o => o.x.wf (ruleInt [0, 1, 2, 3, 4, 5, 6, 7])
  | .icmp c _ o => decide (c.toNat ≤ 5) && o.x.wf (ruleInt [0, 1, 2, 3])
  | .iadds o => o.x.wf (ruleInt [0, 1, 4, 5, 6, 7])
  | .isubs o => o.x.wf (ruleInt [0, 1, 4, 5, 6, 7])
  | .idot2 o => o.x.wf (ruleIntC [0, 5])
  | .ishrr o => o.x.wf (ruleInt [0, 4])
  | .pks o => o.x.wf (ruleInt [0, 1, 4, 5])
  | .sel o => o.x.wf (ruleInt [0, 2]) && selPe o.x
  | .prmt o => o.x.wf rulePrmt
  | .bfx o => o.x.wf (ruleInt [0, 1, 2, 3])
  | .bfi o => o.x.wf (ruleIntC [0, 2])
  | .and o => o.x.wf (ruleInt [0, 2])
  | .or o => o.x.wf (ruleInt [0, 2])
  | .xor o => o.x.wf (ruleInt [0, 2])
  | .shl o => o.x.wf (ruleInt [0, 2])
  | .shr o => o.x.wf (ruleInt [0, 2])
  | .sar o => o.x.wf (ruleInt [0, 2])
  | .icmpI c _ o => decide (c.toNat ≤ 5) && o.x.wf (ruleI [0, 1, 2, 3])
  | .iaddI o => o.x.wf (ruleI [0, 1, 2, 3, 4, 5, 6, 7])
  | .imulI o => o.x.wf (ruleI [0, 1, 2, 3, 4, 5, 6, 7])
  | .andI o => o.x.wf (ruleI [0, 2])
  | .orI o => o.x.wf (ruleI [0, 2])
  | .xorI o => o.x.wf (ruleI [0, 2])
  | .shlI o => o.x.wf (ruleI [0, 2])
  | .shrI o => o.x.wf (ruleI [0, 2])
  | .sarI o => o.x.wf (ruleI [0, 2])
  | .mov16 s d => half0 s d
  | .ldG o => ldOk o
  | .ldS o => ldOk o
  | .ldC o => ldOk o
  | .ldP o => ldOk o
  | .ldH o => ldOk o
  | .ldF o => ldOk o
  | .stG o => stOk o
  | .stS o => stOk o
  | .stC o => stOk o
  | .stP o => stOk o
  | .stH o => stOk o
  | .stF o => stOk o
  | .atomAdd _ o => amoOk [2, 3] true o
  | .atomMin _ o => amoOk [2, 3] true o
  | .atomMinu _ o => amoOk [2, 3] true o
  | .atomMax _ o => amoOk [2, 3] true o
  | .atomMaxu _ o => amoOk [2, 3] true o
  | .atomMaxe _ o => amoOk [2] true o
  | .atomAnd _ o => amoOk [2, 3] true o
  | .atomOr _ o => amoOk [2, 3] true o
  | .atomXor _ o => amoOk [2, 3] true o
  | .atomXchg _ o => amoOk [2, 3] true o
  | .atomFadd _ o => amoOk [2, 3] true o
  | .atomFmax _ o => amoOk [2, 3] true o
  | .acas _ o => amoOk [2, 3, 4] false o
  | .xsadd _ o => amoOk [3] false o
  | .pref level o => level != 3#2 && xmOk [0] o.x && hintless o.x
  | .cmo level op o => level != 3#2 && op != 3#2 && xmOk [0] o.x && hintless o.x
  | .cmoRange level op _ _ _ => level != 3#2 && op != 3#2
  | .fence kind scope _ => kind != 0#2 && decide (scope.toNat ≤ 4)
  | .qswap _ k o => k != 0#2 && o.x.wf ruleLane
  | .qbcast _ _ o => o.x.wf ruleLane
  | .shfl o => o.x.wf ruleLane
  | .slideDown _ o => slideOk o.x
  | .slideUp _ o => slideOk o.x
  | .slideFill _ _ fill o => slideFillOk fill o.x
  | .match _ o => o.x.wf ruleLane
  | .redux op ty o => reduxOk op ty o.x
  | .readlnImm _ _ _ _ _ x => x.wf ruleLane
  | .readlnScalar _ _ _ _ _ x => x.wf ruleLane
  | .writelnImm _ _ _ _ x => x.wf ruleLane
  | .writelnScalar _ _ _ _ x => x.wf ruleLane
  | .sld sz sp _ _ _ _ => sz != 4#3 && sp != 3#2
  | .sst sz sp _ _ _ _ => decide (sz.toNat ≤ 3) && (sp == 0#2 || sp == 2#2)
  | .sread n _ _ => decide (n.toNat ≤ 14)
  | .swrite _ n _ => decide (n.toNat ≤ 14)
  | .plop op pb _ _ _ => (op != .not && op != .mov) || pb == 0#3
  | .fdiv o => o.x.wf ruleFloat
  | .frcp _ o => o.x.wf ruleXsf
  | .frsq _ o => o.x.wf ruleXsf
  | .fsqrt _ o => o.x.wf ruleXsf
  | .fexp2 _ o => o.x.wf ruleXsf
  | .flog2 _ o => o.x.wf ruleXsf
  | .fsinpi _ o => o.x.wf ruleXsf
  | .fcospi _ o => o.x.wf ruleXsf
  | .wait fromS imm sa path _ => decide (path.toNat ≤ 4) && (if fromS then imm == 0#6 else sa == 0#6)
  | .copy _ op _ _ _ _ => op != 3#2
  | .mldw fmt _ _ _ => decide (fmt.toNat ≤ 4)
  | .mma fmt _ _ _ _ => decide (fmt.toNat ≤ 4)
  | .mwait all tile _ => !all || tile == 0#3
  | .reservedMajorOpcode w =>
    w.toNat % 2 == 1 && ([0x4D, 0x4E, 0x4F, 0x7A, 0x7B, 0x7C, 0x7D].contains (majorOf w.toNat))
  | .xpPrefix w => w.toNat % 2 == 1 && majorOf w.toNat == 0x7F
  | .iadd16 .. | .isub16 .. | .imul16 .. | .imin16 .. | .imax16 .. | .and16 .. | .or16 .. | .xor16 .. | .shl16 ..
  | .shr16 .. | .sar16 .. | .fadd16 .. | .fsub16 .. | .fmul16 .. | .fmax16 .. | .illegalHalfword | .illegal ..
  | .voteAny .. | .voteAll .. | .voteBal .. | .elect .. | .sadd .. | .ssub .. | .smul .. | .sand .. | .sor .. | .sxor ..
  | .sshl .. | .sshr .. | .ssar .. | .smov .. | .ssel .. | .scmp .. | .sli .. | .sliSh .. | .plopFroms .. | .plopTos ..
  | .braCond .. | .bra .. | .brv .. | .call .. | .braReg .. | .callReg .. | .ret .. | .regangWait .. | .regangTry ..
  | .region .. | .exit .. | .nop .. | .bar .. | .cbar .. | .binit .. | .bwait .. | .mswap .. | .mfence .. | .mdrain ..
  | .mzero .. | .trap .. | .rett .. | .bkpt .. | .trace .. | .ctrrd .. | .progress .. | .yield .. | .lease ..
  | .sigchk .. | .jointComplete .. | .loadComplete .. | .storeAck .. | .cmoComplete .. | .loggedAtomicGrant ..
  | .replayWaitTimeout .. | .copyElementWrite .. | .qtailDoorbell .. | .takeLaunchRecord .. | .launchCompletion ..
  | .dispatchGroup .. | .admitGroup .. | .gangDeactivate .. | .gangActivate .. | .gangRotation ..
  | .footprintWindowEnd .. | .gangStarved .. | .quantumExpiry .. | .discard .. | .qpre .. | .worldSwitch
  | .groupHold .. | .stopRequest .. | .breakpointStop .. | .faultRecordWrite .. | .factRetry .. | .factAbandon ..
  | .factTerminate .. | .factReserved .. | .tlbInvalidate .. | .tlbInvalidateDone .. | .atsInvalidation ..
  | .priResponse .. | .bankcfgScrWrite .. | .bankSwitchDone .. | .queueReset .. | .traceSessionOpen ..
  | .traceSessionClose .. | .lanternStart .. | .counterWrap .. | .vfEnable .. | .vfDisable .. | .errorInject ..
  | .registerWrite .. | .memoryUe .. | .selfTestStart .. | .selfTestDone .. | .ringmasterLockstepMismatch
  | .ringmasterBootDone .. | .clockStep .. | .thermalTrip | .bringUp .. | .d3hotEntry | .d0Wake | .managementReset
  | .hostLinkDown .. | .hostLinkUp .. | .fabricPortDown .. | .fabricPortUp .. | .flitReceive .. | .cxlMemRead ..
  | .cxlMemWrite .. | .attestationRequest .. | .uncorrectableRegisterError .. | .d3coldEntry
  | .atsTranslationResponse .. => true

end Sys2Proof
end

