-- ==== Sys2Proof/Decode.lean ====
section
/-!
DEFINITION. Decoding and encoding (R106-R131). The decoder takes the words of one instruction as numbers, so every field
is a quotient and a remainder; the encoder writes the same fields back. Reserved codes are refused by kind.
-/
namespace Sys2Proof

/-- The kinds of ILLOP (R131). -/
inductive Illop where
  | illegal | reserved | operand
  deriving DecidableEq, Repr

/-- The code of a kind in a fault record (R131). -/
def Illop.code : Illop → Nat
  | .illegal => 1
  | .reserved => 2
  | .operand => 3

/-- The words of one instruction (R106, R112): a halfword, a word, or an XP word and what follows it. -/
inductive Frame where
  | half (h : Nat)
  | word (w : Nat)
  | pair (x w : Nat)
  deriving DecidableEq, Repr

/-- What decoding answers. -/
inductive Decoded where
  | ok (i : Instr)
  | bad (k : Illop)
  deriving DecidableEq, Repr

/-- Bits [lo + n - 1 : lo] of a word. -/
def fld (w lo n : Nat) : BitVec n := BitVec.ofNat n (w / 2 ^ lo)

/-- Bit `lo` of a word. -/
def bit (w lo : Nat) : Bool := w / 2 ^ lo % 2 == 1

/-- Bits [lo + n - 1 : lo] of a word are zero (R109). -/
def zeros (w lo n : Nat) : Bool := w / 2 ^ lo % 2 ^ n == 0

/-- An instruction, if the fields its row leaves unused are zero (R109). -/
def need (c : Bool) (i : Instr) : Decoded := if c then .ok i else .bad .reserved

/-- The XO word (R113). -/
def dXO (x : Nat) : XO :=
  { ty := fld x 28 3, pe := bit x 27, pg := fld x 24 3, pn := bit x 23, smod := fld x 21 2, roe := bit x 20,
    rnd := fld x 18 2, sat := bit x 17, dc := bit x 16, srcc := fld x 9 7 }

/-- The XI word (R113). -/
def dXI (x : Nat) : XI :=
  { ty := fld x 28 3, pe := bit x 27, pg := fld x 24 3, pn := bit x 23, imm14 := fld x 9 14 }

/-- The XP word before an A/B, FDIV, XSF or lane-exchange row (R113). -/
def dPfx : Option Nat → Pfx
  | none => .none
  | some x => if bit x 31 then .xi (dXI x) else .xo (dXO x)

/-- The XM word (R117). -/
def dXM (x : Nat) : XM :=
  { ord := fld x 30 2, scope := fld x 27 3, hint := fld x 25 2, pe := bit x 24, pg := fld x 21 3, pn := bit x 20,
    ow := bit x 19, low := fld x 9 10 }

/-- A3 format (R108). -/
def dA3 (w : Nat) (x : Pfx) : A3 := ⟨fld w 25 7, fld w 18 7, fld w 11 7, bit w 10, bit w 9, bit w 1, x⟩

/-- A3 format of a compare (R121). -/
def dC3 (w : Nat) (x : Pfx) : C3 := ⟨fld w 25 7, fld w 18 7, bit w 10, bit w 9, bit w 1, x⟩

/-- AF format (R108). -/
def dAF (w : Nat) (x : Pfx) : AF := ⟨fld w 18 7, fld w 11 7, bit w 9, bit w 1, x⟩

/-- I format (R108). -/
def dIF (w : Nat) (x : Pfx) : IF := ⟨fld w 23 9, fld w 16 7, fld w 9 7, bit w 1, x⟩

/-- I format of a compare (R121). -/
def dCI (w : Nat) (x : Pfx) : CI := ⟨fld w 23 9, fld w 16 7, bit w 1, x⟩

/-- M format of a load or store (R108). -/
def dMF (w : Nat) (x : Option Nat) : MF := ⟨fld w 29 3, fld w 23 6, fld w 16 7, fld w 9 7, bit w 1, x.map dXM⟩

/-- M format of PREF and CMO (R126). -/
def dAddr (w : Nat) (x : Option Nat) : AddrF := ⟨fld w 23 6, fld w 16 7, bit w 1, x.map dXM⟩

/-- M format of an atomic with its XM word (R117, R125). -/
def dAMO (w x : Nat) : AMO :=
  { w := fld w 29 3, sb := fld w 23 6, off := fld w 16 7, data := fld w 9 7, p := bit w 1, ord := fld x 30 2,
    scope := fld x 27 3, hint := fld x 25 2, pe := bit x 24, pg := fld x 21 3, pn := bit x 20, ow := bit x 19,
    log := bit x 14, imm := fld x 9 5 }

/-- The operation of an AMO row (R125). -/
def dAop (sp : Space) (w x : Nat) : Decoded :=
  match x / 2 ^ 15 % 16 with
  | 0 => .ok (.atomAdd sp (dAMO w x))
  | 1 => .ok (.atomMin sp (dAMO w x))
  | 2 => .ok (.atomMinu sp (dAMO w x))
  | 3 => .ok (.atomMax sp (dAMO w x))
  | 4 => .ok (.atomMaxu sp (dAMO w x))
  | 5 => .ok (.atomMaxe sp (dAMO w x))
  | 6 => .ok (.atomAnd sp (dAMO w x))
  | 7 => .ok (.atomOr sp (dAMO w x))
  | 8 => .ok (.atomXor sp (dAMO w x))
  | 9 => .ok (.atomXchg sp (dAMO w x))
  | 10 => .ok (.atomFadd sp (dAMO w x))
  | 11 => .ok (.atomFmax sp (dAMO w x))
  | 12 => .ok (.acas sp (dAMO w x))
  | 13 => .ok (.xsadd sp (dAMO w x))
  | _ => .bad .reserved

/-- An AMO row: without its prefix the word itself may still be RESERVED, which comes first (R120, R132). -/
def dAmo (sp : Space) (w : Nat) : Option Nat → Decoded
  | some x => dAop sp w x
  | none => if 2 ≤ w / 2 ^ 29 % 8 ∧ w / 2 ^ 29 % 8 ≤ 4 then .bad .operand else .bad .reserved

/-- FUN, row 0x0C (R122). -/
def dFun (w : Nat) (x : Pfx) : Decoded :=
  match w / 2 ^ 29 % 8 with
  | 0 => need (zeros w 10 1) (.frnd (fld w 27 2) (fld w 25 2) (dAF w x))
  | 1 => need (zeros w 10 1 && zeros w 25 2) (.fclass (fld w 27 2) (dAF w x))
  | 2 => need (zeros w 10 1 && zeros w 25 2) (.digits (fld w 27 2) (dAF w x))
  | 3 => need (zeros w 10 1 && zeros w 28 1) (.ftoi .s32 (bit w 27) (fld w 25 2) (dAF w x))
  | 4 => need (zeros w 10 1 && zeros w 28 1) (.ftoi .n32 (bit w 27) (fld w 25 2) (dAF w x))
  | 5 => need (zeros w 10 1 && zeros w 28 1) (.ftoi .s64 (bit w 27) (fld w 25 2) (dAF w x))
  | 6 => need (zeros w 10 1 && zeros w 28 1) (.ftoi .n64 (bit w 27) (fld w 25 2) (dAF w x))
  | _ => .bad .reserved

/-- FCVT, row 0x0E (R122, R324). -/
def dFcvt (w : Nat) (x : Pfx) : Decoded :=
  if w / 2 ^ 29 % 8 = 6 then need (zeros w 10 1 && zeros w 25 1) (.fcvtToXs (fld w 26 3) (dAF w x))
  else if w / 2 ^ 26 % 8 = 6 then need (zeros w 10 1 && zeros w 25 1) (.fcvtFromXs (fld w 29 3) (dAF w x))
  else need (zeros w 10 1) (.fcvt (fld w 29 3) (fld w 26 3) (bit w 25) (dAF w x))

/-- IUN, row 0x0F (R122). -/
def dIun (w : Nat) (x : Pfx) : Decoded :=
  match w / 2 ^ 28 % 16 with
  | 0 => need (zeros w 10 1) (.mov (fld w 25 3) (dAF w x))
  | 1 => need (zeros w 10 1) (.not (fld w 25 3) (dAF w x))
  | 2 => need (zeros w 10 1) (.iabs (fld w 25 3) (dAF w x))
  | 3 => need (zeros w 10 1) (.popc (fld w 25 3) (dAF w x))
  | 4 => need (zeros w 10 1) (.clz (fld w 25 3) (dAF w x))
  | 5 => need (zeros w 10 1) (.brev (fld w 25 3) (dAF w x))
  | _ => .bad .reserved

/-- XSF, row 0x58 (R325). -/
def dXsf (w : Nat) (x : Pfx) : Decoded :=
  match w / 2 ^ 29 % 8 with
  | 0 => need (zeros w 10 1 && zeros w 25 2) (.frcp (fld w 27 2) (dAF w x))
  | 1 => need (zeros w 10 1 && zeros w 25 2) (.frsq (fld w 27 2) (dAF w x))
  | 2 => need (zeros w 10 1 && zeros w 25 2) (.fsqrt (fld w 27 2) (dAF w x))
  | 3 => need (zeros w 10 1 && zeros w 25 2) (.fexp2 (fld w 27 2) (dAF w x))
  | 4 => need (zeros w 10 1 && zeros w 25 2) (.flog2 (fld w 27 2) (dAF w x))
  | 5 => need (zeros w 10 1 && zeros w 25 2) (.fsinpi (fld w 27 2) (dAF w x))
  | 6 => need (zeros w 10 1 && zeros w 25 2) (.fcospi (fld w 27 2) (dAF w x))
  | _ => .bad .reserved

/-- QX, row 0x45 (R124, R360). -/
def dQx (w : Nat) (x : Pfx) : Decoded :=
  match w / 2 ^ 30 % 4 with
  | 0 => need (zeros w 10 1 && zeros w 27 2) (.qswap (bit w 29) (fld w 25 2) (dAF w x))
  | 1 => need (zeros w 10 1 && zeros w 27 2) (.qbcast (bit w 29) (fld w 25 2) (dAF w x))
  | _ => .bad .reserved

/-- SLIDE, row 0x47 (R124). Without the XI word that a scalar fill requires, OPERAND (R120). -/
def dSlide (w : Nat) (x : Pfx) : Decoded :=
  if zeros w 28 2 then
    if bit w 30 then
      match x with
      | .none => .bad .operand
      | .xo _ => .bad .reserved
      | .xi y => .ok (.slideFill (bit w 31) (fld w 23 5) (y.imm14.setWidth 6) ⟨fld w 16 7, fld w 9 7, bit w 1, x⟩)
    else if bit w 31 then .ok (.slideUp (fld w 23 5) ⟨fld w 16 7, fld w 9 7, bit w 1, x⟩)
    else .ok (.slideDown (fld w 23 5) ⟨fld w 16 7, fld w 9 7, bit w 1, x⟩)
  else .bad .reserved

/-- READLN, row 0x4B (R124, R361). -/
def dReadln (w : Nat) (x : Pfx) : Decoded :=
  if bit w 10 then need (zeros w 30 2 && zeros w 17 1) (.readlnImm (fld w 25 5) (fld w 18 7) (fld w 11 6) (bit w 9) (bit w 1) x)
  else need (zeros w 31 1 && zeros w 17 1) (.readlnScalar (fld w 25 6) (fld w 18 7) (fld w 11 6) (bit w 9) (bit w 1) x)

/-- WRITELN, row 0x4C (R124, R361). -/
def dWriteln (w : Nat) (x : Pfx) : Decoded :=
  if bit w 10 then need (zeros w 30 2 && zeros w 24 1 && zeros w 9 1) (.writelnImm (fld w 25 5) (fld w 18 6) (fld w 11 7) (bit w 1) x)
  else need (zeros w 31 1 && zeros w 24 1 && zeros w 9 1) (.writelnScalar (fld w 25 6) (fld w 18 6) (fld w 11 7) (bit w 1) x)

/-- VOTE and ELECT, row 0x4A (R124). -/
def dVote (w : Nat) : Decoded :=
  match w / 2 ^ 27 % 32 with
  | 0 => need (zeros w 18 9 && zeros w 12 3) (.voteAny (fld w 15 3) (fld w 9 3) (bit w 1))
  | 1 => need (zeros w 18 9 && zeros w 12 3) (.voteAll (fld w 15 3) (fld w 9 3) (bit w 1))
  | 2 => need (zeros w 18 9) (.voteBal (fld w 15 3) (fld w 9 6) (bit w 1))
  | 3 => need (zeros w 12 15) (.elect (fld w 9 3) (bit w 1))
  | _ => .bad .reserved

/-- SALU, row 0x50 (R127, R368). -/
def dSalu (w : Nat) : Decoded :=
  match w / 2 ^ 27 % 32 with
  | 0 => .ok (.sadd (fld w 21 6) (fld w 15 6) (fld w 9 6) (bit w 1))
  | 1 => .ok (.ssub (fld w 21 6) (fld w 15 6) (fld w 9 6) (bit w 1))
  | 2 => .ok (.smul (fld w 21 6) (fld w 15 6) (fld w 9 6) (bit w 1))
  | 3 => .ok (.sand (fld w 21 6) (fld w 15 6) (fld w 9 6) (bit w 1))
  | 4 => .ok (.sor (fld w 21 6) (fld w 15 6) (fld w 9 6) (bit w 1))
  | 5 => .ok (.sxor (fld w 21 6) (fld w 15 6) (fld w 9 6) (bit w 1))
  | 6 => .ok (.sshl (fld w 21 6) (fld w 15 6) (fld w 9 6) (bit w 1))
  | 7 => .ok (.sshr (fld w 21 6) (fld w 15 6) (fld w 9 6) (bit w 1))
  | 8 => .ok (.ssar (fld w 21 6) (fld w 15 6) (fld w 9 6) (bit w 1))
  | 9 => need (zeros w 21 6) (.smov (fld w 15 6) (fld w 9 6) (bit w 1))
  | 10 => .ok (.ssel (fld w 21 6) (fld w 15 6) (fld w 9 6) (bit w 1))
  | 11 => .ok (.scmp .eq (fld w 21 6) (fld w 15 6) (fld w 9 6) (bit w 1))
  | 12 => .ok (.scmp .ne (fld w 21 6) (fld w 15 6) (fld w 9 6) (bit w 1))
  | 13 => .ok (.scmp .lt (fld w 21 6) (fld w 15 6) (fld w 9 6) (bit w 1))
  | 14 => .ok (.scmp .le (fld w 21 6) (fld w 15 6) (fld w 9 6) (bit w 1))
  | 15 => .ok (.scmp .ltu (fld w 21 6) (fld w 15 6) (fld w 9 6) (bit w 1))
  | 16 => .ok (.scmp .leu (fld w 21 6) (fld w 15 6) (fld w 9 6) (bit w 1))
  | _ => .bad .reserved

/-- PLOP, row 0x56 (R127, R354). -/
def dPlop (w : Nat) : Decoded :=
  match w / 2 ^ 27 % 32 with
  | 0 => need (zeros w 24 3 && zeros w 18 3 && zeros w 12 3) (.plop .and (fld w 21 3) (fld w 15 3) (fld w 9 3) (bit w 1))
  | 1 => need (zeros w 24 3 && zeros w 18 3 && zeros w 12 3) (.plop .or (fld w 21 3) (fld w 15 3) (fld w 9 3) (bit w 1))
  | 2 => need (zeros w 24 3 && zeros w 18 3 && zeros w 12 3) (.plop .xor (fld w 21 3) (fld w 15 3) (fld w 9 3) (bit w 1))
  | 3 => need (zeros w 24 3 && zeros w 18 3 && zeros w 12 3) (.plop .andn (fld w 21 3) (fld w 15 3) (fld w 9 3) (bit w 1))
  | 4 => need (zeros w 24 3 && zeros w 18 3 && zeros w 12 3) (.plop .orn (fld w 21 3) (fld w 15 3) (fld w 9 3) (bit w 1))
  | 5 => need (zeros w 24 3 && zeros w 18 3 && zeros w 12 3) (.plop .not (fld w 21 3) (fld w 15 3) (fld w 9 3) (bit w 1))
  | 6 => need (zeros w 24 3 && zeros w 18 3 && zeros w 12 3) (.plop .mov (fld w 21 3) (fld w 15 3) (fld w 9 3) (bit w 1))
  | 7 => need (zeros w 21 6 && zeros w 12 3) (.plopFroms (fld w 15 6) (fld w 9 3) (bit w 1))
  | 8 => need (zeros w 18 9) (.plopTos (fld w 15 3) (fld w 9 6) (bit w 1))
  | _ => .bad .reserved

/-- Opcode row 0x00 of R119, by column. -/
def dRow00 (c w : Nat) (x : Option Nat) : Decoded :=
  match c with
  | 0 => .ok (.fadd (dA3 w (dPfx x)))
  | 1 => .ok (.fsub (dA3 w (dPfx x)))
  | 2 => .ok (.fmul (dA3 w (dPfx x)))
  | 3 => .ok (.ffma (dA3 w (dPfx x)))
  | 4 => .ok (.fmin (dA3 w (dPfx x)))
  | 5 => .ok (.fmax (dA3 w (dPfx x)))
  | 6 => .ok (.fscale (dA3 w (dPfx x)))
  | _ => .ok (.fcmp (fld w 14 4) (fld w 11 3) (dC3 w (dPfx x)))

/-- Opcode row 0x08 of R119, by column. -/
def dRow08 (c w : Nat) (x : Option Nat) : Decoded :=
  match c with
  | 0 => .ok (.faddF64 (dA3 w (dPfx x)))
  | 1 => .ok (.fsubF64 (dA3 w (dPfx x)))
  | 2 => .ok (.fmulF64 (dA3 w (dPfx x)))
  | 3 => .ok (.ffmaF64 (dA3 w (dPfx x)))
  | 4 => dFun w (dPfx x)
  | 5 => need (zeros w 10 1 && zeros w 25 2) (.itof (fld w 29 3) (fld w 27 2) (dAF w (dPfx x)))
  | 6 => dFcvt w (dPfx x)
  | _ => dIun w (dPfx x)

/-- Opcode row 0x10 of R119, by column. -/
def dRow10 (c w : Nat) (x : Option Nat) : Decoded :=
  match c with
  | 0 => .ok (.iadd (dA3 w (dPfx x)))
  | 1 => .ok (.isub (dA3 w (dPfx x)))
  | 2 => .ok (.imul (dA3 w (dPfx x)))
  | 3 => .ok (.imulh (dA3 w (dPfx x)))
  | 4 => .ok (.imad (dA3 w (dPfx x)))
  | 5 => .ok (.imin (dA3 w (dPfx x)))
  | 6 => .ok (.imax (dA3 w (dPfx x)))
  | _ => .ok (.icmp (fld w 14 4) (fld w 11 3) (dC3 w (dPfx x)))

/-- Opcode row 0x18 of R119, by column. -/
def dRow18 (c w : Nat) (x : Option Nat) : Decoded :=
  match c with
  | 0 => .ok (.iadds (dA3 w (dPfx x)))
  | 1 => .ok (.isubs (dA3 w (dPfx x)))
  | 2 => .ok (.idot2 (dA3 w (dPfx x)))
  | 3 => .ok (.ishrr (dA3 w (dPfx x)))
  | 4 => .ok (.pks (dA3 w (dPfx x)))
  | 5 => .ok (.sel (dA3 w (dPfx x)))
  | 6 => .ok (.prmt (dA3 w (dPfx x)))
  | _ => .ok (.bfx (dA3 w (dPfx x)))

/-- Opcode row 0x20 of R119, by column. -/
def dRow20 (c w : Nat) (x : Option Nat) : Decoded :=
  match c with
  | 0 => .ok (.bfi (dA3 w (dPfx x)))
  | 1 => .ok (.and (dA3 w (dPfx x)))
  | 2 => .ok (.or (dA3 w (dPfx x)))
  | 3 => .ok (.xor (dA3 w (dPfx x)))
  | 4 => .ok (.shl (dA3 w (dPfx x)))
  | 5 => .ok (.shr (dA3 w (dPfx x)))
  | 6 => .ok (.sar (dA3 w (dPfx x)))
  | _ => .ok (.icmpI (fld w 12 4) (fld w 9 3) (dCI w (dPfx x)))

/-- Opcode row 0x28 of R119, by column. -/
def dRow28 (c w : Nat) (x : Option Nat) : Decoded :=
  match c with
  | 0 => .ok (.iaddI (dIF w (dPfx x)))
  | 1 => .ok (.imulI (dIF w (dPfx x)))
  | 2 => .ok (.andI (dIF w (dPfx x)))
  | 3 => .ok (.orI (dIF w (dPfx x)))
  | 4 => .ok (.xorI (dIF w (dPfx x)))
  | 5 => .ok (.shlI (dIF w (dPfx x)))
  | 6 => .ok (.shrI (dIF w (dPfx x)))
  | _ => .ok (.sarI (dIF w (dPfx x)))

/-- Opcode row 0x30 of R119, by column. -/
def dRow30 (c w : Nat) (x : Option Nat) : Decoded :=
  match c with
  | 0 => .ok (.ldG (dMF w x))
  | 1 => .ok (.ldS (dMF w x))
  | 2 => .ok (.ldC (dMF w x))
  | 3 => .ok (.ldP (dMF w x))
  | 4 => .ok (.ldH (dMF w x))
  | 5 => .ok (.ldF (dMF w x))
  | 6 => .ok (.stG (dMF w x))
  | _ => .ok (.stS (dMF w x))

/-- Opcode row 0x38 of R119, by column. -/
def dRow38 (c w : Nat) (x : Option Nat) : Decoded :=
  match c with
  | 0 => .ok (.stC (dMF w x))
  | 1 => .ok (.stP (dMF w x))
  | 2 => .ok (.stH (dMF w x))
  | 3 => .ok (.stF (dMF w x))
  | 4 => dAmo .g w x
  | 5 => dAmo .s w x
  | 6 => dAmo .c w x
  | _ => dAmo .p w x

/-- Opcode row 0x40 of R119, by column. -/
def dRow40 (c w : Nat) (x : Option Nat) : Decoded :=
  match c with
  | 0 => dAmo .h w x
  | 1 => dAmo .f w x
  | 2 => need (zeros w 9 7 && zeros w 31 1) (.pref (fld w 29 2) (dAddr w x))
  | 3 => need (zeros w 13 3 && zeros w 29 3) (.cmo (fld w 11 2) (fld w 9 2) (dAddr w x))
  | 4 => need (zeros w 9 18) (.fence (fld w 30 2) (fld w 27 3) (bit w 1))
  | 5 => dQx w (dPfx x)
  | 6 => .ok (.shfl (dA3 w (dPfx x)))
  | _ => dSlide w (dPfx x)

/-- Opcode row 0x48 of R119, by column. -/
def dRow48 (c w : Nat) (x : Option Nat) : Decoded :=
  match c with
  | 0 => need (zeros w 10 1 && zeros w 26 6) (.match (bit w 25) (dAF w (dPfx x)))
  | 1 => need (zeros w 10 1) (.redux (fld w 28 4) (fld w 25 3) (dAF w (dPfx x)))
  | 2 => dVote w
  | 3 => dReadln w (dPfx x)
  | 4 => dWriteln w (dPfx x)
  | 5 => .ok (.reservedMajorOpcode (BitVec.ofNat 32 w))
  | 6 => .ok (.reservedMajorOpcode (BitVec.ofNat 32 w))
  | _ => .ok (.reservedMajorOpcode (BitVec.ofNat 32 w))

/-- Opcode row 0x50 of R119, by column. -/
def dRow50 (c w : Nat) (x : Option Nat) : Decoded :=
  match c with
  | 0 => dSalu w
  | 1 => if bit w 15 then .ok (.sliSh (fld w 16 16) (fld w 9 6) (bit w 1)) else .ok (.sli (fld w 16 16) (fld w 9 6) (bit w 1))
  | 2 => .ok (.sld (fld w 29 3) (fld w 27 2) (fld w 21 6) (fld w 15 6) (fld w 9 6) (bit w 1))
  | 3 => .ok (.sst (fld w 29 3) (fld w 27 2) (fld w 21 6) (fld w 15 6) (fld w 9 6) (bit w 1))
  | 4 => need (zeros w 21 11) (.sread (fld w 15 6) (fld w 9 6) (bit w 1))
  | 5 => need (zeros w 21 11) (.swrite (fld w 15 6) (fld w 9 6) (bit w 1))
  | 6 => dPlop w
  | _ => .ok (.fdiv (dA3 w (dPfx x)))

/-- Opcode row 0x58 of R119, by column. -/
def dRow58 (c w : Nat) (x : Option Nat) : Decoded :=
  match c with
  | 0 => dXsf w (dPfx x)
  | 1 => .ok (.braCond (fld w 13 19) (bit w 12) (fld w 9 3) (bit w 1))
  | 2 => need (zeros w 9 4) (.bra (fld w 13 19) (bit w 1))
  | 3 => .ok (.brv (fld w 13 19) (bit w 12) (fld w 9 3) (bit w 1))
  | 4 => need (zeros w 9 4) (.call (fld w 13 19) (bit w 1))
  | 5 => match w / 2 ^ 27 % 32 with
    | 0 => need (zeros w 21 6 && zeros w 9 6) (.braReg (fld w 15 6) (bit w 1))
    | 1 => need (zeros w 21 6 && zeros w 9 6) (.callReg (fld w 15 6) (bit w 1))
    | _ => .bad .reserved
  | 6 => need (zeros w 9 23) (.ret (bit w 1))
  | _ => match w / 2 ^ 27 % 32 with
    | 0 => need (zeros w 9 18) (.regangWait (bit w 1))
    | 1 => need (zeros w 9 18) (.regangTry (bit w 1))
    | _ => .bad .reserved

/-- Opcode row 0x60 of R119, by column. -/
def dRow60 (c w : Nat) : Decoded :=
  match c with
  | 0 => need (zeros w 9 23) (.region (bit w 1))
  | 1 => need (zeros w 9 23) (.exit (bit w 1))
  | 2 => need (zeros w 9 23) (.nop (bit w 1))
  | 3 => need (zeros w 28 4 && zeros w 12 3) (.wait (bit w 27) (fld w 21 6) (fld w 15 6) (fld w 9 3) (bit w 1))
  | 4 => need (zeros w 19 13) (.bar (fld w 15 4) (fld w 9 6) (bit w 1))
  | 5 => need (zeros w 19 13) (.cbar (fld w 15 4) (fld w 9 6) (bit w 1))
  | 6 => need (zeros w 27 1) (.copy (fld w 30 2) (fld w 28 2) (fld w 21 6) (fld w 15 6) (fld w 9 6) (bit w 1))
  | _ => need (zeros w 27 5 && zeros w 9 6) (.binit (fld w 21 6) (fld w 15 6) (bit w 1))

/-- Opcode row 0x68 of R119, by column. -/
def dRow68 (c w : Nat) : Decoded :=
  match c with
  | 0 => need (zeros w 21 11 && zeros w 9 6) (.bwait (fld w 15 6) (bit w 1))
  | 1 => need (zeros w 27 2 && zeros w 9 6) (.mldw (fld w 29 3) (fld w 21 6) (fld w 15 6) (bit w 1))
  | 2 => need (zeros w 9 23) (.mswap (bit w 1))
  | 3 => need (zeros w 27 2 && zeros w 12 3) (.mma (fld w 29 3) (fld w 21 6) (fld w 15 6) (fld w 9 3) (bit w 1))
  | 4 => need (zeros w 9 23) (.mfence (bit w 1))
  | 5 => need (zeros w 13 19) (.mwait (bit w 12) (fld w 9 3) (bit w 1))
  | 6 => need (zeros w 27 3 && zeros w 12 3) (.mdrain (fld w 30 2) (fld w 21 6) (fld w 15 6) (fld w 9 3) (bit w 1))
  | _ => need (zeros w 12 20) (.mzero (fld w 9 3) (bit w 1))

/-- Opcode row 0x70 of R119, by column. -/
def dRow70 (c w : Nat) : Decoded :=
  match c with
  | 0 => need (zeros w 21 11 && zeros w 9 6) (.trap (fld w 15 6) (bit w 1))
  | 1 => need (zeros w 9 23) (.rett (bit w 1))
  | 2 => need (zeros w 21 11 && zeros w 9 6) (.bkpt (fld w 15 6) (bit w 1))
  | 3 => need (zeros w 21 6 && zeros w 9 6) (.trace (fld w 27 5) (fld w 15 6) (bit w 1))
  | 4 => need (zeros w 21 11) (.ctrrd (fld w 15 6) (fld w 9 6) (bit w 1))
  | 5 => need (zeros w 12 20) (.progress (fld w 9 3) (bit w 1))
  | 6 => need (zeros w 9 23) (.yield (bit w 1))
  | _ => need (zeros w 21 11 && zeros w 9 6) (.lease (fld w 15 6) (bit w 1))

/-- Opcode row 0x78 of R119, by column. -/
def dRow78 (c w : Nat) : Decoded :=
  match c with
  | 0 => need (zeros w 21 11 && zeros w 9 6) (.sigchk (fld w 15 6) (bit w 1))
  | 1 => need (zeros w 31 1 && zeros w 9 6) (.cmoRange (fld w 29 2) (fld w 27 2) (fld w 21 6) (fld w 15 6) (bit w 1))
  | 2 => .ok (.reservedMajorOpcode (BitVec.ofNat 32 w))
  | 3 => .ok (.reservedMajorOpcode (BitVec.ofNat 32 w))
  | 4 => .ok (.reservedMajorOpcode (BitVec.ofNat 32 w))
  | 5 => .ok (.reservedMajorOpcode (BitVec.ofNat 32 w))
  | 6 => .ok (.illegal (fld w 9 23) (bit w 1))
  | _ => .ok (.xpPrefix (BitVec.ofNat 32 w))

/-- A 32-bit word by its major opcode (R119), with the XP word before it. -/
def dWord (w : Nat) (x : Option Nat) : Decoded :=
  match majorOf w / 8 with
  | 0 => dRow00 (majorOf w % 8) w x
  | 1 => dRow08 (majorOf w % 8) w x
  | 2 => dRow10 (majorOf w % 8) w x
  | 3 => dRow18 (majorOf w % 8) w x
  | 4 => dRow20 (majorOf w % 8) w x
  | 5 => dRow28 (majorOf w % 8) w x
  | 6 => dRow30 (majorOf w % 8) w x
  | 7 => dRow38 (majorOf w % 8) w x
  | 8 => dRow40 (majorOf w % 8) w x
  | 9 => dRow48 (majorOf w % 8) w x
  | 10 => dRow50 (majorOf w % 8) w x
  | 11 => dRow58 (majorOf w % 8) w x
  | 12 => dRow60 (majorOf w % 8) w
  | 13 => dRow68 (majorOf w % 8) w
  | 14 => dRow70 (majorOf w % 8) w
  | _ => dRow78 (majorOf w % 8) w

/-- The rows that take a prefix (R112, R120). -/
def takesPfx (op : Nat) : Bool :=
  decide (op ≤ 0x43) || (decide (0x45 ≤ op) && decide (op ≤ 0x49)) || op == 0x4B || op == 0x4C || op == 0x57 || op == 0x58

/-- The reserved major opcodes (R131). -/
def opReserved (op : Nat) : Bool := [0x4D, 0x4E, 0x4F, 0x7A, 0x7B, 0x7C, 0x7D].contains op

/-- A 16-bit form (R110, R111). -/
def dHalf (h : Nat) : Instr :=
  if h = 0 then .illegalHalfword
  else match h / 2 % 16 with
  | 0 => .mov16 (fld h 11 5) (fld h 5 6)
  | 1 => .iadd16 (fld h 11 5) (fld h 5 6)
  | 2 => .isub16 (fld h 11 5) (fld h 5 6)
  | 3 => .imul16 (fld h 11 5) (fld h 5 6)
  | 4 => .imin16 (fld h 11 5) (fld h 5 6)
  | 5 => .imax16 (fld h 11 5) (fld h 5 6)
  | 6 => .and16 (fld h 11 5) (fld h 5 6)
  | 7 => .or16 (fld h 11 5) (fld h 5 6)
  | 8 => .xor16 (fld h 11 5) (fld h 5 6)
  | 9 => .shl16 (fld h 11 5) (fld h 5 6)
  | 10 => .shr16 (fld h 11 5) (fld h 5 6)
  | 11 => .sar16 (fld h 11 5) (fld h 5 6)
  | 12 => .fadd16 (fld h 11 5) (fld h 5 6)
  | 13 => .fsub16 (fld h 11 5) (fld h 5 6)
  | 14 => .fmul16 (fld h 11 5) (fld h 5 6)
  | _ => .fmax16 (fld h 11 5) (fld h 5 6)

/-- A decoded instruction stands only if every code in it is listed (R109). -/
def Decoded.checked : Decoded → Decoded
  | .ok i => if i.wf then .ok i else .bad .reserved
  | .bad k => .bad k

/-- Decode the words of one instruction. The misuses of a prefix (R112) give the XP row, which raises ILLEGAL; a prefix
before a reserved opcode is RESERVED, as the opcode is. -/
def decode : Frame → Decoded
  | .half h => (Decoded.ok (dHalf h)).checked
  | .word w => (dWord w none).checked
  | .pair x w =>
    if bit x 1 || !bit w 0 then .ok (.xpPrefix (BitVec.ofNat 32 x))
    else if opReserved (majorOf w) then .bad .reserved
    else if takesPfx (majorOf w) then (dWord w (some x)).checked
    else .ok (.xpPrefix (BitVec.ofNat 32 x))

/-- A halfword from two bytes, low byte first (R9). -/
def half2 (a b : Nat) : Nat := a + 256 * b

/-- How many bytes a fetch takes: 2, 4, or 8 after an XP word; 6 when a 16-bit form follows it (R106, R112). -/
def frame (h0 h1 h2 h3 : Nat) : Frame :=
  if h0 % 2 = 0 then .half h0
  else if majorOf h0 = 0x7F then
    (if h2 % 2 = 0 then .pair (h0 + 65536 * h1) h2 else .pair (h0 + 65536 * h1) (h2 + 65536 * h3))
  else .word (h0 + 65536 * h1)

/-- The length of an instruction in bytes. -/
def Frame.len : Frame → Nat
  | .half _ => 2
  | .word _ => 4
  | .pair _ _ => 8

/-- The words of an instruction as a signature sees them (R267). -/
def Frame.hash : Frame → Nat
  | .half h => h
  | .word w => w
  | .pair x w => x ^^^ w

/-- The instruction whose table bits are `w`: its halfwords in order, decoded as fetched. -/
def decodeTableWord (nbits w : Nat) : Option Instr :=
  match decode (frame (w % 2 ^ nbits % 65536) (w % 2 ^ nbits / 65536 % 65536) (w % 2 ^ nbits / 2 ^ 32 % 65536)
    (w % 2 ^ nbits / 2 ^ 48 % 65536)) with
  | .ok i => some i
  | .bad _ => none

/-- The XO word (R113). -/
def eXO (x : XO) : Nat :=
  x.ty.toNat * 2 ^ 28 + x.pe.toNat * 2 ^ 27 + x.pg.toNat * 2 ^ 24 + x.pn.toNat * 2 ^ 23 + x.smod.toNat * 2 ^ 21
  + x.roe.toNat * 2 ^ 20 + x.rnd.toNat * 2 ^ 18 + x.sat.toNat * 2 ^ 17 + x.dc.toNat * 2 ^ 16 + x.srcc.toNat * 2 ^ 9 + 0x1FD

/-- The XI word (R113). -/
def eXI (x : XI) : Nat :=
  2 ^ 31 + x.ty.toNat * 2 ^ 28 + x.pe.toNat * 2 ^ 27 + x.pg.toNat * 2 ^ 24 + x.pn.toNat * 2 ^ 23 + x.imm14.toNat * 2 ^ 9
  + 0x1FD

/-- The XM word (R117). -/
def eXM (x : XM) : Nat :=
  x.ord.toNat * 2 ^ 30 + x.scope.toNat * 2 ^ 27 + x.hint.toNat * 2 ^ 25 + x.pe.toNat * 2 ^ 24 + x.pg.toNat * 2 ^ 21
  + x.pn.toNat * 2 ^ 20 + x.ow.toNat * 2 ^ 19 + x.low.toNat * 2 ^ 9 + 0x1FD

/-- A word behind its prefix, if any. -/
def ePfx (w : Nat) : Pfx → Frame
  | .none => .word w
  | .xo x => .pair (eXO x) w
  | .xi x => .pair (eXI x) w

/-- A word behind its XM word, if any. -/
def eXm (w : Nat) : Option XM → Frame
  | none => .word w
  | some x => .pair (eXM x) w

/-- A3 format (R108). -/
def eA3 (op : Nat) (o : A3) : Frame :=
  ePfx (o.b.toNat * 2 ^ 25 + o.a.toNat * 2 ^ 18 + o.d.toNat * 2 ^ 11 + o.db.toNat * 2 ^ 10 + o.da.toNat * 2 ^ 9 + op * 4
    + o.p.toNat * 2 + 1) o.x

/-- A3 format of a compare (R121). -/
def eC3 (op : Nat) (c : BitVec 4) (pd : BitVec 3) (o : C3) : Frame :=
  ePfx (o.b.toNat * 2 ^ 25 + o.a.toNat * 2 ^ 18 + c.toNat * 2 ^ 14 + pd.toNat * 2 ^ 11 + o.db.toNat * 2 ^ 10
    + o.da.toNat * 2 ^ 9 + op * 4 + o.p.toNat * 2 + 1) o.x

/-- AF format with its funct7 (R108). -/
def eAF (op f : Nat) (o : AF) : Frame :=
  ePfx (f * 2 ^ 25 + o.a.toNat * 2 ^ 18 + o.d.toNat * 2 ^ 11 + o.da.toNat * 2 ^ 9 + op * 4 + o.p.toNat * 2 + 1) o.x

/-- I format (R108). -/
def eIF (op : Nat) (o : IF) : Frame :=
  ePfx (o.imm.toNat * 2 ^ 23 + o.a.toNat * 2 ^ 16 + o.d.toNat * 2 ^ 9 + op * 4 + o.p.toNat * 2 + 1) o.x

/-- M format (R108). -/
def eM (op w sb off data : Nat) (p : Bool) : Nat :=
  w * 2 ^ 29 + sb * 2 ^ 23 + off * 2 ^ 16 + data * 2 ^ 9 + op * 4 + p.toNat * 2 + 1

/-- A load or store (R123). -/
def eMF (op : Nat) (o : MF) : Frame := eXm (eM op o.w.toNat o.sb.toNat o.off.toNat o.data.toNat o.p) o.x

/-- The number of a space in the order of its rows (R119). -/
def spaceCode : Space → Nat
  | .g => 0
  | .s => 1
  | .c => 2
  | .p => 3
  | .h => 4
  | .f => 5

/-- An atomic (R117, R125). -/
def eAMO (sp : Space) (aop : Nat) (o : AMO) : Frame :=
  .pair (o.ord.toNat * 2 ^ 30 + o.scope.toNat * 2 ^ 27 + o.hint.toNat * 2 ^ 25 + o.pe.toNat * 2 ^ 24 + o.pg.toNat * 2 ^ 21
      + o.pn.toNat * 2 ^ 20 + o.ow.toNat * 2 ^ 19 + aop * 2 ^ 15 + o.log.toNat * 2 ^ 14 + o.imm.toNat * 2 ^ 9 + 0x1FD)
    (eM (0x3C + spaceCode sp) o.w.toNat o.sb.toNat o.off.toNat o.data.toNat o.p)

/-- S format (R108). -/
def eS (op f sb sa sd : Nat) (p : Bool) : Frame :=
  .word (f * 2 ^ 27 + sb * 2 ^ 21 + sa * 2 ^ 15 + sd * 2 ^ 9 + op * 4 + p.toNat * 2 + 1)

/-- B format (R108). -/
def eB (op : Nat) (disp : BitVec 19) (n : Bool) (pr : BitVec 3) (p : Bool) : Frame :=
  .word (disp.toNat * 2 ^ 13 + n.toNat * 2 ^ 12 + pr.toNat * 2 ^ 9 + op * 4 + p.toNat * 2 + 1)

/-- A lane row with the lane in srcB (R124). -/
def eLn (op b a d : Nat) (db da p : Bool) (x : Pfx) : Frame :=
  ePfx (b * 2 ^ 25 + a * 2 ^ 18 + d * 2 ^ 11 + db.toNat * 2 ^ 10 + da.toNat * 2 ^ 9 + op * 4 + p.toNat * 2 + 1) x

/-- SLIDE (R124). -/
def eSlide (f : Nat) (dist : BitVec 5) (o : SlideF) : Frame :=
  ePfx (f * 2 ^ 30 + dist.toNat * 2 ^ 23 + o.a.toNat * 2 ^ 16 + o.d.toNat * 2 ^ 9 + 0x47 * 4 + o.p.toNat * 2 + 1) o.x

/-- A 16-bit form (R110). -/
def eHalf (op : Nat) (s : BitVec 5) (d : BitVec 6) : Frame := .half (s.toNat * 2 ^ 11 + d.toNat * 2 ^ 5 + op * 2)

/-- funct7 of FTOI's target (R122). -/
def itCode : IntFmt → Nat
  | .s32 => 3
  | .n32 => 4
  | .s64 => 5
  | .n64 => 6

/-- funct5 of SCMP (R127). -/
def scmpCode : ScmpCond → Nat
  | .eq => 11
  | .ne => 12
  | .lt => 13
  | .le => 14
  | .ltu => 15
  | .leu => 16

/-- funct5 of PLOP (R127). -/
def plopCode : PlopOp → Nat
  | .and => 0
  | .or => 1
  | .xor => 2
  | .andn => 3
  | .orn => 4
  | .not => 5
  | .mov => 6

/-- The words of an instruction. A step of the device has none. -/
def encode : Instr → Option Frame
  | .fadd o => some (eA3 0 o)
  | .fsub o => some (eA3 1 o)
  | .fmul o => some (eA3 2 o)
  | .ffma o => some (eA3 3 o)
  | .fmin o => some (eA3 4 o)
  | .fmax o => some (eA3 5 o)
  | .fscale o => some (eA3 6 o)
  | .fcmp c pd o => some (eC3 0x07 c pd o)
  | .faddF64 o => some (eA3 8 o)
  | .fsubF64 o => some (eA3 9 o)
  | .fmulF64 o => some (eA3 10 o)
  | .ffmaF64 o => some (eA3 11 o)
  | .frnd ft rc o => some (eAF 0x0C (ft.toNat * 4 + rc.toNat) o)
  | .fclass ft o => some (eAF 0x0C (1 * 16 + ft.toNat * 4) o)
  | .digits ft o => some (eAF 0x0C (2 * 16 + ft.toNat * 4) o)
  | .ftoi it f64 rc o => some (eAF 0x0C (itCode it * 16 + f64.toNat * 4 + rc.toNat) o)
  | .itof it ft o => some (eAF 0x0D (it.toNat * 16 + ft.toNat * 4) o)
  | .fcvt d s h o => some (eAF 0x0E (d.toNat * 16 + s.toNat * 2 + h.toNat) o)
  | .fcvtToXs s o => some (eAF 0x0E (6 * 16 + s.toNat * 2) o)
  | .fcvtFromXs d o => some (eAF 0x0E (d.toNat * 16 + 6 * 2) o)
  | .mov ty o => some (eAF 0x0F (0 * 8 + ty.toNat) o)
  | .not ty o => some (eAF 0x0F (1 * 8 + ty.toNat) o)
  | .iabs ty o => some (eAF 0x0F (2 * 8 + ty.toNat) o)
  | .popc ty o => some (eAF 0x0F (3 * 8 + ty.toNat) o)
  | .clz ty o => some (eAF 0x0F (4 * 8 + ty.toNat) o)
  | .brev ty o => some (eAF 0x0F (5 * 8 + ty.toNat) o)
  | .iadd o => some (eA3 0x10 o)
  | .isub o => some (eA3 0x11 o)
  | .imul o => some (eA3 0x12 o)
  | .imulh o => some (eA3 0x13 o)
  | .imad o => some (eA3 0x14 o)
  | .imin o => some (eA3 0x15 o)
  | .imax o => some (eA3 0x16 o)
  | .icmp c pd o => some (eC3 0x17 c pd o)
  | .iadds o => some (eA3 0x18 o)
  | .isubs o => some (eA3 0x19 o)
  | .idot2 o => some (eA3 0x1A o)
  | .ishrr o => some (eA3 0x1B o)
  | .pks o => some (eA3 0x1C o)
  | .sel o => some (eA3 0x1D o)
  | .prmt o => some (eA3 0x1E o)
  | .bfx o => some (eA3 0x1F o)
  | .bfi o => some (eA3 0x20 o)
  | .and o => some (eA3 0x21 o)
  | .or o => some (eA3 0x22 o)
  | .xor o => some (eA3 0x23 o)
  | .shl o => some (eA3 0x24 o)
  | .shr o => some (eA3 0x25 o)
  | .sar o => some (eA3 0x26 o)
  | .icmpI c pd o => some (ePfx (o.imm.toNat * 2 ^ 23 + o.a.toNat * 2 ^ 16 + c.toNat * 2 ^ 12 + pd.toNat * 2 ^ 9 + 0x27 * 4 + o.p.toNat * 2 + 1) o.x)
  | .iaddI o => some (eIF 0x28 o)
  | .imulI o => some (eIF 0x29 o)
  | .andI o => some (eIF 0x2A o)
  | .orI o => some (eIF 0x2B o)
  | .xorI o => some (eIF 0x2C o)
  | .shlI o => some (eIF 0x2D o)
  | .shrI o => some (eIF 0x2E o)
  | .sarI o => some (eIF 0x2F o)
  | .mov16 s d => some (eHalf 0 s d)
  | .iadd16 s d => some (eHalf 1 s d)
  | .isub16 s d => some (eHalf 2 s d)
  | .imul16 s d => some (eHalf 3 s d)
  | .imin16 s d => some (eHalf 4 s d)
  | .imax16 s d => some (eHalf 5 s d)
  | .and16 s d => some (eHalf 6 s d)
  | .or16 s d => some (eHalf 7 s d)
  | .xor16 s d => some (eHalf 8 s d)
  | .shl16 s d => some (eHalf 9 s d)
  | .shr16 s d => some (eHalf 10 s d)
  | .sar16 s d => some (eHalf 11 s d)
  | .fadd16 s d => some (eHalf 12 s d)
  | .fsub16 s d => some (eHalf 13 s d)
  | .fmul16 s d => some (eHalf 14 s d)
  | .fmax16 s d => some (eHalf 15 s d)
  | .illegalHalfword => some (.half 0)
  | .illegal n p => some (.word (n.toNat * 2 ^ 9 + 0x7E * 4 + p.toNat * 2 + 1))
  | .ldG o => some (eMF 0x30 o)
  | .ldS o => some (eMF 0x31 o)
  | .ldC o => some (eMF 0x32 o)
  | .ldP o => some (eMF 0x33 o)
  | .ldH o => some (eMF 0x34 o)
  | .ldF o => some (eMF 0x35 o)
  | .stG o => some (eMF 0x36 o)
  | .stS o => some (eMF 0x37 o)
  | .stC o => some (eMF 0x38 o)
  | .stP o => some (eMF 0x39 o)
  | .stH o => some (eMF 0x3A o)
  | .stF o => some (eMF 0x3B o)
  | .atomAdd sp o => some (eAMO sp 0 o)
  | .atomMin sp o => some (eAMO sp 1 o)
  | .atomMinu sp o => some (eAMO sp 2 o)
  | .atomMax sp o => some (eAMO sp 3 o)
  | .atomMaxu sp o => some (eAMO sp 4 o)
  | .atomMaxe sp o => some (eAMO sp 5 o)
  | .atomAnd sp o => some (eAMO sp 6 o)
  | .atomOr sp o => some (eAMO sp 7 o)
  | .atomXor sp o => some (eAMO sp 8 o)
  | .atomXchg sp o => some (eAMO sp 9 o)
  | .atomFadd sp o => some (eAMO sp 10 o)
  | .atomFmax sp o => some (eAMO sp 11 o)
  | .acas sp o => some (eAMO sp 12 o)
  | .xsadd sp o => some (eAMO sp 13 o)
  | .pref level o => some (eXm (eM 0x42 level.toNat o.sb.toNat o.off.toNat 0 o.p) o.x)
  | .cmo level op o => some (eXm (eM 0x43 0 o.sb.toNat o.off.toNat (level.toNat * 4 + op.toNat) o.p) o.x)
  | .cmoRange level op sb sa p => some (eS 0x79 (level.toNat * 4 + op.toNat) sb.toNat sa.toNat 0 p)
  | .fence kind scope p => some (.word (kind.toNat * 2 ^ 30 + scope.toNat * 2 ^ 27 + 0x44 * 4 + p.toNat * 2 + 1))
  | .qswap w k o => some (eAF 0x45 (w.toNat * 16 + k.toNat) o)
  | .qbcast w k o => some (eAF 0x45 (32 + w.toNat * 16 + k.toNat) o)
  | .shfl o => some (eA3 0x46 o)
  | .slideDown dist o => some (eSlide 0 dist o)
  | .slideUp dist o => some (eSlide 2 dist o)
  | .slideFill up dist _ o => some (eSlide (up.toNat * 2 + 1) dist o)
  | .match w o => some (eAF 0x48 w.toNat o)
  | .redux op ty o => some (eAF 0x49 (op.toNat * 8 + ty.toNat) o)
  | .voteAny ps pd p => some (eS 0x4A 0 0 ps.toNat pd.toNat p)
  | .voteAll ps pd p => some (eS 0x4A 1 0 ps.toNat pd.toNat p)
  | .voteBal ps sd p => some (eS 0x4A 2 0 ps.toNat sd.toNat p)
  | .elect pd p => some (eS 0x4A 3 0 0 pd.toNat p)
  | .readlnImm lane a sd da p x => some (eLn 0x4B lane.toNat a.toNat sd.toNat true da p x)
  | .readlnScalar sl a sd da p x => some (eLn 0x4B sl.toNat a.toNat sd.toNat false da p x)
  | .writelnImm lane sa d p x => some (eLn 0x4C lane.toNat sa.toNat d.toNat true false p x)
  | .writelnScalar sl sa d p x => some (eLn 0x4C sl.toNat sa.toNat d.toNat false false p x)
  | .sadd sb sa sd p => some (eS 0x50 0 sb.toNat sa.toNat sd.toNat p)
  | .ssub sb sa sd p => some (eS 0x50 1 sb.toNat sa.toNat sd.toNat p)
  | .smul sb sa sd p => some (eS 0x50 2 sb.toNat sa.toNat sd.toNat p)
  | .sand sb sa sd p => some (eS 0x50 3 sb.toNat sa.toNat sd.toNat p)
  | .sor sb sa sd p => some (eS 0x50 4 sb.toNat sa.toNat sd.toNat p)
  | .sxor sb sa sd p => some (eS 0x50 5 sb.toNat sa.toNat sd.toNat p)
  | .sshl sb sa sd p => some (eS 0x50 6 sb.toNat sa.toNat sd.toNat p)
  | .sshr sb sa sd p => some (eS 0x50 7 sb.toNat sa.toNat sd.toNat p)
  | .ssar sb sa sd p => some (eS 0x50 8 sb.toNat sa.toNat sd.toNat p)
  | .smov sa sd p => some (eS 0x50 9 0 sa.toNat sd.toNat p)
  | .ssel sb sa sd p => some (eS 0x50 10 sb.toNat sa.toNat sd.toNat p)
  | .scmp c sb sa sd p => some (eS 0x50 (scmpCode c) sb.toNat sa.toNat sd.toNat p)
  | .sli imm sd p => some (.word (imm.toNat * 2 ^ 16 + sd.toNat * 2 ^ 9 + 0x51 * 4 + p.toNat * 2 + 1))
  | .sliSh imm sd p => some (.word (imm.toNat * 2 ^ 16 + 2 ^ 15 + sd.toNat * 2 ^ 9 + 0x51 * 4 + p.toNat * 2 + 1))
  | .sld sz sp imm sa sd p => some (eS 0x52 (sz.toNat * 4 + sp.toNat) imm.toNat sa.toNat sd.toNat p)
  | .sst sz sp imm sa sd p => some (eS 0x53 (sz.toNat * 4 + sp.toNat) imm.toNat sa.toNat sd.toNat p)
  | .sread n sd p => some (eS 0x54 0 0 n.toNat sd.toNat p)
  | .swrite sa n p => some (eS 0x55 0 0 sa.toNat n.toNat p)
  | .plop op pb pa pd p => some (eS 0x56 (plopCode op) pb.toNat pa.toNat pd.toNat p)
  | .plopFroms sa pd p => some (eS 0x56 7 0 sa.toNat pd.toNat p)
  | .plopTos pa sd p => some (eS 0x56 8 0 pa.toNat sd.toNat p)
  | .fdiv o => some (eA3 0x57 o)
  | .frcp ft o => some (eAF 0x58 (0 * 16 + ft.toNat * 4) o)
  | .frsq ft o => some (eAF 0x58 (1 * 16 + ft.toNat * 4) o)
  | .fsqrt ft o => some (eAF 0x58 (2 * 16 + ft.toNat * 4) o)
  | .fexp2 ft o => some (eAF 0x58 (3 * 16 + ft.toNat * 4) o)
  | .flog2 ft o => some (eAF 0x58 (4 * 16 + ft.toNat * 4) o)
  | .fsinpi ft o => some (eAF 0x58 (5 * 16 + ft.toNat * 4) o)
  | .fcospi ft o => some (eAF 0x58 (6 * 16 + ft.toNat * 4) o)
  | .braCond disp n pr p => some (eB 0x59 disp n pr p)
  | .bra disp p => some (eB 0x5A disp false 0#3 p)
  | .brv disp n pr p => some (eB 0x5B disp n pr p)
  | .call disp p => some (eB 0x5C disp false 0#3 p)
  | .braReg vn p => some (eS 0x5D 0 0 vn.toNat 0 p)
  | .callReg vn p => some (eS 0x5D 1 0 vn.toNat 0 p)
  | .ret p => some (eS 0x5E 0 0 0 0 p)
  | .regangWait p => some (eS 0x5F 0 0 0 0 p)
  | .regangTry p => some (eS 0x5F 1 0 0 0 p)
  | .region p => some (eS 0x60 0 0 0 0 p)
  | .exit p => some (eS 0x61 0 0 0 0 p)
  | .nop p => some (eS 0x62 0 0 0 0 p)
  | .wait fromS imm sa path p => some (eS 0x63 fromS.toNat imm.toNat sa.toNat path.toNat p)
  | .bar id sd p => some (eS 0x64 0 0 id.toNat sd.toNat p)
  | .cbar id sd p => some (eS 0x65 0 0 id.toNat sd.toNat p)
  | .copy dir op sb sa sk p => some (eS 0x66 (dir.toNat * 8 + op.toNat * 2) sb.toNat sa.toNat sk.toNat p)
  | .binit sb sa p => some (eS 0x67 0 sb.toNat sa.toNat 0 p)
  | .bwait sa p => some (eS 0x68 0 0 sa.toNat 0 p)
  | .mldw fmt sb sa p => some (eS 0x69 (fmt.toNat * 4) sb.toNat sa.toNat 0 p)
  | .mswap p => some (eS 0x6A 0 0 0 0 p)
  | .mma fmt sb sa tile p => some (eS 0x6B (fmt.toNat * 4) sb.toNat sa.toNat tile.toNat p)
  | .mfence p => some (eS 0x6C 0 0 0 0 p)
  | .mwait all tile p => some (eS 0x6D 0 0 0 (all.toNat * 8 + tile.toNat) p)
  | .mdrain mode sb sa tile p => some (eS 0x6E (mode.toNat * 8) sb.toNat sa.toNat tile.toNat p)
  | .mzero tile p => some (eS 0x6F 0 0 0 tile.toNat p)
  | .trap code p => some (eS 0x70 0 0 code.toNat 0 p)
  | .rett p => some (eS 0x71 0 0 0 0 p)
  | .bkpt code p => some (eS 0x72 0 0 code.toNat 0 p)
  | .trace tag sa p => some (eS 0x73 tag.toNat 0 sa.toNat 0 p)
  | .ctrrd n sd p => some (eS 0x74 0 0 n.toNat sd.toNat p)
  | .progress k p => some (eS 0x75 0 0 0 k.toNat p)
  | .yield p => some (eS 0x76 0 0 0 0 p)
  | .lease sa p => some (eS 0x77 0 0 sa.toNat 0 p)
  | .sigchk sa p => some (eS 0x78 0 0 sa.toNat 0 p)
  | .reservedMajorOpcode w => some (.word w.toNat)
  | .xpPrefix w => some (.word w.toNat)
  | .jointComplete .. | .loadComplete .. | .storeAck .. | .cmoComplete .. | .loggedAtomicGrant ..
  | .replayWaitTimeout .. | .copyElementWrite .. | .qtailDoorbell .. | .takeLaunchRecord .. | .launchCompletion ..
  | .dispatchGroup .. | .admitGroup .. | .gangDeactivate .. | .gangActivate .. | .gangRotation ..
  | .footprintWindowEnd .. | .gangStarved .. | .quantumExpiry .. | .discard .. | .qpre .. | .worldSwitch ..
  | .groupHold .. | .stopRequest .. | .breakpointStop .. | .faultRecordWrite .. | .factRetry .. | .factAbandon ..
  | .factTerminate .. | .factReserved .. | .tlbInvalidate .. | .tlbInvalidateDone .. | .atsInvalidation ..
  | .priResponse .. | .bankcfgScrWrite .. | .bankSwitchDone .. | .queueReset .. | .traceSessionOpen ..
  | .traceSessionClose .. | .lanternStart .. | .counterWrap .. | .vfEnable .. | .vfDisable .. | .errorInject ..
  | .registerWrite .. | .memoryUe .. | .selfTestStart .. | .selfTestDone .. | .ringmasterLockstepMismatch ..
  | .ringmasterBootDone .. | .clockStep .. | .thermalTrip .. | .bringUp .. | .d3hotEntry .. | .d0Wake ..
  | .managementReset .. | .hostLinkDown .. | .hostLinkUp .. | .fabricPortDown .. | .fabricPortUp .. | .flitReceive ..
  | .cxlMemRead .. | .cxlMemWrite .. | .attestationRequest .. | .uncorrectableRegisterError .. | .d3coldEntry ..
  | .atsTranslationResponse .. => none

/-- The rows that have words: instructions, as against steps of the device. -/
def Instr.isInstruction (i : Instr) : Bool := (encode i).isSome

/-- The length of an instruction in bytes; 0 for a step of the device. -/
def Instr.len (i : Instr) : Nat := match encode i with | some f => f.len | none => 0

/-- H of an instruction (R267); 0 for a step of the device. -/
def Instr.hash (i : Instr) : BitVec 32 := match encode i with | some f => BitVec.ofNat 32 f.hash | none => 0#32

end Sys2Proof
end

