-- ==== Sys2Proof/Machine/State.lean ====
section
/-!
DEFINITION. The state of the device: everything the specification gives it, as plain data, and the reasons a step stops.
Maps are lists of (key, value) pairs: `AList` for records, `Sparse` for words whose unlisted entries are zero.
-/
namespace Sys2Proof.Machine

/-- A map from keys to values, keys rising; the operations stand in Ops. -/
abbrev AList (α : Type) := List (Nat × α)

/-- Words by key. Canonical form: keys strictly rising, no zero word listed; an unlisted key reads zero. -/
abbrev Sparse (w : Nat) := List (Nat × BitVec w)

/-- Bytes by address, in the canonical form of `Sparse`. An unlisted byte reads zero: bring-up zeroes the HBM
(R296), a group's scratch reads zero at its start (R144). -/
abbrev Memory := List Host.Cell

/-- The five in-flight paths (R158). -/
inductive Path where
  | g | s | k | x | w
  deriving DecidableEq, Repr

/-- Where a byte lies: a physical address (device, host or peer, one numbering, see Ops) or a group's scratch. -/
inductive Place where
  | phys (a : Nat)
  | scr (grp : Nat) (off : Nat)
  deriving DecidableEq, Repr

/-- One word a completing operation writes to a vector register: specifier 0-119, lane, value, poison. -/
structure RegWrite where
  reg : Nat
  lane : Nat
  val : Word
  pois : Bool
  deriving DecidableEq, Repr

/-- A lane of an atomic that waits at the L2 home for its recorded turn (R227), or for a link (R286, R293). -/
structure LogLane where
  lane : Nat
  t : Nat
  icount : Nat
  va : Nat
  place : Place
  deriving DecidableEq, Repr

/-- Who writes: a gang, or an engine for one of its operations. -/
inductive Agent where
  | gang (grp gang : Nat)
  | op (id : Nat)
  deriving DecidableEq, Repr

/-- What happens before a point (R175): of each agent, what is numbered below a bound. The operations of a gang are numbered as they issue,
the writes of an engine's operation by the step. -/
abbrev Know := List (Agent × Nat)

/-- What a release publishes with the bytes that it, or a later write of its gang, writes (R175): its gang, or 32 for a group's engines,
its scope, and what happens before it. -/
structure Mark where
  grp : Nat
  gang : Nat
  scope : Nat
  know : Know
  deriving DecidableEq, Repr

/-- A gang's place in happens-before (R175, R183): what it has heard of; what happens before its MFENCEs; the marks of its releasing
fences and the operation after the last of them; the marks its completed loads and atomics have read. -/
structure History where
  heard : Know
  fenced : Know
  pubs : List Mark
  relAt : Nat
  seen : List Mark
  deriving DecidableEq, Repr

/-- What a pending atomic must still do for its waiting lanes, which wait for their turn of the log under ORDER 4, else for a link or
port: ORDER of a logged atomic, else 0, AOP, the access size, the operands per lane (what an
ACAS compares, then the operand), the destination, the scope of its acquire where it is one, since when it waits, and its
issue: acting lanes, fragment and its mask, quad-stack depth, pc, whether its addresses are virtual ones, and the marks it publishes. -/
structure LogWait where
  order : Nat
  aop : Nat
  size : Nat
  operands : List (Nat × Nat × Nat)
  lanes : List LogLane
  dst : Nat
  acq : Option Nat
  since : Nat
  act : Mask
  frag : Nat
  mask : Mask
  depth : Nat
  pc : DWord
  virt : Bool
  pub : List Mark
  deriving DecidableEq, Repr

/-- An operation counted on a path and not yet retired (R157-R159). A result is bound when the operation issues, by a load perhaps
again later, and written when it completes; a CMO keeps the physical ranges it names, and a load those that it asks peers for. `atomic` marks
those a DISCARD waits for (R162), `commit` those it does not repeat (R35, R36). `frag` is the
table entry whose pending flags take a clamp (R75), 8 where that fragment has exited; `marks` are those of the bytes it has read.
`refused`: a peer has refused it, and its fragment has taken the fault (R147). -/
structure PendOp where
  id : Nat
  path : Path
  done : Bool
  frag : Nat
  writes : List RegWrite
  sdst : Option (BitVec 6)
  sval : DWord
  spois : Bool
  satXs : Bool
  ranges : List (Nat × Nat)
  cmoLevel : Nat
  cmoOp : Nat
  isCmo : Bool
  atomic : Bool
  commit : Bool
  ports : List (BitVec 16)
  hostLink : Bool
  log : Option LogWait
  marks : List Mark
  refused : Bool
  deriving DecidableEq, Repr

/-- A layout window (R58). -/
structure Window where
  base : Nat
  size : Nat
  stride : Nat
  layout : Nat
  format : Nat
  esize : Nat
  deriving DecidableEq, Repr

/-- An element of an access: its bytes within it, its window, its planes and its digit byte, each with its address. -/
structure Elem where
  off : Nat
  len : Nat
  win : Option Window
  planes : List (Place × Nat)
  digit : Option (Place × Nat)
  deriving DecidableEq, Repr

/-- What a load in flight has read for one of its lanes at one place, within an aligned 8-byte word (R169, R173): the value with its
poison and the marks on its bytes; `got`, that it has been read at all (R286), and `late`, that it may be read again (R342). -/
structure Seen where
  lane : Nat
  place : Place
  len : Nat
  val : Nat
  pois : Bool
  marks : List Mark
  got : Bool
  late : Bool
  deriving DecidableEq, Repr

/-- A load in flight (R342): the operation, its pc and its fragment's lanes, its lanes with what they read, the acting lanes, destination
and W, the context that L1 serves it for, the size code of an SLD, and what it has read. -/
structure LateRead where
  op : Nat
  pc : DWord
  mask : Mask
  es : List (Nat × List Elem)
  triple : Bool
  act : Mask
  dst : Nat
  w : BitVec 3
  l1 : Option (BitVec 6)
  scalar : Option (BitVec 3)
  seen : List Seen
  deriving DecidableEq, Repr

/-- Counts that a fragment folded into NITCNT while other fragments of its gang stood apart (R55): the lanes whose reads hold
them, and the three counts. -/
structure NitFold where
  mask : Mask
  cancel : BitVec 16
  cmp : BitVec 16
  divz : BitVec 16
  deriving DecidableEq, Repr

/-- A register of the gang that a fragment wrote inside a split (R88, R377): the scalar's number, or 64 and a special register's selector;
the fragment's table entry, its lanes, the splits it descends from, and what it wrote. -/
structure SWrite where
  reg : Nat
  frag : Nat
  mask : Mask
  splits : List Nat
  val : DWord
  pois : Bool
  deriving DecidableEq, Repr

/-- What a gang keeps while its fragments stand apart. `nit`: the folded counters before the first fold that another fragment may
not see yet, and those folds; none while every fold is seen (R55). `swrote`: the registers written inside splits that have not
completed (R88, R377). -/
structure Book where
  nit : Option (DWord × List NitFold)
  swrote : List SWrite
  deriving DecidableEq, Repr

/-- Nothing kept. -/
def Book.empty : Book := { nit := none, swrote := [] }

/-- What one lane writes within an aligned 8-byte word of a watched range (R282), found at translation. -/
structure Spot where
  lane : Nat
  cells : List Host.Cell
  deriving DecidableEq, Repr

/-- One entry of a store buffer (R151): the bytes one store writes within one 128-byte line. `cycle` is CYCLE at its
issue on `core`, `depth` the quad-stack depth then (R284), `marks` what it publishes. -/
structure SbEntry where
  op : Nat
  core : Nat
  space : Space
  line : Place
  cells : List Host.Cell
  rel : Option (BitVec 3)
  spots : List Spot
  cycle : DWord
  depth : Nat
  pc : DWord
  mask : Mask
  frag : Nat
  ports : Option (BitVec 16)
  hostLink : Bool
  by' : Agent
  marks : List Mark
  deriving DecidableEq, Repr

/-- What stops a fragment from issuing (R231, R307, R189, R57, R56): `nitHalt` waits for the result of a special
function before the gang takes fault NIT. -/
inductive Hold where
  | run
  | bar (id : Nat) (cbar : Bool) (sd : BitVec 6)
  | rendezvous
  | fault (token : Nat) (retry : BitVec 64)
  | trapEntry (tcause : DWord)
  | nitHalt (op : Nat) (pc : DWord) (detail : Word)
  deriving DecidableEq, Repr

/-- A split-table entry (R23) with the pending counts and flags held with it (R55, R75, R238); its PAR bit is the parity
of the rest. `rhand` is INHANDLER as the region snapshot has it (R237). `bpSkip` lets the next issue pass breakpoints, `waitSkip` a stop request
(R275, R276). -/
structure Frag where
  pc : DWord
  mask : Mask
  exec : Mask
  split : Option Nat
  waiting : Bool
  rpc : DWord
  rexec : Mask
  rsig : Word
  sig : Word
  pendCancel : BitVec 16
  pendCmp : BitVec 16
  pendDivz : BitVec 16
  pendSatf : BitVec 7
  inHandler : Bool
  rhand : Bool
  hold : Hold
  stopReq : Bool
  bpSkip : Bool
  waitSkip : Bool
  deriving DecidableEq, Repr

/-- A split record (R23). `jpc` 0 means none yet; PAR is the parity of the rest. -/
structure SplitRec where
  origin : Mask
  parent : Option Nat
  jpc : DWord
  deriving DecidableEq, Repr

/-- A quad-stack entry (R25). -/
structure QEntry where
  split : Nat
  second : Bool
  pc : DWord
  notTaken : BitVec 4
  lanes : BitVec 4
  xl : BitVec 4
  deriving DecidableEq, Repr

/-- The state a quad owns (R14, R21, R25, R34). -/
structure Quad where
  icount : BitVec 48
  mode : Word
  stack : List QEntry
  ricount : BitVec 48
  rmode : Word
  deriving DecidableEq, Repr

/-- A fault that waits for the MWAIT that covers its joint instruction (R192, R198, R201, R262). -/
structure Deferred where
  joint : Nat
  cls : BitVec 8
  kind : BitVec 8
  access : BitVec 8
  addr : Nat
  deriving DecidableEq, Repr

/-- Where a gang stands with the rule of R204: an MSWAP of its set waits for an MMA or MDRAIN of the set; a region start or another MSWAP
came before that. -/
inductive SwapMark where
  | none
  | swapped
  | lost
  deriving DecidableEq, Repr

/-- A gang: its registers, fragments and work in flight (R14, R85). Register files are keyed `32 * register + lane`;
masks by register have one bit per lane. An operand-cache slot of `oc` has its poison in bit 32 (R262). `joints` lists the joint instructions it took part in and has not waited for: id,
tiles named, and XS saturation, 0 none, 1 to be delivered, 2 + n delivered in the current region of the fragment in table entry n
(R192, R200). `parkMask` is the lanes of the fragment that parked it (R99), `yielded` CYCLE at a YIELD that still holds (R386). -/
structure Gang where
  vregs : Sparse 32
  killed : Sparse 32
  dead : Sparse 32
  vpois : Sparse 32
  oc : Sparse 33
  latch : Sparse 64
  sregs : Sparse 64
  spois : DWord
  pregs : Sparse 32
  ppois : BitVec 8
  frags : AList Frag
  recs : AList SplitRec
  quads : List Quad
  startMask : Mask
  exited : Mask
  fragPtr : Nat
  nitcfg : Word
  nitcnt : DWord
  satf : Word
  gset : Word
  leaseDecl : BitVec 16
  leaseBase : Nat
  leaseE : Nat
  footprint : BitVec 512
  window : Nat
  epc : DWord
  tcause : DWord
  ops : List PendOp
  sbuf : List SbEntry
  parked : Bool
  parkMask : Mask
  halted : Bool
  ended : Bool
  partition : Nat
  slot : Nat
  granule : Nat
  active : Bool
  changedAt : Nat
  exempt : Bool
  starved : Option Nat
  yielded : Option Nat
  lantern : BitVec 16
  joints : List (Nat × Nat × Nat)
  deferred : List Deferred
  copySat : List Nat
  hist : History
  book : Book
  reads : List LateRead
  swap : SwapMark
  deriving DecidableEq, Repr

/-- A weight plane of the matrix engine (R186). Elements keyed `96 * k + n`; an unlisted scale is 1.0. -/
structure Plane where
  elems : Sparse 16
  scales : AList Word
  fmt : BitVec 3
  deriving DecidableEq, Repr

/-- The joint instructions (R189) with the values of the scalars their rows read. -/
inductive Joint where
  | mldw (fmt : BitVec 3) (sa sb : DWord)
  | mswap
  | mma (fmt : BitVec 3) (tile : BitVec 3) (sa sb : DWord)
  | mdrain (mode : BitVec 2) (tile : BitVec 3) (sa sb : DWord)
  | mzero (tile : BitVec 3)
  deriving DecidableEq, Repr

/-- A gang that waits in the rendezvous latch (R189): its instruction, its GSET and the values it read. -/
structure Waiter where
  gang : Nat
  frag : Nat
  i : Instr
  park : Bool
  gset : Word
  joint : Joint
  deriving DecidableEq, Repr

/-- An issued joint instruction not yet complete (R189, R191). `fence` is what happens before the MFENCEs of its listed gangs
(R183), `bad` that an operand is poisoned (R262). The fields from `gang` to `cycle` are those of its lowest listed gang, as
records name it. A drain keeps the tiles it copied with their chunk counts, the block exponent it read with its poison, the visit it comes
to next, and the whole chunks already written. -/
structure JointOp where
  id : Nat
  gset : Word
  joint : Joint
  fence : Know
  bad : Bool
  gang : Nat
  frag : Nat
  pc : DWord
  mask : Mask
  depth : Nat
  cycle : DWord
  started : Bool
  drained : Sparse 32
  counts : List (BitVec 48)
  exp : Option (Nat × Bool)
  next : Nat
  checked : List Nat
  token : Option Nat
  xsSat : Bool
  deriving DecidableEq, Repr

/-- What a joint instruction has read and written, until an MWAIT completes it: a write of the bytes read that is not ordered before its
fences leaves the result unpredictable (R183). `plane`: the plane an MLDW loaded, true for B; `tiles`: the tiles that hold the result, with
the elements written. -/
structure Used where
  op : Nat
  fence : Know
  reads : List (Nat × Nat)
  plane : Option Bool
  tiles : List (Nat × Nat)
  deriving DecidableEq, Repr

/-- The matrix engine of a matrix group (R186). Tile elements keyed `12288 * tile + 96 * row + column`. `loose`: which plane is active is
unpredictable after a restart (R204). -/
structure Matrix where
  tiles : Sparse 32
  chunks : List (BitVec 48)
  planeA : Plane
  planeB : Plane
  selB : Bool
  snapB : Bool
  mabft : Bool
  latch : List Waiter
  queue : List JointOp
  used : List Used
  loose : Bool
  deriving DecidableEq, Repr

/-- A fault record's fields before it is written (R242). -/
structure FRec where
  cls : BitVec 8
  kind : BitVec 8
  ctx : BitVec 6
  access : BitVec 8
  launch : DWord
  grp : Nat
  gang : Nat
  split : Nat
  qdepth : Nat
  pc : DWord
  mask : Mask
  detail : Word
  addr : DWord
  deriving DecidableEq, Repr

/-- A suspension of a group asked for or under way (R229-R234): a group HOLD or a DISCARD, at whose end its entry goes to
the head or, after a quantum, the tail of the dispatch queue; the debug record of a stop (R276); the save area reserved for it, none
while it waits for room and the group runs on (R234); the stop requests that came after it had begun, for the entry (R275). -/
structure Susp where
  hold : Bool
  tail : Bool
  debug : Option FRec
  base : Option Nat
  stops : List (Nat × Nat × Bool) := []
  deriving DecidableEq, Repr

/-- One barrier id of a group (R236): gangs arrived, phase, kind in use. -/
structure Barrier where
  arrived : Mask
  phase : Bool
  cbar : Bool
  deriving DecidableEq, Repr

/-- A resident group, or an ended one whose scratch its cluster still keeps (R145). `scrBy` is the operation
that last wrote a scratch byte, for R183; `granules` are the scratch granules it takes, 8 to a bank (R210). -/
structure Group where
  launch : Nat
  g : Nat
  core : Nat
  admitted : Nat
  since : Nat
  gangs : AList Gang
  scratch : Memory
  scrSize : Nat
  scrPois : Sparse 1
  scrBy : AList (Agent × Nat)
  barriers : List Barrier
  matrix : Matrix
  granules : List Nat
  susp : Option Susp
  ended : Bool
  deriving DecidableEq, Repr

/-- A tensor shape record (R141). -/
structure Shape where
  base : Nat
  ckaddr : Nat
  format : Nat
  planes : Nat
  dims : Nat
  edgeZero : Bool
  chunk : Nat
  exact : Bool
  tag : BitVec 16
  pstride : Nat
  ext : List Nat
  box : List Nat
  str : List Nat
  deriving DecidableEq, Repr

/-- A byte that has been overwritten since a copy issued, which the copy may read yet (R182). -/
structure OldByte where
  place : Place
  val : Byte
  pois : Bool
  deriving DecidableEq, Repr

/-- A copy accepted by a copy engine (R163-R167): `cycle` and `depth` are those of its issue (R284), `next` the box
element it comes to next, `written` the bytes counted so far, `format` that nothing is moved, `checked` the whole chunks
already moved. -/
structure CopyOp where
  id : Nat
  grp : Nat
  gang : Nat
  frag : Nat
  pc : DWord
  mask : Mask
  ctx : BitVec 6
  dir : BitVec 2
  op : BitVec 2
  shape : Shape
  origin : List Int
  far : Nat
  obj : Nat
  cycle : DWord
  depth : Nat
  next : Nat
  written : Nat
  format : Bool
  token : Option Nat
  checked : List Nat
  olds : List OldByte
  deriving DecidableEq, Repr

/-- A kernel record of a loaded object (R138, R139). -/
structure Kernel where
  triple : Bool
  regs : Nat
  gangs : Nat
  barriers : Nat
  cluster : Nat
  lease : Nat
  scratch : Nat
  entry : Nat
  layouts : List Window
  handler : Option Nat
  deriving DecidableEq, Repr

/-- A loaded object of a context (R137-R140): its handle is its key; its .text and .pool lie at virtual addresses. -/
structure Obj where
  ctx : BitVec 6
  text : Nat
  pool : Memory
  poolAt : Nat
  poolSize : Nat
  kinds : List Nat
  kernels : List Kernel
  deriving DecidableEq, Repr

/-- A launch record (R207). -/
structure LRec where
  object : Nat
  kernel : Nat
  mode : Nat
  regs : Nat
  gangs : Nat
  barriers : Nat
  bx : Nat
  b_y : Nat
  bz : Nat
  cluster : Nat
  tiles : Nat
  gx : Nat
  gy : Nat
  gz : Nat
  scratch : Nat
  seed : DWord
  args : DWord
  pbase : Nat
  psize : Nat
  lease : Nat
  order : Nat
  flags : Nat
  agelimit : Nat
  bankscr : BitVec 16
  quantum : Nat
  logbase : Nat
  logsize : Nat
  completion : Nat
  compval : DWord
  deriving DecidableEq, Repr

/-- A running launch (R206-R227). `dispatched` counts first dispatches in index order, `admitted` lists the
groups admitted, `ended` the groups that have ended. -/
structure Launch where
  fn : Nat
  queue : Nat
  recno : Nat
  ctx : BitVec 6
  r : LRec
  kern : Kernel
  text : Nat
  pool : Memory
  poolSize : Nat
  kinds : List Nat
  dispatched : List Nat
  admitted : List Nat
  ended : List Nat
  status : Nat
  stopped : Bool
  ndisp : Nat
  ngrant : Nat
  trunc : Bool
  coreSeq : AList Nat
  addrSeq : AList Nat
  consumed : List Nat
  banksDone : List Nat
  deriving DecidableEq, Repr

/-- Something of the device's own that waits for its turn: a fragment that may issue, an engine's step, a load whose link is back, a
dispatch entry that must move to a core; and a gang that has been ready without issuing (R219). -/
inductive Wanted where
  | frag (r : FragRef)
  | gang (r : GangRef)
  | engine (i : Instr)
  | read (r : GangRef) (op : Nat)
  | move (entry core : Nat)
  deriving DecidableEq, Repr

/-- What the device says over its management bus (R299): that the retirement table is full (R265), that the Ringmaster's boot has failed
(R269), an attestation report (R271). -/
inductive Report where
  | tableFull
  | bootFailed
  | attestation (nonce : DWord) (measured : List (BitVec 256)) (signature : BitVec 512)
  deriving DecidableEq, Repr

/-- What a suspended group keeps beside the bytes of its save area (R235): where it lies, what the layout of R236-R238 has
no place for, and the debug token that keeps it from resuming (R276). -/
structure Saved where
  group : Group
  base : Nat
  size : Nat
  hold : Bool
  token : Option Nat
  spoiled : Bool
  deriving DecidableEq, Repr

/-- A dispatch-queue entry: one group, or a whole cluster (R209), with the stop requests that wait for its groups: group, gang,
WHOLE (R275). -/
structure DEntry where
  launch : Nat
  groups : List Nat
  refusals : Nat
  restore : Bool
  stops : List (Nat × Nat × Bool)
  deriving DecidableEq, Repr

/-- An L1 line (R150), in one of the core's banks. `marks` are those that its copy of the bytes carries (R175). `late` lists its bytes that
an engine of the core has written in memory since: the copy of them is renewed by the next BWAIT or MWAIT that completes (R172, R182,
R183). -/
structure L1Line where
  data : List Byte
  marks : List (Place × List Mark)
  late : List Nat
  ctx : BitVec 6
  host : Bool
  slot : Nat
  bank : Nat
  deriving DecidableEq, Repr

/-- A core (R2, R148-R150, R209-R217). -/
structure Core where
  scr : BitVec 16
  busy : BitVec 16
  refused : BitVec 16
  fill : BitVec 5
  dispatchQ : List Nat
  l1 : AList L1Line
  victims : List (Nat × Nat)
  partOff : BitVec 4
  bankOff : BitVec 16
  engineOff : Bool
  copies : List CopyOp
  deriving DecidableEq, Repr

/-- A line held by the L2, or a 128-byte sector held by the Mirror (R153, R154). `below` holds the bytes of the level below while
the line is dirty; `flips` counts the bits an injection flipped in its first ECC word (R402). `seg` is where it stands: 16 × slice +
way in the L2, 64 × die + subarray in the Mirror (R260, R266). -/
structure CLine where
  owner : BitVec 6
  dirty : Bool
  below : List Byte
  flips : Nat
  stuck : Bool
  seg : Nat
  deriving DecidableEq, Repr

/-- A TLB entry (R249): a translation of `size` bytes at `va`. -/
structure TlbEnt where
  ctx : BitVec 6
  va : Nat
  size : Nat
  pa : Nat
  mem : Nat
  rd : Bool
  wr : Bool
  ex : Bool
  deriving DecidableEq, Repr

/-- What a token stands for (R243, R244, R206); `queued` waits for an entry of a full fault buffer (R250). -/
inductive TokenKind where
  | frags
  | queued
  | engine (core : Nat) (copy : Nat)
  | drain (grp : Nat) (joint : Nat)
  | group (grp : Nat)
  | completion (launch : Nat)
  deriving DecidableEq, Repr

/-- A token of a fault or debug record (R243, R276). -/
structure Token where
  fn : Nat
  debug : Bool
  vectorC : Bool
  kind : TokenKind
  frags : List FragRef
  key : Option (Nat × Nat × Nat × Nat)
  record : FRec
  written : Bool
  live : Bool
  deriving DecidableEq, Repr

/-- The power states (R297, R298). -/
inductive Power where
  | d0 | d3hot | d3cold | tripped
  deriving DecidableEq, Repr

/-- A completion record still to be written (R206). -/
structure Completion where
  fn : Nat
  queue : Nat
  recno : Nat
  ctx : BitVec 6
  addr : Nat
  val : DWord
  status : Nat
  detail : Nat
  deriving DecidableEq, Repr

/-- A flit that a port has sent (R292). -/
structure Sent where
  port : BitVec 4
  flit : Flit
  deriving DecidableEq, Repr

/-- An invalidation under way (R249): function, context, first address, bytes. -/
structure Tlbi where
  fn : Nat
  ctx : BitVec 6
  va : Nat
  size : Nat
  deriving DecidableEq, Repr

/-- The device. Each field's rule is in INVENTORY.md under State. -/
structure State where
  /-- The fragment that issues (the model's own). -/
  sel : Option FragRef
  /-- Inputs and engine steps that come next, oldest first (the model's own). -/
  agenda : List Instr
  /-- Fragments found waiting since something last changed (the model's own). -/
  stalled : List FragRef
  /-- Steps taken (the model's own). -/
  clock : Nat
  /-- CYCLE of each core (R93). -/
  cycles : List DWord
  /-- The next serial number (the model's own). -/
  serial : Nat
  mem : Memory
  poison : Sparse 1
  l2 : AList CLine
  mirror : AList CLine
  /-- Bits flipped in the first ECC word of an HBM line (R402). -/
  hbmFlips : AList Nat
  owners : Sparse 6
  retired : List (Nat × Nat)
  quarantined : List Segment
  quiescing : List Segment
  testing : List Segment
  /-- Cells left faulty by an injection: level, line, segment (R401). -/
  stuck : List (Nat × Nat × Segment)
  tlb : List TlbEnt
  tlbi : List Tlbi
  atsReqs : List (BitVec 6 × Nat)
  priReqs : List (BitVec 6 × Nat)
  /-- The fragments that wait for a page of host space, and those that the host has refused it (R251). -/
  hostWaits : List ((BitVec 6 × Nat) × FragRef)
  priRefused : List ((BitVec 6 × Nat) × FragRef)
  mmio : Sparse 64
  msix : List (Nat × Nat)
  cores : AList Core
  objects : AList Obj
  launches : AList Launch
  groups : AList Group
  saved : AList Saved
  entries : AList DEntry
  tokens : AList Token
  completions : AList Completion
  /-- Queues (function, number) whose context has ended and which the driver has not disabled since (R403). -/
  endedQueues : List (Nat × Nat)
  /-- Queues under reset whose groups have operations to complete (R285), by function and queue. -/
  resetting : List (Nat × Nat)
  /-- Launch records that the driver has overwritten before they were taken (R11, R205), by function, queue and number. -/
  overwritten : List (Nat × Nat × Nat)
  /-- Queues that a reset or a restart has disabled: HEAD stands when they are enabled again (R270, R285). -/
  keptHeads : List (Nat × Nat)
  /-- The marks that bytes carry from the releases that wrote them (R175). -/
  marks : List (Place × List Mark)
  /-- What has been waiting for its turn since which step, or, of a gang, since which CYCLE of its core; the model's own (R219, R220). -/
  waiting : List (Wanted × Nat)
  dispatchFrozen : Bool
  ringmasterBoot : Bool
  restarting : Bool
  sliceFn : Nat
  sliceStart : Nat
  /-- A world switch is under way (R233). -/
  switching : Bool
  /-- Entry to D3hot is under way (R297). -/
  sleeping : Bool
  clockSteps : Nat
  power : Power
  links : BitVec 2
  ports : BitVec 16
  /-- The next sequence number by port and virtual channel, and the data received since its last checksum flit (R292, R256). -/
  rxSeq : Sparse 12
  rxData : AList (List Byte)
  /-- The next sequence number of the flits sent, by port and virtual channel, and the flits (R292). -/
  txSeq : Sparse 12
  sent : List Sent
  /-- The replay buffers of the ports: what they have sent and the receiver has not acknowledged (R292). -/
  replay : List Sent
  hostReads : List (List Byte × Bool)
  reports : List Report
  /-- Of the operations in flight, what each has added to the counters of its function's session: operation, counter, events (R281). -/
  caused : List (Nat × Nat × Nat)
  /-- The readings of the sensors of TEMPn (R298). -/
  temps : List (BitVec 16)
  deriving DecidableEq, Repr

/-- Why a step stops without a next state. -/
inductive Fault where
  /-- An instruction was handed to the machine while no fragment is selected to issue it; raised by every meaning of
  an instruction row. Safe: no run reaches it, since a step selects a fragment first. -/
  | noIssuer
  deriving DecidableEq, Repr

/-- Why the model has no meaning for a step. -/
inductive Refusal where
  /-- The instruction is not modelled yet; raised by its arm of exec. Safe. -/
  | notModelled (mnemonic : String)
  deriving DecidableEq, Repr

/-- A core at device reset (R148, R93). -/
def Core.reset : Core :=
  { scr := 0xFF00#16, busy := 0#16, refused := 0#16, fill := 14#5, dispatchQ := [], l1 := [], victims := [],
    partOff := 0#4, bankOff := 0#16, engineOff := false, copies := [] }

/-- A weight plane at group start (R186). -/
def Plane.reset : Plane := { elems := [], scales := [], fmt := 0#3 }

/-- The engine state at group start (R186). -/
def Matrix.reset : Matrix :=
  { tiles := [], chunks := List.replicate 8 0#48, planeA := Plane.reset, planeB := Plane.reset, selB := false,
    snapB := false, mabft := false, latch := [], queue := [], used := [], loose := false }

/-- The device right after reset: no group resident, memory zero (R296), every management register zero but
PFSLICE, which is 1 (R289). What the specification gives no reset value for is named in log entry 3. -/
def State.reset : State :=
  { sel := none, agenda := [], stalled := [], clock := 0, cycles := List.replicate 160 0#64, serial := 0, mem := [], poison := [], l2 := [],
    mirror := [], hbmFlips := [], owners := [], retired := [], quarantined := [], quiescing := [], testing := [], stuck := [], tlb := [], tlbi := [], atsReqs := [],
    priReqs := [], hostWaits := [], priRefused := [], mmio := [(0x2018, 1#64)], msix := [], cores := [], objects := [],
    launches := [], groups := [], saved := [], entries := [], tokens := [], completions := [], endedQueues := [], resetting := [], overwritten := [], keptHeads := [], marks := [], waiting := [],
    dispatchFrozen := false, ringmasterBoot := false, restarting := false, sliceFn := 0, sliceStart := 0, switching := false, sleeping := false,
    clockSteps := 32, power := .d0, links := 3#2, ports := 0xFFFF#16, rxSeq := [], rxData := [], txSeq := [], sent := [], replay := [], hostReads := [], reports := [],
    caused := [], temps := List.replicate 33 0#16 }

end Sys2Proof.Machine
end

