-- ==== Sys2Proof/Machine/Maps.lean ====
section
/-!
DEFINITION. Operations on maps, masks and bit fields used by every meaning.
-/
namespace Sys2Proof.Machine

/-- The value at a key. -/
def aget {α : Type} (k : Nat) : AList α → Option α
  | [] => none
  | (k', v) :: t => if k' = k then some v else aget k t

/-- The map without a key. -/
def aerase {α : Type} (k : Nat) : AList α → AList α
  | [] => []
  | (k', v) :: t => if k' = k then aerase k t else (k', v) :: aerase k t

/-- The map with a value at a key, keys kept rising. -/
def aput {α : Type} (k : Nat) (v : α) : AList α → AList α
  | [] => [(k, v)]
  | (k', v') :: t =>
    if k' = k then (k, v) :: t else if k < k' then (k, v) :: (k', v') :: t else (k', v') :: aput k v t

/-- The map with the value at a key replaced through a function, where there is one. -/
def amod {α : Type} (k : Nat) (f : α → α) (l : AList α) : AList α :=
  match aget k l with
  | none => l
  | some v => aput k (f v) l

/-- Every value replaced through a function of its key. -/
def amap {α β : Type} (f : Nat → α → β) (l : AList α) : AList β := l.map (fun e => (e.1, f e.1 e.2))

/-- The keys of a map. -/
def akeys {α : Type} (l : AList α) : List Nat := l.map Prod.fst

/-- A word of a sparse map; unlisted keys read zero. -/
def sget {w : Nat} (k : Nat) (l : Sparse w) : BitVec w := (aget k l).getD 0#w

/-- A sparse map with a word written; writing zero removes the entry. -/
def sput {w : Nat} (k : Nat) (v : BitVec w) (l : Sparse w) : Sparse w :=
  if v = 0#w then aerase k l else aput k v l

/-- Keys strictly rising from a lower bound, no zero entry. -/
def sparseFrom {w : Nat} (lo : Nat) : Sparse w → Bool
  | [] => true
  | (k, v) :: t => decide (lo ≤ k) && !decide (v = 0#w) && sparseFrom (k + 1) t

/-- The canonical form of a sparse map: equal contents are equal lists. -/
def sparseWf {w : Nat} (l : Sparse w) : Bool := sparseFrom 0 l

/-- The canonical form of memory. -/
def Memory.wf (m : Memory) : Bool := sparseWf m

/-- Keys strictly rising from a lower bound. -/
def risingFrom {α : Type} (lo : Nat) : AList α → Bool
  | [] => true
  | (k, _) :: t => decide (lo ≤ k) && risingFrom (k + 1) t

/-- Drop every entry whose key a test selects. -/
def adrop {α : Type} (p : Nat → Bool) (l : AList α) : AList α := l.filter (fun e => !p e.1)

/-- The lanes of a gang (R8). -/
def lanes : List Nat := List.range 32

/-- The number whose bits below `n` a test gives. -/
def bitsOf (p : Nat → Bool) : Nat → Nat
  | 0 => 0
  | n + 1 => bitsOf p n + (if p n then 2 ^ n else 0)

/-- The lane mask a test gives. -/
def maskOf (p : Nat → Bool) : Mask := BitVec.ofNat 32 (bitsOf p 32)

/-- The lanes in a mask, lowest first. -/
def lanesIn (m : Mask) : List Nat := lanes.filter (fun l => m.getLsbD l)

/-- The lowest lane of a mask. -/
def lowLane (m : Mask) : Option Nat := (lanesIn m).head?

/-- The four lanes of a quad (R8). -/
def quadMask (q : Nat) : Mask := 0xF#32 <<< (4 * q)

/-- The four bits of a mask that belong to a quad. -/
def quadBits (m : Mask) (q : Nat) : BitVec 4 := (m >>> (4 * q)).setWidth 4

/-- Four lane bits put in their quad's place. -/
def quadPlace (b : BitVec 4) (q : Nat) : Mask := (b.setWidth 32) <<< (4 * q)

/-- The quads with a lane in a mask, lowest first. -/
def quadsIn (m : Mask) : List Nat := (List.range 8).filter (fun q => decide (quadBits m q ≠ 0#4))

/-- Every quad's four bits set to its reference lane's bit (R31, R88). -/
def spreadRef (m : Mask) : Mask := maskOf (fun l => m.getLsbD (l / 4 * 4 + 3))

/-- The reference lane of a lane's quad (R8). -/
def refLane (l : Nat) : Nat := l / 4 * 4 + 3

/-- The number of set bits below `n`. -/
def countBits (x : Nat) : Nat → Nat
  | 0 => 0
  | n + 1 => countBits x n + (if x.testBit n then 1 else 0)

/-- Bits [hi:lo] of a number (R13). -/
def bits (x hi lo : Nat) : Nat := x / 2 ^ lo % 2 ^ (hi + 1 - lo)

/-- A w-bit pattern read as signed. -/
def sint (x w : Nat) : Int :=
  if x % 2 ^ w < 2 ^ (w - 1) then (x % 2 ^ w : Nat) else ((x % 2 ^ w : Nat) : Int) - (2 ^ w : Nat)

/-- An integer modulo 2^w, as a pattern. -/
def wrapTo (w : Nat) (v : Int) : Nat := (v % ((2 ^ w : Nat) : Int)).toNat

/-- A rotate left within n bits. -/
def rotl (n x k : Nat) : Nat := (x * 2 ^ k + x % 2 ^ n / 2 ^ (n - k)) % 2 ^ n

/-- Little-endian bytes of a number (R9). -/
def toBytes : Nat → Nat → List Byte
  | 0, _ => []
  | n + 1, v => BitVec.ofNat 8 v :: toBytes n (v / 256)

/-- The number little-endian bytes spell (R9). -/
def ofBytes : List Byte → Nat
  | [] => 0
  | b :: t => b.toNat + 256 * ofBytes t

/-- Bytes placed at rising addresses. -/
def place (a : Nat) : List Byte → List Host.Cell
  | [] => []
  | b :: t => (a, b) :: place (a + 1) t

/-- Write cells one after another. -/
def putCells (cs : List Host.Cell) (m : Memory) : Memory := cs.foldl (fun m c => sput c.1 c.2 m) m

/-- The cells of a range of addresses. -/
def slice (m : Memory) (a n : Nat) : Memory := m.filter (fun c => decide (a ≤ c.1) && decide (c.1 < a + n))

/-- Read n bytes. -/
def getBytes (m : Memory) (a n : Nat) : List Byte :=
  let w := slice m a n
  (List.range n).map (fun i => sget (a + i) w)

/-- Read a little-endian number of n bytes. -/
def getNum (m : Memory) (a n : Nat) : Nat := ofBytes (getBytes m a n)

/-- The least power-of-two multiple: x rounded up to a multiple of n. -/
def roundUp (x n : Nat) : Nat := (x + n - 1) / n * n

/-- Drop repeats, keeping the first of each. -/
def nodup (l : List Nat) : List Nat := (l.foldl (fun acc x => if acc.contains x then acc else x :: acc) []).reverse

end Sys2Proof.Machine
end

