-- ==== Sys2Proof/Machine/Ops.lean ====
section
/-!
DEFINITION. The issuing fragment, the registers of its gang, regions and invalidation, and the part of issue that every
instruction shares.
-/
namespace Sys2Proof.Machine

/-- What a step of the machine answers. -/
abbrev Out := Host.Outcome State Fault Refusal

/-- The fragment that issues, with what it belongs to. -/
structure Cur where
  r : FragRef
  grp : Group
  gang : Gang
  frag : Frag
  lau : Launch
  early : List (Nat × RegWrite)
  earlyS : List (Nat × BitVec 6 × DWord × Bool)
  deriving DecidableEq, Repr

/-- The result of an operation of a gang exists, though the operation is not complete: a load has read all its bytes. -/
def PendOp.bound (o : PendOp) (g : Gang) : Bool :=
  !o.done && g.reads.all (fun x => x.op != o.id || x.seen.all (fun p => p.got))

/-- The words of the gang's operations in flight that a read at a step finds already: which is free, word by word and lane by lane
(R161). -/
def Gang.early (g : Gang) (step : Nat) : List (Nat × RegWrite) :=
  (g.ops.filter (fun o => o.bound g)).flatMap (fun o =>
    (o.writes.filter (fun w => Config.freeBool (2 ^ 136 * (step + 1) + 4096 * o.id + 32 * w.reg + w.lane))).map (fun w => (o.id, w)))

/-- The same for scalars. -/
def Gang.earlyS (g : Gang) (step : Nat) : List (Nat × BitVec 6 × DWord × Bool) :=
  (g.ops.filter (fun o => o.bound g)).filterMap (fun o =>
    o.sdst.bind (fun n =>
      if Config.freeBool (2 ^ 136 * (step + 1) + 4096 * o.id + 4095) then some (o.id, n, o.sval, o.spois) else none))

/-- A fragment with its gang, group and launch, and what it finds of the results in flight. -/
def curOf (r : FragRef) (s : State) : Option Cur := do
  let grp ← aget r.grp s.groups
  let gang ← aget r.gang grp.gangs
  let frag ← aget r.frag gang.frags
  let lau ← aget grp.launch s.launches
  some { r := r, grp := grp, gang := gang, frag := frag, lau := lau, early := gang.early s.clock, earlyS := gang.earlyS s.clock }

/-- The selected fragment. -/
def cur (s : State) : Option Cur := do
  let r ← s.sel
  curOf r s

/-- A TRIPLE launch (R14). -/
def Cur.triple (c : Cur) : Bool := c.lau.kern.triple

/-- The context of the launch. -/
def Cur.ctx (c : Cur) : BitVec 6 := c.lau.ctx

/-- Change a group. -/
def modGroup (k : Nat) (f : Group → Group) (s : State) : State := { s with groups := amod k f s.groups }

/-- Change a gang. -/
def modGang (g : GangRef) (f : Gang → Gang) (s : State) : State :=
  modGroup g.grp (fun grp => { grp with gangs := amod g.gang f grp.gangs }) s

/-- Change every gang, told its group and its keys. -/
def mapGangs (f : Nat → Group → Nat → Gang → Gang) (s : State) : State :=
  { s with groups := amap (fun k g => { g with gangs := amap (f k g) g.gangs }) s.groups }

/-- The gang of a fragment. -/
def gangRefOf (r : FragRef) : GangRef := { grp := r.grp, gang := r.gang }

/-- Change a fragment. -/
def modFrag (r : FragRef) (f : Frag → Frag) (s : State) : State :=
  modGang (gangRefOf r) (fun g => { g with frags := amod r.frag f g.frags }) s

/-- Change a core; a core nothing has touched is as at reset. -/
def coreOf (k : Nat) (s : State) : Core := (aget k s.cores).getD Core.reset

/-- CYCLE of a core (R93). -/
def cycleAt (core : Nat) (s : State) : DWord := s.cycles.getD core 0#64

/-- Change a core. -/
def modCore (k : Nat) (f : Core → Core) (s : State) : State := { s with cores := aput k (f (coreOf k s)) s.cores }

/-- Change a launch. -/
def modLaunch (k : Nat) (f : Launch → Launch) (s : State) : State := { s with launches := amod k f s.launches }

/-- The gang a reference names. -/
def gangOf (g : GangRef) (s : State) : Option Gang := (aget g.grp s.groups).bind (fun grp => aget g.gang grp.gangs)

/-- A fresh serial number. -/
def fresh (s : State) : Nat × State := (s.serial, { s with serial := s.serial + 1 })

/-- Function `fn`'s register at an offset of its 64 KiB management window (R205, R241). -/
def mreg (fn off : Nat) (s : State) : DWord := sget (65536 * fn + off) s.mmio

/-- Write a management register as it stands; access rules are the writer's. -/
def setMreg (fn off : Nat) (v : DWord) (s : State) : State := { s with mmio := sput (65536 * fn + off) v s.mmio }

/-- Raise an MSI-X entry of a function (R287). -/
def raiseMsix (fn entry : Nat) (s : State) : State := { s with msix := s.msix ++ [(fn, entry)] }

/-! Registers of a gang. -/

/-- A main-file word as stored, kill marks aside. -/
def Gang.vraw (g : Gang) (r l : Nat) : Word := sget (32 * r + l) g.vregs

/-- A main-file word as read: a killed register reads zero (R98). -/
def Gang.v (g : Gang) (r l : Nat) : Word := if (sget r g.killed).getLsbD l then 0#32 else g.vraw r l

/-- A main-file word is poisoned and not killed (R261). -/
def Gang.vpoisoned (g : Gang) (r l : Nat) : Bool := (sget r g.vpois).getLsbD l && !(sget r g.killed).getLsbD l

/-- One bit of a mask. -/
def laneBit (l : Nat) : Mask := 1#32 <<< l

/-- Write a main-file word in one lane: it is live again, and poisoned as told (R98, R261). -/
def Gang.setV (g : Gang) (r l : Nat) (w : Word) (pois : Bool) : Gang :=
  { g with
    vregs := sput (32 * r + l) w g.vregs
    killed := sput r (sget r g.killed &&& ~~~ laneBit l) g.killed
    vpois := sput r (if pois then sget r g.vpois ||| laneBit l else sget r g.vpois &&& ~~~ laneBit l) g.vpois }

/-- An operand-cache word. -/
def Gang.ocv (g : Gang) (r l : Nat) : Word := (sget (32 * r + l) g.oc).setWidth 32

/-- An operand-cache word is poisoned: a load of poisoned data wrote it (R262). -/
def Gang.ocPois (g : Gang) (r l : Nat) : Bool := (sget (32 * r + l) g.oc).getLsbD 32

/-- Write an operand-cache word, poisoned as told. -/
def Gang.setOc (g : Gang) (r l : Nat) (w : Word) (pois : Bool := false) : Gang :=
  { g with oc := sput (32 * r + l) (BitVec.ofBool pois ++ w) g.oc }

/-- A register by specifier 0-119 is poisoned. -/
def Gang.rpois (g : Gang) (spec l : Nat) : Bool :=
  if spec < 112 then g.vpoisoned spec l else decide (spec < 120) && g.ocPois (spec - 112) l

/-- A register by specifier 0-119: vN or ocN (R94). -/
def Gang.setReg (g : Gang) (spec l : Nat) (w : Word) (pois : Bool) : Gang :=
  if spec < 112 then g.setV spec l w pois else g.setOc (spec - 112) l w pois

/-- A latch word: 0 la0, 1 la1, 2 lb0, 3 lb1. -/
def Gang.lat (g : Gang) (j l : Nat) : DWord := sget (32 * j + l) g.latch

/-- Push a result into a pipe's latch pair in one lane (R96). -/
def Gang.push (g : Gang) (pipeB : Bool) (l : Nat) (v : DWord) : Gang :=
  let n := if pipeB then 2 else 0
  { g with latch := sput (32 * n + l) v (sput (32 * (n + 1) + l) (sget (32 * n + l) g.latch) g.latch) }

/-- A scalar. -/
def Gang.s (g : Gang) (n : BitVec 6) : DWord := sget n.toNat g.sregs

/-- Write a scalar; the write clears its poison (R261). -/
def Gang.setS (g : Gang) (n : BitVec 6) (v : DWord) : Gang :=
  { g with sregs := sput n.toNat v g.sregs, spois := g.spois &&& ~~~ (1#64 <<< n.toNat) }

/-- The split records a fragment descends from, innermost first. -/
def Gang.chain (g : Gang) : Nat → Option Nat → List Nat
  | 0, _ => []
  | _, none => []
  | n + 1, some k => match aget k g.recs with | some r => k :: g.chain n r.parent | none => [k]

/-- A fragment inside a split has written a register of the gang (R88, R377): every value written there is a candidate for its value after
the fusion. -/
def Gang.noteW (g : Gang) (fi reg : Nat) (v : DWord) (pois : Bool) : Gang :=
  match aget fi g.frags with
  | some f =>
    if f.split.isSome then
      let w : SWrite := { reg := reg, frag := fi, mask := f.mask, splits := g.chain 8 f.split, val := v, pois := pois }
      { g with book := { g.book with swrote := w :: g.book.swrote.filter (fun x => x != w) } }
    else g
  | none => g

/-- The same for a scalar. -/
def Gang.noteS (g : Gang) (fi : Nat) (n : BitVec 6) (v : DWord) (pois : Bool) : Gang := g.noteW fi n.toNat v pois

/-- A scalar written by an instruction of a fragment (R88). -/
def Gang.setSBy (g : Gang) (fi : Nat) (n : BitVec 6) (v : DWord) : Gang := (g.setS n v).noteS fi n v false

/-- Mark a scalar poisoned. -/
def Gang.poisonS (g : Gang) (n : BitVec 6) : Gang := { g with spois := g.spois ||| (1#64 <<< n.toNat) }

/-- A predicate. -/
def Gang.pr (g : Gang) (n : BitVec 3) : Mask := sget n.toNat g.pregs

/-- Write the bits of a predicate that a mask selects; other bits are kept (R88). A write of every bit clears poison. -/
def Gang.setP (g : Gang) (n : BitVec 3) (m v : Mask) : Gang :=
  { g with
    pregs := sput n.toNat ((g.pr n &&& ~~~ m) ||| (v &&& m)) g.pregs
    ppois := if m = 0xFFFFFFFF#32 then g.ppois &&& ~~~ (1#8 <<< n.toNat) else g.ppois }

/-- Kill a register in the lanes of a mask: vN reads zero from then on (R98), ocN holds zero (R97). Specifiers 120 and
above are not killed. -/
def Gang.kill (g : Gang) (spec : Nat) (m : Mask) : Gang :=
  if spec < 112 then { g with killed := sput spec (sget spec g.killed ||| m) g.killed }
  else if spec < 120 then (lanesIn m).foldl (fun g l => g.setOc (spec - 112) l 0#32) g
  else g

/-- Empty latches and operand-cache slots in the lanes of a mask (R99). -/
def Gang.invalidate (g : Gang) (m : Mask) : Gang :=
  { g with oc := g.oc.filter (fun e => !m.getLsbD (e.1 % 32)), latch := g.latch.filter (fun e => !m.getLsbD (e.1 % 32)) }

/-- The state of a quad that a launch of the given mode starts with (R34, R91). -/
def Quad.start (triple : Bool) : Quad :=
  let m : Word := if triple then 0x18#32 else 0x10#32
  { icount := 0#48, mode := m, stack := [], ricount := 0#48, rmode := m }

/-- A quad of a gang. -/
def Gang.quad (g : Gang) (q : Nat) : Quad := g.quads.getD q (Quad.start false)

/-- Change a quad. -/
def Gang.modQuad (g : Gang) (q : Nat) (f : Quad → Quad) : Gang :=
  { g with quads := g.quads.modify q f }

/-- Change every quad of a mask. -/
def Gang.modQuads (g : Gang) (m : Mask) (f : Quad → Quad) : Gang := (quadsIn m).foldl (fun g q => g.modQuad q f) g

/-- MODE.SIB of a quad (R91). -/
def Quad.sib (q : Quad) : Bool := q.mode.getLsbD 3
/-- MODE.DRAW of a quad (R91). -/
def Quad.dodraw (q : Quad) : Bool := q.mode.getLsbD 4
/-- MODE.FTZ of a quad (R91). -/
def Quad.ftz (q : Quad) : Bool := q.mode.getLsbD 2
/-- MODE.RND of a quad (R91). -/
def Quad.rnd (q : Quad) : BitVec 2 := q.mode.setWidth 2

/-- A scalar is poisoned (R261). -/
def Gang.spoisoned (g : Gang) (n : BitVec 6) : Bool := g.spois.getLsbD n.toNat
/-- A predicate is poisoned (R261). -/
def Gang.ppoisoned (g : Gang) (n : BitVec 3) : Bool := g.ppois.getLsbD n.toNat

/-! What an instruction reads: a register, or the result in flight that it finds early (R161). -/

/-- The result in flight that a read of a register 0-119 finds. -/
def Cur.find (c : Cur) (r l : Nat) : Option RegWrite :=
  (c.early.find? (fun e => e.2.reg == r && e.2.lane == l)).map (fun e => e.2)

/-- The result in flight that a read of a scalar finds. -/
def Cur.findS (c : Cur) (n : BitVec 6) : Option (DWord × Bool) := (c.earlyS.find? (fun e => e.2.1 == n)).map (fun e => e.2.2)

/-- A main-file word as the instruction reads it. -/
def Cur.v (c : Cur) (r l : Nat) : Word := match c.find r l with | some w => w.val | none => c.gang.v r l

/-- A main-file word that it reads is poisoned. -/
def Cur.vpoisoned (c : Cur) (r l : Nat) : Bool := match c.find r l with | some w => w.pois | none => c.gang.vpoisoned r l

/-- An operand-cache word as the instruction reads it. -/
def Cur.ocv (c : Cur) (r l : Nat) : Word := match c.find (112 + r) l with | some w => w.val | none => c.gang.ocv r l

/-- A register 0-119 that it reads is poisoned. -/
def Cur.rpois (c : Cur) (spec l : Nat) : Bool := match c.find spec l with | some w => w.pois | none => c.gang.rpois spec l

/-- A scalar as the instruction reads it. -/
def Cur.s (c : Cur) (n : BitVec 6) : DWord := match c.findS n with | some v => v.1 | none => c.gang.s n

/-- A scalar that it reads is poisoned. -/
def Cur.spoisoned (c : Cur) (n : BitVec 6) : Bool := match c.findS n with | some v => v.2 | none => c.gang.spoisoned n

/-! Lanes. -/

/-- The threads a group holds (R15). -/
def LRec.threads (r : LRec) : Nat := r.bx * r.b_y * r.bz

/-- Nominal thread index of a lane: its own in SINGLE, its quad's in TRIPLE (R16). -/
def Cur.tidx (c : Cur) (l : Nat) : Nat := if c.triple then 8 * c.r.gang + l / 4 else 32 * c.r.gang + l

/-- A helper lane (R18): a lane of a SINGLE gang that carries no thread. -/
def Cur.helper (c : Cur) (l : Nat) : Bool := !c.triple && decide (c.lau.r.threads ≤ c.tidx l)

/-- The logical thread index T (R16). -/
def Cur.bigT (c : Cur) (l : Nat) : Nat := (c.grp.g * c.lau.r.threads + c.tidx l) % 2 ^ 32

/-- EXEC AND the guard (R114). -/
def Cur.acting (c : Cur) (pe : Bool) (pg : BitVec 3) (pn : Bool) : Mask :=
  if pe then c.frag.exec &&& (if pn then ~~~ c.gang.pr pg else c.gang.pr pg) else c.frag.exec

/-- The lane whose values stand for a lane's quad in TRIPLE, the lane itself in SINGLE (R49). -/
def Cur.ref (c : Cur) (l : Nat) : Nat := if c.triple then refLane l else l

/-- The lanes that perform memory accesses: reference lanes of acting quads in TRIPLE (R49). -/
def Cur.memLanes (c : Cur) (a : Mask) : List Nat :=
  if c.triple then (quadsIn a).map (fun q => 4 * q + 3) else lanesIn a

/-- The lanes that have not exited (R28). -/
def Gang.live (g : Gang) : Mask := g.startMask &&& ~~~ g.exited

/-- Rule of R32 for COPY and matrix rows: one fragment, EXEC holding every live lane. -/
def Cur.whole (c : Cur) : Bool :=
  decide (c.gang.frags.length = 1) && c.frag.exec == c.gang.live && c.frag.exec != 0#32

/-! In-flight counters (R157-R159). -/

/-- The in-flight counter of a path. -/
def Gang.counter (g : Gang) (p : Path) : Nat := (g.ops.filter (fun o => o.path == p)).length

/-- Every counter is zero (R107). -/
def Gang.idle (g : Gang) : Bool := g.ops.isEmpty

/-- Retire from each path every completed operation that no older one of the path precedes (R159). -/
def retire : List PendOp → List Path → List PendOp
  | [], _ => []
  | o :: t, blocked =>
    if o.done && !blocked.contains o.path then retire t blocked else o :: retire t (o.path :: blocked)

/-- The gang with its completed operations retired. -/
def Gang.retired (g : Gang) : Gang := { g with ops := retire g.ops [] }

/-! Regions (R34) and what folds at a region start (R55, R75). -/

/-- 16-bit saturating addition. -/
def satAdd16 (a b : BitVec 16) : BitVec 16 := BitVec.ofNat 16 (min (a.toNat + b.toNat) 0xFFFF)

/-- Counts added to the three counters of NITCNT (R55). -/
def addCounts (cnt : DWord) (a b d : BitVec 16) : DWord :=
  (satAdd16 (cnt.setWidth 16) a).setWidth 64 ||| ((satAdd16 ((cnt >>> 16).setWidth 16) b).setWidth 64 <<< 16)
    ||| ((satAdd16 ((cnt >>> 32).setWidth 16) d).setWidth 64 <<< 32)

/-- Fold pending counts into NITCNT (R55). -/
def foldNit (cnt : DWord) (f : Frag) : DWord := addCounts cnt f.pendCancel f.pendCmp f.pendDivz

/-- The folds that others may not see yet, after a fragment of a gang has folded its counts (R55): none in a gang of one
fragment. -/
def Gang.openFolds (g : Gang) (f : Frag) : Option (DWord × List NitFold) :=
  if g.frags.length ≤ 1 then none
  else if f.pendCancel = 0#16 ∧ f.pendCmp = 0#16 ∧ f.pendDivz = 0#16 then g.book.nit
  else
    let x : NitFold := { mask := f.mask, cancel := f.pendCancel, cmp := f.pendCmp, divz := f.pendDivz }
    match g.book.nit with
    | none => some (g.nitcnt, [x])
    | some (b, l) => some (b, l ++ [x])

/-- What a fragment folds at a region start, in a value that NITCNT or SATF may come to have (R55, R75, R377). -/
def SWrite.fold (f : Frag) (w : SWrite) : SWrite :=
  if w.reg = 64 + 0x03 then { w with val := foldNit w.val f }
  else if w.reg = 64 + 0x04 then { w with val := w.val ||| f.pendSatf.setWidth 64 }
  else w

/-- A region that begins between an MSWAP and the MMA or MDRAIN that is to follow it breaks the rule of R204. -/
def SwapMark.atRegion : SwapMark → SwapMark
  | .none => .none
  | .swapped | .lost => .lost

/-- A region of a fragment begins: snapshot, folds, kills that a save will keep (R34, R55, R75, R98). XS saturations of drains
that an MWAIT of the fragment has delivered stay delivered. A register is dead at a restart where it is killed now, until an atomic that
has issued returns a value into it (R36, R105, log entry 52). -/
def Gang.beginRegion (g : Gang) (fi : Nat) : Gang :=
  match aget fi g.frags with
  | none => g
  | some f =>
    let f' := { f with rpc := f.pc, rexec := f.exec, rsig := f.sig, rhand := f.inHandler, pendCancel := 0#16, pendCmp := 0#16,
                       pendDivz := 0#16, pendSatf := 0#7 }
    let g1 := { g with
      frags := aput fi f' g.frags
      nitcnt := foldNit g.nitcnt f
      satf := g.satf ||| f.pendSatf.setWidth 32
      joints := g.joints.filter (fun j => j.2.2 != 2 + fi)
      swap := g.swap.atRegion
      book := { nit := g.openFolds f, swrote := g.book.swrote.map (SWrite.fold f) }
      dead := (List.range 112).foldl (fun d r =>
        sput r ((sget r d &&& ~~~ f.mask) ||| (sget r g.killed &&& f.mask)) d) g.dead }
    g1.modQuads f.mask (fun q => { q with ricount := q.icount, rmode := q.mode })

/-- Begin a region of a fragment. -/
def beginRegion (r : FragRef) (s : State) : State := modGang (gangRefOf r) (fun g => g.beginRegion r.frag) s

/-! What every issue does (R33, R107, R267). -/

/-- SIG after an instruction (R267). -/
def sigNext (sig : Word) (h : Word) : Word := sig.rotateLeft 5 ^^^ h

/-- The instructions that leave SIG to themselves: SIGCHK, RETT, SWRITE of SIG (R267). -/
def sigExempt : Instr → Bool
  | .sigchk .. => true
  | .rett .. => true
  | .swrite _ n _ => n == 0x0B#6
  | _ => false

/-- A program counter: bits [56:1] of an address (R23). -/
def pcOf (v : DWord) : DWord := v &&& 0x01FFFFFFFFFFFFFE#64

/-- The barriers and waits that are acquires whatever they read (R175): a load in flight reads its bytes again no later than these
issue (R177). -/
def settlesReads : Instr → Bool
  | .bar .. | .cbar .. | .bwait .. | .mwait .. => true
  | _ => false

/-- What a load in flight has read stands where an instruction has found its result early (R161). -/
def LateRead.found (c : Cur) (x : LateRead) : LateRead :=
  let used := fun (p : Seen) =>
    if x.scalar.isSome then c.earlyS.any (fun e => e.1 == x.op)
    else c.early.any (fun e => e.1 == x.op && (e.2.lane == p.lane || (x.triple && e.2.lane / 4 == p.lane / 4)))
  { x with seen := x.seen.map (fun p => if used p then { p with late := false } else p) }

/-- The loads in flight that may still read their bytes again after an instruction. -/
def Cur.readsAfter (c : Cur) (i : Instr) : List LateRead :=
  if settlesReads i then []
  else if c.early.isEmpty && c.earlyS.isEmpty then c.gang.reads
  else c.gang.reads.map (LateRead.found c)

/-- Issue of an instruction: the pc passes it, SIG takes it in, the ICOUNT of every active quad rises. -/
def Gang.issue (i : Instr) (c : Cur) (g : Gang) : Gang :=
  let g1 := { g with parked := false, fragPtr := (c.r.frag + 1) % 8, starved := none,
                      reads := c.readsAfter i, frags := amod c.r.frag (fun f =>
    { f with
      pc := pcOf (f.pc + BitVec.ofNat 64 i.len)
      bpSkip := false
      waitSkip := false
      sig := if f.inHandler || sigExempt i then f.sig else sigNext f.sig i.hash }) g.frags }
  g1.modQuads c.frag.exec (fun q => { q with icount := q.icount + 1 })

/-- The gang of the issuing fragment has issued an instruction. -/
def issued (i : Instr) (c : Cur) (s : State) : State := modGang (gangRefOf c.r) (fun g => g.issue i c) s

/-- The park bit (R107): an invalidation point, after which the gang waits for its counters. -/
def Gang.park (c : Cur) (g : Gang) : Gang := { g.invalidate c.frag.mask with parked := true, parkMask := c.frag.mask }

/-- An instruction whose park bit is set parks its gang. -/
def parked (p : Bool) (c : Cur) (s : State) : State :=
  if p then modGang (gangRefOf c.r) (fun g => g.park c) s else s

/-- An invalidation point (R99) of the issuing fragment. -/
def invalidated (c : Cur) (s : State) : State := modGang (gangRefOf c.r) (fun g => g.invalidate c.frag.mask) s

/-- The fragment cannot issue yet: remember it until something else happens. -/
def stallCur (c : Cur) (s : State) : State := { s with stalled := c.r :: s.stalled }

/-- A fragment waits for the host's translation of a host-space address (R251): one request for each 4 KiB page, none while a page
request of it is open. -/
def askAts (c : Cur) (va : Nat) (s : State) : State :=
  let p := (c.ctx, va / 4096)
  let s := if s.hostWaits.contains (p, c.r) then s else { s with hostWaits := s.hostWaits ++ [(p, c.r)] }
  if s.atsReqs.contains p || s.priReqs.contains p then s else { s with atsReqs := s.atsReqs ++ [p] }

/-- An operation just issued on a path, with no effect named yet (R159). -/
def PendOp.blank (id : Nat) (path : Path) (frag : Nat) : PendOp :=
  { id := id, path := path, done := false, frag := frag, writes := [], sdst := none, sval := 0#64, spois := false,
    satXs := false, ranges := [], cmoLevel := 0, cmoOp := 0, isCmo := false, atomic := false, commit := false, ports := [], hostLink := false, log := none,
    marks := [], refused := false }

/-- One barrier id of a group. -/
def Group.bar (g : Group) (b : Nat) : Barrier := g.barriers.getD b { arrived := 0#32, phase := false, cbar := false }

/-- The clocks that pass on a core in a step: free, but no more steps than a bounded number fall into one clock (R220, log entry 67). -/
def clocksIn (core step : Nat) : DWord :=
  if step % (Config.patience + 1) = 0 ∧ Config.clocksOf core step = 0#64 then 1#64 else Config.clocksOf core step

/-- Every element of the box of a copy, in every plane. -/
def CopyOp.boxes (c : CopyOp) : Nat := c.shape.box.foldl (· * ·) 1 * 4

/-- Forget which fragments waited. -/
def unstall (s : State) : State := { s with stalled := [] }

/-- A step of the device has happened: fragments that waited may go on. -/
def evt (s : State) : Out := .next (unstall s)

/-- What a fault of an access came from: this device's own checks or a peer's, a translation found and used for its permissions (R248), a
page the host refused (R251). -/
inductive FaultFrom where
  | here
  | walk (va : Nat)
  | page (page : Nat)
  deriving DecidableEq, Repr

/-- A fault an instruction raises (R239). -/
structure FReq where
  cls : Nat
  kind : Nat := 0
  addr : DWord := 0#64
  access : Nat := 0
  detail : Word := 0#32
  cause : FaultFrom := .here
  deriving DecidableEq, Repr

/-- What the checks before issue find (R132): nothing, a wait, a fault, an uncorrectable line of the access itself or of the
tables of its walk (R264), a host address with no translation yet (R251). -/
inductive Pre where
  | go
  | stall
  | fault (f : FReq)
  | line (l : Nat)
  | table (l : Nat)
  | miss (va : Nat)
  deriving DecidableEq, Repr

/-- The first of two checks that stops the instruction. -/
def Pre.andThen (a b : Pre) : Pre := match a with | .go => b | x => x

/-- A check that raises a fault when it fails. -/
def Pre.unless (ok : Bool) (f : FReq) : Pre := if ok then .go else .fault f

/-- ILLOP of a kind. -/
def illop (k : Illop) : FReq := { cls := 0x01, kind := k.code }

end Sys2Proof.Machine
end

