-- ==== Sys2Proof/Machine/Counters.lean ====
section
/-!
DEFINITION. Who owns a context (R289), and the counter sessions of the functions (R279-R281).
-/
namespace Sys2Proof.Machine

/-- A virtual function is enabled. -/
def vfOn (n : Nat) (s : State) : Bool := (mreg 0 (0x2000 + 32 * n) s).getLsbD 63

/-- The function that owns a context: an enabled VF whose mask names it, else the PF. -/
def ownerFn (ctx : BitVec 6) (s : State) : Nat :=
  ((List.range 16).map (· + 1)).foldr (fun n r =>
    if vfOn n s && (mreg 0 (0x2010 + 32 * n) s).getLsbD ctx.toNat then n else r) 0

/-- A counter wraps (R279): its CSOVF bit is set, and IRQ raises MSI-X entry 3. -/
def counterWraps (fn n : Nat) (s : State) : State :=
  let s1 := setMreg fn 0x1B08 (mreg fn 0x1B08 s ||| (1#64 <<< n)) s
  if (mreg fn (0x1C00 + 8 * n) s).getLsbD 16 then raiseMsix fn 3 s1 else s1

/-- Add to a counter modulo 2^48. -/
def addCounter (fn n k : Nat) (s : State) : State :=
  let v := (mreg fn (0x1E00 + 8 * n) s).toNat + k
  let s1 := setMreg fn (0x1E00 + 8 * n) (BitVec.ofNat 64 (v % 2 ^ 48)) s
  if 2 ^ 48 ≤ v then counterWraps fn n s1 else s1

/-- A function owns the cores while its slice runs; partitioned functions all run (R291). -/
def running (fn : Nat) (s : State) : Bool :=
  s.sliceFn == fn || (fn != 0 && vfOn fn s && (mreg 0 (0x2000 + 32 * fn) s).getLsbD 62)

/-- `k` events of a code happen under an owner (R279). The device's own filter is the context's function and session. -/
def countEvents (code : Nat) (ctx : BitVec 6) (k : Nat) (s : State) : State :=
  let fn := ownerFn ctx s
  let ctl := (mreg fn 0x1B00 s).toNat
  if bits ctl 31 31 = 1 ∧ bits ctl 13 8 = ctx.toNat ∧ running fn s ∧ k ≠ 0 then
    (List.range 64).foldl (fun s n =>
      if (mreg fn (0x1C00 + 8 * n) s).toNat % 65536 = code then addCounter fn n k s else s) s
  else s

/-- Every operation in flight, the engines' own among them. -/
def inFlightIds (s : State) : List Nat :=
  s.groups.flatMap (fun e => e.2.gangs.flatMap (fun g => g.2.ops.map (fun o => o.id)) ++ e.2.matrix.queue.map (fun o => o.id))
    ++ s.cores.flatMap (fun k => k.2.copies.map (fun c => c.id))

/-- What an operation of a context has added to the counters of the context's session between two states (R281). -/
def causedBy (ctx : BitVec 6) (op : Nat) (before t : State) : State :=
  let fn := ownerFn ctx t
  if (mreg fn 0x1B00 t).getLsbD 31 then
    let added := (List.range 64).filterMap (fun n =>
      let d := ((mreg fn (0x1E00 + 8 * n) t).toNat + 2 ^ 48 - (mreg fn (0x1E00 + 8 * n) before).toNat) % 2 ^ 48
      if d = 0 then none else some (op, n, d))
    if added.isEmpty then t
    else
      let ids := inFlightIds t
      { t with caused := t.caused.filter (fun e => ids.contains e.1) ++ added }
  else t

/-- The codes of R280 that a counter counts; the fabric's count in the physical function alone. -/
def countedCode (fn code : Nat) : Bool :=
  [0x01, 0x02, 0x03, 0x04, 0x05, 0x06, 0x10, 0x11, 0x12, 0x20, 0x21, 0x22, 0x40, 0x41, 0x42].contains code
    || (fn == 0 && (code == 0x30 || code == 0x31))

/-- Fabric events count in the physical function alone (R279). -/
def countFabric (code : Nat) (s : State) : State :=
  if (mreg 0 0x1B00 s).getLsbD 31 && running 0 s then
    (List.range 64).foldl (fun s n =>
      if (mreg 0 (0x1C00 + 8 * n) s).toNat % 65536 = code then addCounter 0 n 1 s else s) s
  else s

end Sys2Proof.Machine
end

