-- ==== Sys2Proof/Machine/Fp.lean ====
section
/-!
DEFINITION. Number formats and exact arithmetic (R63-R84). Every operation forms its exact result, or for the functions
of R72 bounds that pin down its rounding, and rounds once.
-/
namespace Sys2Proof.Machine

/-- The floating-point formats (R63). -/
inductive Fmt where
  | f64 | f32 | f16 | bf16 | e4m3 | e5m2
  deriving DecidableEq, Repr

/-- Exponent bits (R63). -/
def Fmt.eb : Fmt → Nat
  | .f64 => 11
  | .f32 => 8
  | .f16 => 5
  | .bf16 => 8
  | .e4m3 => 4
  | .e5m2 => 5

/-- Fraction bits (R63). -/
def Fmt.fb : Fmt → Nat
  | .f64 => 52
  | .f32 => 23
  | .f16 => 10
  | .bf16 => 7
  | .e4m3 => 3
  | .e5m2 => 2

/-- Precision p (R63). -/
def Fmt.p (f : Fmt) : Nat := f.fb + 1
/-- Width in bits. -/
def Fmt.w (f : Fmt) : Nat := f.eb + f.fb + 1
/-- Bias (R63). -/
def Fmt.bias (f : Fmt) : Nat := 2 ^ (f.eb - 1) - 1
/-- The exponent of the least significant bit of a subnormal. -/
def Fmt.emin (f : Fmt) : Int := 1 - (f.bias : Int) - f.fb
/-- The pattern of the largest finite value (R63, R64). -/
def Fmt.maxFin (f : Fmt) : Nat := if f = .e4m3 then 0x7E else (2 ^ f.eb - 1) * 2 ^ f.fb - 1
/-- The pattern of +∞; E4M3 has none (R64). -/
def Fmt.infPat (f : Fmt) : Nat := (2 ^ f.eb - 1) * 2 ^ f.fb
/-- The canonical NaN (R65). -/
def Fmt.nan (f : Fmt) : Nat := if f = .e4m3 then 0x7F else f.infPat + 2 ^ (f.fb - 1)
/-- The sign bit's place value. -/
def Fmt.sgn (f : Fmt) : Nat := 2 ^ (f.w - 1)

/-- The rounding modes (R67). -/
inductive Rm where
  | rn | rz | ru | rd
  deriving DecidableEq, Repr

/-- A rounding code (R67). -/
def Rm.of (c : BitVec 2) : Rm := match c.toNat with | 0 => .rn | 1 => .rz | 2 => .ru | _ => .rd

/-- What a pattern stands for: a NaN, an infinity, or ± m × 2^e. -/
inductive Fv where
  | nan
  | inf (neg : Bool)
  | fin (neg : Bool) (m : Nat) (e : Int)
  deriving DecidableEq, Repr

/-- Read a pattern (R63, R64). -/
def Fmt.dec (f : Fmt) (x : Nat) : Fv :=
  let neg := x / f.sgn % 2 == 1
  let ex := x / 2 ^ f.fb % 2 ^ f.eb
  let fr := x % 2 ^ f.fb
  if ex = 2 ^ f.eb - 1 ∧ f ≠ .e4m3 then (if fr = 0 then .inf neg else .nan)
  else if f = .e4m3 ∧ x % 128 = 127 then .nan
  else if ex = 0 then .fin neg fr f.emin
  else .fin neg (2 ^ f.fb + fr) (f.emin + (ex : Int) - 1)

/-- An exact result before rounding: num / den × 2^e, num and den not zero. -/
inductive Xr where
  | nan
  | inf (neg : Bool)
  | zero (neg : Bool)
  | rat (neg : Bool) (num den : Nat) (e : Int)
  deriving DecidableEq, Repr

/-- floor(log2(num / den)) for non-zero num and den. -/
def ratLog (num den : Nat) : Int :=
  let k : Int := (Nat.log2 num : Int) - (Nat.log2 den : Int)
  if 0 ≤ k then (if den * 2 ^ k.toNat ≤ num then k else k - 1)
  else (if den ≤ num * 2 ^ (-k).toNat then k else k - 1)

/-- Integer part and remainder class of num / den × 2^s: (floor, 0 exact, 1 below half, 2 half, 3 above half). -/
def scaleDiv (num den : Nat) (s : Int) : Nat × Nat :=
  let n := if 0 ≤ s then num * 2 ^ s.toNat else num
  let d := if 0 ≤ s then den else den * 2 ^ (-s).toNat
  let r := n % d
  (n / d, if r = 0 then 0 else if 2 * r < d then 1 else if 2 * r = d then 2 else 3)

/-- Round a magnitude up by one? -/
def roundsUp (m : Rm) (neg : Bool) (q rem : Nat) : Bool :=
  match m with
  | .rn => rem == 3 || (rem == 2 && q % 2 == 1)
  | .rz => false
  | .ru => rem != 0 && !neg
  | .rd => rem != 0 && neg

/-- Round num / den × 2^e to an integer magnitude. -/
def roundNat (m : Rm) (neg : Bool) (num den : Nat) (e : Int) : Nat :=
  let (q, r) := scaleDiv num den e
  if roundsUp m neg q r then q + 1 else q

/-- A mode that rounds a value of this sign toward zero (R69). -/
def Rm.towardZero (m : Rm) (neg : Bool) : Bool :=
  match m with
  | .rn => false
  | .rz => true
  | .ru => neg
  | .rd => !neg

/-- A sign put on a pattern. -/
def Fmt.sign (f : Fmt) (neg : Bool) (x : Nat) : Nat := if neg then f.sgn + x else x

/-- Overflow (R67; E4M3 as R69). -/
def Fmt.overflow (f : Fmt) (m : Rm) (neg : Bool) : Nat :=
  if m.towardZero neg then f.sign neg f.maxFin else if f = .e4m3 then f.nan else f.sign neg f.infPat

/-- RoundTo for a non-zero magnitude: the pattern without the overflow rule, and whether the rounded value is above the
largest finite one. A magnitude far below the least subnormal rounds as any other such magnitude does. -/
def Fmt.roundCore (f : Fmt) (m : Rm) (neg : Bool) (num den : Nat) (e : Int) : Nat × Bool :=
  let l0 := ratLog num den + e
  let tiny := decide (l0 + 2 < f.emin)
  let num := if tiny then 1 else num
  let den := if tiny then 1 else den
  let e := if tiny then f.emin - 3 else e
  let l := if tiny then e else l0
  let ue : Int := max (l - f.fb) f.emin
  let n := roundNat m neg num den (e - ue)
  let pat :=
    if n = 2 ^ f.p then (ue + 1 - f.emin + 1).toNat * 2 ^ f.fb
    else if n < 2 ^ f.fb then n
    else (ue - f.emin + 1).toNat * 2 ^ f.fb + (n - 2 ^ f.fb)
  (f.sign neg pat, decide (f.maxFin < pat))

/-- RoundTo (R13, R67). -/
def Fmt.round (f : Fmt) (m : Rm) : Xr → Nat
  | .nan => f.nan
  | .inf neg => if f = .e4m3 then f.nan else f.sign neg f.infPat
  | .zero neg => f.sign neg 0
  | .rat neg num den e =>
    match f.roundCore m neg num den e with
    | (x, big) => if big then f.overflow m neg else x

/-- RoundTo with .SAT (R69): the pattern and whether SATF.FP8 is set. -/
def Fmt.roundSat (f : Fmt) (m : Rm) : Xr → Nat × Bool
  | .inf neg => (f.sign neg f.maxFin, true)
  | .rat neg num den e =>
    match f.roundCore m neg num den e with
    | (x, big) => if big then (f.sign neg f.maxFin, !m.towardZero neg) else (x, false)
  | x => (f.round m x, false)

/-- A subnormal pattern. -/
def Fmt.subnormal (f : Fmt) (x : Nat) : Bool := x / 2 ^ f.fb % 2 ^ f.eb == 0 && x % 2 ^ f.fb != 0

/-- FlushIn and FlushOut (R66, R301): a subnormal becomes a zero of its sign. -/
def Fmt.flush (f : Fmt) (ftz : Bool) (x : Nat) : Nat := if ftz && f.subnormal x then x / f.sgn * f.sgn else x

/-- SMOD 1 negates, 3 clears the sign (R113). -/
def Fmt.smod (f : Fmt) (code : Nat) (x : Nat) : Nat :=
  if code = 1 then (if x / f.sgn % 2 = 1 then x - f.sgn else x + f.sgn)
  else if code = 3 then x % f.sgn else x

/-- Dyadic numbers: m × 2^e with a signed m. -/
structure Dy where
  m : Int
  e : Int
  deriving DecidableEq, Repr

/-- The sum of two dyadic numbers, exact. -/
def Dy.add (a b : Dy) : Dy :=
  if a.e ≤ b.e then { m := a.m + b.m * ((2 ^ (b.e - a.e).toNat : Nat) : Int), e := a.e }
  else { m := a.m * ((2 ^ (a.e - b.e).toNat : Nat) : Int) + b.m, e := b.e }

/-- The negative. -/
def Dy.neg (a : Dy) : Dy := { m := -a.m, e := a.e }

/-- The product. -/
def Dy.mul (a b : Dy) : Dy := { m := a.m * b.m, e := a.e + b.e }

/-- ilogb of a non-zero dyadic number (R13). -/
def Dy.ilogb (a : Dy) : Int := (Nat.log2 a.m.natAbs : Int) + a.e

/-- |a| ≤ |b|. -/
def Dy.absLe (a b : Dy) : Bool :=
  let d := Dy.add { m := (b.m.natAbs : Int), e := b.e } { m := -(a.m.natAbs : Int), e := a.e }
  decide (0 ≤ d.m)

/-- A finite value as a dyadic number. -/
def Fv.dy : Fv → Dy
  | .fin neg m e => { m := if neg then -(m : Int) else m, e := e }
  | _ => { m := 0, e := 0 }

/-- A dyadic number as an exact result; a zero takes the sign given. -/
def Dy.xr (d : Dy) (zneg : Bool) : Xr :=
  if d.m = 0 then .zero zneg else .rat (decide (d.m < 0)) d.m.natAbs 1 d.e

/-- The sum of two values, zero signs as R67. -/
def fvAdd (m : Rm) (a b : Fv) : Xr :=
  match a, b with
  | .nan, _ => .nan
  | _, .nan => .nan
  | .inf s, .inf t => if s = t then .inf s else .nan
  | .inf s, _ => .inf s
  | _, .inf t => .inf t
  | .fin s x _, .fin t y _ =>
    if x = 0 ∧ y = 0 ∧ s = t then .zero s else (Dy.add a.dy b.dy).xr (decide (m = .rd))

/-- The negative of a value. -/
def Fv.neg : Fv → Fv
  | .nan => .nan
  | .inf s => .inf (!s)
  | .fin s m e => .fin (!s) m e

/-- The exact product, as a value (R319). -/
def fvMul (a b : Fv) : Fv :=
  match a, b with
  | .nan, _ => .nan
  | _, .nan => .nan
  | .inf s, .inf t => .inf (s != t)
  | .inf s, .fin t m _ => if m = 0 then .nan else .inf (s != t)
  | .fin s m _, .inf t => if m = 0 then .nan else .inf (s != t)
  | .fin s m e, .fin t n f => .fin (s != t) (m * n) (e + f)

/-- A value as an exact result. -/
def Fv.xr : Fv → Xr
  | .nan => .nan
  | .inf s => .inf s
  | .fin s m e => if m = 0 then .zero s else .rat s m 1 e

/-- a × 2^n (R319). -/
def fvScale (a : Fv) (n : Int) : Xr :=
  match a with
  | .fin s m e => if m = 0 then .zero s else .rat s m 1 (e + n)
  | x => x.xr

/-- x / y (R72). -/
def fvDiv (a b : Fv) : Xr :=
  match a, b with
  | .nan, _ => .nan
  | _, .nan => .nan
  | .inf _, .inf _ => .nan
  | .inf s, .fin t _ _ => .inf (s != t)
  | .fin s _ _, .inf t => .zero (s != t)
  | .fin s m e, .fin t n f =>
    if n = 0 then (if m = 0 then .nan else .inf (s != t))
    else if m = 0 then .zero (s != t) else .rat (s != t) m n (e - f)

/-- The integer square root of x, on fuel of at least half its bits. -/
def isqrt : Nat → Nat → Nat
  | 0, _ => 0
  | n + 1, x =>
    let r := 2 * isqrt n (x / 4)
    if (r + 1) * (r + 1) ≤ x then r + 1 else r

/-- An integer with whether something lies above it, one bit further down. -/
def sticky (m : Nat) (exact : Bool) : Nat := if exact then 2 * m else 2 * m + 1

/-- √x (R72). -/
def fvSqrt (a : Fv) : Xr :=
  match a with
  | .nan => .nan
  | .inf s => if s then .nan else .inf false
  | .fin s m e =>
    if m = 0 then .zero s
    else if s then .nan
    else
      let m2 := if e % 2 = 0 then m * 2 ^ 130 else m * 2 ^ 131
      let e2 := if e % 2 = 0 then e - 130 else e - 131
      let r := isqrt 128 m2
      .rat false (sticky r (r * r == m2)) 1 (e2 / 2 - 1)

/-- 1 / √x (R72). -/
def fvRsqrt (a : Fv) : Xr :=
  match a with
  | .nan => .nan
  | .inf s => if s then .nan else .zero false
  | .fin s m e =>
    if m = 0 then .inf s
    else if s then .nan
    else
      let m2 := if e % 2 = 0 then m else 2 * m
      let e2 := if e % 2 = 0 then e else e - 1
      let r := isqrt 128 (2 ^ 200 / m2)
      .rat false (sticky r (r * r * m2 == 2 ^ 200)) 1 (-(e2 / 2) - 101)

/-- ⌊ln 2 × 2^512⌋, up to an error the slack below covers. -/
def ln2Scaled : Nat :=
  0xb17217f7d1cf79abc9e3b39803f2f6af40f343267298b62d8a0d175b8baafa2be7b876206debac98559552fb4afa1b10ed2eae35c138214427573b291169b825

/-- ⌊π × 2^512⌋, up to an error the slack below covers. -/
def piScaled : Nat :=
  0x3243f6a8885a308d313198a2e03707344a4093822299f31d0082efa98ec4e6c89452821e638d01377be5466cf34e90c6cc0ac29b7c97c50dd3f84d5b5b5470917

/-- The working scale. -/
def wScale : Nat := 2 ^ 512

/-- A bound on what truncation loses, in units of 2^-512. -/
def slack : Nat := 2 ^ 40

/-- Σ t^k / k! from a term on, scaled: the exponential series. -/
def expSeries : Nat → Nat → Nat → Nat → Nat
  | 0, _, _, _ => 0
  | n + 1, k, term, t =>
    term + expSeries n (k + 1) (term * t / wScale / (k + 1)) t

/-- The series of sin or cos in t², with signs alternating: positive and negative parts. -/
def trigSeries : Nat → Nat → Nat → Nat → Nat × Nat
  | 0, _, _, _ => (0, 0)
  | n + 1, k, term, t2 =>
    match trigSeries n (k + 2) (term * t2 / wScale / ((k + 1) * (k + 2))) t2 with
    | (p, q) => (term + q, p)

/-- Σ z^(2k+1) / (2k+1), scaled. -/
def atanhSeries : Nat → Nat → Nat → Nat → Nat
  | 0, _, _, _ => 0
  | n + 1, k, term, z2 => term / k + atanhSeries n (k + 2) (term * z2 / wScale) z2

/-- Bounds lo and hi on a magnitude in units of 2^s, the magnitude strictly between them, made an exact result that
rounds as the magnitude does: the 100 leading bits of what lies between them, and that more follows. The magnitude of a function of
R72 stands apart from every number of 100 bits by more than the bounds do (log entry 55). -/
def fromBounds (neg : Bool) (lo hi : Nat) (s : Int) : Xr :=
  let k := Nat.log2 hi - 100
  .rat neg (2 * ((lo + hi) / 2 / 2 ^ k) + 1) 1 (s + k - 1)

/-- 2^x (R72). -/
def fvExp2 (a : Fv) : Xr :=
  match a with
  | .nan => .nan
  | .inf s => if s then .zero false else .inf false
  | .fin s m e =>
    if m = 0 then .rat false 1 1 0
    else if 20 ≤ (Nat.log2 m : Int) + e then .rat false 1 1 (if s then -1048576 else 1048576)
    else
      -- x scaled by 2^512, rounded down; exact unless bits fall below
      let q := scaleDiv m 1 (e + 512)
      let fl : Int := if s then -(q.1 : Int) - (if q.2 = 0 then 0 else 1) else q.1
      let i := fl / (wScale : Int)
      let f := (fl % (wScale : Int)).toNat
      if f = 0 ∧ q.2 = 0 then .rat false 1 1 i
      else
        let t := f * ln2Scaled / wScale
        let v := expSeries 110 0 wScale t
        fromBounds false (max (v - slack) wScale) (min (v + slack) (2 * wScale)) (i - 512)

/-- log2 x (R72). -/
def fvLog2 (a : Fv) : Xr :=
  match a with
  | .nan => .nan
  | .inf s => if s then .nan else .inf false
  | .fin s m e =>
    if m = 0 then .inf true
    else if s then .nan
    else
      let l := Nat.log2 m
      let i : Int := (l : Int) + e
      if m = 2 ^ l then (if i = 0 then .zero false else .rat (decide (i < 0)) i.natAbs 1 0)
      else
        let z := (m - 2 ^ l) * wScale / (m + 2 ^ l)
        let v := 2 * atanhSeries 170 1 z (z * z / wScale) * wScale / ln2Scaled
        let t : Int := i * (wScale : Int) + v
        let n := t.natAbs
        fromBounds (decide (t < 0)) (n - slack) (n + slack) (-512)

/-- |sin(π r)| for a dyadic r of (0, 1), r = m × 2^e, as bounds and a scale. -/
def sinBounds (m : Nat) (e : Int) : Nat × Nat × Int :=
  if (Nat.log2 m : Int) + e < -170 then
    ((piScaled - slack) * m - m * wScale / 2 ^ 300, (piScaled + slack) * m, e - 512)
  else
    let r := (scaleDiv m 1 (e + 512)).1
    let r1 := if wScale < 2 * r then wScale - r else r
    let t := r1 * piScaled / wScale
    let t2 := t * t / wScale
    let v := if wScale < 4 * r1 then
        (let u := piScaled / 2 - t
         let pq := trigSeries 60 0 wScale (u * u / wScale)
         pq.1 - pq.2)
      else
        (let pq := trigSeries 60 1 t t2
         pq.1 - pq.2)
    (v - slack, min (v + slack) wScale, -512)

/-- The fraction of |x| modulo 2 and its integer part's parity: x = n + r with 0 ≤ r < 1, n modulo 2. -/
def splitUnit (m : Nat) (e : Int) : Nat × Nat × Int :=
  if 0 ≤ e then ((if e = 0 then m % 2 else 0), 0, 0)
  else (m / 2 ^ (-e).toNat % 2, m % 2 ^ (-e).toNat, e)

/-- sin(πx) (R72). -/
def fvSinpi (a : Fv) : Xr :=
  match a with
  | .nan => .nan
  | .inf _ => .nan
  | .fin s m e =>
    match splitUnit m e with
    | (n, r, er) =>
      if r = 0 then .zero (s && m != 0)
      else
        let neg := s != (n == 1)
        if 2 * r = 2 ^ (-er).toNat then .rat neg 1 1 0
        else
          let b := sinBounds r er
          fromBounds neg b.1 b.2.1 b.2.2

/-- cos(πx) (R72): |sin(π(x + 1/2))|, with the sign of the half-period. -/
def fvCospi (a : Fv) : Xr :=
  match a with
  | .nan => .nan
  | .inf _ => .nan
  | .fin _ m e =>
    match splitUnit m e with
    | (n, r, er) =>
      if r = 0 then .rat (n == 1) 1 1 0
      else
        let one := 2 ^ (-er).toNat
        if 2 * r = one then .zero false
        else
          let neg := (n == 1) != decide (one < 2 * r)
          -- distance of r from 1/2, in units of 2^(er - 1)
          let d := if one < 2 * r then 2 * r - one else one - 2 * r
          let b := sinBounds d (er - 1)
          fromBounds neg b.1 b.2.1 b.2.2

/-- minimumNumber or maximumNumber of two patterns (R68); −0 is less than +0. -/
def Fmt.minMax (f : Fmt) (mx : Bool) (x y : Nat) : Nat :=
  match f.dec x, f.dec y with
  | .nan, .nan => f.nan
  | .nan, _ => y
  | _, .nan => x
  | a, b =>
    let key : Fv → Nat → Int := fun v p =>
      match v with
      | .inf s => if s then -((2 ^ 64 : Nat) : Int) else ((2 ^ 64 : Nat) : Int)
      | _ => if p / f.sgn % 2 = 1 then -((p % f.sgn : Nat) : Int) - 1 else (p % f.sgn : Nat)
    let le := decide (key a x ≤ key b y)
    if mx then (if le then y else x) else (if le then x else y)

/-- The order of two values that are not NaN: −1, 0, 1, with −0 equal to +0. -/
def fvCompare (a b : Fv) : Int :=
  let big : Dy := { m := 1, e := 100000 }
  let d : Fv → Dy := fun v => match v with
    | .inf s => if s then big.neg else big
    | v => v.dy
  let x := Dy.add (d a) (d b).neg
  if x.m < 0 then -1 else if x.m = 0 then 0 else 1

/-- FCMP's condition (R121): codes 0-7. -/
def fcond (c : Nat) (a b : Fv) : Bool :=
  let un := a == .nan || b == .nan
  let o := fvCompare a b
  match c with
  | 0 => !un && o == 0
  | 1 => un || o != 0
  | 2 => !un && decide (o < 0)
  | 3 => !un && decide (o ≤ 0)
  | 4 => !un && decide (0 < o)
  | 5 => !un && decide (0 ≤ o)
  | 6 => !un
  | 7 => un
  | _ => false

/-- FCLASS's bit (R320). -/
def Fmt.fclass (f : Fmt) (x : Nat) : Nat :=
  match f.dec x with
  | .nan => if x / 2 ^ (f.fb - 1) % 2 = 1 then 512 else 256
  | .inf s => if s then 1 else 128
  | .fin s m _ =>
    if m = 0 then (if s then 8 else 16)
    else if f.subnormal x then (if s then 4 else 32) else (if s then 2 else 64)

/-- FRND (R327): an integral value of the same format. -/
def Fmt.frnd (f : Fmt) (m : Rm) (x : Nat) : Nat :=
  match f.dec x with
  | .nan => f.nan
  | .inf _ => x
  | .fin s n e =>
    if n = 0 then x
    else
      let i := roundNat m s n 1 e
      if i = 0 then f.sign s 0 else f.round .rn (.rat s i 1 0)

/-- FTOI (R70): the integer and whether SATF.CVT is set. -/
def fvToInt (m : Rm) (lo hi : Int) (v : Fv) : Int × Bool :=
  match v with
  | .nan => (0, true)
  | .inf s => if s then (lo, true) else (hi, true)
  | .fin s n e =>
    let i : Int := roundNat m s n 1 e
    let i := if s then -i else i
    if i < lo then (lo, true) else if hi < i then (hi, true) else (i, false)

/-- An integer as an exact result; zero is +0 (R71, R84). -/
def intXr (n : Int) (e : Int) : Xr := if n = 0 then .zero false else .rat (decide (n < 0)) n.natAbs 1 e

/-- The largest XS magnitude (R82). -/
def xsMax : Int := 9223372036854775807

/-- A value into an XS element (R81), and whether SATF.XS is set. -/
def toXs (v : Fv) (be : Int) : Int × Bool :=
  match v with
  | .nan => (0, true)
  | .inf s => (if s then -xsMax else xsMax, true)
  | .fin s n e =>
    let i : Int := roundNat .rn s n 1 (e - be)
    if xsMax < i then (if s then -xsMax else xsMax, true) else (if s then -i else i, false)

/-- An XS add (R82). -/
def xsAdd (a b : Int) : Int × Bool :=
  let s := a + b
  if xsMax < s then (xsMax, true) else if s < -xsMax then (-xsMax, true) else (s, false)

/-- Sat (R329). -/
def satInt (lo hi v : Int) : Int × Bool := if v < lo then (lo, true) else if hi < v then (hi, true) else (v, false)

/-- Digits (R46). -/
def digitsOf (f : Fmt) (x0 x1 x2 : Nat) : Nat :=
  match f.dec x0, f.dec x1, f.dec x2 with
  | .fin a b c, .fin d e g, .fin h i j =>
    let y0 := (Fv.fin a b c).dy
    let y1 := (Fv.fin d e g).dy
    let y2 := (Fv.fin h i j).dy
    let sum := Dy.add (Dy.add y0 y1) y2
    let m := (Fmt.f64.dec (Fmt.f64.round .rn (if sum.m = 0 then .zero false
      else .rat (decide (sum.m < 0)) sum.m.natAbs 3 sum.e))).dy
    let d0 := Dy.add y0 m.neg
    let d1 := Dy.add y1 m.neg
    let d2 := Dy.add y2 m.neg
    let s01 := if d0.absLe d1 then d1 else d0
    let s := if s01.absLe d2 then d2 else s01
    if s.m = 0 then f.p
    else if m.m = 0 then 0
    else
      let k := m.ilogb - s.ilogb - 1
      if k < 0 then 0 else min k.toNat f.p
  | _, _, _ => 0

/-- The digit count of one value (R47). -/
def digitsOne (f : Fmt) (x : Nat) : Nat := match f.dec x with | .fin .. => f.p | _ => 0

/-- The value a MEAN store writes to plane 0 (R60). -/
def meanOf (f : Fmt) (x0 x1 x2 : Nat) : Nat :=
  match f.dec x0, f.dec x1, f.dec x2 with
  | .fin a b c, .fin d e g, .fin h i j =>
    let sum := Dy.add (Dy.add (Fv.fin a b c).dy (Fv.fin d e g).dy) (Fv.fin h i j).dy
    f.round .rn (if sum.m = 0 then .zero (a && d && h && b == 0 && e == 0 && i == 0)
      else .rat (decide (sum.m < 0)) sum.m.natAbs 3 sum.e)
  | u, v, w =>
    let l := [u, v, w]
    if l.contains .nan || (l.contains (.inf true) && l.contains (.inf false)) then f.nan
    else f.sign (l.contains (.inf true)) f.infPat

/-- What sibling k reads of a MEAN element (R60). -/
def meanLoad (f : Fmt) (m d k : Nat) : Nat :=
  match f.dec m with
  | .fin s n e =>
    if f.p ≤ d ∨ n = 0 then m
    else
      let y := (Fv.fin s n e).dy
      let t := Dy.add y { m := (k : Int) - 1, e := y.ilogb - d - 1 }
      f.round .rn (t.xr s)
  | _ => m

/-- The nibble box of the Carousel (R39). -/
def sbox4 (x : Nat) : Nat :=
  [0x6, 0xB, 0x5, 0xE, 0x0, 0xD, 0x9, 0x2, 0xC, 0x7, 0x3, 0xF, 0xA, 0x4, 0x8, 0x1].getD x 0

/-- SBOX16 (R39). -/
def sbox16 (x : Nat) : Nat :=
  sbox4 (x % 16) + 16 * sbox4 (x / 16 % 16) + 256 * sbox4 (x / 256 % 16) + 4096 * sbox4 (x / 4096 % 16)

/-- The rounds of the Carousel (R39). -/
def carouselRounds : Nat → Nat → Nat → Nat → Nat → Nat
  | 0, x, _, z, _ => x ^^^ z
  | n + 1, x, y, z, w =>
    let x := sbox16 (x ^^^ y)
    let y := rotl 16 (y ^^^ z) 3
    let z := sbox16 (z ^^^ w)
    let w := rotl 16 (w ^^^ x) 7
    carouselRounds n x y z w

/-- The Carousel (R39): T, C and S to a 16-bit draw. -/
def carousel (t c s : Nat) : Nat :=
  carouselRounds 4 (bits c 15 0 ^^^ bits s 15 0) (bits c 31 16 ^^^ bits s 31 16)
    (bits c 47 32 ^^^ bits t 15 0 ^^^ bits s 47 32) (bits t 31 16 ^^^ bits s 63 48)

end Sys2Proof.Machine
end

