-- ==== Sys2Proof/Machine/History.lean ====
section
/-!
DEFINITION. What happens before what (R175), as far as the matrix engine's operands need it (R183): what an agent has done up to a point,
what a release publishes with the bytes it writes, who wrote each scratch byte.
-/
namespace Sys2Proof.Machine

/-- Everything of an agent that is numbered below this happens before. -/
def upTo (k : Know) (a : Agent) : Nat := match k.find? (fun e => e.1 == a) with | some e => e.2 | none => 0

/-- More of one agent happens before. -/
def learn (k : Know) (e : Agent × Nat) : Know :=
  if k.any (fun x => x.1 == e.1) then k.map (fun x => if x.1 = e.1 then (x.1, max x.2 e.2) else x) else k ++ [e]

/-- What happens before either point. -/
def joinKnow (k l : Know) : Know := l.foldl learn k

/-- What happens before a point of a gang: what it has heard of, and its own operations so far. -/
def Gang.known (g : Gang) (r : GangRef) (n : Nat) : Know := learn g.hist.heard (.gang r.grp r.gang, n)

/-- A release's mark joins others: the releases of one agent at one scope share theirs. -/
def addMark (ms : List Mark) (m : Mark) : List Mark :=
  let same := fun (x : Mark) => x.grp == m.grp && x.gang == m.gang && x.scope == m.scope
  if ms.any same then ms.map (fun x => if same x then { x with know := joinKnow x.know m.know } else x) else ms ++ [m]

/-- What a write of a gang carries: the marks of its earlier releasing fences, and its own where it releases (R175). -/
def Gang.marks (g : Gang) (r : GangRef) (rel : Option Nat) (n : Nat) : List Mark :=
  match rel with
  | some s => addMark g.hist.pubs { grp := r.grp, gang := r.gang, scope := s, know := g.known r n }
  | none => g.hist.pubs

/-- The number a place's cells start at. -/
def Place.key : Place → Nat
  | .phys a => a
  | .scr _ o => o

/-- The place of a byte, given that of another byte of its space. -/
def Place.moved (p : Place) (a : Nat) : Place := match p with | .phys _ => .phys a | .scr k _ => .scr k a

/-- The marks that a byte carries. -/
def marksAt (p : Place) (s : State) : List Mark := match s.marks.find? (fun e => e.1 == p) with | some e => e.2 | none => []

/-- The marks of some bytes. -/
def marksOf (p : Place) (n : Nat) (s : State) : List Mark :=
  if s.marks.isEmpty then [] else (List.range n).flatMap (fun i => marksAt (p.moved (p.key + i)) s)

/-! Results that a late write leaves unpredictable (R183). -/

/-- Change the matrix engine of a group. -/
def modMatrix (k : Nat) (f : Matrix → Matrix) (s : State) : State := modGroup k (fun g => { g with matrix := f g.matrix }) s

/-- A free pattern of 32 bits for an element of a tile or plane. -/
def freeElem (k slot el : Nat) (s : State) : Nat :=
  (Config.freeDWord (2 ^ 110 * (s.clock + 1) + 2 ^ 40 * (16 * k + slot) + el)).toNat % 2 ^ 32

/-- A sparse map from a list of keys and words. -/
def sparseOf {w : Nat} (l : List (Nat × Nat)) (m : Sparse w) : Sparse w :=
  l.foldr (fun e m => sput e.1 (BitVec.ofNat w e.2) m) m

/-- Bytes of an operand element (R187). -/
def matSize (fmt : Nat) : Nat := if fmt < 3 then 1 else 2

/-- The scales of a plane of one-byte elements, those of 1.0 unlisted (R186). -/
def scalesOf (f : BitVec 3) (scale : Nat → Nat) : AList Word :=
  if f.toNat < 3 then
    (List.range 96).filterMap (fun n => if scale n = 0x3F800000 then none else some (n, BitVec.ofNat 32 (scale n)))
  else []

/-- A plane of which nothing is known but its format. -/
def freePlane (k : Nat) (f : BitVec 3) (s : State) : Plane :=
  { elems := sparseOf ((List.range (128 * 96)).map (fun i => (i, freeElem k 8 i s % 2 ^ (8 * matSize f.toNat)))) [],
    scales := scalesOf f (fun n => freeElem k 8 (2 ^ 20 + n) s), fmt := f }

/-- Free patterns for the elements of a tile that an MMA of so many has written. -/
def freeTile (k : Nat) (s : State) (t : Nat × Nat) : List (Nat × Nat) :=
  (List.range t.2).map (fun el => (12288 * t.1 + el, freeElem k t.1 el s))

/-- The result of a joint instruction is unpredictable: its tiles, what a drain behind it has copied of them, its plane. -/
def Matrix.spoil (k : Nat) (s : State) (m : Matrix) (u : Used) : Matrix :=
  let els := fun (keep : Nat → Bool) => (u.tiles.filter (fun t => keep t.1)).flatMap (freeTile k s)
  { m with
    tiles := sparseOf (els (fun _ => true)) m.tiles
    planeA := if u.plane = some false then freePlane k m.planeA.fmt s else m.planeA
    planeB := if u.plane = some true then freePlane k m.planeB.fmt s else m.planeB
    queue := m.queue.map (fun o =>
      match o.joint with
      | .mdrain _ t .. =>
        if o.started && decide (u.op < o.id) then
          { o with drained := sparseOf (els (fun i => decide (t.toNat ≤ i) && decide (i < t.toNat + o.counts.length))) o.drained }
        else o
      | _ => o) }

/-- Scratch bytes are written by an operation: where joint instructions have read them, and it does not happen before their fences, their
results are unpredictable (R183). -/
def Matrix.writtenBy (k : Nat) (by' : Agent) (op : Nat) (cells : List Host.Cell) (s : State) (m : Matrix) : Matrix :=
  (m.used.filter (fun u => decide (upTo u.fence by' ≤ op)
    && cells.any (fun c => u.reads.any (fun r => decide (r.1 ≤ c.1) && decide (c.1 < r.1 + r.2))))).foldl (Matrix.spoil k s) m

/-- A plane is loaded, or tiles are cleared: the results that they held are gone. -/
def Matrix.forget (plane : Option Bool) (gone : Nat → Bool) (m : Matrix) : Matrix :=
  let left := fun (u : Used) => { u with plane := if u.plane = plane then none else u.plane, tiles := u.tiles.filter (fun t => !gone t.1) }
  { m with used := (m.used.map left).filter (fun u => u.plane.isSome || !u.tiles.isEmpty) }

/-- Tiles have been written from the active plane by an operation: they hold its result, and that of the plane. -/
def Matrix.useTiles (u : Used) (m : Matrix) : Matrix :=
  { m with used := m.used.map (fun x => if x.plane = some m.selB then { x with tiles := x.tiles ++ u.tiles } else x) ++ [u] }

/-- Marks come to stand on written bytes: those of the write, to which those of an atomic's own place before it are added, as the chain of
R175 has it. -/
def noteMarks (ms : List Mark) (old : Place → List Mark) (p : Place) (cells : List Host.Cell) (s : State) : State :=
  let now := cells.filterMap (fun c =>
    let q := p.moved c.1
    match ms.foldl addMark (old q) with
    | [] => none
    | l => some (q, l))
  if now.isEmpty then s else { s with marks := s.marks.filter (fun e => !now.any (fun x => x.1 == e.1)) ++ now }

/-- Bytes have been written by an operation of an agent: with its marks (R175), and with what R183 says of scratch that the matrix
engine reads. -/
def noteWrite (by' : Agent) (op : Nat) (ms : List Mark) (old : Place → List Mark) (p : Place) (cells : List Host.Cell) (s : State) : State :=
  let s1 := noteMarks ms old p cells s
  match p with
  | .phys _ => s1
  | .scr k _ => modGroup k (fun g =>
      { g with scrBy := cells.foldl (fun m c => aput c.1 (by', op) m) g.scrBy, matrix := g.matrix.writtenBy k by' op cells s }) s1

/-- Bytes are overwritten: no mark stands on them. -/
def unmark (p : Place) (cells : List Host.Cell) (ms : List (Place × List Mark)) : List (Place × List Mark) :=
  ms.filter (fun e => !cells.any (fun c => p.moved c.1 == e.1))

end Sys2Proof.Machine
end

