-- ==== Sys2Proof/Machine/Mem.lean ====
section
/-!
DEFINITION. Memory: homes and cache lines (R152-R156), poison (R262), translation (R245-R251), the address spaces
(R142-R147) and layout windows (R58-R60). One numbering holds every physical byte: device memory below 2^39, host
memory from 2^60, the memory of fabric peer k from 2^64 + k * 2^57 (log entry 4).
-/
namespace Sys2Proof.Machine

/-- Where host physical memory starts in the model's numbering. -/
def hostBase : Nat := 2 ^ 60
/-- Where the fabric peers' memory starts in the model's numbering. -/
def peerBase : Nat := 2 ^ 64

/-- Device memory (R152). -/
def isDev (a : Nat) : Bool := decide (a < 2 ^ 39)

/-- HomeOf (R152): die, slice, stack. -/
def homeOf (pa : Nat) : Nat × Nat × Nat :=
  let line := pa / 128
  let stack := bits pa 14 12 ^^^ bits pa 17 15 ^^^ bits pa 20 18 ^^^ bits pa 23 21
  let slice := (line ^^^ (line / 2 ^ 13) ^^^ (line / 2 ^ 26)) % 160
  (stack / 2, slice, stack)

/-- The recorded owner of a byte's frame (R153). -/
def ownerAt (pa : Nat) (s : State) : BitVec 6 := sget (pa / 65536) s.owners

/-- The segments that are out of service: being quiesced, being tested, or quarantined (R266). -/
def outOfService (s : State) : List Segment := s.quiescing ++ s.testing ++ s.quarantined

/-- The die of a core (R2). -/
def dieOf (core : Nat) : Nat := core / 40 % 4

/-- The die of the host port that fetches host lines for a die (R152, R286): port 0 on die 0 serves dies 0 and 1, port 1 on die 2 serves
dies 2 and 3; where its link is down, the other port. -/
def hostDie (die : Nat) (s : State) : Nat :=
  if s.links = 1#2 then 0 else if s.links = 2#2 then 2 else die / 2 * 2

/-- The slice of a line as self-test segments number slices, die × 160 + slice (R152, R260): of a host line by bits [38:0] of its
address, on the die of the port that fetches it for the die that asks. -/
def homeSlice (ln : Nat) (s : State) (die : Nat) : Nat :=
  if isDev (128 * ln) then (homeOf (128 * ln)).1 * 160 + (homeOf (128 * ln)).2.1
  else hostDie die s * 160 + (homeOf (128 * ln % 2 ^ 39)).2.1

/-- One of some numbers: which is free. -/
def oneOf (step : Nat) (l : List Nat) : Nat := l.getD (Config.pick step l.length % max l.length 1) 0

/-- The L2 ways a line may be placed in, numbered 16 × slice + way: those of its slice that are in service and hold fewer than
their 512 lines (R2, R266). -/
def l2Places (ln : Nat) (s : State) (die : Nat) : List Nat :=
  let sl := homeSlice ln s die
  (((List.range 16).filter (fun w => !(outOfService s).contains (.l2Way sl w))).map (16 * sl + ·)).filter (fun p =>
    decide (s.l2.length < 512) || decide ((s.l2.filter (fun e => e.2.seg == p)).length < 512))

/-- A sector that the Mirror holds of the 512-byte line of a 128-byte sector (R154). -/
def mirrorLine (ln : Nat) (s : State) : Option CLine := ((List.range 4).filterMap (fun i => aget (ln / 4 * 4 + i) s.mirror)).head?

/-- A Mirror subarray, numbered 64 × die + subarray, is in service. -/
def subUsable (p : Nat) (s : State) : Bool := !(outOfService s).contains (.mirrorSub (p / 64) (p % 64))

/-- The subarrays of the home die's Mirror that a new 512-byte line may be placed in: in service, and holding fewer than their
131,072 lines (R1, R2, R154, R266). -/
def mirrorPlaces (ln : Nat) (s : State) : List Nat :=
  (((List.range 64).map (64 * (homeOf (128 * ln)).1 + ·)).filter (fun p => subUsable p s)).filter (fun p =>
    decide (s.mirror.length < 131072)
      || decide ((nodup ((s.mirror.filter (fun e => e.2.seg == p)).map (fun e => e.1 / 4))).length < 131072))

/-- The Mirror of a device line's home holds its sector from now on, where it has room: in its 512-byte line, under that line's
owner tag, or in a new line under its frame's owner (R153, R154). -/
def allocMirror (ln : Nat) (s : State) : State :=
  let put := fun (o : BitVec 6) (p : Nat) =>
    { s with mirror := aput ln { owner := o, dirty := false, below := [], flips := 0, stuck := false, seg := p } s.mirror }
  if !isDev (128 * ln) || (aget ln s.mirror).isSome then s
  else
    match mirrorLine ln s with
    | some c => if subUsable c.seg s then put c.owner c.seg else s
    | none =>
      match mirrorPlaces ln s with
      | [] => s
      | ps => put (ownerAt (128 * ln) s) (oneOf (s.clock + ln) ps)

/-- The L2 holds a line from now on, where its slice has room. -/
def allocL2 (ln : Nat) (s : State) (die : Nat) : State :=
  if (aget ln s.l2).isSome then s
  else
    match l2Places ln s die with
    | [] => s
    | ps =>
      { s with l2 := aput ln { owner := ownerAt (128 * ln) s, dirty := false, below := [], flips := 0, stuck := false,
                               seg := oneOf (s.clock + ln) ps } s.l2 }

/-- The owner tag of a line at a level that holds it, else the owner of its frame (R153). -/
def tagAt (ln : Nat) (held : AList CLine) (s : State) : BitVec 6 :=
  match aget ln held with | some c => c.owner | none => ownerAt (128 * ln) s

/-- A device line is read or written at its Mirror, which holds it from now on where it has room; the access counts, and the miss
(R154, R280). -/
def touchMirror (ln : Nat) (s : State) : State :=
  if isDev (128 * ln) then
    let s1 := allocMirror ln s
    let s2 := countEvents 0x0020 (tagAt ln s1.mirror s1) 1 s1
    if (aget ln s.mirror).isSome then s2 else countEvents 0x0021 (tagAt ln s2.mirror s2) 1 s2
  else s

/-- A line is read or written at its home: its L2 slice holds it from now on, and where it did not, the Mirror does, as they have room.
Where one has none it stays uncached there; room comes with the evictions that the caches make of themselves (R153, R154, log entry
11). The access counts, and the miss (R280). `die` asks: that of a core, or die 0 for the Ringmaster and the logs. -/
def touchLine (ln : Nat) (s : State) (die : Nat := 0) : State :=
  if (aget ln s.l2).isSome then countEvents 0x0010 (tagAt ln s.l2 s) 1 s
  else
    let s1 := allocL2 ln (touchMirror ln s) die
    countEvents 0x0011 (tagAt ln s1.l2 s1) 1 (countEvents 0x0010 (tagAt ln s1.l2 s1) 1 s1)

/-- A line as its level holds it once it is written: it keeps the bytes of the level below while it is dirty. -/
def CLine.written (c : CLine) (ln : Nat) (s : State) : CLine :=
  if c.dirty then c else { c with dirty := true, below := getBytes s.mem (128 * ln) 128 }

/-- A line is about to be written at its home: in the L2, or, uncached there, in the Mirror. -/
def dirtyLine (ln : Nat) (s : State) (die : Nat) : State :=
  let s := touchLine ln s die
  if (aget ln s.l2).isSome then { s with l2 := amod ln (fun c => c.written ln s) s.l2 }
  else { s with mirror := amod ln (fun c => c.written ln s) s.mirror }

/-- The first ECC word of a line has been written whole, at the level that takes the line's writes. -/
def freshWord (ln : Nat) (s : State) : State :=
  if (aget ln s.l2).isSome then { s with l2 := amod ln (fun c => { c with flips := 0 }) s.l2 }
  else if (aget ln s.mirror).isSome then { s with mirror := amod ln (fun c => { c with flips := 0 }) s.mirror }
  else { s with hbmFlips := aerase ln s.hbmFlips }

/-- Dirty Mirror data goes to the HBM (R156). -/
def cleanMirror (ln : Nat) (s : State) : State :=
  match aget ln s.mirror with
  | none => s
  | some c =>
    if c.dirty then
      { s with mirror := aput ln { c with dirty := false, below := [], flips := 0 } s.mirror, hbmFlips := aerase ln s.hbmFlips }
    else s

/-- The Mirror gives up its copy, writing it down first (R156). -/
def dropMirror (ln : Nat) (s : State) : State :=
  let s := cleanMirror ln s
  { s with mirror := aerase ln s.mirror }

/-- A dirty line whose write-back must wait: it goes to host memory, and no link is up (R286). -/
def backCutOff (ln : Nat) (s : State) : Bool :=
  !isDev (128 * ln) && s.links == 0#2 && (match aget ln s.l2 with | some c => c.dirty | none => false)

/-- Dirty L2 data goes down to the Mirror, or past a Mirror that has no room to the HBM, or to host memory (R154, R156). -/
def cleanL2 (ln : Nat) (s : State) : State :=
  match aget ln s.l2 with
  | none => s
  | some c =>
    if c.dirty && !backCutOff ln s then
      let s := countEvents 0x0012 c.owner 1 { s with l2 := aput ln { c with dirty := false, below := [], flips := 0 } s.l2 }
      if isDev (128 * ln) then
        let s := touchMirror ln s
        match aget ln s.mirror with
        | some m =>
          { s with mirror := aput ln (if m.dirty then { m with flips := 0 } else { m with dirty := true, below := c.below, flips := 0 }) s.mirror }
        | none => { s with hbmFlips := aerase ln s.hbmFlips }
      else s
    else s

/-- The L2 gives up its copy, writing it down first (R156). -/
def dropL2 (ln : Nat) (s : State) : State :=
  if backCutOff ln s then s
  else
    let s := cleanL2 ln s
    { s with l2 := aerase ln s.l2 }

/-- The level at which a read of a line meets an uncorrectable error that no refetch mends (R264): 1 a dirty L2 line,
2 a dirty Mirror line, 3 HBM data. 0 where it meets none: a clean line is refetched from the level below. -/
def fatalLevel (ln : Nat) (s : State) : Nat :=
  let hbm := if 2 ≤ (aget ln s.hbmFlips).getD 0 then 3 else 0
  let mir := match aget ln s.mirror with
    | some c => if c.flips < 2 then 0 else if c.dirty then 2 else hbm
    | none => hbm
  match aget ln s.l2 with
  | some c => if c.flips < 2 then 0 else if c.dirty then 1 else mir
  | none => mir

/-- The same for a read at the Mirror, where a clean L2 copy is of no help and a dirty one is written down first. -/
def mirrorLevel (ln : Nat) (s : State) : Nat :=
  match aget ln s.l2 with
  | some c => if c.dirty then (if c.flips < 2 then 0 else 1) else fatalLevel ln { s with l2 := aerase ln s.l2 }
  | none => fatalLevel ln s

/-- The first line of a range of bytes whose read meets such an error. -/
def badLine (a n : Nat) (s : State) : Option Nat :=
  ((List.range ((a + n - 1) / 128 - a / 128 + 1)).map (fun i => a / 128 + i)).find? (fun ln => fatalLevel ln s != 0)

/-- A read corrects what can be corrected: single bits, and clean lines, which are refetched (R264, R402). -/
def scrubLine (ln : Nat) (s : State) : State :=
  let fix := fun (c : CLine) => if c.dirty && decide (2 ≤ c.flips) then c else { c with flips := 0 }
  let hbm := match aget ln s.hbmFlips with | some 1 => aerase ln s.hbmFlips | _ => s.hbmFlips
  match aget ln s.l2 with
  | some c =>
    if c.flips = 0 then s
    else if c.flips = 1 || c.dirty then { s with l2 := aput ln (fix c) s.l2 }
    else { s with l2 := aput ln (fix c) s.l2, mirror := amod ln fix s.mirror, hbmFlips := hbm }
  | none =>
    match aget ln s.mirror with
    | some c => if c.flips = 0 then s else { s with mirror := aput ln (fix c) s.mirror, hbmFlips := hbm }
    | none => { s with hbmFlips := hbm }

/-- Lines are read. -/
def scrubLines (lns : List Nat) (s : State) : State :=
  if s.l2.all (fun e => e.2.flips == 0) && s.mirror.all (fun e => e.2.flips == 0) && s.hbmFlips.isEmpty then s
  else lns.foldl (fun s ln => scrubLine ln s) s

/-- The lines a range of bytes meets. -/
def linesFrom (a n : Nat) : List Nat := (List.range ((a + n + 127) / 128 - a / 128)).map (fun i => a / 128 + i)

/-- A line is read at its home: corrected where it can be, and held by L2 and Mirror from now on. -/
def homeRead (s : State) (ln : Nat) (die : Nat := 0) : State := touchLine ln (scrubLine ln s) die

/-- Lines are read at their homes. -/
def homeReads (die : Nat) (lns : List Nat) (s : State) : State := lns.foldl (fun s ln => homeRead s ln die) s

/-- The lines of a range of bytes are read. -/
def readLines (a n : Nat) (s : State) : State := homeReads 0 (linesFrom a n) s

/-- An uncorrectable line that a read of no launch has found is dealt with next, by the step MEMORY_UE (R264). -/
def reportLine (ln : Nat) (s : State) : State :=
  { s with agenda := .memoryUe (BitVec.ofNat 2 (fatalLevel ln s)) (128 * ln) :: s.agenda }

/-- The device reads a range of bytes for itself: the first line that cannot be corrected is dealt with next (R264, R402). -/
def readHome (a n : Nat) (s : State) : State :=
  match badLine a n s with
  | some ln => reportLine ln (readLines a n s)
  | none => readLines a n s

/-- Bytes cover a part of the first ECC word of a line, and not all of it. -/
def partOfFirst (cells : List Host.Cell) : Bool :=
  let n := (cells.filter (fun c => c.1 / 8 % 16 == 0)).length
  decide (0 < n) && decide (n < 8)

/-- A write of bytes of a line at its home reads the line: a fill, or the rest of its first ECC word (R264, R402). -/
def writeReads (ln : Nat) (cells : List Host.Cell) (s : State) : Bool :=
  (aget ln s.l2).isNone || partOfFirst (cells.filter (fun c => c.1 / 128 == ln))

/-- The 8-byte words that cells cover whole. -/
def wholeWords (cells : List Host.Cell) : List Nat :=
  let ks := nodup (cells.map Prod.fst)
  (nodup (ks.map (· / 8))).filter (fun w => decide (8 ≤ (ks.filter (fun k => k / 8 == w)).length))

/-- Bytes are performed at their place: at the L2 home, at the scratch bank, or at a peer (R151, R152). Whole words
lose their poison (R262). Cells hold physical addresses or scratch offsets, as the place is; `die` asks. -/
def perform (p : Place) (cells : List Host.Cell) (s : State) (die : Nat := 0) : State :=
  match p with
  | .scr k _ =>
    modGroup k (fun g =>
      { g with
        scratch := putCells cells g.scratch
        scrPois := (wholeWords cells).foldl (fun m w => sput w 0#1 m) g.scrPois
        scrBy := adrop (fun a => cells.any (fun c => c.1 == a)) g.scrBy }) { s with marks := unmark p cells s.marks }
  | .phys _ =>
    let lns := nodup ((cells.filter (fun c => decide (c.1 < peerBase))).map (fun c => c.1 / 128))
    let s := lns.foldl (fun s ln => dirtyLine ln s die) s
    let ws := wholeWords cells
    let s := lns.foldl (fun s ln => if ws.contains (16 * ln) then freshWord ln s else s) s
    { s with mem := putCells cells s.mem, poison := ws.foldl (fun m w => sput w 0#1 m) s.poison, marks := unmark p cells s.marks }

/-- An element's bytes are added at the Mirror: the L2 drops its copy first, and the Mirror reads its own (R155, R182, R280, R402). -/
def performMirror (cells : List Host.Cell) (s : State) : State :=
  let lns := nodup ((cells.filter (fun c => isDev c.1)).map (fun c => c.1 / 128))
  let s := lns.foldl (fun s ln =>
    let s := scrubLine ln (touchMirror ln (dropL2 ln s))
    let s := countEvents 0x0022 (tagAt ln s.mirror s) 1 s
    { s with mirror := amod ln (fun c => c.written ln s) s.mirror }) s
  { s with mem := putCells cells s.mem,
           poison := (wholeWords cells).foldl (fun m w => sput w 0#1 m) s.poison
           marks := unmark (.phys 0) cells s.marks }

/-- The 8-byte words a range of bytes meets. -/
def wordsOf (a n : Nat) : List Nat := (List.range ((a + n + 7) / 8 - a / 8)).map (fun i => a / 8 + i)

/-- Mark words poisoned (R262). -/
def poisonAt (p : Place) (n : Nat) (s : State) : State :=
  match p with
  | .scr k o => modGroup k (fun g => { g with scrPois := (wordsOf o n).foldl (fun m w => sput w 1#1 m) g.scrPois }) s
  | .phys a => { s with poison := (wordsOf a n).foldl (fun m w => sput w 1#1 m) s.poison }

/-- The bytes at a place, as its point of coherence holds them. -/
def bytesAt (p : Place) (n : Nat) (s : State) : List Byte :=
  match p with
  | .phys a => getBytes s.mem a n
  | .scr k o => match aget k s.groups with | some g => getBytes g.scratch o n | none => List.replicate n 0#8

/-- A little-endian number at a place. -/
def numAt (p : Place) (n : Nat) (s : State) : Nat := ofBytes (bytesAt p n s)

/-- Some byte of a range lies in a poisoned word (R262). -/
def poisonedAt (p : Place) (n : Nat) (s : State) : Bool :=
  match p with
  | .phys a => (wordsOf a n).any (fun w => sget w s.poison == 1#1)
  | .scr k o =>
    match aget k s.groups with
    | some g => (wordsOf o n).any (fun w => sget w g.scrPois == 1#1)
    | none => false

/-- What a read-modify-write finds at a place: poisoned data are unpredictable (R262). -/
def oldNum (p : Place) (n : Nat) (s : State) : Nat :=
  if poisonedAt p n s then
    let i := 2 ^ 90 * (s.clock + 1) + 2 * (match p with | .phys a => 2 * a | .scr k o => 2 * (2 ^ 24 * k + o) + 1)
    ((Config.freeDWord i).toNat + 2 ^ 64 * (Config.freeDWord (i + 1)).toNat) % 2 ^ (8 * n)
  else numAt p n s

/-- A place some bytes further on. -/
def Place.plus (p : Place) (n : Nat) : Place :=
  match p with
  | .phys a => .phys (a + n)
  | .scr k o => .scr k (o + n)

/-- Write bytes at a physical address, as the Ringmaster, the rings and the logs do. A line that the write must read and that cannot
be corrected is reported, and its caches do not take the bytes (R264, R402). -/
def putPhys (a : Nat) (bs : List Byte) (s : State) : State :=
  let cells := place a bs
  let lns := (linesFrom a bs.length).filter (fun ln => decide (128 * ln < peerBase) && writeReads ln cells s)
  match lns.filter (fun ln => fatalLevel ln s != 0) with
  | [] => perform (.phys a) cells (scrubLines lns s)
  | bad => { (bad.foldl (fun s ln => reportLine ln s) s) with mem := putCells cells s.mem }

/-! Functions and contexts (R289). -/

/-- The context-table entry of a context (R245), in its function's table. -/
def ctxEntry (ctx : BitVec 6) (s : State) : Nat := (mreg (ownerFn ctx s) 0x1838 s).toNat + 32 * ctx.toNat

/-- The entry is valid. Context 0 is the firmware's and no table serves it. -/
def ctxValid (ctx : BitVec 6) (s : State) : Bool := ctx != 0#6 && getNum s.mem (ctxEntry ctx s + 16) 4 % 2 == 1

/-- Host space is enabled for a context (R245). -/
def ctxAts (ctx : BitVec 6) (s : State) : Bool := ctxValid ctx s && getNum s.mem (ctxEntry ctx s + 16) 4 / 2 % 2 == 1

/-- A frame is retired (R265). -/
def isRetired (pa : Nat) (s : State) : Bool := isDev pa && s.retired.any (fun e => e.1 == pa / 65536)

/-- What a walk answers (R246-R248). -/
inductive Walk where
  | ok (t : TlbEnt)
  | page (kind : Nat)
  | perm
  /-- A table entry lies in a line that cannot be corrected (R264). -/
  | line (ln : Nat)
  deriving DecidableEq, Repr

/-- One level of a walk: entry, page size (0 where no page stands), table alignment of the next level. -/
inductive Level where
  | next (table : Nat)
  | leaf (pa mem : Nat) (rd wr ex : Bool)
  | bad (kind : Nat)
  deriving DecidableEq, Repr

/-- Read a table entry (R247): `size` is the size of a page at this level, 0 where the level maps none; `align` the
alignment of a next table, 0 where the level has none. -/
def level (e size align : Nat) : Level :=
  let addr := bits e 51 8 * 256
  let reserved := bits e 63 54 != 0 || bits e 7 7 != 0 || bits e 5 5 != 0 || bits e 1 1 != 0
  if e % 2 = 0 then .bad 0
  else if reserved then .bad 1
  else if bits e 6 6 = 1 then
    (if size = 0 || addr % (max size 1) != 0 || decide (1 < bits e 53 52) || (bits e 53 52 == 0 && decide (2 ^ 39 ≤ addr)) then .bad 1
     else .leaf addr (bits e 53 52) (bits e 2 2 == 1) (bits e 3 3 == 1) (bits e 4 4 == 1))
  else if align = 0 || addr % (max align 1) != 0 || bits e 53 52 != 0 || decide (2 ^ 39 ≤ addr) then .bad 1
  else .next addr

/-- A table entry as the walk reads it; a poisoned one is unpredictable (R10, R262). -/
def tableEntry (a : Nat) (s : State) : Nat :=
  if poisonedAt (.phys a) 8 s then (Config.freeDWord (2 ^ 133 * (s.clock + 1) + a)).toNat else getNum s.mem a 8

/-- The levels of a walk from a table on: index position and width, page size, next table's alignment (R246). A table that does
not lie in device memory, ROOT's too, is malformed (R247). -/
def walkFrom (ctx : BitVec 6) (va : Nat) (s : State) : List (Nat × Nat × Nat × Nat) → Nat → Walk
  | [], _ => .page 1
  | (lo, n, size, align) :: rest, table =>
    let at_ := table + 8 * (va / 2 ^ lo % 2 ^ n)
    if 2 ^ 39 ≤ at_ || isRetired at_ s then .page 1
    else if fatalLevel (at_ / 128) s != 0 then .line (at_ / 128)
    else
      match level (tableEntry at_ s) size align with
      | .bad k => .page k
      | .next t => walkFrom ctx va s rest t
      | .leaf pa mem rd wr ex =>
        .ok { ctx := ctx, va := va / 2 ^ lo * 2 ^ lo, size := 2 ^ lo, pa := pa, mem := mem, rd := rd, wr := wr, ex := ex }

/-- The lines of the tables that a walk reads. -/
def walkLines (va : Nat) (s : State) : List (Nat × Nat × Nat × Nat) → Nat → List Nat
  | [], _ => []
  | (lo, n, size, align) :: rest, table =>
    let at_ := table + 8 * (va / 2 ^ lo % 2 ^ n)
    at_ / 128 :: (match level (tableEntry at_ s) size align with | .next t => walkLines va s rest t | _ => [])

/-- The four levels of a walk (R246). -/
def levels : List (Nat × Nat × Nat × Nat) := [(42, 15, 0, 32768), (30, 12, 2 ^ 30, 4096), (21, 9, 2 ^ 21, 256), (16, 5, 65536, 0)]

/-- A walk of the context's tables (R245, R246). -/
def walk (ctx : BitVec 6) (va : Nat) (s : State) : Walk :=
  if ctxValid ctx s then
    match badLine (ctxEntry ctx s) 32 s with
    | some ln => .line ln
    | none => walkFrom ctx va s levels (getNum s.mem (ctxEntry ctx s) 8)
  else .perm

/-- A translation a TLB holds (R249). `mem` 2 marks a host-space translation (R251). -/
def tlbFind (ctx : BitVec 6) (va : Nat) (host : Bool) (s : State) : Option TlbEnt :=
  s.tlb.find? (fun t => t.ctx == ctx && (t.mem == 2) == host && decide (t.va ≤ va) && decide (va < t.va + t.size))

/-- The translation an access uses: where a TLB entry and the tables differ, either, unpredictably (R249). -/
def translate (ctx : BitVec 6) (va slot : Nat) (s : State) : Walk :=
  let w := walk ctx va s
  match tlbFind ctx va false s with
  | none => w
  | some t => if .ok t = w then w else if Config.freeBool (65536 * s.clock + slot) then .ok t else w

/-- An access leaves its translation in a TLB (R249), and its walk has read the tables at their homes (R246). The window records are read with the context's entry (R402). An
entry is never made from a walk that fails. -/
def tlbTouch (ctx : BitVec 6) (va : Nat) (s : State) : State :=
  match walk ctx va s with
  | .ok t =>
    if s.tlb.contains t then s
    else
      let e := ctxEntry ctx s
      { homeReads 0 (e / 128 :: walkLines va s levels (getNum s.mem e 8)) (scrubLines (linesFrom (getNum s.mem (e + 8) 8) 2048) s)
        with tlb := s.tlb ++ [t] }
  | _ => s

/-- The physical address a translation gives (R247): device memory, or host memory under MEM 1. -/
def TlbEnt.phys (t : TlbEnt) (va : Nat) : Nat := (if t.mem = 0 then t.pa else hostBase + t.pa) + (va - t.va)

/-- What an access needs (R248). -/
inductive Need where
  | rd | wr | at | ex
  deriving DecidableEq, Repr

/-- ACCESS of a fault record (R242): an atomic reads and writes. -/
def Need.access : Need → Nat
  | .rd => 1
  | .wr => 2
  | .at => 11
  | .ex => 4

/-- The permission check (R248). -/
def Need.ok (n : Need) (t : TlbEnt) : Bool :=
  match n with
  | .rd => t.rd
  | .wr => t.wr
  | .at => t.rd && t.wr
  | .ex => t.ex

/-- Where one byte of an access lies, or why it cannot be reached. -/
inductive Res where
  | at (p : Place)
  | bad (f : FReq)
  | miss (va : Nat)
  /-- A table of its walk lies in a line that cannot be corrected. -/
  | table (ln : Nat)
  deriving DecidableEq, Repr

/-- PERM at an address. -/
def permAt (n : Need) (a : Nat) : FReq := { cls := 0x04, addr := BitVec.ofNat 64 a, access := n.access }

/-- An access that writes. -/
def Need.writes : Need → Bool
  | .wr => true
  | .at => true
  | _ => false

/-- An address lies in the pool of a loaded object of the context, which kernels may not write (R140). -/
def inPool (ctx : BitVec 6) (va : Nat) (s : State) : Bool :=
  s.objects.any (fun e => e.2.ctx == ctx && decide (e.2.poolAt ≤ va) && decide (va < e.2.poolAt + e.2.poolSize))

/-- A virtual address of the context (R140, R143, R246-R248, R265): none lies at or above 2^57, a plane address least of all
(R59). -/
def resolveVa (ctx : BitVec 6) (va : Nat) (n : Need) (slot : Nat) (s : State) : Res :=
  if 2 ^ 57 ≤ va ∨ (n.writes ∧ inPool ctx va s) then .bad (permAt n va)
  else match translate ctx va slot s with
  | .perm => .bad (permAt n va)
  | .page k => .bad { cls := 0x03, kind := k, addr := BitVec.ofNat 64 va, access := n.access }
  | .line ln => .table ln
  | .ok t =>
    if n.ok t && !isRetired (t.phys va) s then .at (.phys (t.phys va)) else .bad { permAt n va with cause := .walk va }

/-- A normalised space: what a lane's address is checked and looked up in. -/
inductive NSpace where
  | virt
  | scratch (grp size : Nat)
  | host (r : FragRef)
  | fabric (peer : Nat)
  deriving DecidableEq, Repr

/-- The group of a cluster rank (R145, R17). -/
def rankGroup (c : Cur) (rank : Nat) (s : State) : Option (Nat × Group) :=
  let g := c.grp.g / c.lau.r.cluster * c.lau.r.cluster + rank
  s.groups.find? (fun e => e.2.launch == c.grp.launch && e.2.g == g)

/-- A cluster offset (R145). -/
def clusterSpace (c : Cur) (ea : Nat) (n : Need) (full : Nat) (s : State) : Except FReq (NSpace × Nat) :=
  let rank := ea / 2 ^ 24
  if decide (c.lau.r.cluster ≤ rank) then .error (permAt n full)
  else
    match rankGroup c rank s with
    | some (k, g) => .ok (.scratch k g.scrSize, ea % 2 ^ 24)
    | none => .error (permAt n full)

/-- The fabric descriptor of a context (R293). -/
def fabricDesc (ctx : BitVec 6) (s : State) : Nat := (mreg 0 0x2400 s).toNat + 2048 * ctx.toNat

/-- The ports that may carry traffic to a peer; 0 for a peer outside the group (R293). -/
def fabricPorts (ctx : BitVec 6) (peer : Nat) (s : State) : BitVec 16 :=
  if mreg 0 0x2400 s = 0#64 then 0#16
  else if decide (peer < getNum s.mem (fabricDesc ctx s + 1) 1) then
    BitVec.ofNat 16 (getNum s.mem (fabricDesc ctx s + 18 + 8 * peer) 2)
  else 0#16

/-- The node id of a peer of a context's group (R293). -/
def peerNode (ctx : BitVec 6) (peer : Nat) (s : State) : BitVec 16 := BitVec.ofNat 16 (getNum s.mem (fabricDesc ctx s + 16 + 8 * peer) 2)

/-- The node id of this device in it. -/
def selfNode (ctx : BitVec 6) (s : State) : BitVec 16 := peerNode ctx (getNum s.mem (fabricDesc ctx s) 1) s

/-- A channel of a port, as the sequence numbers key it. -/
def channel (port : BitVec 4) (vc : BitVec 2) : Nat := 4 * port.toNat + vc.toNat

/-- A port sends a flit, and keeps it for a replay until it is acknowledged (R280, R292). -/
def sendFlit (port : BitVec 4) (type : BitVec 8) (vc : BitVec 2) (ctx : BitVec 6) (dst : BitVec 16) (op : FlitOp) (s : State) : State :=
  let ch := channel port vc
  let f : Flit := { crcOk := true, type := type, vc := vc, seq := sget ch s.txSeq, dst := dst, src := selfNode ctx s, ctx := ctx, op := op }
  countFabric 0x0030 { s with
    sent := s.sent ++ [{ port := port, flit := f }], replay := s.replay ++ [{ port := port, flit := f }], txSeq := sput ch (f.seq + 1) s.txSeq }

/-- One of the ports that may carry traffic to a peer and are up: which is free, one for each step. -/
def portTo (ctx : BitVec 6) (peer : Nat) (s : State) : Option (BitVec 4) :=
  match (List.range 16).filter (fun i => (fabricPorts ctx peer s &&& s.ports).getLsbD i) with
  | [] => none
  | l => some (BitVec.ofNat 4 (oneOf (2 * s.clock) l))

/-- A flit of the context goes to a peer, a request or the checksums of data sent before; its virtual channel is free, one for each step. -/
def sendTo (ctx : BitVec 6) (peer : Nat) (type : BitVec 8) (op : FlitOp) (s : State) : State :=
  match portTo ctx peer s with
  | some port => sendFlit port type (BitVec.ofNat 2 (Config.pick (2 * s.clock + 1) 4)) ctx (peerNode ctx peer s) op s
  | none => s

/-- The peer and the address there of a place in the model's numbering. -/
def Place.atPeer : Place → Option (Nat × Nat)
  | .phys a => if peerBase ≤ a then some ((a - peerBase) / 2 ^ 57, (a - peerBase) % 2 ^ 57) else none
  | .scr .. => none

/-- The request flit of an access to a place at a peer: none is sent for any other place. -/
def askPeer (ctx : BitVec 6) (p : Place) (op : Nat → FlitOp) (s : State) : State :=
  match p.atPeer with
  | some (k, va) => sendTo ctx k 1#8 (op va) s
  | none => s

/-- Runs of bytes at consecutive addresses. -/
def runs : List Host.Cell → List (Nat × List Byte)
  | [] => []
  | c :: t =>
    match runs t with
    | (a, bs) :: r => if a = c.1 + 1 then (c.1, c.2 :: bs) :: r else (c.1, [c.2]) :: (a, bs) :: r
    | [] => [(c.1, [c.2])]

/-- What an access has learned is taken with its fault: a translation it found stays in a TLB (R249); an answer of the host is spent, and
a later access asks anew (R251). -/
def FaultFrom.learn (ctx : BitVec 6) (r : Option FragRef) (s : State) : FaultFrom → State
  | .here => s
  | .walk va => tlbTouch ctx va s
  | .page p => { s with priRefused := s.priRefused.filter (fun e => !(e.1 == (ctx, p) && some e.2 == r)) }

/-- The space and address an EA of a row's space means (R142-R147), for a lane. -/
def normalise (c : Cur) (sp : Space) (ea lane : Nat) (n : Need) (s : State) : Except FReq (NSpace × Nat) :=
  match sp with
  | .g =>
    if ea < 2 ^ 57 then .ok (.virt, ea)
    else if 0xFFFF800000000000 ≤ ea ∧ ea < 0xFFFF800000000000 + 2 ^ 24 then
      .ok (.scratch c.r.grp c.grp.scrSize, ea - 0xFFFF800000000000)
    else if 0xFFFF900000000000 ≤ ea ∧ ea < 0xFFFF900000000000 + 2 ^ 26 then
      clusterSpace c (ea - 0xFFFF900000000000) n ea s
    else .error (permAt n ea)
  | .s => .ok (.scratch c.r.grp c.grp.scrSize, ea)
  | .c => clusterSpace c ea n ea s
  | .p =>
    if ea < c.lau.r.psize then
      let va := c.lau.r.pbase + c.bigT lane * c.lau.r.psize + ea
      if va < 2 ^ 57 then .ok (.virt, va) else .error (permAt n ea)
    else .error (permAt n ea)
  | .h => if ctxAts c.ctx s then .ok (.host c.r, ea) else .error (permAt n ea)
  | .f =>
    if fabricPorts c.ctx (ea / 2 ^ 57) s = 0#16 then .error (permAt n ea) else .ok (.fabric (ea / 2 ^ 57), ea % 2 ^ 57)

/-- The byte of a normalised address (R144, R147, R251). -/
def resolve (ctx : BitVec 6) (sp : NSpace) (a : Nat) (n : Need) (slot : Nat) (s : State) : Res :=
  match sp with
  | .virt => resolveVa ctx a n slot s
  | .scratch k size => if a < size then .at (.scr k a) else .bad (permAt n a)
  | .fabric peer => .at (.phys (peerBase + peer * 2 ^ 57 + a))
  | .host r =>
    match tlbFind ctx a true s with
    | some t => if n.ok t then .at (.phys (hostBase + t.pa + (a - t.va))) else .bad (permAt n a)
    | none =>
      if s.priRefused.contains ((ctx, a / 4096), r) then
        .bad { cls := 0x03, kind := 2, addr := BitVec.ofNat 64 a, access := n.access, cause := .page (a / 4096) }
      else .miss a

/-! Layout windows (R58-R60). -/

/-- The precision-bearing format of a window's FORMAT code; raw has none. -/
def winFmt (w : Window) : Option Fmt :=
  match w.format with
  | 1 => some .f64
  | 2 => some .f32
  | 3 => some .f16
  | 4 => some .bf16
  | _ => none

/-- A 32-byte window record (R58). -/
def parseWindow (mem : Memory) (a : Nat) : Window :=
  let m := slice mem a 32
  { base := getNum m a 8, size := getNum m (a + 8) 8, stride := getNum m (a + 16) 8, layout := getNum m (a + 24) 1,
    format := getNum m (a + 25) 1, esize := getNum m (a + 26) 1 }

/-- The windows an access is looked up in (R59): for global space the 64 records at LWBASE, a physical address (log entry 12). -/
def windowsOf (c : Cur) (sp : Space) (ns : NSpace) (s : State) : List Window :=
  match ns with
  | .virt =>
    if sp = .g then
      let lw := getNum s.mem (ctxEntry c.ctx s + 8) 8
      let m := slice s.mem lw 2048
      (List.range 64).map (fun i => parseWindow m (lw + 32 * i))
    else []
  | .scratch .. => c.lau.kern.layouts
  | _ => []

/-- The line of those records that cannot be corrected, where there is one (R264, R402). -/
def windowsBad (c : Cur) (sp : Space) (ns : NSpace) (s : State) : Option Nat :=
  match ns with
  | .virt => if sp = .g then badLine (getNum s.mem (ctxEntry c.ctx s + 8) 8) 2048 s else none
  | _ => none

/-- The QUAD or MEAN window whose plane 0 holds an address. -/
def windowAt (ws : List Window) (a : Nat) : Option Window :=
  ws.find? (fun w => (w.layout == 1 || w.layout == 2) && decide (w.base ≤ a) && decide (a < w.base + w.size))

/-- A piece of an access: its first byte within the access, its length, and the window that holds it. -/
structure Piece where
  off : Nat
  len : Nat
  win : Option Window
  deriving DecidableEq, Repr

/-- How many bytes from an address on lie in no window, `n` at most. -/
def plainRun (ws : List Window) (a : Nat) : Nat → Nat
  | 0 => 0
  | n + 1 => if (windowAt ws a).isSome then 0 else 1 + plainRun ws (a + 1) n

/-- Cut an access into elements of the windows it meets and runs of bytes outside them (R59). Fuel is its length. -/
def pieces (ws : List Window) (a len : Nat) : Nat → Nat → List Piece
  | 0, _ => []
  | fuel + 1, off =>
    if len ≤ off then []
    else
      match windowAt ws (a + off) with
      | some w => { off := off, len := 2 ^ w.esize, win := some w } :: pieces ws a len fuel (off + 2 ^ w.esize)
      | none =>
        let n := plainRun ws (a + off) (len - off)
        { off := off, len := n, win := none } :: pieces ws a len fuel (off + n)

/-- The width and alignment rule of a window (R59). -/
def windowFits (ws : List Window) (a len : Nat) : Bool :=
  (List.range len).all (fun i =>
    match windowAt ws (a + i) with
    | none => true
    | some w => let e := 2 ^ w.esize
                (len == e || len == 2 * e || len == 4 * e) && a % e == 0)

/-- The address of an element's plane (R59). -/
def planeAddr (w : Window) (a p : Nat) : Nat := w.base + p * w.stride + (a - w.base)

/-- The address of an element's digit byte (R59). -/
def digitAddr (w : Window) (a : Nat) : Nat := w.base + w.stride + (a - w.base) / 2 ^ w.esize

/-! The first-level cache (R150). -/

/-- The L1 of a core is made of cache banks that are not switching or removed. -/
def cacheBanks (k : Core) : Nat := countBits ((~~~ (k.scr ||| k.busy ||| k.bankOff)).toNat) 16

/-- A bank is one of them. -/
def isCacheBank (k : Core) (b : Nat) : Bool := (~~~ (k.scr ||| k.busy ||| k.bankOff)).getLsbD b

/-- The marks that the bytes of a line carry. -/
def lineMarks (ln : Nat) (s : State) : List (Place × List Mark) :=
  s.marks.filter (fun e => match e.1 with | .phys a => a / 128 == ln | .scr .. => false)

/-- A line of L1 takes one byte as memory holds it, with its marks. -/
def L1Line.take (e : L1Line) (c : Host.Cell) (s : State) : L1Line :=
  { e with data := e.data.set (c.1 % 128) c.2
           marks := e.marks.filter (fun x => x.1 != .phys c.1) ++ s.marks.filter (fun x => x.1 == .phys c.1) }

/-- L1 holds global, private and host data; update a core's copy of acknowledged bytes (R150). -/
def l1Update (core : Nat) (cells : List Host.Cell) (s : State) : State :=
  if (coreOf core s).l1.isEmpty then s
  else modCore core (fun k => { k with l1 := cells.foldl (fun l c => amod (c.1 / 128) (fun e => e.take c s) l) k.l1 }) s

/-- An engine of a core has written bytes past its L1: a copy of them there is out of date (R150, R182). -/
def l1Late (core : Nat) (cells : List Host.Cell) (s : State) : State :=
  if (coreOf core s).l1.isEmpty then s
  else modCore core (fun k => { k with l1 := cells.foldl (fun l c =>
    amod (c.1 / 128) (fun e => { e with late := c.1 % 128 :: e.late.erase (c.1 % 128) }) l) k.l1 }) s

/-- What the core's engines wrote is seen by its gangs from now on (R172, R182, R183). -/
def l1Renew (core : Nat) (s : State) : State :=
  if (coreOf core s).l1.all (fun e => e.2.late.isEmpty) then s
  else modCore core (fun k => { k with l1 := k.l1.map (fun e =>
    (e.1, { e.2.late.foldl (fun x o => x.take (128 * e.1 + o, sget (128 * e.1 + o) s.mem) s) e.2 with late := [] })) }) s

/-- The L1 still holds a line it was given: replacement is no architecture (R150), so whether it does is free. -/
def l1Keeps (core ln : Nat) (s : State) : Bool := Config.freeBool (2 ^ 100 * s.clock + 2 ^ 90 * (core + 1) + ln)

/-- The byte a gang's load sees at its issue: its own buffered stores first (R150, R170), then L1, then the home. -/
def loadByte (core : Nat) (ctx : Option (BitVec 6)) (sbuf : List SbEntry) (p : Place) (s : State) : Byte :=
  let key := p.key
  let own := sbuf.foldl (fun r e =>
    let same := match e.line, p with
      | .phys _, .phys _ => true
      | .scr k _, .scr k' _ => k == k'
      | _, _ => false
    if same then (match e.cells.find? (fun c => c.1 == key) with | some c => some c.2 | none => r) else r) (none : Option Byte)
  match own with
  | some b => b
  | none =>
    match p with
    | .scr k o => (match aget k s.groups with | some g => sget o g.scratch | none => 0#8)
    | .phys a =>
      match ctx, aget (a / 128) (coreOf core s).l1 with
      | some x, some e =>
        let b := e.data.getD (a % 128) 0#8
        if e.ctx = x ∧ b ≠ sget a s.mem ∧ l1Keeps core (a / 128) s then b else sget a s.mem
      | _, _ => sget a s.mem

/-- A gang's pending stores reach a place (R170). -/
def overlapsOwn (sbuf : List SbEntry) (p : Place) (n : Nat) : Bool :=
  sbuf.any (fun e =>
    (match e.line, p with
      | .phys _, .phys _ => true
      | .scr k _, .scr k' _ => k == k'
      | _, _ => false)
    && e.cells.any (fun c => decide (p.key ≤ c.1) && decide (c.1 < p.key + n)))

/-- A copy meets a write: what stood there may be read yet, unless the write is its own, or an earlier one of its gang, which the copy
reads after (R167, R182). -/
def CopyOp.overwritten (by' : Agent) (op : Nat) (p : Place) (cells : List Host.Cell) (s : State) (c : CopyOp) : CopyOp :=
  let here := fun (x : OldByte) => cells.any (fun y => x.place == p.moved y.1)
  if by' == .op c.id || (by' == .gang c.grp c.gang && decide (op < c.id)) then { c with olds := c.olds.filter (fun x => !here x) }
  else
    { c with olds := c.olds ++ (cells.filter (fun y => !c.olds.any (fun x => x.place == p.moved y.1))).map (fun y =>
        let q := p.moved y.1
        { place := q, val := (bytesAt q 1 s).headD 0#8, pois := poisonedAt q 1 s }) }

/-- Bytes are about to be written by an operation of an agent while copies are under way (R182). -/
def keepOlds (by' : Agent) (op : Nat) (p : Place) (cells : List Host.Cell) (s : State) : State :=
  if s.cores.all (fun e => e.2.copies.isEmpty) then s
  else { s with cores := s.cores.map (fun e => (e.1, { e.2 with copies := e.2.copies.map (CopyOp.overwritten by' op p cells s) })) }

end Sys2Proof.Machine
end

