-- ==== Sys2Proof/Machine/Lease.lean ====
section
/-!
DEFINITION. Leases and the activation rule of a core (R150, R215, R218).
-/
namespace Sys2Proof.Machine

/-- The clocks of a core from one step of the model to now. -/
def elapsed (core since : Nat) (s : State) : Nat := (cycleAt core s - BitVec.ofNat 64 since).toNat

/-- CYCLE of the core of a gang. -/
def nowOf (r : GangRef) (s : State) : Nat := match aget r.grp s.groups with | some g => (cycleAt g.core s).toNat | none => 0

/-- A gang on a core, as the activation rule sees it. -/
structure Seat where
  r : GangRef
  admitted : Nat
  partition : Nat
  lease : Nat
  active : Bool
  pinned : Bool
  exempt : Bool
  deriving DecidableEq, Repr

/-- The lease of a gang (R215). -/
def Gang.lease (g : Gang) : Nat := max g.leaseDecl.toNat (min 65535 (g.leaseBase + g.leaseE))

/-- A gang of the group waits for gang `i`, at a barrier or in the rendezvous latch (R218). -/
def Group.waitsFor (g : Group) (i : Nat) : Bool :=
  g.gangs.any (fun e => e.2.frags.any (fun f =>
    match f.2.hold with
    | .bar b _ _ => !(g.bar b).arrived.getLsbD i
    | _ => false))
  || g.matrix.latch.any (fun w => w.gset.getLsbD i && w.gang != i && !g.matrix.latch.any (fun v => v.gang == i))

/-- The gangs of a core that the rule counts: neither ended nor halted. A gang that rotation has brought in is exempt for its
first 65,536 clocks. -/
def seats (core : Nat) (s : State) : List Seat :=
  (s.groups.filter (fun e => e.2.core == core && !e.2.ended)).flatMap (fun e =>
    (e.2.gangs.filter (fun g => !g.2.ended && !g.2.halted)).map (fun g =>
      { r := { grp := e.1, gang := g.1 }, admitted := e.2.admitted, partition := g.2.partition, lease := g.2.lease,
        active := g.2.active, pinned := e.2.waitsFor g.1,
        exempt := g.2.exempt && decide (elapsed core g.2.changedAt s < 65536) }))

/-- A gang is older than another (R218). -/
def Seat.older (a b : Seat) : Bool :=
  decide (a.admitted < b.admitted) || (a.admitted == b.admitted && decide (a.r.gang < b.r.gang))

/-- The oldest of some gangs. -/
def oldest (l : List Seat) : Option Seat := l.find? (fun a => l.all (fun b => a.r == b.r || a.older b))

/-- The youngest of some gangs. -/
def youngest (l : List Seat) : Option Seat := l.find? (fun a => l.all (fun b => a.r == b.r || b.older a))

/-- The lease capacity of a core (R150, R215). -/
def capacity (core : Nat) (s : State) : Nat :=
  256 * cacheBanks (coreOf core s) * min 16 (coreOf core s).fill.toNat / 16

/-- The sum of the leases of the active gangs. -/
def leaseSum (l : List Seat) : Nat := (l.filter (fun a => a.active)).foldl (fun n a => n + a.lease) 0

/-- The last active gang of its partition is never deactivated (R218). -/
def lastActive (l : List Seat) (a : Seat) : Bool := !l.any (fun b => b.active && b.partition == a.partition && b.r != a.r)

/-- The gang the overflow rule deactivates (R218). -/
def overflowGang (core : Nat) (s : State) : Option Seat :=
  let l := seats core s
  if capacity core s < leaseSum l then
    youngest (l.filter (fun a => a.active && !a.pinned && !a.exempt && !lastActive l a))
  else none

/-- A bank takes lines: a cache bank, or one that is to become scratch while the fall in capacity is still to be applied (R149, R150,
R218). -/
def takesLines (core b : Nat) (s : State) : Bool :=
  let k := coreOf core s
  isCacheBank k b || (k.scr.getLsbD b && k.busy.getLsbD b && !k.bankOff.getLsbD b && (overflowGang core s).isSome)

/-- The pinned gangs of a core alone exceed its capacity: no unpinned gang is activated (R218). -/
def pinnedOver (core : Nat) (l : List Seat) (s : State) : Bool :=
  decide (capacity core s < (l.filter (fun a => a.pinned)).foldl (fun n a => n + a.lease) 0)

/-- The gang the core activates: a pinned one at once, else the oldest inactive one that fits, unless the pinned gangs
alone exceed capacity (R218). -/
def roomGang (core : Nat) (s : State) : Option Seat :=
  let l := seats core s
  match oldest (l.filter (fun a => !a.active && a.pinned)) with
  | some a => some a
  | none =>
    if pinnedOver core l s then none
    else oldest (l.filter (fun a => !a.active && decide (leaseSum l + a.lease ≤ capacity core s)))

/-- A gang goes active. -/
def setActive (r : GangRef) (exempt : Bool) (s : State) : State :=
  modGang r (fun g => { g with active := true, exempt := exempt, changedAt := nowOf r s }) s

/-- A gang is deactivated; nothing of its registers or operations changes (R218). -/
def setInactive (r : GangRef) (s : State) : State :=
  match (aget r.grp s.groups).bind (fun g => (aget g.launch s.launches).map (fun l => l.ctx)) with
  | none => s
  | some ctx =>
    countEvents 0x0003 ctx 1
      (modGang r (fun g => { g with active := false, exempt := false, starved := none, changedAt := nowOf r s }) s)

/-- Rotation brings a gang in and takes the youngest active, unpinned gang of its partition out (R218). -/
def rotateIn (core : Nat) (r : GangRef) (s : State) : State :=
  let s1 := setActive r true s
  let l := seats core s1
  match l.find? (fun a => a.r == r) with
  | none => s
  | some me =>
    match youngest (l.filter (fun a => a.active && !a.pinned && a.partition == me.partition && a.r != r)) with
    | some out => setInactive out.r s1
    | none => s1

/-- A yielding gang gives its place to an inactive gang of its partition that would fit it (R386). -/
def yieldPlace (core : Nat) (r : GangRef) (s : State) : State :=
  let l := seats core s
  match l.find? (fun a => a.r == r) with
  | none => s
  | some me =>
    if !me.active || me.pinned || lastActive l me then s
    else
      match oldest (l.filter (fun a => !a.active && a.partition == me.partition
          && decide (leaseSum l - me.lease + a.lease ≤ capacity core s))) with
      | some other => setActive other.r true (setInactive r s)
      | none => s

end Sys2Proof.Machine
end

