-- ==== Sys2Proof/Machine/Start.lean ====
section
/-!
DEFINITION. A group at its start: gangs, fragments, registers (R18, R19, R34, R86, R144, R186).
-/
namespace Sys2Proof.Machine

/-- The gang mask at start (R18, R19): every lane of every quad with a thread, logical threads in TRIPLE. -/
def gangMask (triple : Bool) (threads gang : Nat) : Mask :=
  let quads := if triple then min 8 (threads - 8 * gang) else (min 32 (threads - 32 * gang) + 3) / 4
  BitVec.ofNat 32 (2 ^ (4 * quads) - 1)

/-- The one fragment a gang starts with (R22, R34). -/
def Frag.start (entry : DWord) (m : Mask) : Frag :=
  { pc := entry, mask := m, exec := m, split := none, waiting := false, rpc := entry, rexec := m, rsig := 0#32,
    sig := 0#32, pendCancel := 0#16, pendCmp := 0#16, pendDivz := 0#16, pendSatf := 0#7, inHandler := false, rhand := false,
    hold := .run, stopReq := false, bpSkip := false, waitSkip := false }

/-- NITCFG at gang start (R54): FLOOR 4, LOSS 10, every action COUNT. -/
def nitcfgReset : Word := 0x00040A15#32

/-- A gang at its start (R86, R93). -/
def Gang.start (l : Launch) (idx partition granule now : Nat) : Gang :=
  let m := gangMask l.kern.triple l.r.threads idx
  { vregs := [], killed := [], dead := [], vpois := [], oc := [], latch := [], sregs := sput 0 l.r.args [], spois := 0#64,
    pregs := [], ppois := 0#8, frags := [(0, Frag.start (BitVec.ofNat 64 (l.text + l.kern.entry)) m)], recs := [],
    quads := List.replicate 8 (Quad.start l.kern.triple), startMask := m, exited := 0#32, fragPtr := 0,
    nitcfg := nitcfgReset, nitcnt := 0#64, satf := 0#32, gset := laneBit idx,
    leaseDecl := BitVec.ofNat 16 l.r.lease, leaseBase := 0, leaseE := 0, footprint := 0#512, window := 0, epc := 0#64,
    tcause := 0#64, ops := [], sbuf := [], parked := false, parkMask := 0#32, halted := false, ended := false, partition := partition,
    slot := 0, granule := granule, active := false, changedAt := now, exempt := false, starved := none, yielded := none,
    lantern := 0#16, joints := [], deferred := [], copySat := [], hist := { heard := [], fenced := [], pubs := [], relAt := 0, seen := [] }, book := Book.empty, reads := [], swap := .none }

/-- A group at its start on a core; `places` gives each gang's partition and first granule (R211). -/
def Group.start (l : Launch) (key g core admitted now : Nat) (places : List (Nat × Nat)) (granules : List Nat) : Group :=
  { launch := key, g := g, core := core, admitted := admitted, since := now,
    gangs := places.zipIdx.map (fun e => (e.2, Gang.start l e.2 e.1.1 e.1.2 now)), scratch := [], scrSize := roundUp l.r.scratch 4096,
    scrPois := [], scrBy := [], barriers := List.replicate 16 { arrived := 0#32, phase := false, cbar := false },
    matrix := Matrix.reset, granules := granules, susp := none, ended := false }

/-! A launch from outside. -/

/-- The kernel of the launch that `State.withFetchWord` stands for: one SINGLE gang, every register, barrier and tile. -/
def probeKernel : Kernel :=
  { triple := false, regs := 112, gangs := 1, barriers := 16, cluster := 1, lease := 0, scratch := 4096, entry := 0,
    layouts := [], handler := none }

/-- Its launch record. -/
def probeRecord : LRec :=
  { object := 1, kernel := 0, mode := 0, regs := 112, gangs := 1, barriers := 16, bx := 32, b_y := 1, bz := 1, cluster := 1,
    tiles := 8, gx := 1, gy := 1, gz := 1, scratch := 4096, seed := 0#64, args := 0#64, pbase := 0, psize := 0, lease := 0,
    order := 0, flags := 0, agelimit := 1, bankscr := 0#16, quantum := 0, logbase := 0, logsize := 0, completion := 0,
    compval := 0#64 }

/-- The launch, running in context 1 with its code at virtual address 0x10000. -/
def probeLaunch : Launch :=
  { fn := 0, queue := 0, recno := 0, ctx := 1#6, r := probeRecord, kern := probeKernel, text := 0x10000, pool := [],
    poolSize := 0, kinds := [], dispatched := [0], admitted := [0], ended := [], status := 0, stopped := false, ndisp := 0,
    ngrant := 0, trunc := false, coreSeq := [], addrSeq := [], consumed := [], banksDone := [] }

/-- The page tables of the launch: the context table at 0x10000, the four levels, and one 64 KiB page of code at
physical address 0x300000 that may be read, written and executed (R245-R247). -/
def probeTables : List (Nat × Nat) :=
  [(0x10020, 0x100000), (0x10030, 1), (0x100000, 0x200001), (0x200000, 0x210001), (0x210000, 0x220001),
   (0x220008, 0x30005D)]

/-- Put the launch in place: its tables, its group on core 0. -/
def probe (s : State) : State :=
  let m := probeTables.foldl (fun m e => putCells (place e.1 (toBytes 8 e.2)) m) s.mem
  { s with
    mem := m
    mmio := sput 0x1838 0x10000#64 s.mmio
    agenda := [], stalled := [], tokens := [], power := .d0
    launches := [(0, probeLaunch)]
    groups := [(0, { Group.start probeLaunch 0 0 0 0 (cycleAt 0 s).toNat [(0, 0)] [64] with
      gangs := [(0, { Gang.start probeLaunch 0 0 0 (cycleAt 0 s).toNat with active := true })] })] }

/-- Put an instruction's bytes at a physical address. -/
def putWord (a nbits w : Nat) (s : State) : State :=
  { s with mem := putCells (place a (toBytes 8 (w % 2 ^ nbits))) s.mem }

end Sys2Proof.Machine
end

