-- ==== Sys2Proof/Machine/Faults.lean ====
section
/-!
DEFINITION. Faults (R239-R244, R250): tokens, fault and debug rings, error queues (R259, R260), holding a fragment,
halting a gang (R263), trap entry (R56, R57), and what a gang's leaving does to barriers, rendezvous and its group.
-/
namespace Sys2Proof.Machine

/-- An address the driver gives for a ring, table or pool: device memory below 2^39, host memory above. -/
def drv (a : Nat) : Nat := if a < 2 ^ 39 then a else hostBase + a % 2 ^ 60

/-- LAUNCH of R236. -/
def Launch.name (l : Launch) : DWord := BitVec.ofNat 64 (l.queue % 64 * 2 ^ 58 + l.recno % 2 ^ 58)

/-- A hop id (R255): the device's peer index in the context's fabric group, and the unit. -/
def hopId (ctx : BitVec 6) (unit : Nat) (s : State) : Nat :=
  let inGroup := mreg 0 0x2400 s != 0#64 && getNum s.mem (fabricDesc ctx s + 1) 1 != 0
  (if inGroup then getNum s.mem (fabricDesc ctx s) 1 else 0xFF) * 256 + unit

/-! Error queues. -/

/-- An error record (R260). -/
structure ERec where
  kind : Nat
  ctx : BitVec 6
  role : Nat := 0
  lrole : Nat := 0
  detect : Nat := 0
  lasthop : Nat := 0
  tag : Nat := 0
  hops : Nat := 0
  seg : Nat := 0
  index : Nat := 0
  s1h : Nat := 0
  s2h : Nat := 0
  s1c : Nat := 0
  s2c : Nat := 0
  addr : Nat := 0
  launch : Nat := 0
  deriving DecidableEq, Repr

/-- Its 64 bytes. -/
def ERec.bytes (r : ERec) : List Byte :=
  toBytes 1 r.kind ++ toBytes 1 r.ctx.toNat ++ toBytes 1 r.role ++ toBytes 1 r.lrole ++ toBytes 2 r.detect
    ++ toBytes 2 r.lasthop ++ toBytes 2 r.tag ++ toBytes 1 r.hops ++ toBytes 1 r.seg ++ toBytes 4 r.index
    ++ toBytes 8 r.s1h ++ toBytes 8 r.s2h ++ toBytes 8 r.s1c ++ toBytes 8 r.s2c ++ toBytes 8 r.addr ++ toBytes 8 r.launch

/-- Write an error record to the queue of a context, or count it as dropped (R259). -/
def errorRecord (q : BitVec 6) (r : ERec) (s : State) : State :=
  let fn := ownerFn q s
  let tab := (mreg fn 0x1860 s).toNat
  if tab = 0 then s
  else
    let e := drv (tab + 32 * q.toNat)
    let s := readHome e 32 s
    let logn := min (getNum s.mem (e + 8) 1) 16
    let tail := getNum s.mem (e + 16) 8
    let used := (tail + 2 ^ 32 - getNum s.mem (e + 24) 4) % 2 ^ 32
    if getNum s.mem (e + 9) 1 % 2 = 0 ∨ 2 ^ logn ≤ used then
      putPhys (e + 28) (toBytes 4 (min (getNum s.mem (e + 28) 4 + 1) (2 ^ 32 - 1))) s
    else
      let a := drv (getNum s.mem e 8 + 64 * (tail % 2 ^ logn))
      raiseMsix fn 2 (putPhys (e + 16) (toBytes 8 (tail + 1)) (putPhys a r.bytes s))

/-! Fault and debug rings. -/

/-- The 64 bytes of a fault or debug record (R242, R276). -/
def FRec.bytes (r : FRec) (token merged : Nat) : List Byte :=
  toBytes 1 r.cls.toNat ++ toBytes 1 r.kind.toNat ++ toBytes 1 r.ctx.toNat ++ toBytes 1 r.access.toNat
    ++ toBytes 4 merged ++ toBytes 8 token ++ toBytes 8 r.launch.toNat ++ toBytes 4 r.grp ++ toBytes 1 r.gang
    ++ toBytes 1 r.split ++ toBytes 1 r.qdepth ++ toBytes 1 0 ++ toBytes 8 r.pc.toNat ++ toBytes 4 r.mask.toNat
    ++ toBytes 4 r.detail.toNat ++ toBytes 8 r.addr.toNat ++ toBytes 8 0

/-- Where a ring's registers start in a function's window (R241, R273). -/
def ringRegs (debug : Bool) : Nat := if debug then 0x1900 else 0x1800

/-- The records a ring holds (R241). -/
def ringSize (fn : Nat) (debug : Bool) (s : State) : Nat :=
  2 ^ min ((mreg fn (ringRegs debug + 8) s).toNat % 32) 16

/-- The ring is enabled and not full (R241). -/
def ringRoom (fn : Nat) (debug : Bool) (s : State) : Bool :=
  (mreg fn (ringRegs debug + 8) s).getLsbD 31
  && decide ((mreg fn (ringRegs debug + 24) s - mreg fn (ringRegs debug + 16) s).toNat < ringSize fn debug s)

/-- A record waits to be written: its token is live or belongs to a halted gang. -/
def Token.pending (t : Token) : Bool := !t.written && (t.live || t.vectorC) && t.kind != .queued

/-- The oldest pending record of a function's ring. -/
def pendingRecord (fn : Nat) (debug : Bool) (s : State) : Option (Nat × Token) :=
  s.tokens.find? (fun e => e.2.fn == fn && e.2.debug == debug && e.2.pending)

/-- MERGED of a record as it is written (R242, R276): the fragments attached, at least 1; 1 for a held group, 0 for an engine or a
completion record. -/
def Token.merged (t : Token) : Nat :=
  match t.kind with
  | .frags | .queued => max t.frags.length 1
  | .group _ => 1
  | .engine .. | .drain .. | .completion _ => 0

/-- Write the oldest pending record, where there is one and room (R241). -/
def writeRing (fn : Nat) (debug : Bool) (s : State) : State :=
  match pendingRecord fn debug s with
  | none => s
  | some (k, t) =>
    if ringRoom fn debug s then
      let r := ringRegs debug
      let tail := mreg fn (r + 24) s
      let a := drv ((mreg fn r s).toNat + 64 * (tail.toNat % ringSize fn debug s))
      let s1 := putPhys a (t.record.bytes k t.merged) s
      let s2 := setMreg fn (r + 24) (tail + 1#64) { s1 with tokens := aput k { t with written := true } s1.tokens }
      if mreg fn (r + 16) s = tail then raiseMsix fn (if debug then 4 else 1) s2 else s2
    else s

/-- A new token; 0 names none (R242). -/
def addToken (t : Token) (s : State) : Nat × State :=
  let (k, s1) := fresh s
  (k + 1, { s1 with tokens := aput (k + 1) t s1.tokens })

/-- TCAUSE at a fault (R240): CLASS, the kind or the detail. -/
def FReq.tcause (f : FReq) : DWord :=
  BitVec.ofNat 64 (f.cls + 256 * f.kind) ||| ((f.detail.setWidth 64) <<< 8)

/-- The record of a fault of a fragment (R242). -/
def recOf (c : Cur) (pc : DWord) (f : FReq) : FRec :=
  { cls := BitVec.ofNat 8 f.cls, kind := BitVec.ofNat 8 f.kind, ctx := c.ctx, access := BitVec.ofNat 8 f.access,
    launch := c.lau.name, grp := c.grp.g, gang := c.r.gang, split := c.r.frag,
    qdepth := match (quadsIn c.frag.mask).head? with | some q => (c.gang.quad q).stack.length | none => 0,
    pc := pc, mask := c.frag.mask, detail := f.detail, addr := f.addr }

/-- The fault-buffer key of a fault (R250): die, context, 64 KiB unit, access kind. PAGE and PERM that name an access
have one; an atomic counts as a write. -/
def FReq.key (f : FReq) (c : Cur) : Option (Nat × Nat × Nat × Nat) :=
  if (f.cls = 3 ∨ f.cls = 4) ∧ f.access ≠ 0 then
    some (c.grp.core / 40, c.ctx.toNat, f.addr.toNat / 65536, if f.access = 1 then 0 else if f.access = 4 then 2 else 1)
  else none

/-- The entries a die's fault buffer holds (R250). -/
def bufferUse (die : Nat) (s : State) : Nat :=
  (s.tokens.filter (fun e => e.2.live && e.2.kind == .frags &&
    (match e.2.key with | some k => k.1 == die | none => false))).length

/-- Put a fragment on hold for a token, to resume at a retry point. -/
def holdFor (r : FragRef) (token : Nat) (retry : DWord) (s : State) : State :=
  modFrag r (fun f => { f with hold := .fault token retry }) s

/-- A vector D fault (R239): the fragment is held, and a record made, or the fragment attached to one (R250). -/
def holdFault (c : Cur) (pc retry : DWord) (f : FReq) (s : State) : State :=
  let s := modGang (gangRefOf c.r) (fun g => { g with tcause := f.tcause }) (unstall (f.cause.learn c.ctx (some c.r) s))
  let key := f.key c
  let there := if key.isNone then none else
    s.tokens.find? (fun e => e.2.live && e.2.kind == .frags && e.2.key == key)
  match there with
  | some (k, t) =>
    holdFor c.r k retry { s with tokens := aput k { t with frags := t.frags ++ [c.r] } s.tokens }
  | none =>
    let full := match key with | some k => decide (256 ≤ bufferUse k.1 s) | none => false
    let (k, s1) := addToken
      { fn := ownerFn c.ctx s, debug := false, vectorC := false, kind := if full then .queued else .frags,
        frags := [c.r], key := key, record := recOf c pc f, written := false, live := true } s
    holdFor c.r k retry s1

/-! Leaving: barriers, rendezvous, the end of a group. -/

/-- The resident groups of a group's cluster, itself among them (R17). -/
def clusterOf (k : Nat) (s : State) : List Nat :=
  match aget k s.groups with
  | none => []
  | some g =>
    match aget g.launch s.launches with
    | none => [k]
    | some l =>
      (s.groups.filter (fun e => e.2.launch == g.launch && e.2.g / max l.r.cluster 1 == g.g / max l.r.cluster 1)).map Prod.fst

/-- The gangs of a group that take part in its barriers (R307): neither exited nor halted. -/
def Group.participants (g : Group) : Mask :=
  g.gangs.foldl (fun m e => if e.2.ended || e.2.halted then m else m ||| laneBit e.1) 0#32

/-- The halted gangs of a group (R263). -/
def Group.haltedMask (g : Group) : Mask :=
  g.gangs.foldl (fun m e => if e.2.halted then m ||| laneBit e.1 else m) 0#32

/-- An acquire at a scope (R176): from CLUSTER on, the core drops the context's L1 lines. -/
def acquire (core : Nat) (ctx : BitVec 6) (scope : Nat) (s : State) : State :=
  if 2 ≤ scope then modCore core (fun k => { k with l1 := k.l1.filter (fun e => e.2.ctx != ctx) }) s else s

/-- The status a completed barrier returns to a group (R263, R272, R307). -/
def Group.barStatus (g : Group) : DWord :=
  if g.haltedMask = 0#32 then 0#64 else ((g.haltedMask.setWidth 64) <<< 32) ||| 1#64

/-- What happens before the points at which the gangs of a group wait at a barrier id: all of it happens before what follows the
instance (R181). -/
def Group.barKnow (g : Group) (k b n : Nat) : Know :=
  g.gangs.foldl (fun m e =>
    if !e.2.halted && e.2.frags.any (fun f => match f.2.hold with | .bar b' .. => b' == b | _ => false) then joinKnow m (e.2.known ⟨k, e.1⟩ n) else m) []

/-- A gang leaves a barrier: it has heard of what came before the instance, and its loads are performed (R181). -/
def Gang.leaveBar (g : Gang) (known : Know) : Gang :=
  { g with hist := { g.hist with heard := joinKnow g.hist.heard known }, reads := [] }

/-- Release the gangs that wait at a barrier id of a group, and close its instance (R307). -/
def Group.openBar (g : Group) (b : Nat) (known : Know) : Group :=
  let st := g.barStatus
  { g with
    barriers := g.barriers.modify b (fun x => { arrived := 0#32, phase := !x.phase, cbar := false })
    gangs := g.gangs.map (fun e =>
      (e.1, e.2.frags.foldl (fun gg fe =>
        match fe.2.hold with
        | .bar b' _ sd =>
          if b' = b ∧ !gg.halted then
            ({ gg.setSBy fe.1 sd st with frags := aput fe.1 { fe.2 with hold := .run } gg.frags } : Gang).leaveBar known
          else gg
        | _ => gg) e.2)) }

/-- A barrier id completes when every participant has arrived (R307). -/
def settleBarrier (k b : Nat) (s : State) : State :=
  match aget k s.groups with
  | none => s
  | some g =>
    let ks := if (g.bar b).cbar then clusterOf k s else [k]
    let gs := ks.filterMap (fun k => aget k s.groups)
    if gs.any (fun g => (g.bar b).arrived != 0#32) && gs.all (fun g => g.participants &&& ~~~ (g.bar b).arrived == 0#32) then
      let known := ks.foldl (fun m k => match aget k s.groups with | some g => joinKnow m (g.barKnow k b s.serial) | none => m) []
      let s1 := ks.foldl (fun s k => modGroup k (fun g => g.openBar b known) s) s
      if (g.bar b).cbar then
        (match aget g.launch s1.launches with
         | some l => gs.foldl (fun s g => acquire g.core l.ctx 2 s) s1
         | none => s1)
      else s1
    else s

/-- Look at every barrier id of a group. -/
def settleBarriers (k : Nat) (s : State) : State := (List.range 16).foldl (fun s b => settleBarrier k b s) s

/-- The waiting gangs whose GSET names a gang take MJOINT (R190). -/
def failRendezvous (k gang : Nat) (s : State) : State :=
  match aget k s.groups with
  | none => s
  | some g =>
    let out := g.matrix.latch.filter (fun w => w.gset.getLsbD gang)
    let s1 := modGroup k (fun g =>
      { g with matrix := { g.matrix with latch := g.matrix.latch.filter (fun w => !w.gset.getLsbD gang) } }) s
    out.foldl (fun s w =>
      if w.gang = gang then s
      else
        match curOf { grp := k, gang := w.gang, frag := w.frag } s with
        | none => s
        | some c => holdFault c c.frag.pc c.frag.pc { cls := 0x08 } s) s1

/-- The group has ended: every gang has exited or halted and nothing of it is in flight (R263, R318). -/
def groupDone (k : Nat) (g : Group) (s : State) : Bool :=
  g.gangs.all (fun e => (e.2.ended || e.2.halted) && e.2.ops.isEmpty && e.2.sbuf.isEmpty)
  && g.matrix.queue.isEmpty && (coreOf g.core s).copies.all (fun c => c.grp != k)

/-- The hardware gang slot of a gang, as L1 lines and victim tags name it: 16 in each of the four partitions (R2, R217). -/
def slotOf (r : GangRef) (s : State) : Nat :=
  match gangOf r s with
  | some g => 16 * g.partition + g.slot
  | none => 64

/-- The victim tags of a gang's slot go when it is vacated (R217). -/
def dropVictims (core : Nat) (r : GangRef) (s : State) : State :=
  if (coreOf core s).victims.isEmpty then s
  else modCore core (fun c => { c with victims := c.victims.filter (fun v => v.2 != slotOf r s) }) s

/-- A gang whose last lane has ended gives up its slot once its store buffer has drained (R318). -/
def Gang.vacated (g : Gang) : Bool := g.ended && g.sbuf.isEmpty

/-- Its victim tags go then (R217). -/
def vacate (r : GangRef) (s : State) : State :=
  match aget r.grp s.groups with
  | none => s
  | some g =>
    match aget r.gang g.gangs with
    | some gg => if gg.vacated then dropVictims g.core r s else s
    | none => s

/-- A group ends; its scratch stays while groups of its cluster have not ended (R145, R210). -/
def endGroup (k : Nat) (s : State) : State :=
  match aget k s.groups with
  | none => s
  | some g =>
    let s1 := g.gangs.foldl (fun s e => dropVictims g.core ⟨k, e.1⟩ s) (modGroup k (fun g => { g with ended := true }) s)
    let s2 := modLaunch g.launch (fun l => { l with ended := l.ended ++ [g.g] }) s1
    match aget g.launch s2.launches with
    | none => { s2 with groups := aerase k s2.groups }
    | some l =>
      let n := max l.r.cluster 1
      if (List.range n).all (fun i => l.ended.contains (g.g / n * n + i)) then
        { s2 with groups := s2.groups.filter (fun e => !(e.2.launch == g.launch && e.2.g / n == g.g / n)) }
      else s2

/-- End a group that is done. -/
def settleGroup (k : Nat) (s : State) : State :=
  match aget k s.groups with
  | none => s
  | some g => if !g.ended && groupDone k g s then endGroup k s else s

/-- A gang no longer takes part in barriers and rendezvous (R263, R318). -/
def gangLeaves (r : GangRef) (s : State) : State :=
  let s1 := failRendezvous r.grp r.gang s
  (clusterOf r.grp s1).foldl (fun s k => settleBarriers k s) s1

/-- What peers have refused of a gang leaves it without effect (R147, R263). -/
def Gang.dropRefused (g : Gang) : Gang :=
  let gone := (g.ops.filter (fun o => o.refused)).map (fun o => o.id)
  if gone.isEmpty then g
  else
    { g with
      ops := g.ops.filter (fun o => !gone.contains o.id), sbuf := g.sbuf.filter (fun e => !gone.contains e.op)
      reads := g.reads.filter (fun x => !gone.contains x.op) }

/-- A gang halts (R263). -/
def haltGang (r : GangRef) (s : State) : State :=
  let active := match gangOf r s with | some g => g.active | none => false
  let s1 := modGang r (fun g =>
    { g.dropRefused with halted := true, active := false, exempt := false, starved := none, parked := false })
      (if active then setInactive r (unstall s) else unstall s)
  settleGroup r.grp (gangLeaves r s1)

/-- A vector C fault (R239): GANGUE or SIGFAIL in the error queue, a fault record, and the gang halts. -/
def haltFault (c : Cur) (pc : DWord) (f : FReq) (s : State) : State :=
  let s := modGang (gangRefOf c.r) (fun g => { g with tcause := f.tcause }) s
  let s1 := errorRecord c.ctx
    { kind := if f.cls = 0x0A then 6 else 5, ctx := c.ctx, role := 7, detect := hopId c.ctx c.grp.core s,
      index := c.grp.g, s1h := pc.toNat, s2h := c.r.gang + 256 * c.r.frag, launch := c.lau.name.toNat } s
  let s2 := (addToken
    { fn := ownerFn c.ctx s, debug := false, vectorC := true, kind := .frags, frags := [c.r], key := none,
      record := recOf c pc f, written := false, live := true } s1).2
  haltGang (gangRefOf c.r) s2

/-- A fault of an instruction at `pc`, to be retried at `retry` (R239). -/
def takeFaultAt (c : Cur) (pc retry : DWord) (f : FReq) (s : State) : State :=
  if f.cls = 0x0A ∨ f.cls = 0x0B then haltFault c pc f s else holdFault c pc retry f s

/-- A fault before issue: the instruction is its own retry point. -/
def takeFault (c : Cur) (f : FReq) (s : State) : State := takeFaultAt c c.frag.pc c.frag.pc f s

/-! Traps. -/

/-- The kernel's .trap handler. -/
def Cur.handler (c : Cur) : Option DWord := c.lau.kern.handler.map (fun h => BitVec.ofNat 64 (c.lau.text + h))

/-- Trap entry (R56): EPC takes the next instruction, TCAUSE the cause, and the fragment goes to the handler. -/
def trapEnter (r : FragRef) (handler tcause : DWord) (s : State) : State :=
  modGang (gangRefOf r) (fun g =>
    match aget r.frag g.frags with
    | none => g
    | some f =>
      { (g.invalidate f.mask) with
        epc := f.pc, tcause := tcause,
        frags := amod r.frag (fun f => { f with pc := handler, inHandler := true, hold := .run }) g.frags }) s

/-- A fragment of the gang is in its handler. -/
def Gang.handling (g : Gang) : Bool := g.frags.any (fun e => e.2.inHandler)

/-- A fragment's event calls for trap entry: it enters, or waits for another fragment's handler (R57). -/
def trapOrWait (c : Cur) (handler tcause : DWord) (s : State) : State :=
  match gangOf (gangRefOf c.r) s with
  | none => s
  | some g =>
    if g.handling then modFrag c.r (fun f => { f with hold := .trapEntry tcause }) s
    else trapEnter c.r handler tcause s

/-- The handler is free again: a fragment that waits for it enters. Which of several, R57 does not say: the model takes the lowest table
entry (log entry 71). -/
def handlerFree (r : GangRef) (s : State) : State :=
  match gangOf r s with
  | none => s
  | some g =>
    if g.handling || g.halted then s
    else
      match g.frags.find? (fun e => match e.2.hold with | .trapEntry _ => true | _ => false) with
      | some (i, { hold := .trapEntry t, .. }) =>
        (match curOf { grp := r.grp, gang := r.gang, frag := i } s with
         | some c => (match c.handler with | some h => trapEnter c.r h t s | none => s)
         | none => s)
      | _ => s

end Sys2Proof.Machine
end

