-- ==== Sys2Proof/Machine/Debug.lean ====
section
/-!
DEFINITION. Trace sessions with their Spotlight records (R282-R284), and Lantern trials (R277).
-/
namespace Sys2Proof.Machine

/-! Trace sessions. -/

/-- Write a trace record (R283): a full ring drops it, or loses its oldest record where `lose` says so. -/
def traceWrite (fn : Nat) (lose : Bool) (bytes : List Byte) (s : State) : State :=
  let size := 2 ^ min ((mreg fn 0x1A08 s).toNat % 32) 16
  let tail := mreg fn 0x1A18 s
  let full := decide (size ≤ (tail - mreg fn 0x1A28 s).toNat)
  if full && !lose then setMreg fn 0x1A20 (mreg fn 0x1A20 s + 1#64) s
  else
    let s1 := putPhys (drv ((mreg fn 0x1A00 s).toNat + 64 * (tail.toNat % size))) bytes s
    let s2 := setMreg fn 0x1A18 (tail + 1#64) s1
    if full then setMreg fn 0x1A28 (mreg fn 0x1A28 s + 1#64) (setMreg fn 0x1A20 (mreg fn 0x1A20 s + 1#64) s2) else s2

/-- A record of the open session of a function. -/
def traceRecord (fn : Nat) (bytes : List Byte) (s : State) : State :=
  if (mreg fn 0x1A08 s).getLsbD 31 then traceWrite fn ((mreg fn 0x1A08 s).getLsbD 30) bytes s else s

/-- The session of a function ends with a terminator (R283, R284). -/
def traceEnd (fn reason q : Nat) (s : State) : State :=
  let ctl := mreg fn 0x1A08 s
  if ctl.getLsbD 31 then
    let size := 2 ^ min (ctl.toNat % 32) 16
    let full := decide (size ≤ (mreg fn 0x1A18 s - mreg fn 0x1A28 s).toNat)
    let drop := (mreg fn 0x1A20 s).toNat + (if full then 1 else 0)
    let bytes := toBytes 1 3 ++ toBytes 1 (bits ctl.toNat 13 8) ++ toBytes 1 reason ++ toBytes 1 0 ++ toBytes 2 0xFFFF
      ++ toBytes 10 0 ++ toBytes 8 (if reason = 2 then q * 2 ^ 58 else 0) ++ toBytes 24 0 ++ toBytes 8 drop ++ toBytes 8 0
    setMreg fn 0x1A08 (ctl &&& ~~~ 0x80000000#64) (traceWrite fn true bytes s)
  else s

/-- Who writes in a watched range, as a Spotlight record names it (R284). -/
structure Writer where
  ctx : BitVec 6
  source : Nat
  core : Nat
  frag : Nat
  depth : Nat
  cycle : DWord
  launch : DWord
  grp : Nat
  gang : Nat
  lane : Nat
  pc : DWord
  mask : Mask
  deriving DecidableEq, Repr

/-- A virtual address lies in a range that the session of a context watches (R282). -/
def watched (ctx : BitVec 6) (va : Nat) (s : State) : Bool :=
  let fn := ownerFn ctx s
  let ctl := (mreg fn 0x1A08 s).toNat
  bits ctl 31 31 == 1 && bits ctl 13 8 == ctx.toNat &&
    (List.range 8).any (fun n =>
      let base := (mreg fn (0x1A40 + 16 * n) s).toNat
      let size := (mreg fn (0x1A48 + 16 * n) s).toNat
      decide (base ≤ va) && decide (va < base + size))

/-- The Spotlight record of a write within one aligned 8-byte word at a physical address (R282, R284). -/
def spotRecord (w : Writer) (cells : List Host.Cell) (s : State) : State :=
  match cells with
  | [] => s
  | (a, _) :: _ =>
    let word := a / 8
    let mask := bitsOf (fun i => cells.any (fun c => c.1 == 8 * word + i)) 8
    let bytes := toBytes 1 2 ++ toBytes 1 w.ctx.toNat ++ toBytes 1 w.source ++ toBytes 1 mask ++ toBytes 2 w.core
      ++ toBytes 1 w.frag ++ toBytes 1 w.depth ++ toBytes 8 w.cycle.toNat ++ toBytes 8 w.launch.toNat ++ toBytes 4 w.grp
      ++ toBytes 1 w.gang ++ toBytes 1 w.lane ++ toBytes 2 0 ++ toBytes 8 w.pc.toNat ++ toBytes 4 w.mask.toNat ++ toBytes 4 0
      ++ toBytes 8 (getNum s.mem (8 * word) 8) ++ toBytes 8 (getNum (putCells cells s.mem) (8 * word) 8)
    traceRecord (ownerFn w.ctx s) bytes s

/-- Cells of one write cut into aligned 8-byte words. -/
def byWord (cells : List Host.Cell) : List (List Host.Cell) :=
  (nodup (cells.map (fun c => c.1 / 8))).map (fun w => cells.filter (fun c => c.1 / 8 == w))

/-! Lantern. -/

/-- The running launch of a queue of a function (R206). -/
def runningLaunch (fn q : Nat) (s : State) : Option (Nat × Launch) :=
  s.launches.find? (fun e => e.2.fn == fn && e.2.queue == q)

/-- The launch a function's Lantern has on trial (R277). -/
def onTrial (fn : Nat) (s : State) : Option Nat :=
  let ctl := (mreg fn 0x1AC0 s).toNat
  if bits ctl 63 63 = 1 then (runningLaunch fn (bits ctl 21 16) s).map Prod.fst else none

/-- An instruction in the Lantern's range holds the other gangs of the launch on its core (R277). -/
def lanternIssue (c : Cur) (s : State) : State :=
  let fn := c.lau.fn
  if onTrial fn s = some c.grp.launch ∧ mreg fn 0x1AC8 s ≤ c.frag.pc ∧ c.frag.pc < mreg fn 0x1AD0 s then
    let d := (mreg fn 0x1AC0 s).toNat % 256
    let s1 := setMreg fn 0x1AE0 (mreg fn 0x1AE0 s + BitVec.ofNat 64 d) s
    mapGangs (fun k g j gg =>
      if g.launch = c.grp.launch ∧ g.core = c.grp.core ∧ ¬ (k = c.r.grp ∧ j = c.r.gang) then
        { gg with lantern := satAdd16 gg.lantern (BitVec.ofNat 16 d) }
      else gg) s1
  else s

/-- Holds fall by one at each clock of their core (R277), of which `clock` names how many have passed. -/
def lanternCool (clock : Nat) (s : State) : State :=
  if s.groups.all (fun e => e.2.gangs.all (fun g => g.2.lantern == 0#16)) then s
  else mapGangs (fun _ g _ gg =>
    { gg with lantern := BitVec.ofNat 16 (gg.lantern.toNat - (clocksIn g.core clock).toNat) }) s

/-- The functions with a trial under way. -/
def trials (s : State) : List (Nat × Nat) :=
  s.mmio.filterMap (fun e =>
    if e.1 % 65536 = 0x1AC0 then (onTrial (e.1 / 65536) s).map (fun k => (e.1 / 65536, k)) else none)

/-- LNCLK counts, for every core that holds a resident gang of the launch on trial, its clocks (R277). -/
def lanternCount (clock : Nat) (s : State) : State :=
  (trials s).foldl (fun s x =>
    let cores := nodup ((s.groups.filter (fun e => e.2.launch == x.2 && !e.2.ended)).map (fun e => e.2.core))
    setMreg x.1 0x1AD8 (cores.foldl (fun n c => n + clocksIn c clock) (mreg x.1 0x1AD8 s)) s) s

/-- Another gang of its partition has issued: a yielding gang is ready again (R386). -/
def unyield (c : Cur) (s : State) : State :=
  if s.groups.all (fun e => e.2.gangs.all (fun g => g.2.yielded.isNone)) then s
  else mapGangs (fun k g j gg =>
    if g.core = c.grp.core ∧ gg.partition = c.gang.partition ∧ ¬ (k = c.r.grp ∧ j = c.r.gang) then { gg with yielded := none }
    else gg) s

/-- What an issue adds to counters and trials, and to a yielding gang of its partition (R277, R279, R386). -/
def noteIssue (c : Cur) (s : State) : State := unyield c (lanternIssue c (countEvents 0x0001 c.ctx 1 s))

end Sys2Proof.Machine
end

