-- ==== Sys2Proof/Machine/Flags.lean ====
section
/-!
DEFINITION. The sticky saturation flags (R75) and the numerical-instability events (R51-R57).
-/
namespace Sys2Proof.Machine

/-- SATF bits (R75). -/
def satAdd : Nat := 1
/-- PKS clamped. -/
def satPk : Nat := 2
/-- IDOT2 clamped. -/
def satDot : Nat := 4
/-- ISHRR clamped. -/
def satShr : Nat := 8
/-- An XS conversion or add saturated. -/
def satXs : Nat := 16
/-- A .SAT conversion clamped. -/
def satFp8 : Nat := 32
/-- FTOI saturated or met NaN. -/
def satCvt : Nat := 64

/-- Bits join the pending set of a fragment (R75). -/
def pendSat (r : FragRef) (bits : Nat) (s : State) : State :=
  if bits = 0 then s else modFrag r (fun f => { f with pendSatf := f.pendSatf ||| BitVec.ofNat 7 bits }) s

/-- SATF as a fragment reads it (R75). -/
def Cur.satf (c : Cur) : Word := c.gang.satf ||| c.frag.pendSatf.setWidth 32

/-- An event of a quad and element: its digit count and its loss (R51-R53). -/
structure NitHit where
  quad : Nat
  elem : Nat
  digits : Nat
  loss : Nat
  deriving DecidableEq, Repr

/-- The action of a kind: 1 CANCEL, 2 CMP, 3 DIVZ (R54). -/
def nitAction (cfg : Word) (kind : Nat) : Nat := cfg.toNat / 4 ^ (kind - 1) % 4

/-- Count events in the fragment's pending counts (R55). -/
def countNit (kind n : Nat) (f : Frag) : Frag :=
  match kind with
  | 1 => { f with pendCancel := satAdd16 f.pendCancel (BitVec.ofNat 16 n) }
  | 2 => { f with pendCmp := satAdd16 f.pendCmp (BitVec.ofNat 16 n) }
  | _ => { f with pendDivz := satAdd16 f.pendDivz (BitVec.ofNat 16 n) }

/-- The reported element (R56): element 0 of the lowest quad that fired if it fired there, else element 1. -/
def reported (hits : List NitHit) : NitHit :=
  let q := hits.foldl (fun m h => min m h.quad) 8
  let here := hits.filter (fun h => h.quad == q)
  match here.find? (fun h => h.elem == 0) with
  | some h => h
  | none => here.headD { quad := 0, elem := 0, digits := 0, loss := 0 }

/-- TCAUSE[39:8] of an event (R56). -/
def nitDetail (kind : Nat) (hits : List NitHit) : Word :=
  let h := reported hits
  let qmask := bitsOf (fun q => hits.any (fun h => h.quad == q)) 8
  BitVec.ofNat 32 ((if kind = 1 then min h.loss 255 else 0) * 2 ^ 24 + (if kind = 2 then 0 else h.digits) * 2 ^ 16
    + qmask * 2 ^ 8 + kind)

/-- What an instruction of length `len` whose events of one kind are `hits` does about them (R54-R57). An operation on
path X names itself in `op`: its HALT waits for the result. -/
def nitEvent (c : Cur) (len kind : Nat) (hits : List NitHit) (op : Option Nat) (s : State) : State :=
  let act := nitAction c.gang.nitcfg kind
  if hits.isEmpty || act == 0 then s
  else
    let s1 := modFrag c.r (countNit kind hits.length) s
    let detail := nitDetail kind hits
    if act = 2 then
      match c.handler with
      | some h => if c.frag.inHandler then s1 else trapOrWait c h ((detail.setWidth 64) <<< 8 ||| 5#64) s1
      | none => s1
    else if act = 3 then
      match op with
      | none => takeFaultAt c c.frag.pc (c.frag.pc + BitVec.ofNat 64 len) { cls := 0x05, detail := detail } s1
      | some id => modFrag c.r (fun f => { f with hold := .nitHalt id c.frag.pc detail }) s1
    else s1

end Sys2Proof.Machine
end

