-- ==== Sys2Proof/Machine/Operands.lean ====
section
/-!
DEFINITION. Operand forms (R94, R113-R116), the checks before issue (R132), and the one way every vector instruction
writes its result: kills, destination, latch push, flags and events.
-/
namespace Sys2Proof.Machine

/-- A guard (R114). -/
structure Guard where
  pe : Bool
  pg : BitVec 3
  pn : Bool
  deriving DecidableEq, Repr

/-- The guard of an XO or XI word. -/
def pfxGuard : Pfx → Guard
  | .none => { pe := false, pg := 0#3, pn := false }
  | .xo x => { pe := x.pe, pg := x.pg, pn := x.pn }
  | .xi x => { pe := x.pe, pg := x.pg, pn := x.pn }

/-- The guard of an XM word. -/
def xmGuard : Option XM → Guard
  | none => { pe := false, pg := 0#3, pn := false }
  | some x => { pe := x.pe, pg := x.pg, pn := x.pn }

/-- The lanes an instruction acts on (R114). -/
def Cur.act (c : Cur) (g : Guard) : Mask := c.acting g.pe g.pg g.pn

/-- The guard reads a poisoned predicate (R261). -/
def Cur.guardPoisoned (c : Cur) (g : Guard) : Bool := g.pe && c.frag.exec != 0#32 && c.gang.ppoisoned g.pg

/-- TY of an XO or XI word; 0 without one (R118). -/
def pfxTy : Pfx → Nat
  | .none => 0
  | .xo x => x.ty.toNat
  | .xi x => x.ty.toNat

/-- SMOD (R113). -/
def pfxSmod : Pfx → Nat
  | .xo x => x.smod.toNat
  | _ => 0

/-- The rounding override (R113). -/
def pfxOverride : Pfx → Option (BitVec 2)
  | .xo x => if x.roe then some x.rnd else none
  | _ => none

/-- How an immediate stands for an operand (R116). -/
inductive IxKind where
  | int | s16x2 | s8x4 | f32 | f64 | h2
  deriving DecidableEq, Repr

/-- The value of ix (R116), as 64 bits. -/
def ixValue (k : IxKind) (imm : BitVec 14) : Nat :=
  match k with
  | .int => (imm.signExtend 64).toNat
  | .s16x2 => (imm.signExtend 16).toNat * 0x10001
  | .s8x4 => (imm.setWidth 8).toNat * 0x1010101
  | .f32 => imm.toNat * 2 ^ 18
  | .f64 => imm.toNat * 2 ^ 50
  | .h2 => imm.toNat * 4 * 0x10001

/-- A vector source operand: specifier, width, dead bit, and what sx and ix stand for if the prefix allows them. -/
structure Operand where
  spec : Nat
  wide : Bool
  dead : Bool
  sx : Option (BitVec 6)
  ix : Option Nat
  deriving DecidableEq, Repr

/-- A source of a row whose SRCC is used as told (R115, R116). -/
def operand (x : Pfx) (use : SrccUse) (k : IxKind) (spec : BitVec 7) (wide dead : Bool) : Operand :=
  { spec := spec.toNat, wide := wide, dead := dead,
    sx := match x with | .xo y => (if use = .sx then some (y.srcc.setWidth 6) else none) | _ => none,
    ix := match x with | .xi y => some (ixValue k y.imm14) | _ => none }

/-- The third source (R115): named by XO, else the destination as it stands. -/
def operandC (x : Pfx) (dst : BitVec 7) (wide : Bool) : Operand :=
  match x with
  | .xo y => { spec := y.srcc.toNat, wide := wide, dead := y.dc, sx := none, ix := none }
  | _ => { spec := dst.toNat, wide := wide, dead := false, sx := none, ix := none }

/-- A value given by the instruction itself. -/
def operandImm (v : Nat) : Operand := { spec := 127, wide := true, dead := false, sx := none, ix := some v }

/-- A 64-bit register operand's limits or a 32-bit one's (R87, R94). -/
def regOk (regs spec : Nat) (wide : Bool) : Bool :=
  if spec < 112 then decide (spec < regs) && (!wide || (spec % 2 == 0 && decide (spec + 1 < regs)))
  else decide (spec < 120) && (!wide || spec % 2 == 0)

/-- Operand limits of a source (R87, R94, R115). -/
def Operand.ok (o : Operand) (regs : Nat) : Bool :=
  if o.spec < 120 then regOk regs o.spec o.wide
  else if o.spec = 126 then o.sx.isSome
  else if o.spec = 127 then o.ix.isSome
  else true

/-- Operand limits of a destination (R87, R94): a register, or 124 for the latch alone. -/
def dstOk (regs : Nat) (spec : BitVec 7) (wide : Bool) : Bool := spec == 124#7 || regOk regs spec.toNat wide

/-- Registers per lane (R87). -/
def Cur.regs (c : Cur) : Nat := c.lau.r.regs

/-- A source's value in a lane (R94), 32 or 64 bits. -/
def Operand.val (o : Operand) (c : Cur) (l : Nat) : Nat :=
  let full :=
    if o.spec < 112 then (c.v o.spec l).toNat + (if o.wide then 2 ^ 32 * (c.v (o.spec + 1) l).toNat else 0)
    else if o.spec < 120 then
      (c.ocv (o.spec - 112) l).toNat + (if o.wide then 2 ^ 32 * (c.ocv (o.spec - 111) l).toNat else 0)
    else if o.spec < 124 then (c.gang.lat (o.spec - 120) l).toNat
    else if o.spec = 125 then c.tidx l
    else if o.spec = 126 then (match o.sx with | some n => (c.s n).toNat | none => 0)
    else if o.spec = 127 then o.ix.getD 0
    else 0
  if o.wide then full else full % 2 ^ 32

/-- A source's word is poisoned in a lane (R261). -/
def Operand.poisoned (o : Operand) (c : Cur) (l : Nat) : Bool :=
  if o.spec < 120 then c.rpois o.spec l || (o.wide && c.rpois (o.spec + 1) l)
  else if o.spec = 126 then (match o.sx with | some n => c.spoisoned n | none => false)
  else false

/-- Kill a source whose dead bit is set (R98). -/
def Gang.killSrc (g : Gang) (o : Operand) (m : Mask) : Gang :=
  if o.dead then (if o.wide && decide (o.spec < 120) then (g.kill o.spec m).kill (o.spec + 1) m else g.kill o.spec m) else g

/-- Write a result in a lane: a register or a pair; nothing for 124 (R94). A result merged into its destination keeps
the destination's poison (R261). -/
def Gang.result (g : Gang) (spec : BitVec 7) (wide keeps : Bool) (l v : Nat) : Gang :=
  if 120 ≤ spec.toNat then g
  else
    let g1 := g.setReg spec.toNat l (BitVec.ofNat 32 v) (keeps && g.rpois spec.toNat l)
    if wide then g1.setReg (spec.toNat + 1) l (BitVec.ofNat 32 (v / 2 ^ 32)) false else g1

/-- The pipe of a destination (R95). -/
def pipeB (spec : BitVec 7) : Bool := spec.getLsbD 1

/-! Issue. -/

/-- An instruction has issued: what every issue does, before its own effect. -/
def begun (i : Instr) (c : Cur) (s : State) : State := noteIssue c (issued i c (unstall s))

/-- Issue one instruction for the selected fragment: the checks of R132 in their order, then its effect. These checks meet no
memory line. -/
def issue (i : Instr) (p : Bool) (chk : Cur → Pre) (eff : Cur → State → State) (s : State) : Out :=
  match cur s with
  | none => .fault .noIssuer
  | some c =>
    if i.wf then
      match chk c with
      | .go => .next (parked p c (eff c (begun i c s)))
      | .stall => .next (stallCur c s)
      | .fault f => .next (takeFault c f s)
      | .line _ => .next s
      | .table _ => .next s
      | .miss va => .next (stallCur c (askAts c va s))
    else .next (takeFault c (illop .reserved) s)

/-- The banks of the main file that a source reads (R101): a pair reads two, slots, latches and scalars none. -/
def Operand.banks (a : Operand) : List Nat :=
  if 112 ≤ a.spec then [] else if a.wide then [a.spec % 4, (a.spec + 1) % 4] else [a.spec % 4]

/-- The extra clocks that an instruction spends on bank conflicts (R101), counted as events of code 0x0002 (R280). -/
def banked (c : Cur) (bs : List Nat) (s : State) : State :=
  countEvents 0x0002 c.ctx ((List.range 4).foldl (fun n b => n + (bs.count b - 1)) 0) s

/-- Issue of an instruction with some sources in registers. -/
def issueFrom (srcs : List Operand) (i : Instr) (p : Bool) (chk : Cur → Pre) (eff : Cur → State → State) (s : State) : Out :=
  issue i p chk (fun c s => eff c (banked c (srcs.flatMap Operand.banks) s)) s

/-- OPERAND, then poison. -/
def preOf (ok poisoned : Bool) : Pre :=
  (Pre.unless ok (illop .operand)).andThen (Pre.unless (!poisoned) { cls := 0x0B })

/-! Vector instructions of the A and B pipes. -/

/-- A vector instruction with a register result. -/
structure VOp where
  i : Instr
  p : Bool
  x : Pfx
  srcs : List Operand
  dst : BitVec 7
  wide : Bool
  /-- The bits of the destination that the instruction keeps. -/
  kept : Nat := 0
  fp : Bool := false
  deriving DecidableEq, Repr

/-- A float instruction computes in this lane: every lane, but under MODE.SIB = 0 in TRIPLE the reference lane alone (R20). -/
def Cur.computes (c : Cur) (fp : Bool) (l : Nat) : Bool := !(fp && c.triple) || (c.gang.quad (l / 4)).sib || l % 4 == 3

/-- The lane whose computation a lane receives (R20). -/
def Cur.lane (c : Cur) (fp : Bool) (l : Nat) : Nat := if c.computes fp l then l else refLane l

/-- Sources of acting lanes are poisoned (R261, R272). -/
def Cur.poison (c : Cur) (fp : Bool) (g : Guard) (os : List Operand) : Bool :=
  c.guardPoisoned g || (lanesIn (c.act g)).any (fun l => c.computes fp l && os.any (fun o => o.poisoned c l))

/-- The checks of a vector instruction. -/
def VOp.pre (o : VOp) (extra : Bool) (c : Cur) : Pre :=
  preOf (o.srcs.all (fun a => a.ok c.regs) && dstOk c.regs o.dst o.wide && extra) (c.poison o.fp (pfxGuard o.x) o.srcs)

/-- What a vector instruction computes in a lane: the value and the SATF bits. -/
abbrev LaneFn := Cur → Nat → Nat × Nat

/-- The kept bits of a destination, merged at the write: they are those of the lane that is written (R323). -/
def VOp.merge (o : VOp) (c : Cur) (l v : Nat) : Nat :=
  if o.kept = 0 then v
  else
    let old := ({ spec := o.dst.toNat, wide := false, dead := false, sx := none, ix := none } : Operand).val c l
    (v ||| o.kept) ^^^ o.kept ||| (old &&& o.kept)

/-- Write the results of acting lanes: kills, destinations, latch pushes (R96, R98). -/
def VOp.write (o : VOp) (push : Bool) (c : Cur) (f : LaneFn) (g : Gang) : Gang :=
  let a := c.act (pfxGuard o.x)
  (lanesIn a).foldl (fun g l =>
      let v := o.merge c l (f c (c.lane o.fp l)).1
      let g1 := g.result o.dst o.wide (o.kept != 0) l v
      if push then g1.push (pipeB o.dst) l (BitVec.ofNat 64 (if o.wide then v else v % 2 ^ 32)) else g1)
    (o.srcs.foldl (fun g s => g.killSrc s a) g)

/-- The SATF bits that acting lanes set. -/
def VOp.sats (o : VOp) (c : Cur) (f : LaneFn) : Nat :=
  (lanesIn (c.act (pfxGuard o.x))).foldl (fun m l => m ||| (f c (c.lane o.fp l)).2) 0

/-- A vector instruction: its results, flags and NIT events, after the checks `pre`. -/
def VOp.runPre (o : VOp) (pre : Cur → Pre) (f : LaneFn) (kind : Nat) (hits : Cur → List NitHit) (s : State) : Out :=
  issueFrom o.srcs o.i o.p pre
    (fun c s =>
      nitEvent c o.i.len kind (hits c) none
        (pendSat c.r (o.sats c f) (modGang (gangRefOf c.r) (o.write true c f) s))) s

/-- A vector instruction. `extra` holds operand limits beyond R87 and R94. -/
def VOp.run (o : VOp) (extra : Bool) (f : LaneFn) (kind : Nat) (hits : Cur → List NitHit) (s : State) : Out :=
  o.runPre (o.pre extra) f kind hits s

/-- What the operation that the issuing gang has just added has counted so far (R281). -/
def noteEvents (c : Cur) (s t : State) : State :=
  match (gangOf (gangRefOf c.r) t).bind (fun g => g.ops.getLast?) with
  | some o => causedBy c.ctx o.id s t
  | none => t

/-- Count an operation of the issuing gang on its path (R159). -/
def addOp (c : Cur) (op : Nat → PendOp) (s : State) : Nat × State :=
  let (id, s1) := fresh s
  (id, modGang (gangRefOf c.r) (fun g => { g with ops := g.ops ++ [op id] }) s1)

/-- An instruction that would raise a counter above 63 waits (R159). -/
def Cur.pathFull (c : Cur) (p : Path) : Pre := if 63 ≤ c.gang.counter p then .stall else .go

/-- The register words a vector instruction writes when it completes. -/
def VOp.words (o : VOp) (c : Cur) (f : LaneFn) : List RegWrite :=
  if 120 ≤ o.dst.toNat then []
  else
    (lanesIn (c.act (pfxGuard o.x))).flatMap (fun l =>
      let v := (f c (c.lane o.fp l)).1
      let lo : RegWrite := { reg := o.dst.toNat, lane := l, val := BitVec.ofNat 32 v, pois := false }
      if o.wide then [lo, { lo with reg := o.dst.toNat + 1, val := BitVec.ofNat 32 (v / 2 ^ 32) }] else [lo])

/-- A vector instruction that counts on a path: its sources are read and killed now, its result is written when it
completes (R161). -/
def VOp.runLater (o : VOp) (path : Path) (f : LaneFn) (kind : Nat) (hits : Cur → List NitHit) (s : State) : Out :=
  issueFrom o.srcs o.i o.p (fun c => (o.pre true c).andThen (c.pathFull path))
    (fun c s =>
      let a := c.act (pfxGuard o.x)
      let (id, s1) := addOp c (fun id => { PendOp.blank id path c.r.frag with writes := o.words c f })
        (modGang (gangRefOf c.r) (fun g => o.srcs.foldl (fun g s => g.killSrc s a) g) s)
      nitEvent c o.i.len kind (hits c) (some id) s1) s

/-- No NIT event. -/
def noHits : Cur → List NitHit := fun _ => []

/-- The two sources and destination of a two-operand instruction, whichever word form holds them. -/
structure Bin where
  i : Instr
  p : Bool
  x : Pfx
  a : Operand
  b : Operand
  dst : BitVec 7
  deriving DecidableEq, Repr

/-- The A3 form (R108). -/
def a3Bin (i : Instr) (o : A3) (k : IxKind) (wide : Bool) : Bin :=
  { i := i, p := o.p, x := o.x, a := operand o.x .sx k o.a wide o.da, b := operand o.x .sx k o.b wide o.db, dst := o.d }

/-- The second source of a 16-bit form (R110): s0-s3 are read like sx. -/
def halfSrc (s5 : BitVec 5) : Operand :=
  let n := s5.toNat
  let spec := if n < 16 then n else if n < 24 then 96 + n else if n < 28 then 96 + n else 126
  { spec := spec, wide := false, dead := false, sx := if 28 ≤ n then some (BitVec.ofNat 6 (n - 28)) else none, ix := none }

/-- The 16-bit form (R110): dst and srcA are d6. -/
def halfBin (i : Instr) (s5 : BitVec 5) (d6 : BitVec 6) : Bin :=
  { i := i, p := false, x := .none, a := { spec := d6.toNat, wide := false, dead := false, sx := none, ix := none },
    b := halfSrc s5, dst := d6.setWidth 7 }

/-- An integer immediate put in every element of an operand (R116, R331). -/
def spreadImm (k : IxKind) (v : Nat) : Nat :=
  match k with
  | .s16x2 => v % 65536 * 0x10001
  | .s8x4 => v % 256 * 0x1010101
  | _ => v

/-- The immediate of an I-format row, extended by XI (R116), as 64 bits. -/
def immOf (imm : BitVec 9) (x : Pfx) : Nat :=
  match x with
  | .xi y => ((y.imm14 ++ imm).signExtend 64).toNat
  | _ => (imm.signExtend 64).toNat

/-- The I form (R108): the second source is the immediate. -/
def iBin (i : Instr) (o : IF) (k : IxKind) (wide : Bool) : Bin :=
  { i := i, p := o.p, x := o.x, a := operand o.x .unused k o.a wide false,
    b := operandImm (spreadImm k (immOf o.imm o.x)), dst := o.d }

/-- The vector instruction of two sources. -/
def Bin.vop (b : Bin) (wide fp : Bool) : VOp :=
  { i := b.i, p := b.p, x := b.x, srcs := [b.a, b.b], dst := b.dst, wide := wide, fp := fp }

/-- A compare: its sources, its predicate, and whether it is a float one. -/
structure VCmp where
  i : Instr
  p : Bool
  x : Pfx
  srcs : List Operand
  pd : BitVec 3
  deriving DecidableEq, Repr

/-- The outcome of a compare for each lane of a mask: its own in SINGLE, the siblings' majority in TRIPLE, the
reference lane's under MODE.SIB = 0 (R48, R20). -/
def Cur.vote (c : Cur) (f : Nat → Bool) (l : Nat) : Bool :=
  if !c.triple then f l
  else if (c.gang.quad (l / 4)).sib then
    let a := f (l / 4 * 4)
    let b := f (l / 4 * 4 + 1)
    let d := f (l / 4 * 4 + 2)
    (a && b) || (a && d) || (b && d)
  else f (refLane l)

/-- The quads of a mask whose vote is not unanimous (R52). -/
def Cur.split (c : Cur) (f : Nat → Bool) (a : Mask) : List NitHit :=
  if c.triple then
    ((quadsIn a).filter (fun q => (c.gang.quad q).sib && !(f (4 * q) == f (4 * q + 1) && f (4 * q) == f (4 * q + 2)))).map
      (fun q => { quad := q, elem := 0, digits := 0, loss := 0 })
  else []

/-- A compare: predicate bits of acting lanes, latch push of 1 or 0, CMP events (R88, R96, R321, R335). -/
def VCmp.run (o : VCmp) (f : Cur → Nat → Bool) (s : State) : Out :=
  issueFrom o.srcs o.i o.p (fun c => preOf (o.srcs.all (fun a => a.ok c.regs)) (c.poison true (pfxGuard o.x) o.srcs))
    (fun c s =>
      let a := c.act (pfxGuard o.x)
      let m := maskOf (c.vote (f c))
      nitEvent c o.i.len 2 (c.split (f c) a) none
        (modGang (gangRefOf c.r) (fun g =>
          (lanesIn a).foldl (fun g l => g.push false l (if m.getLsbD l then 1#64 else 0#64))
            ((o.srcs.foldl (fun g s => g.killSrc s a) g).setP o.pd a m)) s)) s

end Sys2Proof.Machine
end

