-- ==== Sys2Proof/Machine/Access.lean ====
section
/-!
DEFINITION. Accesses to memory (R123, R142-R147, R342, R379): effective addresses, the checks before issue, the bytes
lanes read and write, the store buffer (R151), the L1 (R150, R217) and the footprint (R216).
-/
namespace Sys2Proof.Machine

/-- A vector access: space, what it needs, bytes, base scalar, offset operand, immediate in access sizes, guard. -/
structure Access where
  sp : Space
  need : Need
  size : Nat
  sb : BitVec 6
  off : Operand
  imm : Int
  g : Guard
  deriving DecidableEq, Repr

/-- The offset of an M row (R117, R123). -/
def offOperand (off : BitVec 7) (ow : Bool) : Operand :=
  { spec := off.toNat, wide := ow, dead := false, sx := none, ix := none }

/-- Operand limits of the offset: a 64-bit one is even (R117, R123, R343). -/
def Access.offOk (a : Access) (regs : Nat) : Bool := a.off.ok regs && (!a.off.wide || a.off.spec % 2 == 0)

/-- The banks that an access reads for its offset and for `n` registers of data from one on (R101). -/
def Access.banks (a : Access) (data n : Nat) : List Nat := a.off.banks ++ (List.range n).map (fun i => (data + i) % 4)

/-- The effective address of a lane (R123). -/
def Access.ea (a : Access) (c : Cur) (l : Nat) : Nat :=
  wrapTo 64 (((c.s a.sb).toNat + a.off.val c l : Nat) + a.imm * a.size)

/-- Which planes of a window an access works on: it is not looked up, plane 0 alone, or all and the digit byte. -/
inductive Planes where
  | raw | first | all
  deriving DecidableEq, Repr

/-- What the checks of a lane's address find. -/
inductive Look where
  | ok (es : List Elem)
  | fault (f : FReq)
  | miss (va : Nat)
  | table (ln : Nat)
  deriving DecidableEq, Repr

/-- The first failure of several lookups, or all their answers. -/
def collect {α : Type} : List (Except Res α) → Except Res (List α)
  | [] => .ok []
  | .error e :: _ => .error e
  | .ok x :: t => (collect t).map (fun r => x :: r)

/-- Where an address lies, with the address itself. -/
def spotAt (ctx : BitVec 6) (ns : NSpace) (n : Need) (slot : Nat) (s : State) (a : Nat) : Except Res (Place × Nat) :=
  match resolve ctx ns a n slot s with
  | .at p => .ok (p, a)
  | e => .error e

/-- The addresses of an element's planes (R59). -/
def planesOf (w : Window) (pl : Planes) (a : Nat) : List Nat :=
  if w.layout = 1 ∧ pl = .all then [a, planeAddr w a 1, planeAddr w a 2, planeAddr w a 3] else [a]

/-- Resolve one piece of an access at `base`. -/
def elemAt (ctx : BitVec 6) (ns : NSpace) (n : Need) (slot : Nat) (s : State) (pl : Planes) (base : Nat) (p : Piece) :
    Except Res Elem :=
  let a := base + p.off
  let spot := spotAt ctx ns n slot s
  match p.win with
  | none => (spot a).map (fun x => { off := p.off, len := p.len, win := none, planes := [x], digit := none })
  | some w =>
    match collect ((planesOf w pl a).map spot) with
    | .error e => .error e
    | .ok ps =>
      if w.layout = 2 ∧ pl = .all then
        (spot (digitAddr w a)).map (fun d => { off := p.off, len := p.len, win := some w, planes := ps, digit := some d })
      else .ok { off := p.off, len := p.len, win := some w, planes := ps, digit := none }

/-- MISALIGN at an address. -/
def misaligned (ea : Nat) (n : Need) : FReq := { cls := 0x02, addr := BitVec.ofNat 64 ea, access := n.access }

/-- The checks of one address of a space, in the order of R240, then the layout lookup (R59). -/
def lookAt (c : Cur) (sp : Space) (n : Need) (size : Nat) (pl : Planes) (ea lane : Nat) (s : State) : Look :=
  match normalise c sp ea lane n s with
  | .error f => .fault f
  | .ok (ns, x) =>
    let slot := 64 * lane
    match resolve c.ctx ns x n slot s with
    | .bad f => .fault f
    | .miss v => .miss v
    | .table l => .table l
    | .at _ =>
      let ws := if pl = .raw then [] else windowsOf c sp ns s
      match (if pl = .raw then none else windowsBad c sp ns s) with
      | some ln => .table ln
      | none =>
      if windowFits ws x size then
        match collect ((pieces ws x size size 0).map (elemAt c.ctx ns n slot s pl x)) with
        | .ok es => .ok es
        | .error (.bad f) => .fault f
        | .error (.miss v) => .miss v
        | .error (.table l) => .table l
        | .error (.at _) => .ok []
      else .fault (misaligned ea n)

/-- Each accessing lane with what its address gives. A helper lane's own failure is no fault (R18). -/
def Access.looks (a : Access) (pl : Planes) (helpers : Bool) (c : Cur) (s : State) : List (Nat × Look) :=
  (c.memLanes (c.act a.g)).filterMap (fun l =>
    if c.helper l then
      (if helpers && a.ea c l % a.size == 0 then
        (match lookAt c a.sp a.need a.size pl (a.ea c l) l s with
         | .fault _ => none
         | r => some (l, r))
       else none)
    else some (l, lookAt c a.sp a.need a.size pl (a.ea c l) l s))

/-- The elements of the lanes that can access. -/
def goodLooks (l : List (Nat × Look)) : List (Nat × List Elem) :=
  l.filterMap (fun e => match e.2 with | .ok es => some (e.1, es) | _ => none)

/-- The lanes that carry threads among the accessing lanes. -/
def Access.threads (a : Access) (c : Cur) : List Nat := (c.memLanes (c.act a.g)).filter (fun l => !c.helper l)

/-- Poison an access's address consumes (R261). -/
def Access.poisoned (a : Access) (c : Cur) : Bool :=
  c.guardPoisoned a.g || (!(a.threads c).isEmpty && c.spoisoned a.sb) || (a.threads c).any (fun l => a.off.poisoned c l)

/-- The address checks of a vector access (R240, R342): MISALIGN of the lowest lane, then each lane's own. -/
def Access.check (a : Access) (looks : List (Nat × Look)) (c : Cur) : Pre :=
  match (a.threads c).find? (fun l => a.ea c l % a.size != 0) with
  | some l => .fault (misaligned (a.ea c l) a.need)
  | none =>
    match looks.find? (fun e => match e.2 with | .ok _ => false | _ => true) with
    | some (_, .fault f) => .fault f
    | some (_, .miss v) => .miss v
    | some (_, .table l) => .table l
    | _ => .go

/-! Lines read. -/

/-- Every place an access reads, with its length. -/
def Elem.reads (e : Elem) : List (Place × Nat) :=
  e.planes.map (fun p => (p.1, e.len)) ++ (match e.digit with | some d => [(d.1, 1)] | none => [])

/-- The lines of physical memory that accesses name; peers' memory is not cached (R147). -/
def linesOf (ps : List (Place × Nat)) : List Nat :=
  nodup (ps.filterMap (fun p => match p.1 with
    | .phys a => if a < peerBase then some (a / 128) else none
    | .scr .. => none))

/-- A line that L1 serves to a context (R150). -/
def l1Hit (core : Nat) (ctx : BitVec 6) (ln : Nat) (s : State) : Bool :=
  match aget ln (coreOf core s).l1 with
  | some e => e.ctx == ctx && (e.data == getBytes s.mem (128 * ln) 128 || l1Keeps core ln s)
  | none => false

/-- The first of some lines whose read at its home meets an uncorrectable error (R264, R402). -/
def badOf (lns : List Nat) (s : State) : Pre :=
  match lns.find? (fun ln => fatalLevel ln s != 0) with
  | some ln => .line ln
  | none => .go

/-- The physical line address of a line of the model's numbering (R216, R217). -/
def physLine (ln : Nat) : Nat := ln % (2 ^ 60 / 128)

/-- The line hash of the victim tags (R217). -/
def lineHash (ln : Nat) : Nat :=
  let x := physLine ln
  bits x 15 0 ^^^ bits x 31 16 ^^^ bits x 47 32

/-- An L1 line leaves: the oldest victim tag goes first (R217). -/
def evict (core ln : Nat) (s : State) : State :=
  modCore core (fun k =>
    match aget ln k.l1 with
    | none => k
    | some e =>
      let v := k.victims ++ [(lineHash ln, e.slot)]
      { k with l1 := aerase ln k.l1, victims := if 2048 < v.length then v.tail else v }) s

/-- An L1 miss looks up the victim tags: its own slot's tag is a lost-locality event (R217). -/
def victimLook (core ln slot : Nat) (s : State) : State × Bool :=
  let vs := (coreOf core s).victims
  match vs.find? (fun v => v.1 == lineHash ln) with
  | none => (s, false)
  | some v => (modCore core (fun k => { k with victims := k.victims.erase v }) s, v.2 == slot)

/-- Put a line into one of the cache banks, each of which holds one line of a set; the line that stood there leaves (R150). A set is
the line address modulo 256; which bank is replacement, and so free, but one with room is taken first. -/
def l1Fill (core : Nat) (ctx : BitVec 6) (slot ln : Nat) (s : State) : State :=
  let same := ((coreOf core s).l1).filter (fun e => e.1 % 256 == ln % 256 && e.1 != ln)
  let banks := (List.range 16).filter (fun b => takesLines core b s)
  let room := banks.filter (fun b => same.all (fun e => e.2.bank != b))
  let bank := oneOf (s.clock + ln) (if room.isEmpty then banks else room)
  let s1 := if room.isEmpty then
      (match same.find? (fun e => e.2.bank == bank) with | some e => evict core e.1 s | none => s)
    else s
  let data := getBytes s1.mem (128 * ln) 128
  modCore core (fun k =>
    { k with l1 := aput ln { data := data, marks := lineMarks ln s, late := [], ctx := ctx, host := decide (hostBase ≤ 128 * ln), slot := slot, bank := bank } k.l1 }) s1

/-- A read of a line through L1 (R150): a hit stays; a miss reads the home, and allocates where it may. -/
def l1Read (r : GangRef) (core : Nat) (ctx : BitVec 6) (alloc : Bool) (s : State) (ln : Nat) : State :=
  if l1Hit core ctx ln s then s
  else
    let slot := slotOf r s
    let s0 := if (aget ln (coreOf core s).l1).isSome then evict core ln s else s
    let (s1, lost) := victimLook core ln slot s0
    let s2 := if lost then countEvents 0x0004 ctx 1 (modGang r (fun g => { g with leaseE := g.leaseE + 1 }) s1) else s1
    let s3 := countEvents 0x0005 ctx 1 (homeRead s2 ln (dieOf core))
    if alloc && (List.range 16).any (fun b => takesLines core b s3) then l1Fill core ctx slot ln s3 else s3

/-- Translations used stay in the TLBs (R249). -/
def touchVas (ctx : BitVec 6) (vas : List Nat) (s : State) : State :=
  (nodup (vas.map (· / 65536))).foldl (fun s p => tlbTouch ctx (65536 * p) s) s

/-- The virtual addresses of elements in virtual space. -/
def Elem.vas (e : Elem) : List Nat :=
  (e.planes ++ e.digit.toList).filterMap (fun p => match p.1 with
    | .phys a => if a < peerBase ∧ p.2 < 2 ^ 57 then some p.2 else none
    | .scr .. => none)

/-! The footprint (R216). -/

/-- The footprint bit of a line. -/
def footBit (ln : Nat) : Nat :=
  let x := physLine ln
  (x ^^^ (x / 2 ^ 9) ^^^ (x / 2 ^ 18) ^^^ (x / 2 ^ 27)) % 512

/-- An access counts in the gang's footprint window; a full window ends next. -/
def footprint (r : GangRef) (lns : List Nat) (s : State) : State :=
  let s1 := modGang r (fun g =>
    { g with window := g.window + 1, footprint := lns.foldl (fun m ln => m ||| (1#512 <<< footBit ln)) g.footprint }) s
  match gangOf r s1 with
  | some g => if 2048 ≤ g.window then { s1 with agenda := .footprintWindowEnd r :: s1.agenda } else s1
  | none => s1

/-- The rows whose accesses the footprint counts: global, private and host space, windows apart. -/
def footCounts (sp : Space) (looks : List (Nat × List Elem)) : Bool :=
  (sp == .g || sp == .p || sp == .h) &&
    (looks.isEmpty || looks.any (fun e => e.2.any (fun x => x.planes.any (fun p => match p.1 with | .phys _ => true | _ => false))))

/-- Two ranges of bytes meet. -/
def meets (p q : Place × Nat) : Bool :=
  match p.1, q.1 with
  | .phys a, .phys b => decide (a < b + q.2) && decide (b < a + p.2)
  | .scr k a, .scr k' b => k == k' && decide (a < b + q.2) && decide (b < a + p.2)
  | _, _ => false

/-! Waiting for the gang's own accesses. -/

/-- A load has not read some bytes yet: they wait for a link (R286, R293). -/
def LateRead.unread (x : LateRead) : Bool := x.seen.any (fun p => !p.got)

/-- The gang has atomics that wait at the home (R227), or loads and atomics that wait for a link (R286, R293): not performed yet. -/
def Gang.logWaits (g : Gang) : Bool := g.ops.any (fun o => o.log.isSome) || g.reads.any LateRead.unread

/-- A waiting atomic or load of the gang names one of some bytes, or is an acquire: an access ordered behind it waits
(R170, R177). -/
def Gang.behindLog (g : Gang) (ps : List (Place × Nat)) : Bool :=
  g.ops.any (fun o => match o.log with
    | none => false
    | some w => w.acq.isSome || w.lanes.any (fun x => ps.any (fun p => meets (x.place, w.size) p)))
  || g.reads.any (fun x => x.seen.any (fun p => !p.got && ps.any (fun q => meets (p.place, p.len) q)))

/-- Loads in flight that an access of some lanes comes after in gang order, and that it overlaps, are performed before it: what they have
read there stands (R168, R170). -/
def Gang.settleAt (g : Gang) (mask : Mask) (ps : List (Place × Nat)) : Gang :=
  if g.reads.isEmpty then g
  else
    { g with reads := g.reads.map (fun x =>
        if x.mask &&& mask = 0#32 then x
        else { x with seen := x.seen.map (fun p => if ps.any (fun q => meets (p.place, p.len) q) then { p with late := false } else p) }) }

/-- A release at a scope waits for the entry's acknowledgement (R176): scratch of its own group, by whatever space it is named (R145),
global, private and host data from GROUP on, other groups' scratch from CLUSTER on, fabric stores from DEVICE on. -/
def SbEntry.acts (e : SbEntry) (grp scope : Nat) : Bool :=
  match e.line with
  | .scr k _ => if k ≠ grp then decide (2 ≤ scope) else decide (1 ≤ scope)
  | .phys a => if peerBase ≤ a then decide (3 ≤ scope) else decide (1 ≤ scope)

/-- A stall where a condition holds. -/
def Pre.stallIf (b : Bool) : Pre := if b then .stall else .go

/-! Fabric and host links. -/

/-- The ports each peer named needs, and whether the host link is needed (R286, R293). -/
def portsOf (ctx : BitVec 6) (ps : List (Place × Nat)) (s : State) : List (BitVec 16) :=
  (nodup (ps.filterMap (fun p => match p.1 with
    | .phys a => if peerBase ≤ a then some ((a - peerBase) / 2 ^ 57) else none
    | .scr .. => none))).map (fun k => fabricPorts ctx k s)

/-- Some place lies in host memory. -/
def onHost (ps : List (Place × Nat)) : Bool :=
  ps.any (fun p => match p.1 with | .phys a => decide (hostBase ≤ a) && decide (a < peerBase) | .scr .. => false)

/-- The place can be reached now: a live port leads to its peer, and a host link is up for host memory (R286, R293). -/
def placeReached (ctx : BitVec 6) (p : Place) (s : State) : Bool :=
  (portsOf ctx [(p, 1)] s).all (fun m => m &&& s.ports != 0#16) && (!onHost [(p, 1)] || s.links != 0#2)

/-! Loads. -/

/-- The bytes of a load at a place, as a number (R150, R170). -/
def loadNum (core : Nat) (sbuf : List SbEntry) (ctx : Option (BitVec 6)) (p : Place) (n : Nat) (s : State) : Nat :=
  ofBytes ((List.range n).map (fun i => loadByte core ctx sbuf (p.plus i) s))

/-- L1 serves these spaces (R150). -/
def l1Space (sp : Space) (ctx : BitVec 6) : Option (BitVec 6) :=
  match sp with
  | .g | .p | .h => some ctx
  | _ => none

/-- How the bytes at a place are read: their number, and whether they are poisoned (R262). -/
abbrev Reading := Place → Nat → Nat × Bool

/-- The reading of a load now. -/
def readNow (core : Nat) (sbuf : List SbEntry) (ctx : Option (BitVec 6)) (s : State) : Reading :=
  fun p n => (loadNum core sbuf ctx p n s, poisonedAt p n s)

/-- What lane `k` of a quad reads of an element (R60). -/
def Elem.load (e : Elem) (read : Reading) (triple : Bool) (k : Nat) : Nat × Bool :=
  match e.planes, e.win with
  | [], _ => (0, false)
  | p :: ps, some w =>
    if triple && w.layout == 2 && k != 3 then
      match e.digit, winFmt w with
      | some d, some f => (meanLoad f (read p.1 e.len).1 (read d.1 1).1 k, (read p.1 e.len).2 || (read d.1 1).2)
      | _, _ => read p.1 e.len
    else if triple && w.layout == 1 && k != 3 then (match ps[k]? with | some q => read q.1 e.len | none => read p.1 e.len)
    else read p.1 e.len
  | p :: _, none => read p.1 e.len

/-- What a lane of a quad reads of a whole access. -/
def loadLane (es : List Elem) (read : Reading) (triple : Bool) (k : Nat) : Nat × Bool :=
  es.foldl (fun r e =>
    let x := e.load read triple k
    (r.1 + x.1 * 2 ^ (8 * e.off), r.2 || x.2)) (0, false)

/-- The parts of some bytes that lie in one aligned 8-byte word each: what one read takes as one write left it (R173). -/
def cuts (p : Place) (n : Nat) : List (Place × Nat) :=
  (wordsOf p.key n).map (fun w =>
    let a := max p.key (8 * w)
    (p.moved a, min (p.key + n) (8 * w + 8) - a))

/-- Register words of a value from a specifier on. -/
def wordsFrom (reg lane n v : Nat) (pois : Bool) : List RegWrite :=
  (List.range n).map (fun i => { reg := reg + i, lane := lane, val := BitVec.ofNat 32 (v / 2 ^ (32 * i)), pois := pois })

/-- The lanes that receive what an accessing lane reads: itself, or the acting lanes of its quad (R49). -/
def servedBy (triple : Bool) (act : Mask) (l : Nat) : List Nat :=
  if triple then [l - 3, l - 2, l - 1, l].filter (fun m => act.getLsbD m) else [l]

/-- The same for a lane of the issuing gang. -/
def Cur.served (c : Cur) (a : Mask) (l : Nat) : List Nat := servedBy c.triple a l

/-! Stores. -/

/-- Bytes one lane writes at one place; `va` is its virtual address, where it has one. -/
structure WItem where
  lane : Nat
  va : Option Nat
  dest : Place
  bytes : List Byte
  deriving DecidableEq, Repr

/-- The line of a place. -/
def Place.line : Place → Place
  | .phys a => .phys (a / 128 * 128)
  | .scr k o => .scr k (o / 128 * 128)

/-- Bytes for a place of an element. -/
def itemAt (lane : Nat) (p : Place × Nat) (n v : Nat) : WItem :=
  { lane := lane,
    va := match p.1 with | .phys a => if a < peerBase ∧ p.2 < 2 ^ 57 then some p.2 else none | .scr .. => none,
    dest := p.1, bytes := toBytes n v }

/-- What a store writes of an element (R60): `x k` is what lane k of the quad stores, `x 3` in SINGLE. -/
def Elem.store (e : Elem) (triple : Bool) (lane : Nat) (x : Nat → Nat) : List WItem :=
  let v := fun k => x k / 2 ^ (8 * e.off) % 2 ^ (8 * e.len)
  match e.planes, e.win with
  | [], _ => []
  | p :: ps, some w =>
    if w.layout = 1 then
      itemAt lane p e.len (v 3) :: (ps.zipIdx.map (fun q => itemAt lane q.1 e.len (v (if triple then q.2 else 3))))
    else if w.layout = 2 then
      match e.digit, winFmt w with
      | some d, some f =>
        [itemAt lane p e.len (if triple then meanOf f (v 0) (v 1) (v 2) else v 3),
         itemAt lane d 1 (if triple then digitsOf f (v 0) (v 1) (v 2) else f.p)]
      | _, _ => [itemAt lane p e.len (v 3)]
    else [itemAt lane p e.len (v 3)]
  | p :: _, none => [itemAt lane p e.len (v 3)]

/-- The lanes of a quad whose data a store consumes (R49, R60). -/
def storeUses (triple : Bool) (lane : Nat) (es : List Elem) : List Nat :=
  if triple then
    [0, 1, 2, 3].filterMap (fun k =>
      if es.any (fun e => match e.win with
        | none => k == 3
        | some w => w.layout == 1 || (w.layout == 2 && k != 3)) then some (lane - 3 + k) else none)
  else [lane]

/-- The cells of one item. -/
def WItem.cells (w : WItem) : List Host.Cell := place w.dest.key w.bytes

/-- The items in the order in which later ones win: by logical thread index (R169), which wraps (R16). -/
def Cur.byThread (c : Cur) (items : List WItem) : List WItem :=
  match items with
  | [] => []
  | i :: _ =>
    items.filter (fun x => decide (c.bigT x.lane < c.bigT i.lane)) ++ items.filter (fun x => !decide (c.bigT x.lane < c.bigT i.lane))

/-- The watched bytes of an item (R282). -/
def WItem.watchedCells (w : WItem) (ctx : BitVec 6) (s : State) : List Host.Cell :=
  match w.va with
  | none => []
  | some va => (w.cells.zipIdx.filter (fun e => watched ctx (va + e.2) s)).map Prod.fst

/-- The Spotlight spots of a store: the watched bytes of each lane, by word (R282). -/
def spotsOf (items : List WItem) (ctx : BitVec 6) (s : State) : List Spot :=
  ((items.map (fun w => w.lane)).foldl (fun l x => if l.contains x then l else l ++ [x]) []).flatMap (fun lane =>
    (byWord ((items.filter (fun w => w.lane == lane)).flatMap (fun w => w.watchedCells ctx s))).map (fun cs => { lane := lane, cells := cs }))

/-- The store-buffer entries of one store: one for each line, in the order of the lowest lane that writes it (R151). -/
def Cur.entries (c : Cur) (op : Nat) (sp : Space) (rel : Option (BitVec 3)) (spot : Bool) (items : List WItem) (s : State) :
    List SbEntry :=
  let lns := (items.map (fun w => w.dest.line)).foldl (fun l p => if l.contains p then l else l ++ [p]) []
  let byT := c.byThread items
  lns.map (fun ln =>
    let mine := byT.filter (fun w => w.dest.line == ln)
    { op := op, core := c.grp.core, space := sp, line := ln,
      cells := mine.foldl (fun m w => w.cells.foldl (fun m x => aput x.1 x.2 m) m) [],
      rel := rel, spots := if spot then spotsOf mine c.ctx s else [], cycle := cycleAt c.grp.core s,
      depth := match (quadsIn c.frag.mask).head? with | some q => (c.gang.quad q).stack.length | none => 0,
      pc := c.frag.pc, mask := c.frag.mask, frag := c.r.frag,
      ports := (portsOf c.ctx [(ln, 1)] s).head?, hostLink := onHost [(ln, 1)],
      by' := .gang c.r.grp c.r.gang, marks := c.gang.marks (gangRefOf c.r) (rel.map (fun x => x.toNat)) (op + 1) })

/-- Room in the store buffer for the lines of a store (R151). -/
def Cur.room (c : Cur) (items : List WItem) : Bool :=
  let k := ((items.map (fun w => w.dest.line)).foldl (fun l p => if l.contains p then l else l ++ [p]) []).length
  if k ≤ 16 then decide (c.gang.sbuf.length + k ≤ 16) else c.gang.sbuf.isEmpty

/-- Where an item's bytes lie. -/
def itemPlaces (items : List WItem) : List (Place × Nat) := items.map (fun w => (w.dest, w.bytes.length))

/-- A store issues: it counts on path W, and its bytes enter the buffer. One with no bytes is complete at once. -/
def Cur.pushStore (c : Cur) (sp : Space) (rel : Option (BitVec 3)) (spot : Bool) (items : List WItem) (s : State) : State :=
  let (id, s1) := addOp c (fun id => { PendOp.blank id .w c.r.frag with done := items.isEmpty }) s
  let es := c.entries id sp rel spot items s1
  modGang (gangRefOf c.r) (fun g => ({ g.settleAt c.frag.mask (itemPlaces items) with sbuf := g.sbuf ++ es }).retired) s1

/-! Register groups of the M rows (R123, R125, R303). -/

/-- Words of a DATA group of `n` registers: aligned, and below the declared count. -/
def groupOk (regs spec n : Nat) : Bool :=
  if spec < 112 then spec % n == 0 && decide (spec + n ≤ regs) else decide (spec < 120) && (spec - 112) % n == 0 && decide (spec + n ≤ 120)

/-- What a store's DATA operand supplies in a lane (R123, R378): a latch named as a 128-bit source gives its 64 bits,
and the specification states no value for the rest. -/
def storeData (c : Cur) (spec w l : Nat) (s : State) : Nat :=
  let word := fun i => (if spec < 112 then c.v (spec + i) l else c.ocv (spec - 112 + i) l).toNat
  if spec < 120 then
    (List.range (if w = 4 then 4 else if w = 3 then 2 else 1)).foldl (fun v i => v + word i * 2 ^ (32 * i)) 0
  else if spec < 124 then
    (c.gang.lat (spec - 120) l).toNat + (if w = 4 then 2 ^ 64 * (Config.freeDWord (2 ^ 80 * s.clock + l)).toNat else 0)
  else if spec = 125 then c.tidx l
  else 0

/-- A store's DATA in a lane is poisoned (R261), be it a register or an operand-cache word. -/
def dataPoisoned (c : Cur) (spec n l : Nat) : Bool :=
  decide (spec < 120) && (List.range n).any (fun i => c.rpois (spec + i) l)

end Sys2Proof.Machine
end

