-- ==== Sys2Proof/Machine/Amo.lean ====
section
/-!
DEFINITION. Atomic operations at their place (R169, R180, R302-R304, R385), and the replay log (R223-R228).
-/
namespace Sys2Proof.Machine

/-- The new value of an atomic (R302, R385): nothing where it writes nothing, and whether an XS add clamped. `b` is what
the second group of an ACAS holds. -/
def amoNew (aop size old a b : Nat) : Option Nat × Bool :=
  let w := 8 * size
  let f : Fmt := if size = 8 then .f64 else .f32
  match aop with
  | 0 => (some ((old + a) % 2 ^ w), false)
  | 1 => (some (if sint a w < sint old w then a else old), false)
  | 2 => (some (min old a), false)
  | 3 => (some (if sint old w < sint a w then a else old), false)
  | 4 => (some (max old a), false)
  | 5 => (some (if sint old 16 < sint a 16 then a % 65536 else old % 65536), false)
  | 6 => (some (old &&& a), false)
  | 7 => (some (old ||| a), false)
  | 8 => (some (old ^^^ a), false)
  | 9 => (some a, false)
  | 10 => (some (f.round .rn (fvAdd .rn (f.dec old) (f.dec a))), false)
  | 11 => (some (f.minMax true old a), false)
  | 12 => (if old = a then some b else none, false)
  | _ =>
    let r := xsAdd (sint old w) (sint a w)
    (some (wrapTo w r.1), r.2)

/-- Who a Spotlight record of a gang's write names (R284). -/
def Cur.writer (c : Cur) (s : State) : Writer :=
  { ctx := c.ctx, source := 0, core := c.grp.core, frag := c.r.frag,
    depth := match (quadsIn c.frag.mask).head? with | some q => (c.gang.quad q).stack.length | none => 0,
    cycle := cycleAt c.grp.core s, launch := c.lau.name, grp := c.grp.g, gang := c.r.gang, lane := 0,
    pc := c.frag.pc, mask := c.frag.mask }

/-- Who a Spotlight record of a waiting logged atomic names. -/
def LogWait.writer (w : LogWait) (g : Group) (gang lane : Nat) (l : Launch) : Writer :=
  { ctx := l.ctx, source := 0, core := g.core, frag := w.frag, depth := w.depth, cycle := BitVec.ofNat 64 w.since,
    launch := l.name, grp := g.g, gang := gang, lane := lane, pc := w.pc, mask := w.mask }

/-- The Spotlight records of bytes written from a virtual address on (R282): scratch reached through its window is no global word. -/
def spotWrite (w : Writer) (va : Option Nat) (cells : List Host.Cell) (s : State) : State :=
  match va with
  | none => s
  | some va =>
    (byWord ((cells.zipIdx.filter (fun e => watched w.ctx (va + e.2) s)).map Prod.fst)).foldl (fun s cs => spotRecord w cs s) s

/-- What one lane of an atomic gives back: the old value, its poison, a clamp. -/
structure AmoRes where
  old : Nat
  pois : Bool
  sat : Bool
  deriving DecidableEq, Repr

/-- The operation a write belongs to: its agent, its number, what it publishes (R175). -/
structure Tag where
  by' : Agent
  op : Nat
  marks : List Mark
  deriving DecidableEq, Repr

/-- One lane of an atomic at its place (R180). An ACAS that fails leaves the bytes as they are (R302, R282), but for the marks of its own
release: its old value is what it gave them (R175; log entry 8). -/
def amoAt (w : Writer) (tag : Tag) (aop size : Nat) (va : Option Nat) (p : Place) (a b : Nat) (s : State) : State × AmoRes :=
  let pois := poisonedAt p size s
  let old := oldNum p size s
  let (new, sat) := amoNew aop size old a b
  let s1 := askPeer w.ctx p (fun va => .atomic (BitVec.ofNat 4 aop) size va a b) (homeReads (dieOf w.core) (linesOf [(p, size)]) s)
  match new with
  | none =>
    let same := place p.key (bytesAt p size s1)
    let s2 := noteMarks tag.marks (fun q => marksAt q s) p same (match p with | .phys _ => l1Update w.core same s1 | .scr .. => s1)
    (s2, { old := old, pois := pois, sat := sat })
  | some v =>
    let cells := place p.key (toBytes size v)
    let s2 := noteWrite tag.by' tag.op tag.marks (fun q => marksAt q s) p cells
      (perform p cells (keepOlds tag.by' tag.op p cells (match p with | .phys _ => spotWrite w va cells s1 | .scr .. => s1)) (dieOf w.core))
    let s3 := match p with | .phys _ => l1Update w.core cells s2 | .scr .. => s2
    (s3, { old := old, pois := pois, sat := sat })

/-! The replay log. -/

/-- Where a byte of a launch's log lies: LOGBASE is an address of the launch's context. -/
def logAt (l : Launch) (off : Nat) (n : Need) (s : State) : Option Nat :=
  match resolveVa l.ctx (l.r.logbase + off) n 0 s with
  | .at (.phys a) => some a
  | _ => none

/-- Write bytes of the log; one that no page holds is lost. -/
def logPut (l : Launch) (off : Nat) (bs : List Byte) (s : State) : State :=
  match logAt l off .wr s, resolveVa l.ctx (l.r.logbase + off) .wr 0 s with
  | some a, _ => putPhys a bs s
  | none, .table ln => reportLine ln s
  | none, _ => s

/-- Read bytes of the log; those of a line that cannot be corrected are unpredictable (R264). -/
def logGet (l : Launch) (off n : Nat) (s : State) : Nat :=
  match logAt l off .rd s with
  | some a => if (badLine a n s).isNone then getNum s.mem a n else (Config.freeDWord (2 ^ 163 + a)).toNat % 2 ^ (8 * n)
  | none => 0

/-- The header of the log (R225). -/
def logHeader (l : Launch) : List Byte :=
  [0x4C#8, 0x4F#8, 0x47#8, 0x01#8] ++ toBytes 4 (if l.trunc then 1 else 0) ++ toBytes 8 l.ndisp ++ toBytes 8 l.ngrant
    ++ toBytes 4 l.r.gx ++ toBytes 4 l.r.gy ++ toBytes 4 l.r.gz ++ toBytes 4 l.r.scratch ++ toBytes 24 0

/-- Write a record of the log under RECORD; a full log drops it and sets TRUNC (R224). -/
def logRecord (k : Nat) (disp : Bool) (bs : List Byte) (s : State) : State :=
  match aget k s.launches with
  | none => s
  | some l =>
    let off := 64 + 32 * (l.ndisp + l.ngrant)
    let l' := if l.r.logsize < off + 32 then { l with trunc := true }
      else if disp then { l with ndisp := l.ndisp + 1 } else { l with ngrant := l.ngrant + 1 }
    let s1 := if l.r.logsize < off + 32 then s else logPut l off bs s
    logPut l 0 (logHeader l') (modLaunch k (fun _ => l') s1)

/-- A dispatch record (R225): the core's index in the function's core list, the group, its number on that core. -/
def logDispatch (k coreIx g : Nat) (s : State) : State :=
  match aget k s.launches with
  | none => s
  | some l =>
    let n := (aget coreIx l.coreSeq).getD 0
    logRecord k true (toBytes 1 1 ++ toBytes 1 coreIx ++ toBytes 2 0 ++ toBytes 4 g ++ toBytes 8 n ++ toBytes 16 0)
      (modLaunch k (fun l => { l with coreSeq := aput coreIx (n + 1) l.coreSeq }) s)

/-- A grant record (R225). -/
def logGrant (k : Nat) (x : LogLane) (s : State) : State :=
  match aget k s.launches with
  | none => s
  | some l =>
    let n := (aget x.va l.addrSeq).getD 0
    logRecord k false (toBytes 1 2 ++ toBytes 1 0 ++ toBytes 2 x.lane ++ toBytes 4 x.t ++ toBytes 8 x.va
        ++ toBytes 6 x.icount ++ toBytes 2 0 ++ toBytes 8 n)
      (modLaunch k (fun l => { l with addrSeq := aput x.va (n + 1) l.addrSeq }) s)

/-- The records a BOUND launch's log holds, numbered. -/
def logCount (l : Launch) (s : State) : Nat := logGet l 8 8 s + logGet l 16 8 s

/-- The device reads the log of a BOUND launch: its header and its records (R264, R402). -/
def readLog (l : Launch) (s : State) : State :=
  ((List.range (logCount l s + 2)).filterMap (fun i => logAt l (32 * i) .rd s)).foldl (fun s a => readHome a 32 s) s

/-- What the log says of a logged lane (R227): the index of its record and whether it is the next at its address. -/
inductive LogTurn where
  | absent
  | later
  | now (rec : Nat)
  deriving DecidableEq, Repr

/-- The grant records of an address: index and SEQ, those already consumed left out. -/
def logQueue (l : Launch) (va : Nat) (s : State) : List (Nat × Nat) :=
  (List.range (logCount l s)).filterMap (fun i =>
    let o := 64 + 32 * i
    if logGet l o 1 s = 2 ∧ logGet l (o + 8) 8 s = va ∧ ¬ l.consumed.contains i then some (i, logGet l (o + 24) 8 s) else none)

/-- Whose turn it is at a lane's address (R227). -/
def logTurn (l : Launch) (x : LogLane) (s : State) : LogTurn :=
  let q := logQueue l x.va s
  match q.find? (fun e =>
      let o := 64 + 32 * e.1
      logGet l (o + 2) 2 s == x.lane && logGet l (o + 4) 4 s == x.t && logGet l (o + 16) 6 s == x.icount) with
  | none => .absent
  | some e => if q.all (fun d => decide (e.2 ≤ d.2)) then .now e.1 else .later

/-- A BOUND lane consumes its record. -/
def logConsume (k i : Nat) (s : State) : State := modLaunch k (fun l => { l with consumed := l.consumed ++ [i] }) s

end Sys2Proof.Machine
end

