-- ==== Sys2Proof/Machine/Chunk.lean ====
section
/-!
DEFINITION. Tensors as the engines see them: shape records (R141), chunks and their headers (R252-R258), and the writes
of a COPY or an MDRAIN through a shape record.
-/
namespace Sys2Proof.Machine

/-- Bytes of an element by FORMAT (R141). -/
def elemSize (f : Nat) : Nat := match f with | 3 => 2 | 4 => 2 | 5 => 4 | 6 => 8 | 7 => 8 | 8 => 4 | _ => 1

/-- A SHAPE record (R141). -/
def parseShape (m : Memory) (a : Nat) : Shape :=
  let fl := getNum m (a + 19) 1
  { base := getNum m a 8, ckaddr := getNum m (a + 8) 8, format := getNum m (a + 16) 1, planes := getNum m (a + 17) 1,
    dims := getNum m (a + 18) 1, edgeZero := fl.testBit 0, chunk := bits fl 3 1, exact := fl.testBit 4,
    tag := BitVec.ofNat 16 (getNum m (a + 20) 2), pstride := getNum m (a + 24) 4,
    ext := (List.range 5).map (fun k => getNum m (a + 28 + 3 * k) 3),
    box := (List.range 5).map (fun k => getNum m (a + 43 + k) 1 + 1),
    str := 1 :: (List.range 4).map (fun k => getNum m (a + 48 + 4 * k) 4) }

/-- Bytes of one element. -/
def Shape.e (sh : Shape) : Nat := elemSize sh.format

/-- Planes of the tensor. -/
def Shape.nplanes (sh : Shape) : Nat := if sh.planes = 0 then 1 else 4

/-- The product of a list. -/
def prod (l : List Nat) : Nat := l.foldl (· * ·) 1

/-- Digits of a number in mixed radix, lowest first. -/
def digitsIn : List Nat → Nat → List Nat
  | [], _ => []
  | b :: t, n => n % max b 1 :: digitsIn t (n / max b 1)

/-- The number of digits in mixed radix, lowest first. -/
def numIn : List Nat → List Nat → Nat
  | b :: t, d :: ds => d + b * numIn t ds
  | _, _ => 0

/-- The dense linear index of an element of plane p (R252). -/
def Shape.lin (sh : Shape) (ix : List Nat) (p : Nat) : Nat := numIn sh.ext ix + p * prod sh.ext

/-- The coordinates and plane of a dense linear index. -/
def Shape.unlin (sh : Shape) (n : Nat) : List Nat × Nat := (digitsIn sh.ext n, n / max (prod sh.ext) 1)

/-- The address of an element (R141). -/
def Shape.addr (sh : Shape) (ix : List Nat) (p : Nat) : Nat :=
  (sh.base + p * sh.pstride * 64 + ((List.zip ix sh.str).foldl (fun n x => n + x.1 * x.2) 0) * sh.e) % 2 ^ 64

/-- Payload bytes of a chunk (R252). -/
def Shape.z (sh : Shape) : Nat := 256 * 2 ^ (sh.chunk - 1)

/-- The chunk of an element. -/
def Shape.chunkOf (sh : Shape) (n : Nat) : Nat := n * sh.e / sh.z

/-- The elements of a chunk; the last chunk may be short. -/
def Shape.members (sh : Shape) (c : Nat) : List Nat :=
  let per := sh.z / sh.e
  let total := prod sh.ext * sh.nplanes
  (List.range (min per (total - c * per))).map (fun i => c * per + i)

/-- The checksum modulus (R254). -/
def ckMod : Nat := 2 ^ 61 - 1

/-- S1 and S2 of a list of words (R254). -/
def sums (ws : List Int) : Nat × Nat :=
  let m : Int := (ckMod : Nat)
  let r := ws.zipIdx.foldl (fun (a : Int × Int) w =>
    let x := w.1 % m
    ((a.1 + x) % m, (a.2 + (w.2 + 1 : Nat) * x) % m)) (0, 0)
  (r.1.toNat, r.2.toNat)

/-- An element of an EXACT chunk as an integer (R254). -/
def exactWord (format v : Nat) : Int :=
  let fp := fun (f : Fmt) (sc : Nat) =>
    match f.dec v with
    | .fin neg m e => (if neg then -1 else 1) * ((m * 2 ^ (e + sc).toNat : Nat) : Int)
    | _ => ((v + 2 ^ 32 : Nat) : Int)
  match format with
  | 0 => fp .e4m3 9
  | 1 => fp .e5m2 16
  | 2 => sint v 8
  | 8 => sint v 32
  | 7 => sint v 64
  | _ => (v : Nat)

/-- Little-endian 32-bit words of bytes, the last padded with zeros. Fuel is the number of bytes. -/
def words32 : Nat → List Byte → List Int
  | 0, _ => []
  | _, [] => []
  | n + 1, b => ((ofBytes (b.take 4) : Nat) : Int) :: words32 n (b.drop 4)

/-- The words a chunk's checksums are taken over (R254): its elements in linear order. -/
def Shape.words (sh : Shape) (vs : List Nat) : List Int :=
  if sh.exact then vs.map (exactWord sh.format)
  else
    let b := vs.flatMap (toBytes sh.e)
    words32 b.length b

/-- A chunk header (R253). -/
structure Hdr where
  tag : Nat
  kind : Nat
  hops : Nat
  index : Nat
  last : Nat
  lrole : Nat
  stale : Bool
  len : Nat
  s1 : Nat
  s2 : Nat
  deriving DecidableEq, Repr

/-- Read a header. -/
def Hdr.parse (b : List Byte) : Hdr :=
  let f := fun o n => ofBytes ((b.drop o).take n)
  { tag := f 0 2, kind := f 2 1, hops := f 3 1, index := f 4 4, last := f 8 2, lrole := f 10 1, stale := f 11 1 % 2 == 1,
    len := f 12 2, s1 := f 16 8, s2 := f 24 8 }

/-- A header's 32 bytes. -/
def Hdr.bytes (h : Hdr) : List Byte :=
  toBytes 2 h.tag ++ toBytes 1 h.kind ++ toBytes 1 h.hops ++ toBytes 4 h.index ++ toBytes 2 h.last ++ toBytes 1 h.lrole
    ++ toBytes 1 (if h.stale then 1 else 0) ++ toBytes 2 h.len ++ toBytes 2 0 ++ toBytes 8 h.s1 ++ toBytes 8 h.s2

/-- A header's sums agree with computed ones: a set bit of [63:61] fails every verification (R254). -/
def Hdr.agrees (h : Hdr) (x : Nat × Nat) : Bool := h.s1 == x.1 && h.s2 == x.2

/-- The transfer a chunk or an element belongs to: its context and launch, and who issued it. -/
structure Xfer where
  op : Nat
  ctx : BitVec 6
  grp : Nat
  launch : DWord
  g : Nat
  gang : Nat
  core : Nat
  frag : Nat
  depth : Nat
  cycle : DWord
  pc : DWord
  mask : Mask
  source : Nat
  role : Nat
  deriving DecidableEq, Repr

/-- Why a transfer does not go on: an engine fault (R244), a stop without one (R201), a place that no link or port reaches (R286, R293), an
uncorrectable line of its data or of the tables of a walk (R264). -/
inductive XErr where
  | stall (f : FReq)
  | stop (f : FReq)
  | wait
  | line (l : Nat)
  | table (l : Nat)
  deriving DecidableEq, Repr

/-- ACCESS of an engine's access (R242). -/
def engineAccess (n : Need) : Nat := (if n = .at then 3 else n.access) + 16

/-- A global address of an engine's access (R248, R256): the place of its first byte, which names that of all its bytes, also where an
element at a misaligned address crosses into another page (log entry 73). -/
def engineAt (ctx : BitVec 6) (va : Nat) (n : Need) (s : State) : Except XErr Place :=
  let bad := fun (f : FReq) => Except.error (XErr.stall { f with addr := BitVec.ofNat 64 va, access := engineAccess n })
  if va < 2 ^ 57 then
    match resolveVa ctx va n (va % 32768) s with
    | .at p => .ok p
    | .bad f => bad f
    | .miss _ => bad (permAt n va)
    | .table l => .error (.table l)
  else bad (permAt n va)

/-- Bytes of a group's scratch. -/
def scratchAt (grp off len : Nat) (n : Need) (s : State) : Except FReq Place :=
  match aget grp s.groups with
  | some g => if off + len ≤ g.scrSize then .ok (.scr grp off) else .error { permAt n off with access := engineAccess n }
  | none => .error (permAt n off)

/-- One element to write: its linear index, its address, its value, its poison. -/
structure XItem where
  lin : Nat
  addr : Nat
  val : Nat
  pois : Bool
  deriving DecidableEq, Repr

/-- The add of R155 by operation and FORMAT: the new value, and whether it saturated or wrapped. -/
def addElem (format old new : Nat) : Nat × Bool :=
  match format with
  | 5 => (Fmt.f32.round .rn (fvAdd .rn (Fmt.f32.dec old) (Fmt.f32.dec new)), false)
  | 8 =>
    let t := sint old 32 + sint new 32
    (wrapTo 32 t, decide (t < -(2 ^ 31 : Int) ∨ (2 ^ 31 : Int) ≤ t))
  | _ =>
    let r := xsAdd (sint old 64) (sint new 64)
    (wrapTo 64 r.1, r.2)

/-- Who a Spotlight record of the transfer names. -/
def Xfer.writer (x : Xfer) (source : Nat) : Writer :=
  { ctx := x.ctx, source := source, core := x.core, frag := x.frag, depth := x.depth, cycle := x.cycle,
    launch := x.launch, grp := x.g, gang := x.gang, lane := 0xFF, pc := x.pc, mask := x.mask }

/-- Spotlight records of an element's write (R282). -/
def Xfer.spot (x : Xfer) (source : Nat) (va : Option Nat) (cells : List Host.Cell) (s : State) : State :=
  match va with
  | none => s
  | some va =>
    (byWord ((cells.zipIdx.filter (fun e => watched x.ctx (va + e.2) s)).map Prod.fst)).foldl
      (fun s cs => spotRecord (x.writer source) cs s) s

/-- Write one element at its place: a move, or an add at the Mirror or the bank (R155, R163); to a peer, by a request flit (R292). The
value written, and whether an add saturated or wrapped. -/
def Xfer.put (x : Xfer) (add : Bool) (format e : Nat) (va : Option Nat) (p : Place) (v : Nat) (pois : Bool) (s : State) :
    State × Nat × Bool :=
  let (new, flag) := if add then addElem format (oldNum p e s) v else (v, false)
  let cells := place p.key (toBytes e new)
  let s := keepOlds (.op x.op) s.clock p cells s
  let s0 := askPeer x.ctx p (fun at' => if add then .add (BitVec.ofNat 4 format) at' v else .write at' (toBytes e v)) s
  let s1 := x.spot (if add then 3 else x.source) va cells s0
  let s2 := match p with
    | .phys a => l1Late x.core cells
      (if add && isDev a then performMirror cells s1 else perform p cells s1 (dieOf x.core))
    | .scr .. => noteWrite (.op x.op) s.clock [] (fun _ => []) p cells (perform p cells s1)
  (if pois then poisonAt p e s2 else s2, new, flag)

/-- Some place cannot be reached: the transfer waits for a link or a port (R286, R293). -/
def cutOff (ctx : BitVec 6) (ps : List Place) (s : State) : Bool := ps.any (fun p => !placeReached ctx p s)

/-- The first place of a list that meets an uncorrectable line when read, or cannot be reached. -/
def readable (ctx : BitVec 6) (ps : List Place) (s : State) : Option XErr :=
  if cutOff ctx ps s then some .wait
  else match badOf (linesOf (ps.map (fun p => (p, 1)))) s with
  | .line l => some (.line l)
  | _ => none

/-- The line that a write of `n` bytes at a place reads (R402). -/
def Place.fills (n : Nat) (s : State) : Place → Option Nat
  | .phys a => if a < peerBase ∧ writeReads (a / 128) (place a (List.replicate n 0#8)) s then some (a / 128) else none
  | .scr .. => none

/-- The lines that writes of `n` bytes at some places read. -/
def fillLines (n : Nat) (ps : List Place) (s : State) : List Nat := nodup (ps.filterMap (Place.fills n s))

/-- The first of them that cannot be corrected. -/
def fillable (ctx : BitVec 6) (n : Nat) (ps : List Place) (s : State) : Option XErr :=
  if cutOff ctx ps s then some .wait
  else match badOf (fillLines n ps s) s with
  | .line l => some (.line l)
  | _ => none

/-- The first place of a list that a Mirror add meets such a line at. -/
def addable (ctx : BitVec 6) (ps : List Place) (s : State) : Option XErr :=
  if cutOff ctx ps s then some .wait
  else ((linesOf (ps.map (fun p => (p, 1)))).find? (fun ln => mirrorLevel ln s != 0)).map XErr.line

/-- The first error of a list, or every answer. -/
def gather {α : Type} : List (Except XErr α) → Except XErr (List α)
  | [] => .ok []
  | .error e :: _ => .error e
  | .ok x :: t => (gather t).map (fun r => x :: r)

/-- The header a hop issues for a chunk it wrote whole, or STALE for a part of one (R255-R257). -/
def Xfer.header (x : Xfer) (sh : Shape) (add whole : Bool) (c : Nat) (h : Hdr) (die : Nat) (vals : List Nat) (s : State) : Hdr :=
  if whole then
    let r := sums (sh.words vals)
    { tag := sh.tag.toNat, kind := if sh.exact then 1 else 0, hops := min (h.hops + 1) 255, index := c,
      last := hopId x.ctx (if add then 0xA0 + die else x.core) s, lrole := if add then 3 else x.role, stale := false,
      len := vals.length * sh.e, s1 := r.1, s2 := r.2 }
  else { h with stale := true }

/-- A record of sums that differ (R258, R260): kind 1 CKSUM, 2 LINEAR. The header holds the sums expected. -/
def Xfer.mismatch (x : Xfer) (kind role detect c hva : Nat) (h : Hdr) (r : Nat × Nat) (s : State) : State :=
  errorRecord x.ctx
    { kind := kind, ctx := x.ctx, role := role, lrole := h.lrole, detect := detect, lasthop := h.last, tag := h.tag,
      hops := h.hops, index := c, s1h := h.s1, s2h := h.s2, s1c := r.1, s2c := r.2, addr := hva, launch := x.launch.toNat } s

/-- Sums of a chunk and of another added to it (R258). -/
def addSums (a b : Nat × Nat) : Nat × Nat := ((a.1 + b.1) % ckMod, (a.2 + b.2) % ckMod)

/-- A hop verifies sums against data, and reports what differs (R256, R258). -/
def Xfer.verify (x : Xfer) (kind role detect c hva : Nat) (h : Hdr) (r : Nat × Nat) (s : State) : State :=
  if h.agrees r then s else x.mismatch kind role detect c hva h r s

/-- The header that goes with data a hop of the core hands on (R256). -/
def Xfer.sending (x : Xfer) (sh : Shape) (c : Nat) (h : Hdr) (vals : List Nat) (s : State) : Hdr :=
  let r := sums (sh.words vals)
  { tag := sh.tag.toNat, kind := if sh.exact then 1 else 0, hops := min (h.hops + 1) 255, index := c, last := hopId x.ctx x.core s,
    lrole := x.role, stale := false, len := vals.length * sh.e, s1 := r.1, s2 := r.2 }

/-- What the Mirror unit checks of a whole chunk that it adds (R256, R258, R272): the sums handed to it against the data that came, the old
header against the old data, and, of an EXACT chunk with no add that saturated or wrapped, the sums of the result against those of the
incoming and the old values. -/
def Xfer.mirrorChecks (x : Xfer) (sh : Shape) (c hva die : Nat) (h : Hdr) (came olds news : List Nat) (flagged : Bool) (s : State) : State :=
  let unit := hopId x.ctx (0xA0 + die) s
  let sent := x.sending sh c h came s
  let was := sums (sh.words olds)
  let want := addSums (sums (sh.words came)) was
  let s1 := x.verify 1 3 unit c hva sent (sums (sh.words came)) s
  let s2 := if h.stale then s1 else x.verify 1 3 unit c hva h was s1
  if sh.exact && !flagged then x.verify 2 3 unit c hva { h with s1 := want.1, s2 := want.2 } (sums (sh.words news)) s2 else s2

/-- Write elements of one chunk of a tensor, or one element outside a whole chunk, through its shape record: every
address and the header are translated first (R244, R256). `scr` names the scratch of mode SCR, `devOnly` a drain's add
(R201). The Mirror checks a whole chunk that it adds. -/
def Xfer.write (x : Xfer) (sh : Shape) (add whole scr devOnly : Bool) (items : List XItem) (s : State) :
    Except XErr (State × Bool) :=
  let n : Need := if add then .at else .wr
  let dest := fun (i : XItem) =>
    if scr then (match scratchAt x.grp i.addr sh.e n s with | .ok p => Except.ok p | .error f => .error (XErr.stop f))
    else
      match engineAt x.ctx i.addr n s with
      | .ok (.phys a) =>
        if devOnly && !isDev a then .error (XErr.stop { permAt n i.addr with access := engineAccess n }) else .ok (.phys a)
      | r => r
  let c := match items with | i :: _ => sh.chunkOf i.lin | [] => 0
  let hva := sh.ckaddr + 32 * c
  let hdr := if sh.chunk = 0 then Except.ok none else (engineAt x.ctx hva .at s).map some
  match gather (items.map dest), hdr with
  | .error e, _ => .error e
  | _, .error e => .error e
  | .ok ps, .ok hp =>
    match readable x.ctx hp.toList s, (if add then addable x.ctx ps s else fillable x.ctx sh.e ps s) with
    | some e, _ => .error e
    | none, some e => .error e
    | none, none =>
      let s := touchVas x.ctx ((if scr then [] else items.map (fun i => i.addr)) ++ (if sh.chunk = 0 then [] else [hva])) s
      let s := homeReads (dieOf x.core) (linesOf (hp.toList.map (fun p => (p, 1)))) (scrubLines (if add then [] else fillLines sh.e ps s) s)
      let (s1, olds, vals, flagged) := (List.zip items ps).foldl (fun (a : State × List Nat × List Nat × Bool) ip =>
        let r := x.put add sh.format sh.e (if scr then none else some ip.1.addr) ip.2 ip.1.val ip.1.pois a.1
        (r.1, a.2.1 ++ [oldNum ip.2 sh.e a.1], a.2.2.1 ++ [r.2.1], a.2.2.2 || r.2.2)) (s, [], [], false)
      let sat := flagged && sh.format == 7
      match hp with
      | none => .ok (s1, sat)
      | some p =>
        let h := Hdr.parse (bytesAt p 32 s)
        let die := match ps with | .phys a :: _ => (homeOf a).1 | _ => 0
        let s2 := if add && whole then x.mirrorChecks sh c hva die h (items.map (fun i => i.val)) olds vals flagged s1 else s1
        let hb := place p.key (x.header sh add whole c h die vals s).bytes
        let s3 := keepOlds (.op x.op) s.clock p hb s2
        let s4 := match p with
          | .phys _ => l1Late x.core hb (perform p hb s3 (dieOf x.core))
          | .scr .. => noteWrite (.op x.op) s.clock [] (fun _ => []) p hb (perform p hb s3)
        .ok (s4, sat)

end Sys2Proof.Machine
end

