-- ==== Sys2Proof/Machine/CopyEng.lean ====
section
/-!
DEFINITION. The copy engine (R163-R167, R182): the box of a copy, its elements, barrier objects, and one step of a copy.
-/
namespace Sys2Proof.Machine

/-- Elements of the box in one plane. -/
def CopyOp.boxCount (c : CopyOp) : Nat := prod c.shape.box

/-- Visits of the whole copy: every box element of every plane. -/
def CopyOp.visits (c : CopyOp) : Nat := c.boxCount * c.shape.nplanes

/-- Box coordinates of a visit. -/
def CopyOp.boxIx (c : CopyOp) (n : Nat) : List Nat := digitsIn c.shape.box (n % max c.boxCount 1)

/-- Tensor coordinates of a visit. -/
def CopyOp.coords (c : CopyOp) (n : Nat) : List Int := (List.zip c.origin (c.boxIx n)).map (fun x => x.1 + (x.2 : Nat))

/-- The element is inside the tensor (R163). -/
def CopyOp.inside (c : CopyOp) (n : Nat) : Bool :=
  (List.zip (c.coords n) c.shape.ext).all (fun x => decide (0 ≤ x.1) && decide (x.1 < (x.2 : Nat)))

/-- The bytes at the far end of a plane: the box, rounded up to 64 (R163). -/
def CopyOp.farPlane (c : CopyOp) : Nat := roundUp (c.boxCount * c.shape.e) 64

/-- The far address of a box position in a plane. -/
def CopyOp.farAddr (c : CopyOp) (plane dense : Nat) : Nat := (c.far + plane * c.farPlane + dense * c.shape.e) % 2 ^ 64

/-- The near tensor is the destination: S2G. -/
def CopyOp.toNear (c : CopyOp) : Bool := c.dir == 1#2

/-- Element visits that write: inside, or zero-filled on the read side (R163). -/
def CopyOp.writes (c : CopyOp) (n : Nat) : Bool := c.inside n || (!c.toNear && c.shape.edgeZero)

/-- The bytes the copy writes, every plane included (R164). -/
def CopyOp.total (c : CopyOp) : Nat :=
  let within := prod ((List.zip c.origin (List.zip c.shape.box c.shape.ext)).map (fun x =>
    let hi : Int := min (x.1 + ((x.2.1 : Nat) : Int)) ((x.2.2 : Nat) : Int)
    let lo : Int := max x.1 0
    (hi - lo).toNat))
  (if !c.toNear && c.shape.edgeZero then c.boxCount else within) * c.shape.nplanes * c.shape.e

/-- The visit of a tensor element, where the box holds it. -/
def CopyOp.visitOf (c : CopyOp) (lin : Nat) : Option Nat :=
  let (ix, p) := c.shape.unlin lin
  let d := (List.zip ix c.origin).map (fun x => ((x.1 : Nat) : Int) - x.2)
  if (List.zip d c.shape.box).all (fun x => decide (0 ≤ x.1) && decide (x.1 < (x.2 : Nat))) then
    some (p * c.boxCount + numIn c.shape.box (d.map Int.toNat))
  else none

/-- The linear index of an inside visit. -/
def CopyOp.linOf (c : CopyOp) (n : Nat) : Nat := c.shape.lin ((c.coords n).map Int.toNat) (n / max c.boxCount 1)

/-- The chunk of an inside visit, where the copy holds all of it (R256). -/
def CopyOp.wholeChunk (c : CopyOp) (n : Nat) : Option Nat :=
  if c.shape.chunk = 0 then none
  else
    let k := c.shape.chunkOf (c.linOf n)
    if (c.shape.members k).all (fun l => (c.visitOf l).isSome) then some k else none

/-- The launch a copy belongs to, as records name it. -/
def CopyOp.xfer (c : CopyOp) (core : Nat) (s : State) : Xfer :=
  let g := aget c.grp s.groups
  { op := c.id, ctx := c.ctx, grp := c.grp,
    launch := match g.bind (fun g => aget g.launch s.launches) with | some l => l.name | none => 0#64,
    g := match g with | some g => g.g | none => 0, gang := c.gang, core := core, frag := c.frag, depth := c.depth,
    cycle := c.cycle, pc := c.pc, mask := c.mask, source := 1, role := 1 }

/-! Barrier objects (R164). -/

/-- Lower COUNT by bytes written or counted, and set STATUS bits (R164). The copy's writes so far happen before a BWAIT that reads it
(R182). -/
def barrierCount (grp op obj n status : Nat) (s : State) : State :=
  let p := Place.scr grp obj
  let cnt := sint (numAt p 8 s) 64 - (n : Nat)
  let st := numAt (.scr grp (obj + 8)) 4 s ||| status ||| (if cnt < 0 then 8 else 0)
  let cells := place obj (toBytes 8 (wrapTo 64 cnt) ++ toBytes 4 st)
  noteWrite (.op op) s.clock [{ grp := grp, gang := 32, scope := 1, know := [(.op op, s.clock + 1)] }] (fun q => marksAt q s) p cells
    (perform p cells s)

/-! One step of a copy. -/

/-- Change a copy of a core. -/
def modCopy (core id : Nat) (f : CopyOp → CopyOp) (s : State) : State :=
  modCore core (fun k => { k with copies := k.copies.map (fun c => if c.id = id then f c else c) }) s

/-- A copy is over. -/
def dropCopy (core id : Nat) (s : State) : State :=
  modCore core (fun k => { k with copies := k.copies.filter (fun c => c.id != id) }) s

/-- A copy may go on: no fault stalls it, its gang's earlier stores are performed, the copies before it have begun, and a
port leads to its peer (R167, R182, R293). -/
def copyReady (core id : Nat) (s : State) : Bool :=
  let before := (coreOf core s).copies.takeWhile (fun c => c.id != id)
  match (coreOf core s).copies.find? (fun c => c.id == id) with
  | none => false
  | some c =>
    c.token.isNone && before.all (fun b => b.next != 0 || b.token.isSome || b.format)
    && (match gangOf { grp := c.grp, gang := c.gang } s with
        | some g => g.sbuf.all (fun e => decide (c.id < e.op))
        | none => true)
    && (c.dir != 3#2 || fabricPorts c.ctx (c.far / 2 ^ 57) s &&& s.ports != 0#16 || fabricPorts c.ctx (c.far / 2 ^ 57) s == 0#16)

/-- What a copy reads of an element: as it stands, or, where bytes of it have been overwritten since the copy issued, freely that or what
stood there before (R182). -/
def CopyOp.sees (c : CopyOp) (n : Nat) (p : Place) (s : State) : Nat × Bool :=
  let was := (List.range c.shape.e).map (fun i => c.olds.find? (fun x => x.place == p.plus i))
  if was.all Option.isNone || Config.freeBool (2 ^ 161 * (s.clock + 1) + 2 ^ 80 * c.id + n) then (numAt p c.shape.e s, poisonedAt p c.shape.e s)
  else
    (ofBytes ((List.zip (bytesAt p c.shape.e s) was).map (fun y => match y.2 with | some x => x.val | none => y.1)),
     poisonedAt p c.shape.e s || was.any (fun y => match y with | some x => x.pois | none => false))

/-- What the near tensor or the scratch gives for a visit: value and poison. -/
def CopyOp.read (c : CopyOp) (n : Nat) (s : State) : Except XErr (Nat × Bool) :=
  let got := fun (p : Place) => c.sees n p s
  if c.toNear then
    match scratchAt c.grp (c.farAddr (n / max c.boxCount 1) (n % max c.boxCount 1)) c.shape.e .rd s with
    | .ok p => .ok (got p)
    | .error f => .error (.stall f)
  else if c.inside n then
    match engineAt c.ctx (c.shape.addr ((c.coords n).map Int.toNat) (n / max c.boxCount 1)) .rd s with
    | .error e => .error e
    | .ok p => match readable c.ctx [p] s with | some e => .error e | none => .ok (got p)
  else .ok (0, false)

/-- The far place a visit writes (R147, R163). -/
def CopyOp.farDest (c : CopyOp) (n : Nat) (s : State) : Except XErr (Place × Option Nat) :=
  let need : Need := if c.op = 0#2 then .wr else .at
  let a := c.farAddr (n / max c.boxCount 1) (n % max c.boxCount 1)
  match c.dir.toNat with
  | 0 => (match scratchAt c.grp a c.shape.e need s with | .ok p => .ok (p, none) | .error f => .error (.stall f))
  | 2 => (engineAt c.ctx a need s).map (fun p => (p, some a))
  | _ =>
    if fabricPorts c.ctx (a / 2 ^ 57) s = 0#16 then .error (.stall { permAt need a with access := engineAccess need })
    else .ok (.phys (peerBase + a), none)

/-- Verify a source chunk read whole (R256): a mismatch is reported, and STATUS.CKSUM set (R166). Its header goes on with it. -/
def CopyOp.verify (c : CopyOp) (x : Xfer) (k : Nat) (vals : List Nat) (s : State) : Except XErr (State × Nat × Hdr) :=
  let hva := c.shape.ckaddr + 32 * k
  match engineAt c.ctx hva .rd s with
  | .error e => .error e
  | .ok p =>
    match readable c.ctx [p] s with
    | some e => .error e
    | none =>
      let h := Hdr.parse (bytesAt p 32 s)
      let r := sums (c.shape.words vals)
      let s := homeReads (dieOf x.core) (linesOf [(p, 32)]) s
      if h.stale || h.agrees r then .ok (s, 0, h) else .ok (x.mismatch 1 1 (hopId c.ctx x.core s) k hva h r s, 4, h)

/-- The checksums of a chunk follow its data by the fabric (R256): the sending port verifies those that the copy engine gives it, and
sends them under its own id. -/
def CopyOp.sendSums (c : CopyOp) (x : Xfer) (k : Nat) (h : Hdr) (vals : List Nat) (s : State) : State :=
  let peer := c.far / 2 ^ 57
  match portTo c.ctx peer s with
  | none => s
  | some port =>
    let unit := hopId c.ctx (0xB0 + port.toNat) s
    let e := x.sending c.shape k h vals s
    let s1 := x.verify 1 4 unit k (c.shape.ckaddr + 32 * k) e (sums (c.shape.words vals)) s
    sendTo c.ctx peer 4#8 (.checksum { e with hops := min (e.hops + 1) 255, last := unit, lrole := 4 }.bytes
      (BitVec.ofNat 4 c.shape.format)) s1

/-- The lines of the near tensor that visits read. -/
def CopyOp.readLines (c : CopyOp) (ns : List Nat) (s : State) : List Nat :=
  if c.toNear then []
  else linesOf (ns.filterMap (fun n =>
    if c.inside n then
      (match engineAt c.ctx (c.shape.addr ((c.coords n).map Int.toNat) (n / max c.boxCount 1)) .rd s with
       | .ok p => some (p, c.shape.e)
       | .error _ => none)
    else none))

/-- The virtual addresses that visits read and write, but for those of the near tensor when it is written. -/
def CopyOp.vas (c : CopyOp) (ns : List Nat) : List Nat :=
  (if c.toNear then [] else (ns.filter (fun n => c.inside n)).map (fun n => c.shape.addr ((c.coords n).map Int.toNat) (n / max c.boxCount 1)))
    ++ (if c.dir = 2#2 then ns.map (fun n => c.farAddr (n / max c.boxCount 1) (n % max c.boxCount 1)) else [])

/-- Move the visits `ns` at once: one element, or a whole chunk. The state, the STATUS bits and the bytes written. -/
def CopyOp.move (c : CopyOp) (x : Xfer) (chunk : Option Nat) (ns : List Nat) (s : State) : Except XErr (State × Nat × Nat) :=
  match gather (ns.map (fun n => c.read n s)) with
  | .error e => .error e
  | .ok vs =>
    let s := homeReads (dieOf x.core) (c.readLines ns s) (touchVas c.ctx (c.vas ns) s)
    let bytes := ns.length * c.shape.e
    if c.toNear then
      let item := fun (y : Nat × Nat × Bool) =>
        XItem.mk (c.linOf y.1) (c.shape.addr ((c.coords y.1).map Int.toNat) (y.1 / max c.boxCount 1)) y.2.1 y.2.2
      let items := (List.zip ns vs).map item
      (x.write c.shape (c.op != 0#2) chunk.isSome false false items s).map (fun r => (r.1, if r.2 then 16 else 0, bytes))
    else
      match gather (ns.map (fun n => c.farDest n s)) with
      | .error e => .error e
      | .ok ds =>
        match (if c.op = 0#2 then fillable c.ctx c.shape.e (ds.map Prod.fst) s else addable c.ctx (ds.map Prod.fst) s),
          (match chunk with
           | some k => (c.verify x k (vs.map Prod.fst) s).map (fun (r : State × Nat × Hdr) => (r.1, r.2.1, some (k, r.2.2)))
           | none => (Except.ok (s, 0, none) : Except XErr (State × Nat × Option (Nat × Hdr)))) with
        | some e, _ => .error e
        | none, .error e => .error e
        | none, .ok (s1, st, hdr) =>
          let s1 := if c.op = 0#2 then scrubLines (fillLines c.shape.e (ds.map Prod.fst) s1) s1 else s1
          let (s2, sat) := (List.zip vs ds).foldl (fun (a : State × Bool) y =>
            let r := x.put (c.op != 0#2) c.shape.format c.shape.e y.2.2 y.2.1 y.1.1 y.1.2 a.1
            (r.1, a.2 || (r.2.2 && c.shape.format == 7))) (s1, false)
          let s3 := match hdr with | some (k, h) => if c.dir = 3#2 then c.sendSums x k h (vs.map Prod.fst) s2 else s2 | none => s2
          .ok (s3, st + (if sat then 16 else 0), bytes)

/-- Bytes counted against the barrier object, with the statistics of the copy engine (R280) and a saturation kept for
the BWAIT (R82, R165). -/
def CopyOp.count (c : CopyOp) (n status : Nat) (s : State) : State :=
  let s1 := barrierCount c.grp c.id c.obj n status s
  if status.testBit 4 then
    modGang { grp := c.grp, gang := c.gang } (fun g => { g with copySat := g.copySat ++ [c.obj] }) s1
  else s1

/-- The copy goes past a visit, and is over after its last. -/
def CopyOp.advance (c : CopyOp) (core bytes : Nat) (chunk : Option Nat) (s : State) : State :=
  if c.visits ≤ c.next + 1 then settleGroup c.grp (dropCopy core c.id s)
  else modCopy core c.id (fun x =>
    { x with next := x.next + 1, written := x.written + bytes, checked := x.checked ++ chunk.toList }) s

/-- The copy stops, the rest counted without being written (R166). -/
def CopyOp.stop (c : CopyOp) (core status : Nat) (s : State) : State :=
  settleGroup c.grp (dropCopy core c.id (c.count (c.total - c.written) status s))

/-- An engine fault (R244): a record with the issuing gang's identity; the transfer stalls with the token. -/
def engineFault (x : Xfer) (kind : TokenKind) (f : FReq) (s : State) : Nat × State :=
  let r : FRec :=
    { cls := BitVec.ofNat 8 f.cls, kind := BitVec.ofNat 8 f.kind, ctx := x.ctx, access := BitVec.ofNat 8 f.access,
      launch := x.launch, grp := x.g, gang := x.gang, split := x.frag, qdepth := x.depth, pc := x.pc,
      mask := x.mask, detail := 0#32, addr := f.addr }
  addToken { fn := ownerFn x.ctx s, debug := false, vectorC := false, kind := kind, frags := [], key := none, record := r,
             written := false, live := true } (f.cause.learn x.ctx none s)

/-- One step of a copy: its next visit. An uncorrectable line it meets is the caller's. -/
def copyStep (core id : Nat) (onLine : Nat → State → State) (s : State) : State :=
  match (coreOf core s).copies.find? (fun c => c.id == id) with
  | none => s
  | some c =>
    if !copyReady core id s then s
    else if c.format then c.stop core 1 s
    else if !c.writes c.next then c.advance core 0 none s
    else
      let x := c.xfer core s
      let chunk := if c.inside c.next then c.wholeChunk c.next else none
      if (match chunk with | some k => c.checked.contains k | none => false) then c.advance core 0 none s
      else
        let ns := match chunk with | some k => (c.shape.members k).filterMap c.visitOf | none => [c.next]
        match c.move x chunk ns s with
        | .ok (s1, st, bytes) => c.advance core bytes chunk (c.count bytes st (countEvents 0x0040 c.ctx bytes s1))
        | .error (.line l) => onLine l s
        | .error (.table l) => reportLine l s
        | .error .wait => s
        | .error (.stop f) | .error (.stall f) =>
          let (k, s1) := engineFault x (.engine core id) f s
          modCopy core id (fun x => { x with token := some k }) s1

end Sys2Proof.Machine
end

