-- ==== Sys2Proof/Machine/MatrixEng.lean ====
section
/-!
DEFINITION. The matrix engine (R77-R79, R183, R185-R204): operands, the rendezvous, and one step of the joint instruction
that comes next in engine order.
-/
namespace Sys2Proof.Machine

/-! Elements. -/

/-- An operand element, decoded exactly (R187). -/
def matElem (fmt x : Nat) : Fv :=
  match fmt with
  | 0 => Fmt.e4m3.dec x
  | 1 => Fmt.e5m2.dec x
  | 2 => let v := sint x 8; .fin (decide (v < 0)) v.natAbs 0
  | 3 => Fmt.f16.dec x
  | _ => Fmt.bf16.dec x

/-- The value is zero. -/
def Fv.isZero : Fv → Bool
  | .fin _ m _ => m == 0
  | _ => false

/-- The value is finite. -/
def Fv.finite : Fv → Bool
  | .fin .. => true
  | _ => false

/-- The value is infinite, and negative as told. -/
def Fv.isInf (s : Bool) : Fv → Bool
  | .inf t => s == t
  | _ => false

/-- ChunkPromote (R78) from the accumulator's pattern and the products of the chunk. -/
def chunkPromote (acc : Nat) (ps : List Fv) (sa sw : Fv) (mode : Rm) : Nat :=
  let av := Fmt.f32.dec acc
  let top := fun (s : Bool) => Fmt.f32.round mode (fvAdd mode av (fvMul (fvMul (.inf s) sa) sw))
  if av = .nan ∨ sa = .nan ∨ sw = .nan ∨ ps.any (fun p => p == .nan) then Fmt.f32.nan
  else if ps.any (Fv.isInf true) && ps.any (Fv.isInf false) then Fmt.f32.nan
  else if ps.any (Fv.isInf false) then top false
  else if ps.any (Fv.isInf true) then top true
  else
    match (ps.filter (fun p => !p.isZero)).map (fun p => p.dy) with
    | [] => acc
    | d :: ds =>
      let u := ds.foldl (fun m x => max m x.ilogb) d.ilogb - 71
      let units := fun (x : Dy) =>
        let k := x.e - u
        if 0 ≤ k then x.m * ((2 ^ k.toNat : Nat) : Int)
        else
          let q : Int := ((x.m.natAbs / 2 ^ (-k).toNat : Nat) : Int)
          if x.m < 0 then -q else q
      let n := (d :: ds).foldl (fun a x => a + units x) 0
      let sum := fvMul (fvMul (.fin (decide (n < 0)) n.natAbs u) sa) sw
      if sum.isZero then acc else Fmt.f32.round mode (fvAdd mode av sum)

/-- The draw of the matrix engine (R45). -/
def matDraw (g tile el count : Nat) (seed : DWord) : Nat :=
  carousel (2 ^ 31 + g % 2 ^ 14 * 2 ^ 17 + tile * 2 ^ 14 + el) (count % 2 ^ 48) seed.toNat

/-- The rounding of plane p (R78, R196): RN for plane 0, the draw for the others. -/
def planeMode (p g tile el count : Nat) (seed : DWord) : Rm :=
  if p = 0 then .rn else if (matDraw g tile el count seed).testBit (p - 1) then .ru else .rd

/-! The engine state. -/

/-- Change a joint instruction in the queue. -/
def modJoint (k id : Nat) (f : JointOp → JointOp) (s : State) : State :=
  modMatrix k (fun m => { m with queue := m.queue.map (fun o => if o.id = id then f o else o) }) s

/-- The active plane. -/
def Matrix.active (m : Matrix) : Plane := if m.selB then m.planeB else m.planeA

/-- Write the shadow plane. -/
def Matrix.setShadow (m : Matrix) (p : Plane) : Matrix :=
  if m.selB then { m with planeA := p } else { m with planeB := p }

/-- The format the active plane will have when every queued instruction is complete (R188, R191). -/
def Matrix.nextFmt (m : Matrix) : BitVec 3 :=
  let r := m.queue.foldl (fun (a : BitVec 3 × BitVec 3) o =>
    match o.joint with
    | .mswap => (a.2, a.1)
    | .mldw f _ _ => if o.bad then a else (a.1, f)
    | _ => a) (if m.selB then (m.planeB.fmt, m.planeA.fmt) else (m.planeA.fmt, m.planeB.fmt))
  r.1

/-- Planes of a launch. -/
def planesFor (triple : Bool) : Nat := if triple then 4 else 1

/-- The tiles a joint instruction names, as a mask (R192). -/
def Joint.tiles (j : Joint) (triple : Bool) : Nat :=
  match j with
  | .mma _ t _ _ | .mdrain _ t _ _ | .mzero t => (2 ^ planesFor triple - 1) * 2 ^ t.toNat
  | _ => 0

/-- Rows an MMA streams (R129). -/
def mmaRows (sb : DWord) : Nat := sb.toNat % 256

/-- The plane stride of an MMA (R187). -/
def mmaStride (triple : Bool) (sb : DWord) : Nat := if triple then sb.toNat / 2 ^ 32 else 0

/-- The scratch ranges an MLDW or MMA reads: offset and length (R187). -/
def Joint.reads (j : Joint) (triple : Bool) : List (Nat × Nat) :=
  match j with
  | .mldw f sa sb =>
    (sa.toNat % 2 ^ 32, 128 * 96 * matSize f.toNat) :: (if f.toNat < 3 then [(sb.toNat % 2 ^ 32, 4 * 96)] else [])
  | .mma f _ sa sb =>
    (List.range (planesFor triple)).flatMap (fun p =>
      (sa.toNat % 2 ^ 32 + p * mmaStride triple sb, mmaRows sb * 128 * matSize f.toNat)
        :: (if f.toNat < 3 then [(sa.toNat / 2 ^ 32 + p * mmaStride triple sb, 4 * mmaRows sb)] else []))
  | _ => []

/-- The formats a drain accepts by mode (R200). -/
def drainFormats (mode : Nat) : List Nat := match mode with | 0 => [5, 3, 4, 7] | 1 => [5] | 2 => [7] | _ => [5, 3, 4]

/-- The shape record of a drain. -/
def drainShape (l : Launch) (sa : DWord) : Shape := parseShape l.pool sa.toNat

/-- MISALIGN of a matrix operand at an offset. -/
def matMisaligned (o : Nat) : FReq := { cls := 0x02, addr := BitVec.ofNat 64 o, access := 1 }

/-- The first unaligned offset, or an operand beyond the allocation (R187). -/
def operandCheck (size : Nat) (offs : List (Nat × Nat)) (reads : List (Nat × Nat)) : Option FReq :=
  match offs.find? (fun o => o.1 % o.2 != 0) with
  | some o => some (matMisaligned o.1)
  | none =>
    (reads.find? (fun r => decide (size < r.1 + r.2))).map (fun r => { permAt .rd (max r.1 size) with access := 1 })

/-- What a completing rendezvous checks (R187, R188, R198, R201). The specification lists the operand faults together; the model
checks the pairing of R188 first, then alignment, then the plane stride, then the allocation, and checks no alignment of a scale
offset that FP16 and BF16 do not read (log entry 62). -/
def Joint.check (j : Joint) (g : Group) (l : Launch) : Option FReq :=
  let triple := l.kern.triple
  if g.matrix.mabft then some { cls := 0x09 }
  else
    match j with
    | .mldw f sa sb =>
      operandCheck g.scrSize
        ((sa.toNat % 2 ^ 32, 128) :: (if f.toNat < 3 then [(sb.toNat % 2 ^ 32, 16)] else [])) (j.reads triple)
    | .mma f _ sa sb =>
      let w := g.matrix.nextFmt.toNat
      if !(f.toNat == w || (decide (f.toNat < 2) && decide (w < 2))) then some (illop .operand)
      else
        let offs := (sa.toNat % 2 ^ 32, 128) :: (if f.toNat < 3 then [(sa.toNat / 2 ^ 32, 16)] else [])
        match offs.find? (fun o => o.1 % o.2 != 0) with
        | some o => some (matMisaligned o.1)
        | none =>
          let st := mmaStride triple sb
          if triple && (st % 128 != 0 || decide (st < 128 * 128 * matSize f.toNat)) then some (illop .operand)
          else operandCheck g.scrSize offs (j.reads triple)
    | .mdrain mode _ sa _ =>
      if sa.toNat % 64 != 0 || decide (l.poolSize ≤ sa.toNat) then some (permAt .rd sa.toNat)
      else
        let sh := drainShape l sa
        if l.kinds.getD (sa.toNat / 64) 0 != 1 || !(drainFormats mode.toNat).contains sh.format
            || sh.planes != (if triple then 1 else 0) || decide (2 < sh.dims) || decide (96 < sh.box.getD 0 1)
            || sh.base % sh.e != 0 || (sh.format == 7 && decide (sh.base < 8))
            || (mode == 3#2 && decide (2 ^ 24 ≤ sh.base)) then some (illop .operand)
        else none
    | _ => none

/-! The rendezvous (R189, R190). -/

/-- The waiting gangs of a set are all there. -/
def setComplete (l : List Waiter) (w : Waiter) : Bool :=
  (List.range 32).all (fun i => !w.gset.getLsbD i || l.any (fun v => v.gang == i))

/-- The rendezvous that completed first. -/
def firstComplete (l : List Waiter) : Option Waiter :=
  (l.zipIdx.find? (fun e => setComplete (l.take (e.2 + 1)) e.1)).map Prod.fst

/-- The fragment of a waiting gang. -/
def waiterRef (k : Nat) (w : Waiter) : FragRef := { grp := k, gang := w.gang, frag := w.frag }

/-- A waiting fragment goes on. -/
def freeWaiter (k : Nat) (s : State) (w : Waiter) : State := modFrag (waiterRef k w) (fun f => { f with hold := .run }) s

/-- A fault in a gang that waits in the latch (R189, R190). -/
def faultWaiter (k : Nat) (f : FReq) (s : State) (w : Waiter) : State :=
  let s1 := freeWaiter k s w
  match curOf (waiterRef k w) s1 with
  | none => s1
  | some c => takeFault c f s1

/-- The latch loses some gangs. -/
def unlatch (k : Nat) (ws : List Waiter) (s : State) : State :=
  modMatrix k (fun m => { m with latch := m.latch.filter (fun v => !ws.any (fun w => w.gang == v.gang)) }) s

/-- A joint instruction begins a region (R35, R189). -/
def Joint.commits : Joint → Bool
  | .mma .. | .mdrain .. => true
  | _ => false

/-- The rule of R204 at the issue of a joint instruction in a gang of its set. -/
def Joint.swapMark (j : Joint) (m : SwapMark) : SwapMark :=
  match j, m with
  | .mma .., _ | .mdrain .., _ => .none
  | .mswap, .none => .swapped
  | .mswap, _ => .lost
  | _, m => m

/-- A joint instruction issues in one gang. -/
def issueWaiter (k id tiles : Nat) (s : State) (w : Waiter) : State :=
  let r := waiterRef k w
  let s1 := freeWaiter k s w
  match curOf r s1 with
  | none => s1
  | some c =>
    let s2 := modGang (gangRefOf r) (fun g => { g with joints := g.joints ++ [(id, tiles, 0)], swap := w.joint.swapMark g.swap }) (begun w.i c s1)
    parked w.park c (if w.joint.commits then beginRegion r s2 else s2)

/-- The joint instruction as the engine accepts it. -/
def jointOp (k id : Nat) (w : Waiter) (g : Group) (triple : Bool) (s : State) : JointOp :=
  let c := curOf (waiterRef k w) s
  let pc := match c with | some c => c.frag.pc | none => 0#64
  let mask := match c with | some c => c.frag.mask | none => 0#32
  { id := id, gset := w.gset, joint := w.joint,
    fence := g.gangs.foldl (fun n e => if w.gset.getLsbD e.1 then joinKnow n e.2.hist.fenced else n) [],
    bad := (w.joint.reads triple).any (fun r => poisonedAt (.scr k r.1) r.2 s),
    gang := w.gang, frag := w.frag, pc := pc, mask := mask,
    depth := match c with | some c => (recOf c pc { cls := 0 }).qdepth | none => 0,
    cycle := cycleAt g.core s, started := false, drained := [], counts := [], exp := none, next := 0, checked := [], token := none,
    xsSat := false }

/-- Complete the rendezvous that can complete, one after another: a check raised in every listed gang, or issue in all of
them while the engine has room (R189). Fuel is the number of gangs. -/
def rendezvous (k : Nat) : Nat → State → State
  | 0, s => s
  | n + 1, s =>
    match aget k s.groups with
    | none => s
    | some g =>
      match firstComplete g.matrix.latch, aget g.launch s.launches with
      | some w, some l =>
        let ws := g.matrix.latch.filter (fun v => w.gset.getLsbD v.gang)
        match w.joint.check g l with
        | some f => rendezvous k n (ws.foldl (faultWaiter k f) (unlatch k ws s))
        | none =>
          if 16 ≤ g.matrix.queue.length then s
          else
            let lead := (ws.find? (fun v => ws.all (fun u => decide (v.gang ≤ u.gang)))).getD w
            let (id, s1) := fresh s
            let op := jointOp k id lead g l.kern.triple s1
            let s2 := ws.foldl (issueWaiter k id (w.joint.tiles l.kern.triple)) (unlatch k ws s1)
            rendezvous k n (modMatrix k (fun m => { m with queue := m.queue ++ [op] }) s2)
      | _, _ => s

/-- A gang enters the latch (R189, R190): a difference from a gang it is compared with is MJOINT in all of them. One whose GSET names a gang
that has exited or halted before is held: R190 fails a rendezvous at that gang's leaving (log entry 74). -/
def enterLatch (k : Nat) (w : Waiter) (s : State) : State :=
  match aget k s.groups with
  | none => s
  | some g =>
    let near := g.matrix.latch.filter (fun v => w.gset.getLsbD v.gang || v.gset.getLsbD w.gang)
    if near.all (fun v => v.joint == w.joint && v.gset == w.gset && v.park == w.park) then
      rendezvous k 32 (modFrag (waiterRef k w) (fun f => { f with hold := .rendezvous })
        (modMatrix k (fun m => { m with latch := m.latch ++ [w] }) s))
    else (near ++ [w]).foldl (faultWaiter k { cls := 0x08 }) (unlatch k near s)

/-! Completion. -/

/-- The gangs a joint instruction lists (R189). -/
def listed (g : Group) (op : JointOp) : List Nat := (akeys g.gangs).filter (fun i => op.gset.getLsbD i)

/-- A fault that each listed gang takes at its first MWAIT that covers the instruction; ACCESS[4] is for the records of engines. -/
def deferFault (k : Nat) (op : JointOp) (f : FReq) (s : State) : State :=
  let d : Deferred :=
    { joint := op.id, cls := BitVec.ofNat 8 f.cls, kind := BitVec.ofNat 8 f.kind, access := BitVec.ofNat 8 (f.access % 16), addr := f.addr.toNat }
  modGroup k (fun g =>
    { g with gangs := g.gangs.map (fun e =>
        if op.gset.getLsbD e.1 then (e.1, { e.2 with deferred := e.2.deferred ++ [d] }) else e) }) s

/-- A joint instruction is complete: room in the queue, XS saturation kept for the MWAITs (R82, R189, R192). -/
def finishJoint (k : Nat) (op : JointOp) (s : State) : State :=
  let s1 := modMatrix k (fun m => { m with queue := m.queue.filter (fun o => o.id != op.id) }) s
  let s2 := if op.xsSat then
      modGroup k (fun g => { g with gangs := g.gangs.map (fun e =>
        (e.1, { e.2 with joints := e.2.joints.map (fun j => if j.1 = op.id then (j.1, j.2.1, 1) else j) })) }) s1
    else s1
  settleGroup k (rendezvous k 32 (unstall s2))

/-- An operand byte has been written by what does not happen before an MFENCE of a listed gang (R183). -/
def unfenced (g : Group) (op : JointOp) (triple : Bool) : Bool :=
  let rs := op.joint.reads triple
  g.scrBy.any (fun e => decide (upTo op.fence e.2.1 ≤ e.2.2) && rs.any (fun r => decide (r.1 ≤ e.1) && decide (e.1 < r.1 + r.2)))

/-- MLDW (R194): the shadow plane takes the block, its scales and its format. A block of FP16 or BF16 has no scales; the specification
does not say what scales the plane then holds, and the model sets them to the 1.0 that the engine uses (R77; log entry
62). -/
def loadPlane (k : Nat) (f : BitVec 3) (sa sb : DWord) (free : Bool) (g : Group) (s : State) : Plane :=
  let e := matSize f.toNat
  if free then freePlane k f s
  else
    { elems := sparseOf ((List.range (128 * 96)).map (fun i => (i, getNum g.scratch (sa.toNat % 2 ^ 32 + e * i) e % 2 ^ (8 * e)))) [],
      scales := scalesOf f (fun n => getNum g.scratch (sb.toNat % 2 ^ 32 + 4 * n) 4), fmt := f }

/-- MLDW at its place in engine order (R194). -/
def runMldw (k : Nat) (op : JointOp) (f : BitVec 3) (sa sb : DWord) (g : Group) (l : Launch) (s : State) : State :=
  let p := loadPlane k f sa sb (unfenced g op l.kern.triple) g s
  let u : Used := { op := op.id, fence := op.fence, reads := op.joint.reads l.kern.triple, plane := some (!g.matrix.selB), tiles := [] }
  modMatrix k (fun m =>
    let m1 := (m.setShadow p).forget (some (!g.matrix.selB)) (fun _ => false)
    { m1 with used := m1.used ++ [u] }) s

/-- The scale of a column (R186). -/
def Plane.scale (p : Plane) (n : Nat) : Word := (aget n p.scales).getD 0x3F800000#32

/-- The column n of a plane. -/
def Plane.column (p : Plane) (n : Nat) : List Fv :=
  (List.range 128).map (fun i => matElem p.fmt.toNat (sget (96 * i + n) p.elems).toNat)

/-- MMA on one plane (R196, R197): the new patterns of tile elements. -/
def mmaPlane (g : Group) (f : BitVec 3) (tile p : Nat) (sa sb : DWord) (stride : Nat) (seed : DWord) : List (Nat × Nat) :=
  let e := matSize f.toNat
  let w := g.matrix.active
  let scaled := decide (f.toNat < 3)
  let one := Fmt.f32.dec 0x3F800000
  let cols := (List.range 96).map (fun n => (n, w.column n, if scaled then Fmt.f32.dec (w.scale n).toNat else one))
  let t := tile + p
  (List.range (mmaRows sb)).flatMap (fun i =>
    let base := sa.toNat % 2 ^ 32 + p * stride + i * 128 * e
    let a := (List.range 128).map (fun kk => matElem f.toNat (getNum g.scratch (base + kk * e) e))
    let sc := if scaled then Fmt.f32.dec (getNum g.scratch (sa.toNat / 2 ^ 32 + p * stride + 4 * i) 4) else one
    cols.map (fun c =>
      let el := 96 * i + c.1
      let acc := (sget (12288 * t + el) g.matrix.tiles).toNat
      (12288 * t + el, chunkPromote acc (List.zipWith fvMul a c.2.1) sc c.2.2
        (planeMode p g.g t el (g.matrix.chunks.getD t 0#48).toNat seed))))

/-- The error record of an ABFT outcome (R198, R260): the corrected one names the group, the pc and the gang as the other does (log entry
74). -/
def abftRecord (kind : Nat) (op : JointOp) (g : Group) (l : Launch) (s : State) : State :=
  errorRecord l.ctx
    { kind := kind, ctx := l.ctx, role := 5, detect := hopId l.ctx g.core s, index := g.g, s1h := op.pc.toNat,
      s2h := op.gang + 256 * op.frag, launch := l.name.toNat } s

/-- Some output column has finite operands alone, so that its checksum row is compared (R198). -/
def checkedColumn (g : Group) (f : BitVec 3) (sa sb : DWord) (stride q : Nat) : Bool :=
  let e := matSize f.toNat
  let w := g.matrix.active
  (List.range q).any (fun p => (List.range (mmaRows sb * 128)).all (fun i =>
      (matElem f.toNat (getNum g.scratch (sa.toNat % 2 ^ 32 + p * stride + i * e) e)).finite))
    && (List.range 96).any (fun n => (w.column n).all Fv.finite)

/-- MMA at its place in engine order, with `mism` mismatches of its checksum rows (R196, R198), of which there are none where no
column is checked. One that issued before another's second mismatch is performed all the same (R191), in the engine that has not yet
passed its tests: its check mismatches twice too, so that its tiles are left unchanged as in R400 (log entry 51). -/
def runMma (k : Nat) (op : JointOp) (f tile : BitVec 3) (sa sb : DWord) (mism : Nat) (g : Group) (l : Launch) (s : State) :
    State :=
  let q := planesFor l.kern.triple
  let late := unfenced g op l.kern.triple
  let free := late || g.matrix.loose
  let m := if f.toNat < 3 ∧ (free ∨ checkedColumn g f sa sb (mmaStride l.kern.triple sb) q) then (if g.matrix.mabft then 2 else min mism 2)
    else 0
  let rows := (mmaRows sb + (if f.toNat < 3 then 1 else 0)) * q * (min m 1 + 1)
  let s1 := countEvents 0x0041 l.ctx rows (modMatrix k (fun x => { x with snapB := x.selB }) s)
  let s2 := if m = 0 then s1 else countEvents 0x0042 l.ctx 1 (abftRecord 3 op g l s1)
  if op.bad then deferFault k op { cls := 0x0B } s1
  else if 2 ≤ m then
    let s3 := deferFault k op { cls := 0x09 } (abftRecord 4 op g l (modMatrix k (fun x => { x with mabft := true }) s2))
    { s3 with quiescing := s3.quiescing ++ ((List.range 8).map (fun i => Segment.matrixSeg g.core i)).filter (fun x =>
      !s3.quiescing.contains x && !s3.testing.contains x && !s3.quarantined.contains x) }
  else
    let els := (List.range q).flatMap (fun p =>
      if free then freeTile k s (tile.toNat + p, 96 * mmaRows sb) else mmaPlane g f tile.toNat p sa sb (mmaStride l.kern.triple sb) l.r.seed)
    let u : Used := { op := op.id, fence := op.fence, reads := op.joint.reads l.kern.triple, plane := none
                      tiles := (List.range q).map (fun p => (tile.toNat + p, 96 * mmaRows sb)) }
    modMatrix k (fun x => Matrix.useTiles u
      { x with
        tiles := sparseOf els x.tiles
        chunks := (List.range q).foldl (fun c p => c.modify (tile.toNat + p) (· + 1)) x.chunks }) s2

/-- MZERO (R199). -/
def runMzero (k : Nat) (tile q : Nat) (s : State) : State :=
  modMatrix k (fun x => Matrix.forget none (fun t => decide (tile ≤ t) && decide (t < tile + q))
    { x with
      tiles := adrop (fun e => decide (12288 * tile ≤ e) && decide (e < 12288 * (tile + q))) x.tiles
      chunks := (List.range q).foldl (fun c p => c.set (tile + p) 0#48) x.chunks }) s

/-! Drains (R200, R201). -/

/-- A drain as its steps see it: record, mode, origin, planes. -/
structure Drain where
  sh : Shape
  mode : Nat
  tile : Nat
  row : Int
  col : Int
  q : Nat
  deriving DecidableEq, Repr

/-- The drain of a joint instruction. -/
def drainOf (op : JointOp) (l : Launch) : Option Drain :=
  match op.joint with
  | .mdrain mode t sa sb =>
    some { sh := drainShape l sa, mode := mode.toNat, tile := t.toNat, row := sint (sb.toNat % 2 ^ 32) 32,
           col := sint (sb.toNat / 2 ^ 32) 32, q := planesFor l.kern.triple }
  | _ => none

/-- Columns of the box. -/
def Drain.cols (d : Drain) : Nat := d.sh.box.getD 0 1

/-- Rows of the box that a tile has. -/
def Drain.rows (d : Drain) : Nat := min (d.sh.box.getD 1 1) 128

/-- Every element visit of the drain. -/
def Drain.visits (d : Drain) : Nat := d.q * d.rows * d.cols

/-- Plane, row and column of a visit. -/
def Drain.at (d : Drain) (n : Nat) : Nat × Nat × Nat :=
  (n / (d.rows * d.cols), n / d.cols % d.rows, n % d.cols)

/-- The tensor coordinates of a visit. -/
def Drain.coords (d : Drain) (n : Nat) : Int × Int := (((d.at n).2.2 : Int) + d.col, ((d.at n).2.1 : Int) + d.row)

/-- The element of a visit is inside the extents. -/
def Drain.inside (d : Drain) (n : Nat) : Bool :=
  let c := d.coords n
  decide (0 ≤ c.1) && decide (c.1 < (d.sh.ext.getD 0 1 : Nat)) && decide (0 ≤ c.2) && decide (c.2 < (d.sh.ext.getD 1 1 : Nat))

/-- The tensor index of an inside visit. -/
def Drain.ix (d : Drain) (n : Nat) : List Nat := [(d.coords n).1.toNat, (d.coords n).2.toNat, 0, 0, 0]

/-- The visit of a tensor element, where the drain has one. -/
def Drain.visitOf (d : Drain) (lin : Nat) : Option Nat :=
  let (ix, p) := d.sh.unlin lin
  let n := (ix.getD 0 0 : Int) - d.col
  let i := (ix.getD 1 0 : Int) - d.row
  if 0 ≤ n ∧ n < d.cols ∧ 0 ≤ i ∧ i < d.rows ∧ p < d.q ∧ (ix.drop 2).all (· == 0) then
    some ((p * d.rows + i.toNat) * d.cols + n.toNat)
  else none

/-- The linear index of an inside visit. -/
def Drain.linOf (d : Drain) (n : Nat) : Nat := d.sh.lin (d.ix n) (d.at n).1

/-- The chunk of an inside visit, where the drain writes all of it (R256). -/
def Drain.wholeChunk (d : Drain) (n : Nat) : Option Nat :=
  if d.sh.chunk = 0 then none
  else
    let k := d.sh.chunkOf (d.linOf n)
    if (d.sh.members k).all (fun l => (d.visitOf l).isSome) then some k else none

/-- The value a visit writes, and whether it saturated (R200). -/
def Drain.value (d : Drain) (op : JointOp) (g : Nat) (seed : DWord) (n : Nat) : Nat × Bool :=
  let (p, i, c) := d.at n
  let el := 96 * i + c
  let x := (sget (12288 * (d.tile + p) + el) op.drained).toNat
  let mode := planeMode p g (d.tile + p) el ((op.counts.getD p 0#48).toNat + 2 ^ 47) seed
  match d.sh.format with
  | 5 => (x, false)
  | 3 => (Fmt.f16.round mode (Fmt.f32.dec x).xr, false)
  | 4 => (Fmt.bf16.round mode (Fmt.f32.dec x).xr, false)
  | _ =>
    let r := toXs (Fmt.f32.dec x) (sint (op.exp.getD (0, false)).1 16)
    (wrapTo 64 r.1, r.2)

/-- The transfer of a drain, as records name it. -/
def JointOp.xfer (op : JointOp) (k : Nat) (g : Group) (l : Launch) : Xfer :=
  { op := op.id, ctx := l.ctx, grp := k, launch := l.name, g := g.g, gang := op.gang, core := g.core, frag := op.frag, depth := op.depth,
    cycle := op.cycle, pc := op.pc, mask := op.mask, source := 2, role := 2 }

/-- The drain stops without an engine record: each listed gang takes the fault at its MWAIT (R201). -/
def stopDrain (k : Nat) (op : JointOp) (f : FReq) (s : State) : State :=
  finishJoint k op (deferFault k op f s)

/-- What a drain does about an error of its transfer (R201, R244, R264). -/
def drainError (k : Nat) (op : JointOp) (x : Xfer) (onLine : Nat → State → State) (e : XErr) (s : State) : State :=
  match e with
  | .stall f =>
    let (t, s1) := engineFault x (.drain k op.id) f s
    modJoint k op.id (fun o => { o with token := some t }) s1
  | .stop f => stopDrain k op f s
  | .wait => s
  | .line ln => onLine ln s
  | .table ln => reportLine ln s

/-- The listed gangs' stores that precede a drain in gang order are performed (R200). -/
def drainClear (g : Group) (op : JointOp) : Bool :=
  (listed g op).all (fun i => match aget i g.gangs with
    | some gg => gg.sbuf.all (fun e => decide (op.id < e.op))
    | none => true)

/-- The drain writes the visits `ns` at once: one element, or a whole chunk. Values converted under a poisoned block exponent are
poisoned (R262). -/
def drainWrite (k : Nat) (op : JointOp) (d : Drain) (x : Xfer) (l : Launch) (chunk : Option Nat) (ns : List Nat)
    (onLine : Nat → State → State) (s : State) : State :=
  let vs := ns.map (fun n => (n, d.value op x.g l.r.seed n))
  let items := vs.map (fun v => XItem.mk (d.linOf v.1) (d.sh.addr (d.ix v.1) (d.at v.1).1) v.2.1 (d.sh.format == 7 && (op.exp.getD (0, false)).2))
  let add := d.mode == 1 || d.mode == 2
  match x.write d.sh add chunk.isSome (d.mode == 3) add items s with
  | .error e => drainError k op x onLine e s
  | .ok (s1, sat) =>
    let s1 := countEvents 0x0040 x.ctx (ns.length * d.sh.e) s1
    let op1 := { op with next := op.next + 1, checked := op.checked ++ chunk.toList,
                         xsSat := op.xsSat || sat || vs.any (fun v => v.2.2) }
    if d.visits ≤ op1.next then finishJoint k op1 s1 else modJoint k op.id (fun _ => op1) s1

/-- One step of a drain: it copies its tiles, then reads the block exponent, then writes one visit after another. -/
def drainStep (k : Nat) (op : JointOp) (d : Drain) (g : Group) (l : Launch) (onLine : Nat → State → State) (s : State) : State :=
  let x := op.xfer k g l
  if !op.started then
    modJoint k op.id (fun o =>
      { o with
        started := true
        drained := g.matrix.tiles.filter (fun e => decide (12288 * d.tile ≤ e.1) && decide (e.1 < 12288 * (d.tile + d.q)))
        counts := (List.range d.q).map (fun p => g.matrix.chunks.getD (d.tile + p) 0#48) })
      (modMatrix k (fun m => { m with snapB := m.selB }) s)
  else if d.sh.format = 7 ∧ op.exp = none then
    (if drainClear g op then
      match engineAt x.ctx (d.sh.base - 8) .rd s with
      | .error e => drainError k op x onLine e s
      | .ok p =>
        match readable x.ctx [p] s with
        | some e => drainError k op x onLine e s
        | none => modJoint k op.id (fun o => { o with exp := some (oldNum p 2 s, poisonedAt p 2 s) }) (homeReads (dieOf g.core) (linesOf [(p, 2)]) (touchVas x.ctx [d.sh.base - 8] s))
    else s)
  else if d.inside op.next then
    (match d.wholeChunk op.next with
     | some c =>
       if op.checked.contains c then
         (if d.visits ≤ op.next + 1 then finishJoint k op s else modJoint k op.id (fun o => { o with next := o.next + 1 }) s)
       else drainWrite k op d x l (some c) ((d.sh.members c).filterMap d.visitOf) onLine s
     | none => drainWrite k op d x l none [op.next] onLine s)
  else if d.visits ≤ op.next + 1 then finishJoint k op s
  else modJoint k op.id (fun o => { o with next := o.next + 1 }) s

/-- A joint instruction may make its next step: the first not begun, or a drain under way that nothing stalls. -/
def jointTurn (g : Group) (l : Launch) (op : JointOp) : Bool :=
  !op.started || (op.token.isNone &&
    (match drainOf op l with
     | some d => d.sh.format != 7 || op.exp.isSome || drainClear g op
     | none => true))

/-- The joint instruction of a group whose step comes next (R191). -/
def nextJoint (k : Nat) (s : State) : Option JointOp :=
  match aget k s.groups with
  | none => none
  | some g => (aget g.launch s.launches).bind (fun l => g.matrix.queue.find? (jointTurn g l))

/-- One step of the engine of a group: the next joint instruction as a whole, or one step of a drain. `mism` counts the
mismatches an MMA meets (R198). -/
def jointStep (k mism : Nat) (onLine : Nat → State → State) (s : State) : State :=
  match aget k s.groups, nextJoint k s with
  | some g, some op =>
    match aget g.launch s.launches with
    | none => s
    | some l =>
      let q := planesFor l.kern.triple
      match op.joint with
      | .mldw f sa sb =>
        if op.bad then finishJoint k op (deferFault k op { cls := 0x0B } s)
        else finishJoint k op (runMldw k op f sa sb g l s)
      | .mswap => finishJoint k op (modMatrix k (fun m => { m with selB := !m.selB }) s)
      | .mma f t sa sb => finishJoint k op (runMma k op f t sa sb mism g l s)
      | .mzero t => finishJoint k op (runMzero k t.toNat q s)
      | .mdrain .. => (match drainOf op l with | some d => drainStep k op d g l onLine s | none => s)
  | _, _ => s

end Sys2Proof.Machine
end

