-- ==== Sys2Proof/Machine/Ending.lean ====
section
/-!
DEFINITION. The performance of buffered stores (R151), the end of a launch (R227, R285) and of a context (R36, R243, R403),
and uncorrectable memory errors (R264, R265, R270, R403).
-/
namespace Sys2Proof.Machine

/-! Buffered stores. -/

/-- Who a Spotlight record of a buffered store names (R284). -/
def SbEntry.writer (e : SbEntry) (g : Group) (gang : Nat) (l : Launch) (lane : Nat) : Writer :=
  { ctx := l.ctx, source := 0, core := e.core, frag := e.frag, depth := e.depth, cycle := e.cycle,
    launch := l.name, grp := g.g, gang := gang, lane := lane, pc := e.pc, mask := e.mask }

/-- Bytes of a buffered store are performed at their point of coherence, its lanes in their order (R151, R282). -/
def performEntry (e : SbEntry) (keep : Host.Cell → Bool) (g : Group) (gang : Nat) (l : Launch) (s : State) : State :=
  let cells := e.cells.filter keep
  let s := keepOlds e.by' e.op e.line cells s
  let s1 := e.spots.foldl (fun s x =>
    let cs := x.cells.filter keep
    { perform e.line cs (spotRecord (e.writer g gang l x.lane) cs s) (dieOf e.core) with stalled := s.stalled }) s
  let s2 := if cells.isEmpty then s1
    else (runs cells).foldl (fun s r => askPeer l.ctx (.phys r.1) (fun va => .write va r.2) s)
      (noteWrite e.by' e.op e.marks (fun _ => []) e.line cells (perform e.line cells s1 (dieOf e.core)))
  match e.line with
  | .phys _ => l1Update g.core cells s2
  | .scr .. => s2

/-! The end of a launch. -/

/-- Every gang of a group stops; what it has issued goes on to its end (R36, R285). -/
def stopGroup (k : Nat) (s : State) : State :=
  modGroup k (fun g =>
    { g with
      susp := none
      matrix := { g.matrix with latch := [] }
      gangs := g.gangs.map (fun e => (e.1,
        { e.2 with frags := [], recs := [], active := false, ended := true, starved := none, parked := false,
                   ops := e.2.ops.filter (fun o => o.path == .w || o.log.isSome) })) }) s

/-- Dispatch entries of a launch leave their queues. -/
def dropEntries (k : Nat) (s : State) : State :=
  let gone := (s.entries.filter (fun e => e.2.launch == k)).map Prod.fst
  { s with entries := s.entries.filter (fun e => !gone.contains e.1),
           cores := s.cores.map (fun c => (c.1, { c.2 with dispatchQ := c.2.dispatchQ.filter (fun e => !gone.contains e) })) }

/-- Some groups leave: their fragments are attached to no token any more, and a token with no fragment left goes stale
(R243), as do those of their own. What engines do for them goes on: their tokens stand (R36, R243, R244). -/
def staleGroups (ks : List Nat) (s : State) : State :=
  { s with tokens := s.tokens.map (fun e =>
      let frags := e.2.frags.filter (fun f => !ks.contains f.grp)
      let hit := match e.2.kind with
        | .group g => ks.contains g
        | .engine .. | .drain .. => false
        | .completion _ => false
        | _ => frags.isEmpty && !e.2.frags.isEmpty
      (e.1, if e.2.vectorC then e.2 else { e.2 with frags := frags, live := e.2.live && !hit })) }

/-- What is left of a saved group of a launch that stops: the releasing stores a group HOLD has taken with it, which have issued
and are performed from no core (R36, R162, R231). -/
def Saved.issued (sv : Saved) : Option Group :=
  if sv.group.gangs.all (fun e => e.2.sbuf.isEmpty) then none
  else some { sv.group with core := 160, granules := [] }

/-- A launch stops: its groups run no further, and what they have issued completes. Waiting logged lanes of a replay that
has diverged are not granted (R227). -/
def stopLaunch (k status : Nat) (s : State) : State :=
  let left := (s.saved.filter (fun e => e.2.group.launch == k)).filterMap (fun e => e.2.issued.map (fun g => (e.1, g)))
  let s0 := { s with
    saved := s.saved.filter (fun e => e.2.group.launch != k)
    groups := left.foldl (fun m e => aput e.1 e.2 m) s.groups }
  let ks := (s0.groups.filter (fun e => e.2.launch == k && !e.2.ended)).map Prod.fst
  let s1 := dropEntries k s0
  let s2 := modLaunch k (fun l => { l with stopped := true, status := status }) s1
  let s3 := ks.foldl (fun s k => stopGroup k s) (staleGroups ks s2)
  let s4 := if status = 4 then
      ks.foldl (fun s k => modGroup k (fun g => { g with gangs := g.gangs.map (fun e => (e.1,
        { e.2 with ops := e.2.ops.filter (fun o => o.log.isNone) })) }) s) s3
    else s3
  ks.foldl (fun s k => settleGroup k s) (unstall s4)

/-! The end of a context. -/

/-- An issued write of an ended context is performed or not (R36): free for each place. -/
def stillDone (s : State) (tag key : Nat) : Bool := Config.freeBool (2 ^ 160 * (s.clock + 1) + 2 ^ 80 * tag + key)

/-- The buffered stores of a gang as its context ends, those a group HOLD has saved among them. -/
def endStores (k : Nat) (g : Group) (gang : Nat) (gg : Gang) (l : Launch) (s : State) : State :=
  gg.sbuf.foldl (fun s e =>
    let bad := match e.line with | .phys a => fatalLevel (a / 128) s != 0 | .scr .. => false
    if bad then s else performEntry e (fun c => stillDone s (2 * (64 * e.op + k) + 1) c.1) g gang l s) s

/-- The atomic lanes that wait at the home as their context ends. -/
def endLogged (k : Nat) (g : Group) (gang : Nat) (gg : Gang) (l : Launch) (s : State) : State :=
  gg.ops.foldl (fun s o =>
    match o.log with
    | none => s
    | some w =>
      w.lanes.foldl (fun s x =>
        if stillDone s (2 * (64 * o.id + 63)) x.lane then
          let v := (w.operands.find? (fun e => e.1 == x.lane)).getD (0, 0, 0)
          (amoAt (w.writer g gang x.lane l) { by' := .gang k gang, op := o.id, marks := w.pub } w.aop w.size (if w.virt then some x.va else none)
            x.place v.2.1 v.2.2 s).1
        else s) s) s

/-- The elements of a copy as its context ends: each is moved or not. -/
def endCopy (core : Nat) (c : CopyOp) (s : State) : State :=
  if c.format then s
  else
    let x := c.xfer core s
    (List.range (c.visits - c.next)).foldl (fun s i =>
      let n := c.next + i
      if c.writes n && stillDone s (2 * (64 * c.id + 62)) n then
        (match c.move x none [n] s with | .ok (s1, _, _) => s1 | .error _ => s)
      else s) s

/-- The queued joint instructions of a group as its context ends: the drains' elements are each written or not. Fuel bounds
their steps. -/
def endJoints (k : Nat) : Nat → State → State
  | 0, s => s
  | n + 1, s =>
    match aget k s.groups with
    | none => s
    | some g =>
      match g.matrix.queue with
      | [] => s
      | op :: _ =>
        let s0 := modJoint k op.id (fun o => { o with token := none }) s
        let visit := op.started && (op.exp.isSome || !(match op.joint with | .mdrain m .. => m == 2#2 | _ => false))
        if visit && !stillDone s (2 * (64 * op.id + 61)) op.next then
          match (aget g.launch s.launches).bind (drainOf op) with
          | some d =>
            if d.visits ≤ op.next + 1 then endJoints k n (finishJoint k op s0)
            else endJoints k n (modJoint k op.id (fun o => { o with next := o.next + 1 }) s0)
          | none => s
        else
          let s1 := jointStep k 0 (fun _ s => s) s0
          match (aget k s1.groups).map (fun g => g.matrix.queue.head?) with
          | some (some op1) =>
            if op1 = { op with token := none } ∨ op1.token.isSome then endJoints k n (finishJoint k op1 s1) else endJoints k n s1
          | _ => endJoints k n s1

/-- The steps that the queued joint instructions of a group can take. -/
def jointFuel (g : Group) : Nat := g.matrix.queue.length * 50000

/-- A group of an ended context goes, without a save; its scratch and engine state with it. -/
def endOfGroup (k : Nat) (s : State) : State :=
  match aget k s.groups with
  | none => s
  | some g0 =>
    match aget g0.launch s.launches with
    | none => { s with groups := aerase k s.groups }
    | some l =>
      let s1 := g0.gangs.foldl (fun s e => endLogged k g0 e.1 e.2 l (endStores k g0 e.1 e.2 l s)) s
      let s2 := modGroup k (fun g =>
        { g with matrix := { g.matrix with latch := [] },
                 gangs := g.gangs.map (fun e => (e.1, { e.2 with sbuf := [] })) }) s1
      let s3 := endJoints k (jointFuel g0) s2
      let s4 := ((coreOf g0.core s3).copies.filter (fun c => c.grp == k)).foldl (fun s c => endCopy g0.core c s) s3
      let s5 := if (coreOf g0.core s4).copies.isEmpty then s4
        else modCore g0.core (fun c => { c with copies := c.copies.filter (fun x => x.grp != k) }) s4
      let s6 := g0.gangs.foldl (fun s e => dropVictims g0.core ⟨k, e.1⟩ s) s5
      { s6 with groups := aerase k s6.groups }

/-- The queues that use a context. -/
def queuesOf (ctx : BitVec 6) (s : State) : List (Nat × Nat) :=
  let fn := ownerFn ctx s
  ((List.range 64).filter (fun q =>
    let ctl := (mreg fn (0x1008 + 32 * q) s).toNat
    bits ctl 31 31 == 1 && bits ctl 13 8 == ctx.toNat)).map (fun q => (fn, q))

/-- A context ends (R36, R206, R243, R283, R403): its groups stop without a save, its launches are TERMINATED, its tokens go
stale, its trace session closes. -/
def endContext (ctx : BitVec 6) (s : State) : State :=
  let ls := (s.launches.filter (fun e => e.2.ctx == ctx)).map Prod.fst
  let held := s.saved.filter (fun e => ls.contains e.2.group.launch)
  let sh := held.foldl (fun s e =>
    match aget e.2.group.launch s.launches with
    | some l => e.2.group.gangs.foldl (fun s g => endStores e.1 { e.2.group with core := 160 } g.1 g.2 l s) s
    | none => s) s
  let s0 := modAll ls { sh with saved := sh.saved.filter (fun e => !ls.contains e.2.group.launch) }
  let s1 := ((s0.groups.filter (fun e => ls.contains e.2.launch)).map Prod.fst).foldl (fun s k => endOfGroup k s) s0
  let s2 := ls.foldl (fun s k => modLaunch k (fun l => { l with status := 3, stopped := true }) (dropEntries k s)) s1
  let s3 := { s2 with
    tokens := s2.tokens.map (fun e => (e.1, if e.2.record.ctx = ctx then { e.2 with live := false } else e.2))
    completions := s2.completions.filter (fun e => e.2.ctx != ctx)
    endedQueues := s2.endedQueues ++ (queuesOf ctx s2).filter (fun q => !s2.endedQueues.contains q)
    atsReqs := s2.atsReqs.filter (fun e => e.1 != ctx)
    hostWaits := s2.hostWaits.filter (fun e => e.1.1 != ctx)
    priRefused := s2.priRefused.filter (fun e => e.1.1 != ctx) }
  let fn := ownerFn ctx s3
  unstall (if bits (mreg fn 0x1A08 s3).toNat 13 8 = ctx.toNat then traceEnd fn 3 0 s3 else s3)
where
  /-- No gang of the launches issues again. -/
  modAll (ls : List Nat) (s : State) : State :=
    { s with groups := s.groups.map (fun e =>
        if ls.contains e.2.launch then (e.1, { e.2 with gangs := e.2.gangs.map (fun g => (g.1, { g.2 with active := false })) }) else e) }

/-! Uncorrectable memory errors (R264). -/

/-- Bytes of a line put back as the level below holds them. -/
def putBack (ln : Nat) (below : List Byte) (s : State) : State :=
  { s with mem := putCells (place (128 * ln) below) s.mem }

/-- The dirty lines of a context are dropped: what the level below holds stands (R264). -/
def dropDirty (ctx : BitVec 6) (s : State) : State :=
  let up := s.l2.filter (fun e => e.2.dirty && e.2.owner == ctx)
  let s1 := up.foldl (fun s e => putBack e.1 e.2.below { s with l2 := aerase e.1 s.l2 }) s
  let down := s1.mirror.filter (fun e => e.2.dirty && e.2.owner == ctx)
  down.foldl (fun s e => putBack e.1 e.2.below { s with mirror := aerase e.1 s.mirror }) s1

/-- The retirement table in memory (R265): count, then entries. -/
def retireTable (l : List (Nat × Nat)) : List Byte :=
  toBytes 8 l.length ++ l.flatMap (fun e => toBytes 8 (2 ^ 63 + e.2 * 2 ^ 60 + e.1 * 65536))

/-- Write the copy of the retirement table, where RTBASE names a place (R265). -/
def mirrorTable (s : State) : State :=
  let b := (mreg 0 0x1868 s).toNat
  if b = 0 then s else putPhys (drv b) (retireTable s.retired) s

/-- Retire the frame of a line for a cause (R265): 1 L2, 2 Mirror, 3 HBM, 4 self-test. The table holds 8,191 entries; when it
is full, the device says so over its management bus (R299). -/
def retireFrame (ln cause : Nat) (s : State) : State :=
  let f := 128 * ln / 65536
  if s.retired.any (fun e => e.1 == f) || decide (8191 ≤ s.retired.length) then s
  else
    let t := s.retired ++ [(f, cause)]
    mirrorTable { s with retired := t, reports := if t.length < 8191 then s.reports else s.reports ++ [.tableFull] }

/-- The segment that holds a line: its way of an L2 slice, or its Mirror subarray (R266). -/
def segmentOf (ln level : Nat) (s : State) : Segment :=
  let at_ := fun (l : AList CLine) => match aget ln l with | some c => c.seg | none => 0
  if level = 1 then .l2Way (at_ s.l2 / 16) (at_ s.l2 % 16) else .mirrorSub (at_ s.mirror / 64) (at_ s.mirror % 64)

/-- A segment is to be tested (R266); one that is, or that is out of use, is not named twice. -/
def quiesce (seg : Segment) (s : State) : State :=
  if s.quiescing.contains seg || s.testing.contains seg || s.quarantined.contains seg then s
  else { s with quiescing := s.quiescing ++ [seg] }

/-- Stop everything for a Ringmaster restart (R270): every context ends, sessions close, queues are disabled with HEAD kept. -/
def restartRingmaster (s : State) : State :=
  let s1 := (List.range 63).foldl (fun s i => endContext (BitVec.ofNat 6 (i + 1)) s)
    { s with dispatchFrozen := true, ringmasterBoot := true, restarting := true }
  let off := fun (fn o : Nat) (s : State) => setMreg fn o (mreg fn o s &&& ~~~ 0x80000000#64) s
  let s2 := (List.range 17).foldl (fun s fn =>
    (List.range 64).foldl (fun s q => off fn (0x1008 + 32 * q) s) (off fn 0x1B00 (traceEnd fn 3 0 s))) s1
  setMreg 0 0x2420 (mreg 0 0x2420 s2 &&& ~~~ 1#64)
    { s2 with
      launches := [], entries := [], endedQueues := [], resetting := []
      keptHeads := (List.range 17).flatMap (fun fn => (List.range 64).map (fun q => (fn, q)))
      cores := s2.cores.map (fun c => (c.1, { c.2 with dispatchQ := [] })) }

/-- An uncorrectable error that was found: the level and the line, the context it ends and the segment that held it. -/
structure LineErr where
  level : Nat
  ln : Nat
  owner : BitVec 6
  seg : Segment
  deriving DecidableEq, Repr

/-- The level at which an access or a write-back meets the error of a line. -/
def errLevel (ln : Nat) (s : State) : Nat := if fatalLevel ln s = 0 then mirrorLevel ln s else fatalLevel ln s

/-- The error of a line at a level: a cached line names its owner by its tag, HBM by its frame (R153, R264). -/
def lineErrAt (level ln : Nat) (s : State) : LineErr :=
  let tag := fun (l : AList CLine) => match aget ln l with | some c => c.owner | none => ownerAt (128 * ln) s
  { level := level, ln := ln, seg := segmentOf ln level s
    owner := if level = 1 then tag s.l2 else if level = 2 then tag s.mirror else ownerAt (128 * ln) s }

/-- The words of a line that cannot be corrected are poisoned (R264 step 1): the one named, and the first one of the line where
its flipped bits are met. -/
def poisonWords (level word : Nat) (s : State) : State :=
  let ln := word / 16
  let s1 := { s with poison := sput word 1#1 s.poison }
  if errLevel ln s = level then { s1 with poison := sput (16 * ln) 1#1 s1.poison } else s1

/-- The first word of a line is poisoned: the one that an injection flips (R402). -/
def poisonLine (ln : Nat) (s : State) : State := { s with poison := sput (16 * ln) 1#1 s.poison }

/-- Steps 2 to 5 of R264 (R272, R403): the owning context ends, the frame is retired, the records are written, and a cache's
segment is to be tested. `launch` names the launch whose access found it, 0 where none did (R260). -/
def contain (launch : DWord) (e : LineErr) (s : State) : State :=
  let s1 : State := { s with l2 := aerase e.ln s.l2, mirror := aerase e.ln s.mirror, hbmFlips := aerase e.ln s.hbmFlips }
  let s2 := if e.owner = 0#6 then restartRingmaster s1 else dropDirty e.owner (endContext e.owner s1)
  let s3 := retireFrame e.ln e.level s2
  let die := match e.level, e.seg with | 1, .l2Way sl _ => sl / 160 | _, _ => (homeOf (128 * e.ln)).1
  let r : ERec := { kind := 7, ctx := e.owner, role := if e.level = 1 then 6 else 3,
                    detect := hopId e.owner (if e.level = 1 then 0xC0 + die else 0xA0 + die) s3, addr := 128 * e.ln,
                    launch := launch.toNat }
  let s4 := errorRecord 0#6 r (if e.owner = 0#6 then s3 else errorRecord e.owner r s3)
  unstall (if e.level = 3 then s4 else quiesce e.seg s4)

/-- An uncorrectable error in a line, found at a level (R264). -/
def memoryErrorAt (level ln : Nat) (launch : DWord) (s : State) : State :=
  contain launch (lineErrAt level ln s) (poisonLine ln s)

/-- An access or a write-back meets a line that cannot be corrected. -/
def memoryError (launch : DWord) (ln : Nat) (s : State) : State :=
  if errLevel ln s = 0 then s else memoryErrorAt (errLevel ln s) ln launch s

/-- The walks of an access that no launch makes read their tables: a line that cannot be corrected is dealt with first (R264). -/
def mendTables (ctx : BitVec 6) (va n : Nat) (need : Need) (s : State) : State :=
  (List.range n).foldl (fun s i => match resolveVa ctx (va + i) need i s with | .table ln => memoryError 0#64 ln s | _ => s) s

/-- The line as an access of another context in flight to it receives it: with poison, and no error left to meet (R264). -/
def blunt (ln : Nat) (s : State) : State :=
  let dull := fun (l : AList CLine) => amod ln (fun c => { c with flips := 0 }) l
  poisonLine ln { s with l2 := dull s.l2, mirror := dull s.mirror, hbmFlips := aerase ln s.hbmFlips }

/-- The error belongs to another context than the one that accesses, so that the access goes on and receives poison. -/
def foreign (ctx : BitVec 6) (ln : Nat) (s : State) : Bool :=
  errLevel ln s != 0 && (lineErrAt (errLevel ln s) ln s).owner != ctx && (lineErrAt (errLevel ln s) ln s).owner != 0#6

/-- What a step of an engine does about a line it meets: the error of its own context stops it; past that of another, `again`
goes on with poison, and then the error is dealt with. -/
def engineLine (launch : DWord) (ctx : BitVec 6) (again : (Nat → State → State) → State → State) : Nat → Nat → State → State
  | 0, ln, s => memoryError launch ln s
  | n + 1, ln, s =>
    if foreign ctx ln s then contain launch (lineErrAt (errLevel ln s) ln s) (again (engineLine launch ctx again n) (blunt ln s))
    else memoryError launch ln s

/-- The checks of an instruction, past the errors that its accesses meet in lines of other contexts: their outcome, those
errors, and the state the instruction goes on in. -/
def checkLines (chk : State → Pre) (ctx : BitVec 6) : Nat → List LineErr → State → Pre × List LineErr × State
  | 0, es, s => (chk s, es, s)
  | n + 1, es, s =>
    match chk s with
    | .line ln => if foreign ctx ln s then checkLines chk ctx n (lineErrAt (errLevel ln s) ln s :: es) (blunt ln s) else (.line ln, es, s)
    | r => (r, es, s)

/-- The errors that an instruction met are dealt with. -/
def containAll (launch : DWord) (es : List LineErr) (s : State) : State := es.foldr (contain launch) s

/-- Issue of an instruction that accesses memory lines: the checks of R132 in their order, then its effect. The error of a
line of its own context completes no lane (R403); one of another context gives it poison (R264). -/
def issueMem (i : Instr) (p : Bool) (chk : Cur → State → Pre) (eff : Cur → State → State) (s : State) : Out :=
  match cur s with
  | none => .fault .noIssuer
  | some c =>
    if i.wf then
      match checkLines (chk c) c.ctx 1024 [] s with
      | (.go, es, s1) => .next (containAll c.lau.name es (parked p c (eff c (begun i c s1))))
      | (.stall, _, _) => .next (stallCur c s)
      | (.fault f, _, _) => .next (takeFault c f s)
      | (.line l, _, _) => .next (memoryError c.lau.name l s)
      | (.table l, _, _) => .next (reportLine l s)
      | (.miss va, _, _) => .next (stallCur c (askAts c va s))
    else .next (takeFault c (illop .reserved) s)

end Sys2Proof.Machine
end

