-- ==== Sys2Proof/Machine/Sync.lean ====
section
/-!
DEFINITION. Acquires: which releases an access synchronises with (R175, R176), and when a gang's loads are done with reading (R177).
-/
namespace Sys2Proof.Machine

/-- A scope of a gang, or of a group's engines as gang 32, includes an agent (R175). -/
def scopeHas (scope : Nat) (of other : GangRef) (s : State) : Bool :=
  let ctx := fun (k : Nat) => ((aget k s.groups).bind (fun g => aget g.launch s.launches)).map (fun l => l.ctx)
  match scope with
  | 0 => of == other
  | 1 => of.grp == other.grp
  | 2 => (clusterOf of.grp s).contains other.grp
  | _ => (ctx of.grp).isSome && ctx of.grp == ctx other.grp

/-- A release whose mark an acquire reads synchronises with it: each one's scope includes the other (R175). -/
def Mark.syncs (m : Mark) (r : GangRef) (scope : Nat) (s : State) : Bool :=
  scopeHas m.scope ⟨m.grp, m.gang⟩ r s && scopeHas scope r ⟨m.grp, m.gang⟩ s

/-- An acquire of a gang: what it synchronises with has happened before what follows. -/
def hear (r : GangRef) (scope : Nat) (ms : List Mark) (s : State) : State :=
  if ms.isEmpty then s
  else modGang r (fun g =>
    { g with hist := { g.hist with heard := (ms.filter (fun m => m.syncs r scope s)).foldl (fun k m => joinKnow k m.know) g.hist.heard } }) s

/-- The copy of a line that L1 serves to a context. -/
def l1Copy (core : Nat) (ctx : Option (BitVec 6)) (p : Place × Nat) (s : State) : Option L1Line :=
  match ctx, linesOf [p] with
  | some x, ln :: _ => if l1Hit core x ln s then aget ln (coreOf core s).l1 else none
  | _, _ => none

/-- The marks on the bytes an access of a gang reads (R175): none on those it finds in its own store buffer; those of the L1 copy where L1
serves it; else those at their place. -/
def readMarks (core : Nat) (ctx : Option (BitVec 6)) (sbuf : List SbEntry) (ps : List (Place × Nat)) (s : State) : List Mark :=
  ps.flatMap (fun p =>
    if overlapsOwn sbuf p.1 p.2 then []
    else
      match l1Copy core ctx p s with
      | some e => (List.range p.2).flatMap (fun i =>
          match e.marks.find? (fun x => x.1 == p.1.plus i) with | some x => x.2 | none => [])
      | none => marksOf p.1 p.2 s)

/-- Loads of a gang from an operation on read again no more: they are performed (R177). -/
def Gang.settled (g : Gang) (op : Nat) : Gang := { g with reads := g.reads.filter (fun x => decide (op ≤ x.op)) }

/-- A write of a gang is performed: the loads before a release that it is, or comes after, are (R177). A release at GANG scope orders
nothing (R176). -/
def Gang.ordered (g : Gang) (op : Nat) (rel : Option Nat) : Gang :=
  let g1 := if g.hist.relAt ≤ op then g.settled g.hist.relAt else g
  match rel with
  | some (_ + 1) => g1.settled op
  | _ => g1

/-- An acquire of a gang, by an access that has read some marks: the actions of R176, and the orders of R175 and R177. -/
def acquireBy (r : GangRef) (core : Nat) (ctx : BitVec 6) (scope op : Nat) (ms : List Mark) (s : State) : State :=
  if scope = 0 then s else acquire core ctx scope (hear r scope ms (modGang r (fun g => g.settled op) s))

/-- The release of a FENCE: every later write of the gang publishes what happens before it (R175, R177). -/
def fenceRel (kind : BitVec 2) (scope : BitVec 3) (c : Cur) (s : State) : State :=
  if kind.getLsbD 1 ∧ scope ≠ 0#3 then
    let m : Mark := { grp := c.r.grp, gang := c.r.gang, scope := scope.toNat, know := c.gang.known (gangRefOf c.r) s.serial }
    modGang (gangRefOf c.r) (fun g => { g with hist := { g.hist with pubs := addMark g.hist.pubs m, relAt := s.serial } }) s
  else s

/-- The acquire of a FENCE, with what the loads and atomics before it have read (R175, R177). -/
def fenceAcq (kind : BitVec 2) (scope : BitVec 3) (c : Cur) (s : State) : State :=
  if kind.getLsbD 0 then
    acquireBy (gangRefOf c.r) c.grp.core c.ctx scope.toNat s.serial (c.gang.hist.seen ++ c.gang.ops.flatMap (fun o => o.marks)) s
  else s

/-- The acquire of an access: by what it has read, or, where it acts on no lane, as a FENCE (R179). -/
def accessAcq (none' : Bool) (scope op : Nat) (ms : List Mark) (c : Cur) (s : State) : State :=
  if none' then fenceAcq 1#2 (BitVec.ofNat 3 scope) c s else acquireBy (gangRefOf c.r) c.grp.core c.ctx scope op ms s

/-- The release of an access that acts on no lane, which publishes as a FENCE does (R179). -/
def accessRel (none' : Bool) (scope : Nat) (c : Cur) (s : State) : State :=
  if none' then fenceRel 2#2 (BitVec.ofNat 3 scope) c s else s

end Sys2Proof.Machine
end

