-- ==== Sys2Proof/Machine/LoadStore.lean ====
section
/-!
DEFINITION. Loads and stores, scalar and vector, prefetch and cache maintenance (R123, R126, R156, R313, R342-R344, R356, R373,
R378-R380).
-/
namespace Sys2Proof.Machine

/-- Bytes of an access by W (R123). -/
def widthOf (w : BitVec 3) : Nat := match w.toNat with | 0 => 1 | 1 => 2 | 2 => 4 | 3 => 8 | 4 => 16 | 5 => 1 | 6 => 2 | _ => 1

/-- Registers of an access by W (R123). -/
def regsOf (w : BitVec 3) : Nat := match w.toNat with | 3 => 2 | 4 => 4 | _ => 1

/-- ORD of a load or store; 0 without a prefix word (R117). -/
def ordOf (x : Option XM) : Nat := match x with | some x => x.ord.toNat | none => 0

/-- SCOPE. -/
def scopeOf (x : Option XM) : Nat := match x with | some x => x.scope.toNat | none => 0

/-- HINT BYPASS: no L1 allocation (R117). -/
def bypass (x : Option XM) : Bool := match x with | some x => x.hint == 3#2 | none => false

/-- The signed immediate of an XM word (R117). -/
def immXM (x : Option XM) : Int := match x with | some x => sint x.low.toNat 10 | none => 0

/-- OW of an XM word. -/
def owXM (x : Option XM) : Bool := match x with | some x => x.ow | none => false

/-- The access of a load or store row. -/
def mfAccess (o : MF) (sp : Space) (n : Need) : Access :=
  { sp := sp, need := n, size := widthOf o.w, sb := o.sb, off := offOperand o.off (owXM o.x), imm := immXM o.x, g := xmGuard o.x }

/-- A space whose addresses are virtual ones of the context (R142). -/
def vaSpace (sp : Space) : Bool := sp == .g || sp == .p

/-- The path a vector access counts on (R158). -/
def pathFor (sp : Space) : Path := if sp = .s then .s else .g

/-- The lines of reads are read through L1, or at their home (R150, R217). -/
def readAll (r : GangRef) (core : Nat) (ctx : Option (BitVec 6)) (alloc : Bool) (lns : List Nat) (s : State) : State :=
  match ctx with
  | some x => lns.foldl (l1Read r core x alloc) s
  | none => homeReads (dieOf core) lns s

/-- The lines of reads that L1 does not serve meet no uncorrectable error (R264). -/
def readsOk (core : Nat) (ctx : Option (BitVec 6)) (lns : List Nat) (s : State) : Pre :=
  badOf (match ctx with | some x => lns.filter (fun ln => !l1Hit core x ln s) | none => lns) s

/-! Loads. -/

/-- The planes a load looks at (R60). -/
def loadPlanes (c : Cur) : Planes := if c.triple then .all else .first

/-- Every place a load reads. -/
def loadPlaces (es : List (Nat × List Elem)) : List (Place × Nat) := es.flatMap (fun e => e.2.flatMap Elem.reads)

/-- The bytes of them that a load asks its peers for, each place once. -/
def peerRanges (ps : List (Place × Nat)) : List (Nat × Nat) :=
  let at' := fun (p : Place × Nat) => match p.1 with
    | .phys a => if peerBase ≤ a then some (a, p.2) else none
    | .scr .. => none
  (ps.filterMap at').foldl (fun l r => if l.contains r then l else l ++ [r]) []

/-- Some bytes can be read now: no link is needed, or it is up, or a cache of the device holds them (R286, R293). -/
def canRead (ctx : BitVec 6) (core : Nat) (l1 : Option (BitVec 6)) (p : Place × Nat) (s : State) : Bool :=
  placeReached ctx p.1 s
    || (linesOf [p]).any (fun ln => (match l1 with | some x => l1Hit core x ln s | none => false) || (aget ln s.l2).isSome)

/-- The checks of a load (R132, R342, R343). -/
def ldPre (a : Access) (o : MF) (c : Cur) (s : State) : Pre :=
  let es := goodLooks (a.looks (loadPlanes c) true c s)
  (preOf (a.offOk c.regs && decide (o.data.toNat < 120) && groupOk c.regs o.data.toNat (regsOf o.w)) (a.poisoned c)).andThen
    ((a.check (a.looks (loadPlanes c) true c s) c).andThen
      ((readsOk c.grp.core (l1Space a.sp c.ctx) (linesOf (loadPlaces es)) s).andThen
        ((Pre.stallIf (c.gang.behindLog (loadPlaces es) || (ordOf o.x == 1 && (c.gang.logWaits
            || !(loadPlaces es).all (fun p => canRead c.ctx c.grp.core (l1Space a.sp c.ctx) p s))))).andThen
          (c.pathFull (pathFor a.sp)))))

/-- A loaded value extended as W states (R123). -/
def extended (w : BitVec 3) (v : Nat) : Nat :=
  match w.toNat with
  | 5 => wrapTo 32 (sint v 8)
  | 6 => wrapTo 32 (sint v 16)
  | _ => v

/-- The register words a load writes (R60, R342), `x` naming what it reads and `read` how each of its lanes does. A lane whose address
gives nothing is a helper lane and reads zero (R18). -/
def LateRead.words (x : LateRead) (read : Nat → Reading) : List RegWrite :=
  (if x.triple then (quadsIn x.act).map (fun q => 4 * q + 3) else lanesIn x.act).flatMap (fun l =>
    (servedBy x.triple x.act l).flatMap (fun m =>
      match x.es.find? (fun e => e.1 == l) with
      | some e =>
        let r := loadLane e.2 (read l) x.triple (m % 4)
        wordsFrom x.dst m (regsOf x.w) (extended x.w r.1) r.2
      | none => wordsFrom x.dst m (regsOf x.w) 0 false))

/-- What a load reads, of which nothing is read yet. -/
def lateRead (a : Access) (o : MF) (es : List (Nat × List Elem)) (c : Cur) (id : Nat) : LateRead :=
  { op := id, pc := c.frag.pc, mask := c.frag.mask, es := es, triple := c.triple, act := c.act a.g, dst := o.data.toNat, w := o.w,
    l1 := l1Space a.sp c.ctx, scalar := none, seen := [] }

/-- The register words of a load at its issue. -/
def ldWrites (a : Access) (o : MF) (es : List (Nat × List Elem)) (c : Cur) (s : State) : List RegWrite :=
  (lateRead a o es c 0).words (fun _ => readNow c.grp.core c.gang.sbuf (l1Space a.sp c.ctx) s)

/-- One read of a load, as it is found now. -/
def Seen.now (x : LateRead) (ctx : BitVec 6) (core : Nat) (sbuf : List SbEntry) (lane : Nat) (p : Place × Nat) (s : State) : Seen :=
  let r := readNow core sbuf x.l1 s p.1 p.2
  { lane := lane, place := p.1, len := p.2, val := r.1, pois := r.2, marks := readMarks core x.l1 sbuf [p] s,
    got := canRead ctx core x.l1 p s, late := true }

/-- A load reads all its bytes (R169, R173): each lane on its own. -/
def LateRead.readAll (x : LateRead) (ctx : BitVec 6) (core : Nat) (sbuf : List SbEntry) (s : State) : LateRead :=
  { x with seen := x.es.flatMap (fun e => (e.2.flatMap Elem.reads).flatMap (fun p =>
      (cuts p.1 p.2).map (fun q => Seen.now x ctx core sbuf e.1 q s))) }

/-- How a lane of a load has read its bytes. -/
def LateRead.reading (x : LateRead) (lane : Nat) : Reading :=
  fun p n => (cuts p n).foldl (fun r q =>
    match x.seen.find? (fun y => y.lane == lane && y.place == q.1 && y.len == q.2) with
    | some y => (r.1 + y.val * 2 ^ (8 * (q.1.key - p.key)), r.2 || y.pois)
    | none => r) (0, false)

/-- The lines of what a load has read. -/
def LateRead.lines (x : LateRead) : List Nat := linesOf ((x.seen.filter (fun p => p.got)).map (fun p => (p.place, p.len)))

/-- A load may read its bytes again until it completes (R342), and earlier loads of the gang where they overlap it no more: those are
performed before it (R170). -/
def Gang.noteRead (g : Gang) (x : LateRead) : Gang :=
  let g1 := g.settleAt x.mask (loadPlaces x.es)
  { g1 with reads := g1.reads ++ [x] }

/-- The effect of a load: its values are bound now, from the gang's own stores, L1 or the home, but for those that wait for a link. An
acquire is done with reading, and the loads before it are (R177). -/
def ldEff (a : Access) (o : MF) (c : Cur) (s : State) : State :=
  let es := goodLooks (a.looks (loadPlanes c) true c s)
  let ps := loadPlaces es
  let ws := ldWrites a o es c s
  let ms := readMarks c.grp.core (l1Space a.sp c.ctx) c.gang.sbuf ps s
  let (id, s0) := addOp c (fun id =>
    { PendOp.blank id (pathFor a.sp) c.r.frag with
      writes := ws, ranges := peerRanges ps, ports := portsOf c.ctx ps s, hostLink := onHost ps, marks := ms }) s
  let x := (lateRead a o es c id).readAll c.ctx c.grp.core c.gang.sbuf s
  let s1 := if ordOf o.x = 1 ∧ scopeOf o.x ≠ 0 then modGang (gangRefOf c.r) (fun g => g.settleAt c.frag.mask ps) s0
    else modGang (gangRefOf c.r) (fun g => g.noteRead x) s0
  let s2 := readAll (gangRefOf c.r) c.grp.core (l1Space a.sp c.ctx) (!bypass o.x) x.lines s1
  let s3 := if vaSpace a.sp then touchVas c.ctx (es.flatMap (fun e => e.2.flatMap Elem.vas)) s2 else s2
  let s4 := if footCounts a.sp es then footprint (gangRefOf c.r) (linesOf ps) s3 else s3
  if ordOf o.x = 1 then accessAcq (c.act a.g == 0#32) (scopeOf o.x) id ms c s4 else s4

/-- A load (R342). -/
def runLd (i : Instr) (sp : Space) (o : MF) (s : State) : Out :=
  let a := mfAccess o sp .rd
  issueMem i o.p (fun c s => ldPre a o c s) (fun c s => noteEvents c s (ldEff a o c s)) s

/-- LD.G (R342). -/
def execLdG (o : MF) (s : State) : Out := runLd (.ldG o) .g o s
/-- LD.S (R342). -/
def execLdS (o : MF) (s : State) : Out := runLd (.ldS o) .s o s
/-- LD.C (R342). -/
def execLdC (o : MF) (s : State) : Out := runLd (.ldC o) .c o s
/-- LD.P (R342). -/
def execLdP (o : MF) (s : State) : Out := runLd (.ldP o) .p o s
/-- LD.H (R342). -/
def execLdH (o : MF) (s : State) : Out := runLd (.ldH o) .h o s
/-- LD.F (R342). -/
def execLdF (o : MF) (s : State) : Out := runLd (.ldF o) .f o s

/-! Stores. -/

/-- What a store's lanes write (R60, R379). -/
def stItems (a : Access) (o : MF) (c : Cur) (s : State) : List WItem :=
  (goodLooks (a.looks .all false c s)).flatMap (fun e =>
    e.2.flatMap (fun x => x.store c.triple e.1 (fun k =>
      storeData c o.data.toNat o.w.toNat (if c.triple then e.1 - 3 + k else e.1) s)))

/-- A store's data are poisoned in a lane that it uses (R261). -/
def stPoisoned (a : Access) (o : MF) (c : Cur) (s : State) : Bool :=
  (goodLooks (a.looks .all false c s)).any (fun e =>
    (storeUses c.triple e.1 e.2).any (fun l => dataPoisoned c o.data.toNat (regsOf o.w) l))

/-- Operand limits of a store's DATA (R123, R380). -/
def stDataOk (o : MF) (regs : Nat) : Bool :=
  if o.data.toNat < 120 then groupOk regs o.data.toNat (regsOf o.w) else decide (o.data.toNat ≤ 125)

/-- The checks of a store (R132, R151, R379, R380). -/
def stPre (a : Access) (o : MF) (c : Cur) (s : State) : Pre :=
  let items := stItems a o c s
  (preOf (a.offOk c.regs && stDataOk o c.regs) (a.poisoned c || stPoisoned a o c s)).andThen
    ((a.check (a.looks .all false c s) c).andThen
      ((Pre.stallIf (c.gang.behindLog (itemPlaces items) || !c.room items
          || (ordOf o.x == 2 && items.isEmpty && (c.gang.counter .w != 0 || c.gang.logWaits)))).andThen
        (c.pathFull .w)))

/-- The effect of a store: its bytes enter the buffer; ST.REL begins a region (R35). -/
def stEff (a : Access) (o : MF) (c : Cur) (s : State) : State :=
  let s := banked c (a.banks o.data.toNat (regsOf o.w)) s
  let items := stItems a o c s
  let es := goodLooks (a.looks .all false c s)
  let rel := if ordOf o.x = 2 then some (BitVec.ofNat 3 (scopeOf o.x)) else none
  let s1 := c.pushStore a.sp rel (vaSpace a.sp) items s
  let s2 := if vaSpace a.sp then touchVas c.ctx (es.flatMap (fun e => e.2.flatMap Elem.vas)) s1 else s1
  let s3 := if footCounts a.sp es then footprint (gangRefOf c.r) (linesOf (itemPlaces items)) s2 else s2
  if rel.isSome then beginRegion c.r (accessRel (c.act a.g == 0#32) (scopeOf o.x) c s3) else s3

/-- A store (R379). -/
def runSt (i : Instr) (sp : Space) (o : MF) (s : State) : Out :=
  let a := mfAccess o sp .wr
  issueMem i o.p (fun c s => stPre a o c s) (fun c s => noteEvents c s (stEff a o c s)) s

/-- ST.G (R379). -/
def execStG (o : MF) (s : State) : Out := runSt (.stG o) .g o s
/-- ST.S (R379). -/
def execStS (o : MF) (s : State) : Out := runSt (.stS o) .s o s
/-- ST.C (R379). -/
def execStC (o : MF) (s : State) : Out := runSt (.stC o) .c o s
/-- ST.P (R379). -/
def execStP (o : MF) (s : State) : Out := runSt (.stP o) .p o s
/-- ST.H (R379). -/
def execStH (o : MF) (s : State) : Out := runSt (.stH o) .h o s
/-- ST.F (R379). -/
def execStF (o : MF) (s : State) : Out := runSt (.stF o) .f o s

/-! Scalar loads and stores (R373). -/

/-- Bytes of a size code (R127). -/
def scalarSize (sz : BitVec 3) : Nat := if sz.toNat < 4 then 2 ^ sz.toNat else 2 ^ (sz.toNat - 5)

/-- The space of a space code. -/
def scalarSpace (sp : BitVec 2) : Space := if sp = 0#2 then .g else .s

/-- The address of an SLD or SST. -/
def scalarEa (sz : BitVec 3) (imm sa : BitVec 6) (c : Cur) : Nat :=
  ((c.s sa).toNat + imm.toNat * scalarSize sz) % 2 ^ 64

/-- The lookup of an SLD or SST: a SINGLE access in either mode (R60). -/
def scalarLook (n : Need) (sz : BitVec 3) (sp : BitVec 2) (imm sa : BitVec 6) (c : Cur) (s : State) : Look :=
  lookAt c (scalarSpace sp) n (scalarSize sz) (if n = .rd then .first else .all) (scalarEa sz imm sa c) 0 s

/-- The elements of a lookup that succeeds. -/
def Look.elems : Look → List Elem
  | .ok es => es
  | _ => []

/-- What a lookup raises. -/
def Look.pre : Look → Pre
  | .ok _ => .go
  | .fault f => .fault f
  | .miss v => .miss v
  | .table l => .table l

/-- The value an SLD finds, and its poison. -/
def sldValue (sz : BitVec 3) (sp : BitVec 2) (imm sa : BitVec 6) (c : Cur) (s : State) : Nat × Bool :=
  let n := scalarSize sz
  let r := if sp = 1#2 then (getNum c.lau.pool (scalarEa sz imm sa c) n, false)
    else loadLane (scalarLook .rd sz sp imm sa c s).elems (readNow c.grp.core c.gang.sbuf (l1Space (scalarSpace sp) c.ctx) s) false 3
  (if sz.toNat < 4 then r.1 else wrapTo 64 (sint r.1 (8 * n)), r.2)

/-- The places an SLD reads. -/
def sldPlaces (sz : BitVec 3) (sp : BitVec 2) (imm sa : BitVec 6) (c : Cur) (s : State) : List (Place × Nat) :=
  if sp = 1#2 then [] else (scalarLook .rd sz sp imm sa c s).elems.flatMap Elem.reads

/-- The checks of an SLD. From the pool it takes PERM where any of its bytes lies beyond the pool (R142; log entry 72). -/
def sldPre (sz : BitVec 3) (sp : BitVec 2) (imm sa : BitVec 6) (c : Cur) (s : State) : Pre :=
  let ea := scalarEa sz imm sa c
  (preOf true (c.spoisoned sa)).andThen
    ((Pre.unless (ea % scalarSize sz == 0) (misaligned ea .rd)).andThen
      ((if sp = 1#2 then Pre.unless (decide (ea + scalarSize sz ≤ c.lau.poolSize)) (permAt .rd ea)
        else (scalarLook .rd sz sp imm sa c s).pre).andThen
        ((readsOk c.grp.core (l1Space (scalarSpace sp) c.ctx) (linesOf (sldPlaces sz sp imm sa c s)) s).andThen
          ((Pre.stallIf (c.gang.behindLog (sldPlaces sz sp imm sa c s))).andThen (c.pathFull .k)))))

/-- What an SLD reads, of which nothing is read yet. -/
def scalarRead (sz : BitVec 3) (sp : BitVec 2) (imm sa : BitVec 6) (c : Cur) (s : State) (id : Nat) : LateRead :=
  { op := id, pc := c.frag.pc, mask := c.frag.mask, es := if sp = 1#2 then [] else [(0, (scalarLook .rd sz sp imm sa c s).elems)],
    triple := false, act := 0#32, dst := 0, w := 0#3, l1 := l1Space (scalarSpace sp) c.ctx, scalar := some sz, seen := [] }

/-- The effect of an SLD. -/
def sldEff (sz : BitVec 3) (sp : BitVec 2) (imm sa sd : BitVec 6) (c : Cur) (s : State) : State :=
  let v := sldValue sz sp imm sa c s
  let ps := sldPlaces sz sp imm sa c s
  let (id, s0) := addOp c (fun id =>
    { PendOp.blank id .k c.r.frag with
      sdst := some sd, sval := BitVec.ofNat 64 v.1, spois := v.2, hostLink := onHost ps
      marks := readMarks c.grp.core (l1Space (scalarSpace sp) c.ctx) c.gang.sbuf ps s }) s
  let x := (scalarRead sz sp imm sa c s id).readAll c.ctx c.grp.core c.gang.sbuf s
  let s1 := modGang (gangRefOf c.r) (fun g => if sp = 1#2 then g else g.noteRead x) s0
  let s2 := readAll (gangRefOf c.r) c.grp.core (l1Space (scalarSpace sp) c.ctx) true x.lines s1
  if sp = 0#2 then touchVas c.ctx ((scalarLook .rd sz sp imm sa c s).elems.flatMap Elem.vas) s2 else s2

/-- A load reads its bytes again (R342): those it has not read, as far as they can be read, and of the others freely which, each
aligned 8-byte word of each lane on its own (R169, R173). `all` takes every one that may be read again. -/
def LateRead.reread (x : LateRead) (all : Bool) (ctx : BitVec 6) (core : Nat) (sbuf : List SbEntry) (s : State) : LateRead :=
  { x with seen := x.seen.zipIdx.map (fun e =>
      let now := Seen.now x ctx core sbuf e.1.lane (e.1.place, e.1.len) s
      if e.1.got && !e.1.late then e.1
      else if !now.got then e.1
      else if !e.1.got || all || Config.freeBool (2 ^ 134 * (s.clock + 1) + 4096 * x.op + e.2) then now
      else e.1) }

/-- An operation's result of what its load has read. -/
def PendOp.withReads (o : PendOp) (x : LateRead) : PendOp :=
  let marks := x.seen.foldl (fun l p => p.marks.foldl addMark l) []
  match x.scalar with
  | some sz =>
    let r := match x.es with | e :: _ => loadLane e.2 (x.reading e.1) false 3 | [] => (0, false)
    { o with
      sval := BitVec.ofNat 64 (if sz.toNat < 4 then r.1 else wrapTo 64 (sint r.1 (8 * scalarSize sz))), spois := r.2, marks := marks }
  | none =>
    let ws := x.words x.reading
    { o with
      writes := o.writes.map (fun w => (ws.find? (fun v => v.reg == w.reg && v.lane == w.lane)).getD w), marks := marks }

/-- A load of a gang that reads its bytes again, where that can be done and finds something else: with its operation. -/
def rereadOf (ctx : BitVec 6) (core : Nat) (g : Gang) (x : LateRead) (s : State) : Option (LateRead × PendOp) :=
  (g.ops.find? (fun o => o.id == x.op && !o.done)).bind (fun o =>
    if x.reread true ctx core g.sbuf s = x ∨ !(badOf (linesOf (loadPlaces x.es)) s == .go) then none
    else
      let x' := x.reread false ctx core g.sbuf s
      some (x', o.withReads x'))

/-- SLD (R373). -/
def execSld (sz : BitVec 3) (sp : BitVec 2) (imm sa sd : BitVec 6) (p : Bool) (s : State) : Out :=
  issueMem (.sld sz sp imm sa sd p) p (fun c s => sldPre sz sp imm sa c s)
    (fun c s => noteEvents c s (sldEff sz sp imm sa sd c s)) s

/-- What an SST writes. -/
def sstItems (sz : BitVec 3) (sp : BitVec 2) (imm sa sd : BitVec 6) (c : Cur) (s : State) : List WItem :=
  (scalarLook .wr sz sp imm sa c s).elems.flatMap (fun x => x.store false 0 (fun _ => (c.s sd).toNat))

/-- The checks of an SST. -/
def sstPre (sz : BitVec 3) (sp : BitVec 2) (imm sa sd : BitVec 6) (c : Cur) (s : State) : Pre :=
  let ea := scalarEa sz imm sa c
  let items := sstItems sz sp imm sa sd c s
  (preOf true (c.spoisoned sa || c.spoisoned sd)).andThen
    ((Pre.unless (ea % scalarSize sz == 0) (misaligned ea .wr)).andThen
      ((scalarLook .wr sz sp imm sa c s).pre.andThen
        ((Pre.stallIf (c.gang.behindLog (itemPlaces items) || !c.room items)).andThen (c.pathFull .w))))

/-- SST (R373). -/
def execSst (sz : BitVec 3) (sp : BitVec 2) (imm sa sd : BitVec 6) (p : Bool) (s : State) : Out :=
  issueMem (.sst sz sp imm sa sd p) p (fun c s => sstPre sz sp imm sa sd c s)
    (fun c s =>
      let s1 := c.pushStore (scalarSpace sp) none false (sstItems sz sp imm sa sd c s) s
      if sp = 0#2 then touchVas c.ctx ((scalarLook .wr sz sp imm sa c s).elems.flatMap Elem.vas) s1 else s1) s

/-! Prefetch (R356). -/

/-- The access of PREF or CMO: addresses in units of 128 bytes (R126). -/
def addrAccess (o : AddrF) (n : Need) : Access :=
  { sp := .g, need := n, size := 128, sb := o.sb, off := offOperand o.off (owXM o.x), imm := immXM o.x, g := xmGuard o.x }

/-- The line of a global virtual address that a prefetch may request: any that is mapped, since R248 lists no permission for it. -/
def prefLine (c : Cur) (ea lane : Nat) (s : State) : Option Nat :=
  if ea < 2 ^ 57 then
    (match translate c.ctx ea (64 * lane) s with
     | .ok t => if isRetired (t.phys ea) s then none else some (t.phys ea / 128)
     | _ => none)
  else none

/-- The lanes' addresses of a PREF. A poisoned address requests nothing. -/
def prefLanes (o : AddrF) (c : Cur) : List Nat :=
  let a := addrAccess o .rd
  if c.guardPoisoned a.g || c.spoisoned a.sb then []
  else ((c.memLanes (c.act a.g)).filter (fun l => !a.off.poisoned c l)).map (fun l => a.ea c l)

/-- The lines a PREF requests. A poisoned address requests nothing. -/
def prefLines (o : AddrF) (c : Cur) (s : State) : List Nat :=
  let a := addrAccess o .rd
  if c.guardPoisoned a.g || c.spoisoned a.sb then []
  else nodup ((c.memLanes (c.act a.g)).filterMap (fun l =>
    if a.off.poisoned c l then none else prefLine c (a.ea c l) l s))

/-- A line comes into the Mirror alone. -/
def mirrorFill (s : State) (ln : Nat) : State := touchMirror ln (scrubLine ln s)

/-- The lines a PREF must read, by level: those the level does not hold. -/
def prefReads (level : Nat) (o : AddrF) (c : Cur) (s : State) : List Nat :=
  (prefLines o c s).filter (fun ln =>
    match level with
    | 0 => !l1Hit c.grp.core c.ctx ln s
    | 1 => (aget ln s.l2).isNone
    | _ => (aget ln s.mirror).isNone && (aget ln s.l2).isNone)

/-- The effect of a PREF. -/
def prefEff (level : Nat) (o : AddrF) (c : Cur) (s : State) : State :=
  let lns := prefLines o c s
  let s := touchVas c.ctx ((prefLanes o c).filter (fun va => decide (va < 2 ^ 57))) s
  match level with
  | 0 => footprint (gangRefOf c.r) lns (readAll (gangRefOf c.r) c.grp.core (some c.ctx) true lns s)
  | 1 => homeReads (dieOf c.grp.core) (prefReads 1 o c s) s
  | _ => (prefReads 2 o c s).foldl mirrorFill s

/-- PREF (R356). -/
def execPref (level : BitVec 2) (o : AddrF) (s : State) : Out :=
  issueMem (.pref level o) o.p
    (fun c s => (Pre.unless ((addrAccess o .rd).offOk c.regs) (illop .operand)).andThen (badOf (prefReads level.toNat o c s) s))
    (fun c s =>
      if c.frag.exec = 0#32 then s else prefEff level.toNat o c s) s

/-! Cache maintenance (R156, R313). -/

/-- PERM of a CMO, which neither reads nor writes data. -/
def cmoPerm (ea : Nat) : FReq := { cls := 0x04, addr := BitVec.ofNat 64 ea }

/-- The line of a mapped address, as a physical range. A helper lane's line is treated as any other's; its address in the generic
space outside memory names none (R18). -/
def cmoRangeOf (c : Cur) (ea lane : Nat) (s : State) : Option (Nat × Nat) :=
  if 2 ^ 57 ≤ ea then none
  else match translate c.ctx ea (64 * lane) s with
  | .ok t => if isRetired (t.phys ea) s then none else some (t.phys ea / 128 * 128, 128)
  | _ => none

/-- A CMO counts on path W with the ranges it names. -/
def addCmo (level op : BitVec 2) (rs : List (Nat × Nat)) (c : Cur) (s : State) : State :=
  (addOp c (fun id =>
    { PendOp.blank id .w c.r.frag with isCmo := true, cmoLevel := level.toNat, cmoOp := op.toNat, ranges := rs }) s).2

/-- CMO on the line of each lane (R313). -/
def execCmo (level op : BitVec 2) (o : AddrF) (s : State) : Out :=
  let a := addrAccess o .rd
  issue (.cmo level op o) o.p
    (fun c => (preOf (a.offOk c.regs) (a.poisoned c)).andThen
      ((match (a.threads c).find? (fun l => decide (2 ^ 57 ≤ a.ea c l)) with
        | some l => Pre.fault (cmoPerm (a.ea c l))
        | none => Pre.go).andThen (c.pathFull .w)))
    (fun c s =>
      addCmo level op ((c.memLanes (c.act a.g)).filterMap (fun l => cmoRangeOf c (a.ea c l) l s)) c
        (touchVas c.ctx (((c.memLanes (c.act a.g)).map (fun l => a.ea c l)).filter (fun va => decide (va < 2 ^ 57))) s)) s

/-- The translations of a context that meet a range of virtual addresses: the leaves of its tables. -/
def leaves (ctx : BitVec 6) (lo hi : Nat) (s : State) : List (Nat × Nat × Nat × Nat) → Nat → Nat → List TlbEnt
  | [], _, _ => []
  | (sh, n, size, align) :: rest, table, base =>
    let first := (max lo base - base) / 2 ^ sh
    let last := min (2 ^ n - 1) ((hi - 1 - base) / 2 ^ sh)
    if isRetired table s then []
    else (List.range (last + 1 - first)).flatMap (fun i =>
      let ix := first + i
      let va := base + ix * 2 ^ sh
      match level (getNum s.mem (table + 8 * ix) 8) size align with
      | .bad _ => []
      | .next t => leaves ctx lo hi s rest t va
      | .leaf pa mem rd wr ex => [{ ctx := ctx, va := va, size := 2 ^ sh, pa := pa, mem := mem, rd := rd, wr := wr, ex := ex }])

/-- The leaves that map a range of virtual addresses. -/
def rangeLeaves (ctx : BitVec 6) (lo hi : Nat) (s : State) : List TlbEnt :=
  if hi ≤ lo ∨ !ctxValid ctx s then [] else leaves ctx lo hi s levels (getNum s.mem (ctxEntry ctx s) 8) 0

/-- Old translations in the TLBs that an access to the range uses instead, each or not (R249). -/
def staleIn (ctx : BitVec 6) (lo hi : Nat) (s : State) : List TlbEnt :=
  (s.tlb.zipIdx.filter (fun e => e.1.ctx == ctx && e.1.mem != 2 && decide (e.1.va < hi) && decide (lo < e.1.va + e.1.size)
    && !(rangeLeaves ctx lo hi s).contains e.1 && Config.freeBool (65536 * s.clock + 32768 + e.2))).map Prod.fst

/-- A piece of a mapping without what another covers. -/
def TlbEnt.without (t u : TlbEnt) : List TlbEnt :=
  if u.va + u.size ≤ t.va ∨ t.va + t.size ≤ u.va then [t]
  else
    (if t.va < u.va then [{ t with size := u.va - t.va }] else [])
      ++ (if u.va + u.size < t.va + t.size then
            [{ t with va := u.va + u.size, pa := t.pa + (u.va + u.size - t.va), size := t.va + t.size - (u.va + u.size) }] else [])

/-- The physical ranges that a range of virtual addresses, widened to whole lines, maps to: by the tables, or where the TLBs hold an old
translation by that or the tables', unpredictably (R249). -/
def mappedRanges (ctx : BitVec 6) (lo hi : Nat) (s : State) : List (Nat × Nat) :=
  let lo' := lo / 128 * 128
  let hi' := roundUp hi 128
  if hi ≤ lo then []
  else
    let old := staleIn ctx lo' hi' s
    (old ++ old.foldl (fun l u => l.flatMap (fun t => t.without u)) (rangeLeaves ctx lo' hi' s)).map (fun t =>
      let a := max lo' t.va
      (t.phys a, min hi' (t.va + t.size) - a))

/-- The translations that a CMO on a range has used stay in the TLBs (R249). -/
def touchRange (ctx : BitVec 6) (lo hi : Nat) (s : State) : State :=
  { s with tlb := s.tlb ++ (rangeLeaves ctx lo hi s).filter (fun t => !s.tlb.contains t) }

/-- CMO on a range (R313). -/
def execCmoRange (level op : BitVec 2) (sb sa : BitVec 6) (p : Bool) (s : State) : Out :=
  let lo := fun (c : Cur) => (c.s sa).toNat
  let len := fun (c : Cur) => (c.s sb).toNat
  issue (.cmoRange level op sb sa p) p
    (fun c => (preOf true (c.spoisoned sa || c.spoisoned sb)).andThen
      ((Pre.unless (len c == 0 || decide (lo c + len c ≤ 2 ^ 57)) (cmoPerm (max (lo c) (2 ^ 57)))).andThen (c.pathFull .w)))
    (fun c s => addCmo level op (mappedRanges c.ctx (lo c) (lo c + len c) s) c (touchRange c.ctx (lo c) (lo c + len c) s)) s

end Sys2Proof.Machine
end

