-- ==== Sys2Proof/Machine/Copy.lean ====
section
/-!
DEFINITION. BINIT, BWAIT and COPY (R163-R167, R309, R314).
-/
namespace Sys2Proof.Machine

/-- The checks of a barrier object's offset (R164). -/
def objCheck (obj : Nat) (n : Need) (c : Cur) : Pre :=
  (Pre.unless (obj % 16 == 0) (misaligned obj n)).andThen (Pre.unless (decide (obj + 16 ≤ c.grp.scrSize)) (permAt n obj))

/-- The offset a scalar gives. -/
def Cur.objAt (c : Cur) (sa : BitVec 6) : Nat := (c.s sa).toNat

/-- A copy of the group against an object is not yet finished (R309). -/
def copyOpen (grp obj : Nat) (core : Nat) (s : State) : Bool :=
  (coreOf core s).copies.any (fun x => x.grp == grp && x.obj == obj)

/-- COUNT as a BINIT stores it: unpredictable on the object of an unfinished copy (R309). -/
def binitCount (sa sb : BitVec 6) (c : Cur) (s : State) : Nat :=
  if copyOpen c.r.grp (c.objAt sa) c.grp.core s then (Config.freeDWord (2 ^ 70 * s.clock + 3)).toNat else (c.s sb).toNat

/-- What a BINIT stores. -/
def binitItem (sa sb : BitVec 6) (c : Cur) (s : State) : WItem :=
  { lane := 0, va := none, dest := .scr c.r.grp (c.objAt sa), bytes := toBytes 8 (binitCount sa sb c s) ++ toBytes 4 0 }

/-- BINIT (R164, R309). A saturation of an earlier copy against the object that no BWAIT has taken is forgotten with the count (log entry
73). -/
def execBinit (sb sa : BitVec 6) (p : Bool) (s : State) : Out :=
  issue (.binit sb sa p) p
    (fun c => (preOf true (c.spoisoned sa || c.spoisoned sb)).andThen
      ((objCheck (c.objAt sa) .wr c).andThen
        ((Pre.stallIf (!c.room [binitItem sa sb c s] || c.gang.behindLog [(.scr c.r.grp (c.objAt sa), 12)])).andThen (c.pathFull .w))))
    (fun c s =>
      modGang (gangRefOf c.r) (fun g => { g with copySat := g.copySat.filter (fun o => o != c.objAt sa) })
        (c.pushStore .s none false [binitItem sa sb c s] s)) s

/-- COUNT of an object as the gang sees it. -/
def countAt (obj : Nat) (c : Cur) (s : State) : Int := sint (loadNum c.grp.core c.gang.sbuf none (.scr c.r.grp obj) 8 s) 64

/-- The checks of a BWAIT, and its wait (R165). -/
def bwaitPre (sa : BitVec 6) (c : Cur) (s : State) : Pre :=
  (preOf true (c.spoisoned sa)).andThen
    ((objCheck (c.objAt sa) .rd c).andThen (Pre.stallIf (decide (0 < countAt (c.objAt sa) c s) || c.gang.logWaits)))

/-- BWAIT (R165, R309). -/
def execBwait (sa : BitVec 6) (p : Bool) (s : State) : Out :=
  issue (.bwait sa p) p (fun c => bwaitPre sa c s)
    (fun c s => acquireBy (gangRefOf c.r) c.grp.core c.ctx 1 s.serial (marksOf (.scr c.r.grp (c.objAt sa)) 8 s) <|
      l1Renew c.grp.core (pendSat c.r (if c.gang.copySat.contains (c.objAt sa) then satXs else 0) (invalidated c s))) s

/-- The FORMAT condition of R166. -/
def copyFormat (dir op : BitVec 2) (sh : Shape) : Bool :=
  (op == 1#2 && sh.format != 5 && sh.format != 8) || (op == 2#2 && sh.format != 7) || (dir == 3#2 && sh.planes == 1)

/-- The copy a COPY hands to the engine. -/
def copyOp (id : Nat) (dir op : BitVec 2) (sb sa sk : BitVec 6) (c : Cur) (s : State) : CopyOp :=
  let sh := parseShape c.lau.pool (c.s sk).toNat
  { id := id, grp := c.r.grp, gang := c.r.gang, frag := c.r.frag, pc := c.frag.pc, mask := c.frag.mask, ctx := c.ctx, dir := dir,
    op := op, shape := sh, origin := (List.range 5).map (fun k => sint (c.s (sk + BitVec.ofNat 6 (k + 1))).toNat 64),
    far := (c.s sa).toNat, obj := c.objAt sb, cycle := cycleAt c.grp.core s, depth := (recOf c c.frag.pc { cls := 0 }).qdepth, next := 0,
    written := 0, format := copyFormat dir op sh, token := none, checked := [], olds := [] }

/-- The checks of a COPY (R32, R132, R166, R314). -/
def copyPre (sb sa sk : BitVec 6) (c : Cur) (s : State) : Pre :=
  let off := (c.s sk).toNat
  (Pre.unless (decide (sk.toNat ≤ 58)) (illop .operand)).andThen
    ((Pre.unless c.whole { cls := 0x0C }).andThen
      ((preOf true (c.spoisoned sa || c.spoisoned sb
          || (List.range 6).any (fun k => c.spoisoned (sk + BitVec.ofNat 6 k)))).andThen
        ((objCheck (c.objAt sb) .wr c).andThen
          ((Pre.unless (off % 64 == 0 && decide (off < c.lau.poolSize)) (permAt .rd off)).andThen
            ((Pre.unless (c.lau.kinds.getD (off / 64) 0 == 1) (illop .operand)).andThen
              (Pre.stallIf (decide (32 ≤ (coreOf c.grp.core s).copies.length) || c.gang.logWaits)))))))

/-- COPY (R163, R314): the engine takes it, and a region begins (R35). -/
def execCopy (dir op : BitVec 2) (sb sa sk : BitVec 6) (p : Bool) (s : State) : Out :=
  issue (.copy dir op sb sa sk p) p (fun c => copyPre sb sa sk c s)
    (fun c s =>
      let (id, s1) := fresh s
      beginRegion c.r (modCore c.grp.core (fun k => { k with copies := k.copies ++ [copyOp id dir op sb sa sk c s] }) s1)) s

end Sys2Proof.Machine
end

