-- ==== Sys2Proof/Machine/MatrixOps.lean ====
section
/-!
DEFINITION. The matrix rows (R183, R185, R189, R192-R201, R347-R349).
-/
namespace Sys2Proof.Machine

/-- A tile field names a tile of the group (R185). -/
def tileOk (t : BitVec 3) (c : Cur) : Bool :=
  decide (t.toNat < c.lau.r.tiles) && (!c.triple || t == 0#3 || t == 4#3)

/-- GSET of a joint instruction (R189). -/
def gsetOk (c : Cur) : Bool :=
  let n := countBits c.gang.gset.toNat 32
  c.gang.gset.getLsbD c.r.gang && decide (1 ≤ n) && decide (n ≤ 6) && decide (c.gang.gset.toNat < 2 ^ c.lau.r.gangs)

/-- The checks of a joint instruction before its rendezvous (R348). -/
def jointPre (ok : Bool) (scalars : List (BitVec 6)) (c : Cur) : Pre :=
  (Pre.unless (decide (c.lau.r.tiles ≠ 0) && ok) (illop .operand)).andThen
    ((Pre.unless c.whole { cls := 0x0C }).andThen
      ((preOf true (scalars.any (fun n => c.spoisoned n))).andThen (Pre.unless (gsetOk c) { cls := 0x08 })))

/-- A joint instruction: its gang enters the latch, and issues when the rendezvous completes (R189). -/
def runJoint (i : Instr) (p : Bool) (ok : Cur → Bool) (scalars : List (BitVec 6)) (j : Cur → Joint) (s : State) : Out :=
  match cur s with
  | none => .fault .noIssuer
  | some c =>
    if i.wf then
      match jointPre (ok c) scalars c with
      | .fault f => .next (takeFault c f s)
      | _ => .next (enterLatch c.r.grp { gang := c.r.gang, frag := c.r.frag, i := i, park := p, gset := c.gang.gset, joint := j c }
          (unstall s))
    else .next (takeFault c (illop .reserved) s)

/-- MLDW (R194). -/
def execMldw (fmt : BitVec 3) (sb sa : BitVec 6) (p : Bool) (s : State) : Out :=
  runJoint (.mldw fmt sb sa p) p (fun _ => true) [sa, sb] (fun c => .mldw fmt (c.s sa) (c.s sb)) s

/-- MSWAP (R195). -/
def execMswap (p : Bool) (s : State) : Out := runJoint (.mswap p) p (fun _ => true) [] (fun _ => .mswap) s

/-- MMA (R196). -/
def execMma (fmt : BitVec 3) (sb sa : BitVec 6) (tile : BitVec 3) (p : Bool) (s : State) : Out :=
  runJoint (.mma fmt sb sa tile p) p
    (fun c => tileOk tile c && decide (1 ≤ mmaRows (c.s sb)) && decide (mmaRows (c.s sb) ≤ 128)) [sa, sb]
    (fun c => .mma fmt tile (c.s sa) (c.s sb)) s

/-- MDRAIN (R200). -/
def execMdrain (mode : BitVec 2) (sb sa : BitVec 6) (tile : BitVec 3) (p : Bool) (s : State) : Out :=
  runJoint (.mdrain mode sb sa tile p) p (tileOk tile) [sa, sb] (fun c => .mdrain mode tile (c.s sa) (c.s sb)) s

/-- MZERO (R199). -/
def execMzero (tile : BitVec 3) (p : Bool) (s : State) : Out :=
  runJoint (.mzero tile p) p (tileOk tile) [] (fun _ => .mzero tile) s

/-- MFENCE (R183): the gang's earlier scratch stores are acknowledged first. -/
def execMfence (p : Bool) (s : State) : Out :=
  issue (.mfence p) p
    (fun c => (Pre.unless c.whole { cls := 0x0C }).andThen
      (Pre.stallIf (c.gang.sbuf.any (fun e => match e.line with | .scr .. => true | .phys _ => false))))
    (fun c s => modGang (gangRefOf c.r) (fun g => 
      { g with hist := { g.hist with fenced := joinKnow g.hist.fenced (g.known (gangRefOf c.r) s.serial) } }) s) s

/-- The joint instructions a gang took part in that an MWAIT covers (R192). -/
def covered (all : Bool) (tile : BitVec 3) (c : Cur) : List Nat :=
  let tiles := if c.triple then 15 * 2 ^ tile.toNat else 2 ^ tile.toNat
  (c.gang.joints.filter (fun j => all || (j.2.1 &&& tiles) != 0)).map (fun j => j.1)

/-- The checks of an MWAIT (R185, R192). -/
def mwaitPre (all : Bool) (tile : BitVec 3) (c : Cur) : Pre :=
  let ids := covered all tile c
  (Pre.unless (all || tileOk tile c) (illop .operand)).andThen
    ((Pre.stallIf (c.grp.matrix.queue.any (fun o => ids.contains o.id))).andThen
      (match c.gang.deferred.find? (fun d => ids.contains d.joint) with
       | some d => .fault { cls := d.cls.toNat, kind := d.kind.toNat, access := d.access.toNat, addr := BitVec.ofNat 64 d.addr }
       | none => .go))

/-- A deferred fault that this MWAIT delivers is delivered once. -/
def mwaitDeliver (all : Bool) (tile : BitVec 3) (c : Cur) (s : State) : State :=
  let ids := covered all tile c
  if c.grp.matrix.queue.any (fun o => ids.contains o.id) || !(all || tileOk tile c) then s
  else
    match c.gang.deferred.find? (fun d => ids.contains d.joint) with
    | some d => modGang (gangRefOf c.r) (fun g => { g with deferred := g.deferred.erase d }) s
    | none => s

/-- The effect of an MWAIT: the XS saturations of its drains, once each, an invalidation point (R192, R200), and what the engine
wrote is seen (R183). -/
def mwaitEff (all : Bool) (tile : BitVec 3) (c : Cur) (s : State) : State :=
  let ids := covered all tile c
  let sat := c.gang.joints.any (fun j => ids.contains j.1 && j.2.2 == 1)
  let s1 := modGang (gangRefOf c.r) (fun g =>
    { g with
      joints := g.joints.filterMap (fun j =>
        if !ids.contains j.1 then some j else if j.2.2 = 0 then none else if j.2.2 = 1 then some (j.1, j.2.1, 2 + c.r.frag) else some j)
      hist := { g.hist with heard := ids.foldl (fun k i => learn k (.op i, s.clock + 1)) g.hist.heard }
      reads := [] }) s
  let s2 := modMatrix c.r.grp (fun m => { m with used := m.used.filter (fun u => !ids.contains u.op) }) s1
  l1Renew c.grp.core (pendSat c.r (if sat then satXs else 0) (invalidated c s2))

/-- MWAIT (R192). -/
def execMwait (all : Bool) (tile : BitVec 3) (p : Bool) (s : State) : Out :=
  issue (.mwait all tile p) p (fun c => mwaitPre all tile ((cur s).getD c)) (mwaitEff all tile)
    (match cur s with | some c => if (Instr.mwait all tile p).wf then mwaitDeliver all tile c s else s | none => s)

end Sys2Proof.Machine
end

