-- ==== Sys2Proof/Machine/Image.lean ====
section
/-!
DEFINITION. The bytes of a save area (R235-R238), written and read back.
-/
namespace Sys2Proof.Machine

/-- Zero bytes. -/
def zeros (n : Nat) : List Byte := List.replicate n 0#8

/-- A little-endian field of a list of bytes. -/
def field (b : List Byte) (off n : Nat) : Nat := ofBytes ((b.drop off).take n)

/-- Bytes of one block of gang registers and state (R236). -/
def gangSize (regs : Nat) : Nat := 0x1E00 + 2048 * ((regs + 15) / 16)

/-- Bytes of the engine state of a group with some tiles (R236). -/
def engineSize (tiles : Nat) : Nat := if tiles = 0 then 0 else tiles * 49160 + 2 * 25088 + 1

/-- Offset of the scratch image. -/
def scrOff (r : LRec) : Nat := 256 + r.gangs * gangSize r.regs

/-- Scratch bytes of a group, rounded (R144). -/
def LRec.scr (r : LRec) : Nat := roundUp r.scratch 4096

/-- Offset of the engine state; 0 where there is none. -/
def engOff (r : LRec) : Nat := if r.tiles = 0 then 0 else scrOff r + r.scr

/-- Bytes of a save area (R235). -/
def areaSize (r : LRec) : Nat := scrOff r + r.scr + engineSize r.tiles

/-! Writing. -/

/-- The header (R236). -/
def headerImage (hold : Bool) (l : Launch) (g : Group) : List Byte :=
  [0x53#8, 0x56#8, 0x47#8, 0x01#8] ++ toBytes 1 (if hold then 2 else 1) ++ toBytes 1 l.r.gangs ++ toBytes 1 l.r.tiles
    ++ toBytes 1 l.r.regs ++ toBytes 4 g.g ++ toBytes 4 l.r.scr ++ toBytes 8 l.name.toNat ++ toBytes 8 256
    ++ toBytes 8 (gangSize l.r.regs) ++ toBytes 8 (scrOff l.r) ++ toBytes 8 (engOff l.r) ++ zeros 8
    ++ (List.range 16).flatMap (fun b =>
      toBytes 4 (g.bar b).arrived.toNat ++ toBytes 4 ((if (g.bar b).phase then 1 else 0) + (if (g.bar b).cbar then 2 else 0)))
    ++ zeros 64

/-- An index with bit 3 set for none (R23). -/
def indexImage (i : Option Nat) : List Byte := toBytes 1 (i.getD 8)

/-- A split-table entry (R238). -/
def fragImage (hold : Bool) (f : Frag) : List Byte :=
  let held := match f.hold with | .fault .. => hold | _ => false
  let hand := if hold then f.inHandler else f.rhand
  let flags := 1 + (if f.waiting then 2 else 0) + (if held then 4 else 0) + (if hand then 8 else 0)
  let bar := match f.hold with | .bar id _ _ => 0x80 + id | _ => 0
  let pend := fun (x : Nat) => if hold then x else 0
  toBytes 8 (if hold then f.pc else f.rpc).toNat ++ toBytes 4 f.mask.toNat ++ toBytes 4 (if hold then f.exec else f.rexec).toNat
    ++ toBytes 8 f.rpc.toNat ++ toBytes 4 f.rexec.toNat ++ toBytes 4 (if hold then f.sig else f.rsig).toNat
    ++ toBytes 2 (pend f.pendCancel.toNat) ++ toBytes 2 (pend f.pendCmp.toNat) ++ toBytes 2 (pend f.pendDivz.toNat)
    ++ toBytes 1 (pend f.pendSatf.toNat) ++ toBytes 1 flags ++ indexImage f.split ++ toBytes 1 bar ++ zeros 2
    ++ toBytes 4 f.rsig.toNat

/-- A split record (R238). -/
def recImage (x : SplitRec) : List Byte :=
  toBytes 4 x.origin.toNat ++ indexImage x.parent ++ toBytes 1 1 ++ zeros 2 ++ toBytes 8 x.jpc.toNat

/-- A stack entry (R238). -/
def entryImage (e : QEntry) : List Byte :=
  toBytes 8 e.pc.toNat ++ toBytes 1 e.split ++ toBytes 1 (if e.second then 1 else 0)
    ++ toBytes 1 (e.notTaken.toNat + 16 * e.xl.toNat) ++ toBytes 1 e.lanes.toNat

/-- A quad (R238); the oldest stack entry stands first. -/
def quadImage (hold : Bool) (q : Quad) : List Byte :=
  toBytes 8 (if hold then q.icount else q.ricount).toNat ++ toBytes 4 (if hold then q.mode else q.rmode).toNat
    ++ toBytes 1 q.stack.length ++ zeros 3 ++ q.stack.reverse.flatMap entryImage ++ zeros (12 * (8 - q.stack.length))
    ++ toBytes 8 q.ricount.toNat ++ toBytes 4 q.rmode.toNat ++ zeros 4

/-- A space by its code (R238). -/
def spaceCode : Space → Nat
  | .g => 0
  | .s => 1
  | .c => 2
  | .p => 3
  | .h => 4
  | .f => 5

/-- The LINE field of a store-buffer entry (R238); `rank` gives the cluster rank of a group. -/
def lineImage (rank : Nat → Nat) (e : SbEntry) : Nat :=
  match e.line with
  | .phys a => if a < hostBase then a else if a < peerBase then a - hostBase else a - peerBase
  | .scr k o => if e.space = .c then rank k * 2 ^ 24 + o else o

/-- A store-buffer entry (R238). -/
def storeImage (rank : Nat → Nat) (e : SbEntry) : List Byte :=
  let byte := fun (i : Nat) => aget (e.line.key + i) e.cells
  let order := match e.rel with | some sc => 1 + 2 * sc.toNat | none => 0
  toBytes 8 (lineImage rank e) ++ toBytes 1 (spaceCode e.space) ++ toBytes 1 order ++ zeros 6
    ++ toBytes 16 (bitsOf (fun i => (byte i).isSome) 128) ++ (List.range 128).map (fun i => (byte i).getD 0#8)

/-- A gang's block (R237). -/
def gangImage (hold : Bool) (regs : Nat) (rank : Nat → Nat) (g : Gang) : List Byte :=
  let at8 := fun {α : Type} (l : AList α) (img : α → List Byte) (n : Nat) =>
    (List.range 8).flatMap (fun i => match aget i l with | some x => img x | none => zeros n)
  let bufd := if hold then g.sbuf.take 16 else []
  let live := fun (n : Nat) => if n < regs then ~~~ sget n g.dead else 0#32
  (List.range 64).flatMap (fun n => toBytes 8 (sget n g.sregs).toNat)
    ++ (List.range 8).flatMap (fun n => toBytes 4 (sget n g.pregs).toNat)
    ++ toBytes 4 g.nitcfg.toNat ++ toBytes 4 g.satf.toNat ++ toBytes 8 g.nitcnt.toNat ++ toBytes 4 g.gset.toNat
    ++ toBytes 2 g.leaseDecl.toNat ++ zeros 2 ++ toBytes 8 g.epc.toNat ++ toBytes 8 g.tcause.toNat ++ zeros 24
    ++ at8 g.frags (fragImage hold) 48 ++ at8 g.recs recImage 16
    ++ (List.range 8).flatMap (fun q => quadImage hold (g.quad q))
    ++ toBytes 1 bufd.length ++ zeros 15 ++ bufd.flatMap (storeImage rank) ++ zeros (160 * (16 - bufd.length))
    ++ (if hold then (List.range 256).flatMap (fun i => toBytes 4 (g.ocv (i / 32) (i % 32)).toNat) else zeros 1024)
    ++ (if hold then (List.range 128).flatMap (fun i => toBytes 8 (sget i g.latch).toNat) else zeros 1024)
    ++ (List.range 112).flatMap (fun n => toBytes 4 (live n).toNat)
    ++ (List.range 112).flatMap (fun n => toBytes 4 (if hold then sget n g.killed else 0#32).toNat) ++ zeros 16
    ++ (List.range (16 * ((regs + 15) / 16))).flatMap (fun n => (List.range 32).flatMap (fun l =>
      toBytes 4 (if hold || (live n).getLsbD l then g.vraw n l else 0#32).toNat))

/-- A weight plane (R236). -/
def planeImage (p : Plane) : List Byte :=
  let e := if p.fmt.toNat < 3 then 1 else 2
  (List.range 12288).flatMap (fun i => toBytes e (sget i p.elems).toNat) ++ zeros (24576 - 12288 * e)
    ++ (List.range 96).flatMap (fun n => toBytes 4 ((aget n p.scales).getD 0x3F800000#32).toNat) ++ toBytes 1 p.fmt.toNat
    ++ zeros 127

/-- The engine state (R236). -/
def engineImage (tiles : Nat) (m : Matrix) : List Byte :=
  if tiles = 0 then []
  else
    (List.range (12288 * tiles)).flatMap (fun i => toBytes 4 (sget i m.tiles).toNat)
      ++ (List.range tiles).flatMap (fun t => toBytes 8 (m.chunks.getD t 0#48).toNat)
      ++ planeImage m.planeA ++ planeImage m.planeB
      ++ toBytes 1 ((if m.selB then 1 else 0) + (if m.snapB then 2 else 0) + (if m.mabft then 4 else 0))

/-- Every byte of a group's save area (R235, R236). -/
def areaImage (hold : Bool) (l : Launch) (rank : Nat → Nat) (g : Group) : List Byte :=
  headerImage hold l g
    ++ (List.range l.r.gangs).flatMap (fun i =>
      match aget i g.gangs with | some x => gangImage hold l.r.regs rank x | none => zeros (gangSize l.r.regs))
    ++ getBytes g.scratch 0 l.r.scr ++ engineImage l.r.tiles g.matrix

/-- The poisoned registers and scratch words of a group, as offset and length within its save area (R262). -/
def poisonImage (hold : Bool) (l : Launch) (g : Group) : List (Nat × Nat) :=
  g.gangs.flatMap (fun e =>
    let b := 256 + e.1 * gangSize l.r.regs
    (List.range 64).filterMap (fun n => if e.2.spois.getLsbD n then some (b + 8 * n, 8) else none)
      ++ (List.range 8).filterMap (fun n => if e.2.ppois.getLsbD n then some (b + 0x200 + 4 * n, 4) else none)
      ++ (if hold then e.2.oc.filterMap (fun w => if w.2.getLsbD 32 then some (b + 0x1270 + 4 * w.1, 4) else none) else [])
      ++ e.2.vpois.flatMap (fun w => (lanesIn w.2).map (fun l => (b + 0x1E00 + 128 * w.1 + 4 * l, 4))))
    ++ g.scrPois.map (fun w => (scrOff l.r + 8 * w.1, 8))

/-! Reading back. -/

/-- The header still matches the group (R235). -/
def headerOk (hold : Bool) (l : Launch) (g : Group) (b : List Byte) : Bool :=
  field b 0 4 == 0x01475653 && field b 4 1 == (if hold then 2 else 1) && field b 5 1 == l.r.gangs && field b 6 1 == l.r.tiles
    && field b 7 1 == l.r.regs && field b 8 4 == g.g && field b 12 4 == l.r.scr && field b 16 8 == l.name.toNat

/-- The words of a sparse map from consecutive fields of `n` bytes. -/
def sparseField (w n : Nat) (b : List Byte) (count : Nat) : Sparse w :=
  (List.range count).filterMap (fun i =>
    let v := BitVec.ofNat w (field b (n * i) n)
    if v = 0#w then none else some (i, v))

/-- An index field (R23). -/
def indexField (b : List Byte) (off : Nat) : Option Nat := if field b off 1 / 8 % 2 = 1 then none else some (field b off 1 % 8)

/-- A split-table entry read back; what the layout has no place for comes from the entry as saved. -/
def readFrag (hold : Bool) (b : List Byte) (old : Option Frag) : Option Frag :=
  if field b 39 1 % 2 = 0 then none
  else
    let base := old.getD
      { pc := 0#64, mask := 0#32, exec := 0#32, split := none, waiting := false, rpc := 0#64, rexec := 0#32, rsig := 0#32,
        sig := 0#32, pendCancel := 0#16, pendCmp := 0#16, pendDivz := 0#16, pendSatf := 0#7, inHandler := false,
        rhand := false, hold := .run, stopReq := false, bpSkip := false, waitSkip := false }
    let bar := field b 41 1
    let h : Hold :=
      if bar / 128 = 1 then
        (match base.hold with | .bar _ c sd => .bar (bar % 16) c sd | _ => .bar (bar % 16) false 0#6)
      else if hold then
        (match base.hold with
         | .fault t r => if field b 39 1 / 4 % 2 = 1 then .fault t r else .run
         | .trapEntry t => .trapEntry t
         | _ => .run)
      else .run
    some
      { base with
        pc := pcOf (BitVec.ofNat 64 (field b 0 8)), mask := BitVec.ofNat 32 (field b 8 4), exec := BitVec.ofNat 32 (field b 12 4)
        rpc := pcOf (BitVec.ofNat 64 (field b 16 8)), rexec := BitVec.ofNat 32 (field b 24 4)
        sig := BitVec.ofNat 32 (field b 28 4), rsig := BitVec.ofNat 32 (field b 44 4)
        pendCancel := BitVec.ofNat 16 (field b 32 2), pendCmp := BitVec.ofNat 16 (field b 34 2)
        pendDivz := BitVec.ofNat 16 (field b 36 2), pendSatf := BitVec.ofNat 7 (field b 38 1)
        waiting := field b 39 1 / 2 % 2 == 1, inHandler := field b 39 1 / 8 % 2 == 1
        rhand := if hold then base.rhand else field b 39 1 / 8 % 2 == 1
        split := indexField b 40, hold := h
        bpSkip := hold && base.bpSkip, waitSkip := hold && base.waitSkip }

/-- A split record read back. -/
def readRec (b : List Byte) : Option SplitRec :=
  if field b 5 1 % 2 = 0 then none
  else some { origin := BitVec.ofNat 32 (field b 0 4), parent := indexField b 4, jpc := BitVec.ofNat 64 (field b 8 8) }

/-- A stack entry read back. -/
def readEntry (b : List Byte) : QEntry :=
  { pc := BitVec.ofNat 64 (field b 0 8), split := field b 8 1 % 8, second := field b 9 1 % 2 == 1,
    notTaken := BitVec.ofNat 4 (field b 10 1), xl := BitVec.ofNat 4 (field b 10 1 / 16), lanes := BitVec.ofNat 4 (field b 11 1) }

/-- A quad read back. -/
def readQuad (b : List Byte) : Quad :=
  { icount := BitVec.ofNat 48 (field b 0 8), mode := BitVec.ofNat 32 (field b 8 4),
    stack := ((List.range (min (field b 12 1) 8)).map (fun i => readEntry (b.drop (16 + 12 * i)))).reverse,
    ricount := BitVec.ofNat 48 (field b 112 8), rmode := BitVec.ofNat 32 (field b 120 4) }

/-- A space by its code. -/
def spaceOf (n : Nat) : Space := match n with | 0 => .g | 1 => .s | 2 => .c | 3 => .p | 4 => .h | _ => .f

/-- The place a LINE field names: a cluster offset names its rank too (R145), whose group `mates` gives; the entry as saved tells host from
device memory, and whether an address of global space lies in scratch. -/
def readLine (k : Nat) (mates : Nat → Nat) (b : List Byte) (old : Option SbEntry) : Place :=
  let a := field b 0 8 / 128 * 128
  match spaceOf (field b 8 1), old.map (fun e => e.line) with
  | .s, _ => .scr k (a % 2 ^ 24)
  | .c, _ => .scr (mates (a / 2 ^ 24 % 4)) (a % 2 ^ 24)
  | .h, _ => .phys (hostBase + a)
  | .f, _ => .phys (peerBase + a)
  | _, some (.scr k' _) => .scr k' (a % 2 ^ 24)
  | _, some (.phys p) => if p < hostBase then .phys a else .phys (hostBase + a)
  | _, none => .phys a

/-- A store-buffer entry read back; what it writes in watched ranges follows its bytes. -/
def readStore (k op : Nat) (mates : Nat → Nat) (cycle : DWord) (b : List Byte) (old : Option SbEntry) : SbEntry :=
  let base := old.getD
    { op := op, core := 0, space := .g, line := .phys 0, cells := [], rel := none, spots := [], cycle := cycle, depth := 0, pc := 0#64,
      mask := 0#32, frag := 0, ports := none, hostLink := false, by' := .op op, marks := [] }
  let line := readLine k mates b old
  let m := field b 16 16
  let cells := (List.range 128).filterMap (fun i =>
    if m / 2 ^ i % 2 = 1 then some (line.key + i, BitVec.ofNat 8 (field b (32 + i) 1)) else none)
  { base with
    space := spaceOf (field b 8 1), line := line, cells := cells
    spots := if line = base.line ∧ cells.all (fun c => base.cells.contains c) then base.spots
      else if line = base.line then base.spots.map (fun x =>
        { x with cells := x.cells.filterMap (fun c => (aget c.1 cells).map (fun v => (c.1, v))) })
      else []
    rel := if field b 9 1 % 2 = 1 then some (BitVec.ofNat 3 (field b 9 1 / 2)) else none }

/-- A gang read back from its block (R237), with what the layout has no place for from the gang as saved. -/
def readGang (hold : Bool) (regs k : Nat) (mates : Nat → Nat) (cycle : DWord) (b : List Byte) (old : Gang) : Gang :=
  let live := fun (n : Nat) => BitVec.ofNat 32 (field b (0x1A70 + 4 * n) 4)
  let dead := (List.range regs).foldl (fun m n => sput n (~~~ live n) m) ([] : Sparse 32)
  let bufd := if hold then (List.range (min (field b 0x860 1) 16)).map (fun i =>
    readStore k (2 ^ 64 + i) mates cycle (b.drop (0x870 + 160 * i)) old.sbuf[i]?) else []
  let slots := fun {α : Type} (f : Nat → Option α) => (List.range 8).filterMap (fun i => (f i).map (fun x => (i, x)))
  { old with
    sregs := sparseField 64 8 b 64, pregs := sparseField 32 4 (b.drop 0x200) 8
    nitcfg := BitVec.ofNat 32 (field b 0x220 4), satf := BitVec.ofNat 32 (field b 0x224 4)
    nitcnt := BitVec.ofNat 64 (field b 0x228 8), gset := BitVec.ofNat 32 (field b 0x230 4)
    leaseDecl := BitVec.ofNat 16 (field b 0x234 2), epc := pcOf (BitVec.ofNat 64 (field b 0x238 8))
    tcause := BitVec.ofNat 64 (field b 0x240 8)
    frags := slots (fun i => readFrag hold (b.drop (0x260 + 48 * i)) (aget i old.frags))
    recs := slots (fun i => readRec (b.drop (0x3E0 + 16 * i)))
    quads := (List.range 8).map (fun q => readQuad (b.drop (0x460 + 128 * q)))
    sbuf := bufd
    ops := (nodup (bufd.map (fun e => e.op))).map (fun op =>
      PendOp.blank op .w (match bufd.find? (fun e => e.op == op) with | some e => e.frag | none => 0))
    oc := if hold then (List.range 256).filterMap (fun i =>
        let v := BitVec.ofBool (old.ocPois (i / 32) (i % 32)) ++ BitVec.ofNat 32 (field b (0x1270 + 4 * i) 4)
        if v = 0#33 then none else some (i, v))
      else []
    latch := if hold then sparseField 64 8 (b.drop 0x1670) 128 else []
    dead := dead
    killed := if hold then sparseField 32 4 (b.drop 0x1C30) 112 else dead
    vregs := sparseField 32 4 (b.drop 0x1E00) (512 * ((regs + 15) / 16))
    joints := if hold then old.joints else old.joints.map (fun j => (j.1, j.2.1, min j.2.2 1))
    swap := if hold then old.swap else .none, parked := hold && old.parked, leaseBase := 0, leaseE := 0, footprint := 0#512, window := 0, active := false, exempt := false
    starved := none, yielded := none, lantern := if hold then old.lantern else 0#16, fragPtr := if hold then old.fragPtr else 0 }

/-- A weight plane read back. -/
def readPlane (b : List Byte) : Plane :=
  let f := BitVec.ofNat 3 (field b 24960 1)
  { elems := sparseField 16 (if f.toNat < 3 then 1 else 2) b 12288,
    scales := (List.range 96).filterMap (fun n =>
      let v := BitVec.ofNat 32 (field b (24576 + 4 * n) 4)
      if v = 0x3F800000#32 then none else some (n, v)),
    fmt := f }

/-- The engine state read back: a DISCARD restores the selector snapshot (R203, R204). `lost`: a gang has broken the rule of R204, so that
either plane may be active then, which is `pick`, and the tiles of later MMAs are unpredictable. -/
def readEngine (hold lost pick : Bool) (tiles : Nat) (b : List Byte) (old : Matrix) : Matrix :=
  if tiles = 0 then Matrix.reset
  else
    let p := tiles * 49160
    let sel := field b (p + 2 * 25088) 1
    { tiles := sparseField 32 4 b (12288 * tiles),
      chunks := (List.range 8).map (fun t => if t < tiles then BitVec.ofNat 48 (field b (tiles * 49152 + 8 * t) 8) else 0#48),
      planeA := readPlane (b.drop p), planeB := readPlane (b.drop (p + 25088)),
      selB := if hold then sel % 2 == 1 else if lost then pick else sel / 2 % 2 == 1, snapB := sel / 2 % 2 == 1, mabft := sel / 4 % 2 == 1,
      latch := [], queue := [], used := old.used, loose := old.loose || (!hold && lost) }

/-- A group read back from its save area. -/
def readGroup (hold : Bool) (k : Nat) (mates : Nat → Nat) (cycle : DWord) (l : Launch) (b : List Byte) (old : Group) : Group :=
  { old with
    gangs := old.gangs.map (fun e => (e.1, readGang hold l.r.regs k mates cycle (b.drop (256 + e.1 * gangSize l.r.regs)) e.2))
    scratch := sparseField 8 1 (b.drop (scrOff l.r)) l.r.scr
    barriers := (List.range 16).map (fun i =>
      let x := field b (68 + 8 * i) 4
      { arrived := BitVec.ofNat 32 (field b (64 + 8 * i) 4), phase := x % 2 == 1, cbar := x / 2 % 2 == 1 })
    matrix := readEngine hold (old.gangs.any (fun e => e.2.swap == .lost)) (Config.freeBool (2 ^ 162 * (cycle.toNat + 1) + k)) l.r.tiles
      (b.drop (engOff l.r)) old.matrix
    susp := none }

end Sys2Proof.Machine
end

