-- ==== Sys2Proof/Machine/Save.lean ====
section
/-!
DEFINITION. Suspension: DISCARD and group HOLD (R229-R234), save areas in the save pool (R235), and their restore.
-/
namespace Sys2Proof.Machine

/-! The save pool (R235). -/

/-- The function of a group's launch. -/
def fnOf (launch : Nat) (s : State) : Nat := match aget launch s.launches with | some l => l.fn | none => 0

/-- The areas of a function's save pool in use: first byte and bytes. -/
def areasOf (fn : Nat) (s : State) : List (Nat × Nat) :=
  (s.saved.filterMap (fun e => if fnOf e.2.group.launch s = fn then some (e.2.base, e.2.size) else none))
    ++ s.groups.filterMap (fun e =>
      match e.2.susp, aget e.2.launch s.launches with
      | some { base := some b, .. }, some l => if l.fn = fn then some (b, areaSize l.r) else none
      | _, _ => none)

/-- The lowest place for an area of some bytes in a function's pool. -/
def findArea (fn size : Nat) (s : State) : Option Nat :=
  let base := (mreg fn 0x1850 s).toNat
  let used := areasOf fn s
  let starts := (base :: used.map (fun a => roundUp (a.1 + a.2) 8)).filter (fun b =>
    decide (base ≤ b) && decide (b + size ≤ base + (mreg fn 0x1858 s).toNat)
      && used.all (fun a => decide (b + size ≤ a.1) || decide (a.1 + a.2 ≤ b)))
  starts.find? (fun b => starts.all (fun c => decide (b ≤ c)))

/-! Asking for a suspension and beginning it. -/

/-- A suspension asked for stands, but that a HOLD takes the place of what has not begun, for it takes the group from its core as well and
keeps more of it (R231, R275, log entry 69). -/
def Susp.ask (x : Susp) : Option Susp → Susp
  | none => x
  | some y => if x.hold && y.base.isNone && y.debug == none then x else y

/-- The whole cluster of a group is to be suspended (R229). -/
def askSusp (k : Nat) (x : Susp) (s : State) : State :=
  (clusterOf k s).foldl (fun s j => modGroup j (fun g =>
    { g with susp := some (Susp.ask { x with debug := if j = k then x.debug else none } g.susp) }) s) s

/-- Step 1 and 2 of R230: rendezvous partly filled are dropped; a DISCARD drops loads and special functions in flight. -/
def Gang.halting (hold : Bool) (g : Gang) : Gang :=
  { g with
    frags := g.frags.map (fun e => (e.1, { e.2 with hold := match e.2.hold with
      | .rendezvous => .run
      | .nitHalt op pc d => if hold then .nitHalt op pc d else .run
      | h => h }))
    ops := if hold then g.ops else g.ops.filter (fun o => o.path == .w || o.atomic) }

/-- A group's suspension begins with a save area reserved. -/
def beginSusp (k base : Nat) (s : State) : State :=
  modGroup k (fun g =>
    match g.susp with
    | none => g
    | some x =>
      { g with susp := some { x with base := some base }, matrix := { g.matrix with latch := [] },
               gangs := g.gangs.map (fun e => (e.1, e.2.halting x.hold)) }) s

/-- Reserve areas for some groups and begin their suspension; nothing happens where there is no room (R234). -/
def reserve : List Nat → State → Option State
  | [], s => some s
  | k :: t, s =>
    match (aget k s.groups).bind (fun g => aget g.launch s.launches) with
    | none => none
    | some l => (findArea l.fn (areaSize l.r) s).bind (fun b => reserve t (beginSusp k b s))

/-- What the group has issued has come to its end, as far as the suspension waits for it (R230, R231, R162, R203). -/
def quiesced (k : Nat) (s : State) : Bool :=
  match aget k s.groups with
  | none => false
  | some g =>
    let hold := match g.susp with | some x => x.hold | none => false
    g.matrix.queue.isEmpty && (coreOf g.core s).copies.all (fun c => c.grp != k)
      && g.gangs.all (fun e =>
        if hold then e.2.ops.all (fun o => o.path == .w && !o.isCmo) && decide (e.2.sbuf.length ≤ 16)
        else e.2.ops.isEmpty && e.2.sbuf.isEmpty)

/-! Saving. -/

/-- The cluster rank of a resident or saved group (R17). -/
def rankOf (l : Launch) (s : State) (k : Nat) : Nat :=
  let g := match aget k s.groups with
    | some g => g.g
    | none => (match aget k s.saved with | some x => x.group.g | none => 0)
  g % max l.r.cluster 1

/-- A gang about to be saved by a DISCARD: every fold is in NITCNT (R55). -/
def Gang.folded (g : Gang) : Gang := { g with book := { g.book with nit := none } }

/-- A group about to be saved. -/
def Group.folded (hold : Bool) (g : Group) : Group :=
  if hold then g else { g with gangs := g.gangs.map (fun e => (e.1, e.2.folded)) }

/-- Save one group (R230 step 3, R231): its bytes, poison with them (R262), and its place in the core is free. -/
def saveGroup (token : Option Nat) (s : State) (k : Nat) : State :=
  match aget k s.groups with
  | none => s
  | some g =>
    match g.susp, aget g.launch s.launches with
    | some { hold := hold, base := some b, .. }, some l =>
      let g := g.folded hold
      let s1 := putPhys (drv b) (areaImage hold l (rankOf l s) g) s
      let s2 := (poisonImage hold l g).foldl (fun s w => poisonAt (.phys (drv b + w.1)) w.2 s) s1
      let s3 := g.gangs.foldl (fun s e => dropVictims g.core ⟨k, e.1⟩ s) s2
      let s4 := { s3 with
        groups := aerase k s3.groups
        hostWaits := s3.hostWaits.filter (fun e => e.2.grp != k)
        priRefused := s3.priRefused.filter (fun e => e.2.grp != k)
        saved := aput k { group := g, base := b, size := areaSize l.r, hold := hold, token := token, spoiled := false } s3.saved }
      if hold then s4 else countEvents 0x0006 l.ctx 1 s4
    | _, _ => s

/-- The cores of a core's core cluster (R2). -/
def coreCluster (core : Nat) : List Nat := (List.range 4).map (fun i => core / 4 * 4 + i)

/-- A suspended group or cluster returns to the dispatch queue of the core it left, at its head or its tail (R209, R222), with the stop
requests that came meanwhile (R275). Its count of refusals starts again (R212; log entry 75). -/
def requeue (launch core : Nat) (gs : List Nat) (stops : List (Nat × Nat × Bool)) (tail : Bool) (s : State) : State :=
  let (id, s1) := fresh s
  let s2 := { s1 with entries := aput id { launch := launch, groups := gs, refusals := 0, restore := true, stops := stops } s1.entries }
  (if gs.length ≤ 1 then [core] else coreCluster core).foldl (fun s c =>
    modCore c (fun k => { k with dispatchQ := if tail then k.dispatchQ ++ [id] else id :: k.dispatchQ }) s) s2

/-! Fragments that a group HOLD has taken from their core. -/

/-- Change a fragment, resident or in a HOLD save area: there its bytes follow. -/
def modFragAny (r : FragRef) (f : Frag → Frag) (s : State) : State :=
  match aget r.grp s.groups, aget r.grp s.saved with
  | none, some sv =>
    (match (aget r.gang sv.group.gangs).bind (fun g => aget r.frag g.frags), aget sv.group.launch s.launches with
     | some x, some l =>
       let x' := f x
       let g' := { sv.group with gangs := amod r.gang (fun g => { g with frags := aput r.frag x' g.frags }) sv.group.gangs }
       let a := drv sv.base + 256 + r.gang * gangSize l.r.regs + 0x260 + 48 * r.frag
       let s1 := { s with saved := aput r.grp { sv with group := g' } s.saved }
       putPhys (a + 39) (((fragImage sv.hold x').drop 39).take 1) (putPhys a ((fragImage sv.hold x').take 8) s1)
     | _, _ => s)
  | _, _ => modFrag r f s

/-- A fault that waits for an entry of its die's buffer (R250) attaches to the entry its key now has, or takes one where there is room. -/
def promoteOne (s : State) (k : Nat) : State :=
  match aget k s.tokens with
  | none => s
  | some t =>
    match s.tokens.find? (fun e => e.2.live && e.2.kind == .frags && e.2.key == t.key) with
    | some (k', t') =>
      t.frags.foldl (fun s r => modFragAny r (fun f => { f with hold := match f.hold with | .fault _ p => .fault k' p | h => h }) s)
        { s with tokens := aput k' { t' with frags := t'.frags ++ t.frags } (aerase k s.tokens) }
    | none =>
      if (match t.key with | some e => decide (256 ≤ bufferUse e.1 s) | none => false) then s
      else { s with tokens := aput k { t with kind := .frags } s.tokens }

/-- The dies' fault buffers may have room again: every fault that waits and can take or share an entry does, the oldest first
(R250). -/
def promoteAll (s : State) : State :=
  ((s.tokens.filter (fun e => e.2.live && e.2.kind == .queued)).map Prod.fst).foldl promoteOne s

/-- Save the groups of a cluster that have come to their ends, and requeue them. A debug stop writes its record, whose token stands for
the group stopped, and keeps them until it is acted on (R276). -/
def saveAll (ks : List Nat) (s : State) : State :=
  match ks.filterMap (fun k => aget k s.groups) with
  | [] => s
  | g :: rest =>
    match g.susp with
    | none => s
    | some x =>
      let l := aget g.launch s.launches
      let stop := (ks.filterMap (fun k => (aget k s.groups).map (fun y => (k, y)))).findSome? (fun y =>
        y.2.susp.bind (fun z => Option.map (fun r => (y.1, r)) z.debug))
      let (tok, s1) := match stop, l with
        | some (k, r), some l =>
          let (t, s1) := addToken { fn := ownerFn l.ctx s, debug := true, vectorC := false, kind := .group k, frags := [],
                                    key := none, record := r, written := false, live := true } s
          (some t, s1)
        | _, _ => (none, s)
      let s2 := ks.foldl (saveGroup tok) s1
      let s3 := if x.hold then s2 else promoteAll (staleGroups ks s2)
      if tok.isSome then s3 else requeue g.launch g.core ((g :: rest).map (fun y => y.g))
        ((g :: rest).flatMap (fun y => match y.susp with | some z => z.stops | none => [])) x.tail s3

/-- Go on with the suspension of a group's cluster: begin it where there is room, save it where all is quiet. -/
def advanceSusp (k : Nat) (s : State) : State :=
  match (aget k s.groups).bind (fun g => g.susp) with
  | none => s
  | some x =>
    let ks := clusterOf k s
    let s1 := if x.base.isSome then s else (reserve ks s).getD s
    let begun := match (aget k s1.groups).bind (fun g => g.susp) with | some y => y.base.isSome | none => false
    if begun && ks.all (fun j => quiesced j s1) then saveAll ks s1 else s1

/-- The suspension of a group can go on now. -/
def suspReady (k : Nat) (s : State) : Bool :=
  match (aget k s.groups).bind (fun g => g.susp) with
  | none => false
  | some x =>
    let ks := clusterOf k s
    if x.base.isSome then ks.all (fun j => quiesced j s) else (reserve ks s).isSome

/-- DISCARD (R230). -/
def execDiscard (grp : Nat) (s : State) : Out :=
  evt (advanceSusp grp (askSusp grp { hold := false, tail := false, debug := none, base := none } s))

/-- Group HOLD (R231, R232). -/
def execGroupHold (grp : Nat) (s : State) : Out :=
  evt (advanceSusp grp (askSusp grp { hold := true, tail := false, debug := none, base := none } s))

/-- The resident groups of a launch. -/
def residentOf (launch : Nat) (s : State) : List Nat :=
  (s.groups.filter (fun e => e.2.launch == launch && !e.2.ended)).map Prod.fst

/-- Discard some groups: those that find no room in the pool run on and are discarded when there is room (R234). -/
def discardAll (ks : List Nat) (s : State) : State :=
  ks.foldl (fun s k => advanceSusp k (askSusp k { hold := false, tail := false, debug := none, base := none } s)) s

/-- QPRE (R233). -/
def execQpre (fn : Nat) (q : BitVec 6) (s : State) : Out :=
  match runningLaunch fn q.toNat s with
  | none => evt s
  | some (k, _) => evt (discardAll (residentOf k s) s)

/-! Restore. -/

/-- The bytes of a save area, those of lines that cannot be corrected unpredictable (R264). -/
def areaRead (sv : Saved) (s : State) : List Byte :=
  let b := getBytes s.mem (drv sv.base) sv.size
  if (badLine (drv sv.base) sv.size s).isNone then b
  else b.zipIdx.map (fun x =>
    if fatalLevel ((drv sv.base + x.2) / 128) s = 0 then x.1 else Config.freeByte (2 ^ 151 * (s.clock + 1) + 2 ^ 40 * sv.base + x.2))

/-- The bytes a restore reads: those of memory; where the driver has written an area in use that was not a debugger's to write,
every field is unpredictable (R235). -/
def areaBytes (sv : Saved) (l : Launch) (s : State) : List Byte :=
  let b := areaRead sv s
  if !sv.spoiled && (sv.hold || b == areaImage false l (rankOf l s) sv.group) then b
  else (List.range sv.size).map (fun i => Config.freeByte (2 ^ 150 * (s.clock + 1) + 2 ^ 40 * sv.base + i))

/-- Poison that still stands in the save area comes back with its registers and scratch words (R262, R272). -/
def poisonBack (sv : Saved) (l : Launch) (s : State) (g : Group) : Group :=
  let bad := fun (off : Nat) => sget ((drv sv.base + off) / 8) s.poison == 1#1
  { g with
    gangs := g.gangs.map (fun e =>
      let b := 256 + e.1 * gangSize l.r.regs
      (e.1, { e.2 with
        spois := BitVec.ofNat 64 (bitsOf (fun n => e.2.spois.getLsbD n && bad (b + 8 * n)) 64)
        ppois := BitVec.ofNat 8 (bitsOf (fun n => e.2.ppois.getLsbD n && bad (b + 0x200 + 4 * n)) 8)
        oc := (List.range 256).foldl (fun m i =>
          if (sget i m).getLsbD 32 && bad (b + 0x1270 + 4 * i) then m else sput i (sget i m &&& 0xFFFFFFFF#33) m) e.2.oc
        vpois := e.2.vpois.foldl (fun m w =>
          sput w.1 (w.2 &&& maskOf (fun i => bad (b + 0x1E00 + 128 * w.1 + 4 * i))) m) [] }))
    scrPois := (List.range (l.r.scr / 8)).filterMap (fun w => if bad (scrOff l.r + 8 * w) then some (w, 1#1) else none) }

/-- A gang that comes to a core takes a free gang slot of its partition: which is free (R210, R217, log entry 66). -/
def seatGang (r : GangRef) (s : State) : State :=
  match aget r.grp s.groups, gangOf r s with
  | some grp, some g =>
    let used := (s.groups.filter (fun e => e.2.core == grp.core && !e.2.ended)).flatMap (fun e =>
      (e.2.gangs.filter (fun x => (e.1, x.1) != (r.grp, r.gang) && x.2.partition == g.partition && !x.2.vacated
        && (e.1 != r.grp || decide (x.1 < r.gang)))).map (fun x => x.2.slot))
    modGang r (fun g => { g with slot := oneOf (65536 * s.clock + r.gang) ((List.range 16).filter (fun n => !used.contains n)) }) s
  | _, _ => s

/-- Every gang of a group that comes to a core takes a slot, in the order of the gangs. -/
def seatGroup (k : Nat) (s : State) : State :=
  match aget k s.groups with
  | some g => g.gangs.foldl (fun s e => seatGang ⟨k, e.1⟩ s) s
  | none => s

/-- The group of a rank in a group's cluster, resident or saved (R17, R145). -/
def mateAt (l : Launch) (launch k : Nat) (s : State) (rank : Nat) : Nat :=
  let all := s.groups.map (fun e => (e.1, e.2)) ++ s.saved.map (fun e => (e.1, e.2.group))
  let own := match all.find? (fun e => e.1 == k) with | some e => e.2.g / max l.r.cluster 1 | none => 0
  match all.find? (fun e => e.2.launch == launch && e.2.g / max l.r.cluster 1 == own && rankOf l s e.1 == rank) with
  | some e => e.1
  | none => k

/-- The ports and the link that the entries read back need (R286, R293). -/
def Gang.seek (ctx : BitVec 6) (s : State) (g : Gang) : Gang :=
  { g with sbuf := g.sbuf.map (fun e => { e with ports := (portsOf ctx [(e.line, 1)] s).head?, hostLink := onHost [(e.line, 1)] }) }

/-- A saved group comes to a core (R230, R231): its gangs take their places and acquire (R184). A save area whose header no
longer matches ends the context (R235). -/
def restoreGroup (k core admitted : Nat) (places : List (Nat × Nat)) (granules : List Nat) (s : State) : State :=
  match aget k s.saved with
  | none => s
  | some sv =>
    match aget sv.group.launch s.launches with
    | none => { s with saved := aerase k s.saved }
    | some l =>
      let b := areaBytes sv l s
      let mates := mateAt l sv.group.launch k s
      let s := readHome (drv sv.base) sv.size s
      if headerOk sv.hold l sv.group b then
        let g := poisonBack sv l s (readGroup sv.hold k mates (cycleAt core s) l b sv.group)
        let g1 := { g with
          core := core, admitted := admitted, since := (cycleAt core s).toNat, granules := granules
          gangs := (List.zip g.gangs (places ++ List.replicate 32 (0, 0))).map (fun e =>
            (e.1.1, { e.1.2.seek l.ctx s with partition := e.2.1, granule := e.2.2, changedAt := (cycleAt core s).toNat })) }
        let s1 := { s with saved := aerase k s.saved, groups := aput k g1 s.groups }
        settleGroup k (settleBarriers k (acquire core l.ctx 3 (seatGroup k s1)))
      else endContext l.ctx s

/-! Gangs that a group HOLD has taken from their core. -/

/-- Halt a gang, resident or saved (R263). -/
def haltAny (r : GangRef) (s : State) : State :=
  match aget r.grp s.groups, aget r.grp s.saved with
  | none, some sv =>
    { s with saved := aput r.grp { sv with group := { sv.group with
        gangs := amod r.gang (fun g => { g with halted := true }) sv.group.gangs } } s.saved }
  | _, _ => haltGang r s

/-- A group held by a debug stop may resume (R276). -/
def resumeSaved (token : Nat) (s : State) : State :=
  let mine := s.saved.filter (fun e => e.2.token == some token)
  match mine with
  | [] => s
  | e :: _ =>
    let s1 := { s with saved := s.saved.map (fun x => (x.1, if x.2.token = some token then { x.2 with token := none } else x.2)) }
    requeue e.2.group.launch e.2.group.core (mine.map (fun x => x.2.group.g)) [] false s1

end Sys2Proof.Machine
end

