-- ==== Sys2Proof/Machine/Select.lean ====
section
/-!
DEFINITION. Which fragment issues next (R107, R219, R231), and the fetch of its instruction (R106, R248).
-/
namespace Sys2Proof.Machine

/-- A fragment of a gang that may issue: not held, not waiting at a REGANG.WAIT. -/
def Frag.ready (f : Frag) : Bool := f.hold == .run && !f.waiting

/-- A gang whose fragments may issue: active, neither halted nor ended, its park over, no
Lantern hold (R107, R215, R263, R277). -/
def Gang.mayIssue (g : Gang) : Bool := g.active && !g.halted && !g.ended && (!g.parked || g.idle) && g.lantern == 0#16

/-- The fragments of a gang in the order of its fragment pointer (R219). -/
def Gang.inTurn (g : Gang) : List (Nat × Frag) :=
  g.frags.filter (fun e => decide (g.fragPtr ≤ e.1)) ++ g.frags.filter (fun e => decide (e.1 < g.fragPtr))

/-- The ready fragments of a gang, in turn, that nothing has found waiting since the last change. -/
def readyFrags (k : Nat) (gi : Nat) (g : Gang) (s : State) : List FragRef :=
  if g.mayIssue then
    (g.inTurn.filter (fun e => e.2.ready)).filterMap (fun e =>
      let r : FragRef := { grp := k, gang := gi, frag := e.1 }
      if s.stalled.contains r then none else some r)
  else []

/-- A ready gang: its core, its age by its group's admission and its number, its partition, when it starved, its ready fragments in
turn. -/
structure ReadyGang where
  ref : GangRef
  core : Nat
  age : Nat × Nat
  partition : Nat
  starved : Option Nat
  frags : List FragRef
  deriving DecidableEq, Repr

/-- A suspension of the group has begun: it issues nothing (R230, R231). -/
def Group.suspended (g : Group) : Bool := match g.susp with | some x => x.base.isSome | none => false

/-- A gang that has yielded is not ready until another gang of its partition has issued, or for 64 clocks (R386). -/
def Gang.yields (g : Gang) (core : Nat) (s : State) : Bool :=
  match g.yielded with | some t => decide (elapsed core t s < 64) | none => false

/-- Every ready gang of the device. -/
def readyGangs (s : State) : List ReadyGang :=
  s.groups.flatMap (fun e =>
    if e.2.ended || e.2.suspended then []
    else e.2.gangs.filterMap (fun ge =>
      if ge.2.yields e.2.core s then none
      else
        match readyFrags e.1 ge.1 ge.2 s with
        | [] => none
        | rs => some { ref := ⟨e.1, ge.1⟩, core := e.2.core, age := (e.2.admitted, ge.1), partition := ge.2.partition, starved := ge.2.starved, frags := rs }))

/-- A gang is taken before another of its partition: starved gangs first, in the order in which they became starved, then the others;
ties and the others go to the older (R219). -/
def ReadyGang.before (h g : ReadyGang) : Bool :=
  let older := decide (h.age.1 < g.age.1) || (h.age.1 == g.age.1 && decide (h.age.2 < g.age.2))
  match h.starved, g.starved with
  | some a, some b => decide (a < b) || (a == b && older)
  | some _, none => true
  | none, some _ => false
  | none, none => older

/-- A gang put into its place among others. -/
def ReadyGang.placed (g : ReadyGang) : List ReadyGang → List ReadyGang
  | [] => [g]
  | h :: t => if g.before h then g :: h :: t else h :: g.placed t

/-- What has waited for its turn longer than anything is passed over (log entry 67). -/
def pastPatience (w : Wanted) (s : State) : Bool := s.waiting.any (fun e => e.1 == w && decide (Config.patience < s.clock - e.2))

/-- The instruction of a ready fragment may not be taken in this clock: its pipe class is taken or occupied, or a dependence is not met
(R101-R103, R219). Latencies and occupancies are not modelled, so whether it is so is free, for a bounded time (log entries 6, 67). -/
def occupied (r : FragRef) (s : State) : Bool :=
  Config.freeBool (2 ^ 150 * (s.clock + 1) + 65536 * r.grp + 512 * r.gang + r.frag) && !pastPatience (.frag r) s

/-- What a partition issues next: of its ready gangs in order, each offering its ready fragments in turn from its fragment pointer on, the
first that may be taken in the clock (R219). -/
def taken (gs : List ReadyGang) (s : State) : Option FragRef :=
  match (gs.foldr (fun g l => g.placed l) []).flatMap (fun g => g.frags) with
  | [] => none
  | [r] => some r
  | r :: t => some (((r :: t).find? (fun x => !occupied x s)).getD r)

/-- The partitions with ready gangs. -/
def readyParts (gs : List ReadyGang) : List (Nat × Nat) :=
  (gs.map (fun g => (g.core, g.partition))).foldl (fun l p => if l.contains p then l else l ++ [p]) []

/-- The fragments that may issue next, one of each partition: which partition's comes first is free. -/
def candidates (s : State) : List FragRef :=
  if s.power = .d0 then
    let all := readyGangs s
    (readyParts all).filterMap (fun p => taken (all.filter (fun g => (g.core, g.partition) == p)) s)
  else []

/-- One of several: the only one, or a free one. -/
def pickOf {α : Type} (step : Nat) : List α → Option α
  | [] => none
  | [x] => some x
  | x :: y :: t => (x :: y :: t)[Config.pick step (t.length + 2) % (t.length + 2)]?

/-- The breakpoint that names the instruction a fragment has reached, unless that one issue is let through (R275, R276). -/
def bpHit (c : Cur) (s : State) : Option Nat :=
  if c.frag.bpSkip then none
  else (List.range 8).find? (fun n =>
    let bp := (mreg (ownerFn c.ctx s) (0x1940 + 8 * n) s).toNat
    bits bp 57 57 == 1 && bits bp 63 58 == c.ctx.toNat && bits bp 56 1 == bits c.frag.pc.toNat 56 1)

/-- A stop request or a breakpoint stops the fragment before its next instruction (R275). -/
def mustStop (c : Cur) (s : State) : Bool := (c.frag.stopReq && !c.frag.waitSkip) || (bpHit c s).isSome

/-! Fetch. -/

/-- What a fetch gives. -/
inductive Fetched where
  | ok (f : Frame)
  | fault (f : FReq)
  | line (l : Nat)
  | table (l : Nat)
  /-- The bytes lie in host memory, no cache of the device holds them, and no link is up (R286). -/
  | wait
  deriving DecidableEq, Repr

/-- A fetch from host memory waits for a link. -/
def fetchWaits (p : Place) (s : State) : Bool :=
  decide (hostBase ≤ p.key) && s.links == 0#2 && (aget (p.key / 128) s.l2).isNone

/-- A halfword at a virtual address (R106): a poisoned one is unpredictable (R262). -/
def fetchHalf (c : Cur) (va slot : Nat) (s : State) : Except Fetched Nat :=
  match resolveVa c.ctx va .ex slot s with
  | .bad f => .error (.fault f)
  | .miss a => .error (.fault (permAt .ex a))
  | .table l => .error (.table l)
  | .at p =>
    match badLine p.key 2 s with
    | some l => .error (.line l)
    | none =>
      if fetchWaits p s then .error .wait
      else if poisonedAt p 2 s then .ok ((Config.freeDWord (65536 * s.clock + slot)).toNat % 65536)
      else .ok (half2 (getNum s.mem p.key 1) (getNum s.mem (p.key + 1) 1))

/-- The words of the instruction at a fragment's pc (R106, R112): each halfword is fetched only if those before it
call for it. -/
def fetch (c : Cur) (s : State) : Fetched :=
  let pc := c.frag.pc.toNat
  match fetchHalf c pc 0 s with
  | .error e => e
  | .ok h0 =>
    if h0 % 2 = 0 then .ok (frame h0 0 0 0)
    else
      match fetchHalf c (pc + 2) 1 s with
      | .error e => e
      | .ok h1 =>
        if majorOf h0 = 0x7F then
          match fetchHalf c (pc + 4) 2 s with
          | .error e => e
          | .ok h2 =>
            if h2 % 2 = 0 then .ok (frame h0 h1 h2 0)
            else
              match fetchHalf c (pc + 6) 3 s with
              | .error e => e
              | .ok h3 => .ok (frame h0 h1 h2 h3)
        else .ok (frame h0 h1 0 0)

/-- The translations of the fetched bytes stay in the TLBs (R249). -/
def fetchTouch (c : Cur) (len : Nat) (s : State) : State :=
  (List.range ((len + 1) / 2)).foldl (fun s i => tlbTouch c.ctx (c.frag.pc.toNat + 2 * i) s) s

end Sys2Proof.Machine
end

