-- ==== Sys2Proof/Machine/Scalar.lean ====
section
/-!
DEFINITION. The scalar ALU, scalar immediates and predicate logic (R354, R368, R374). They execute once per gang
whatever EXEC holds (R32).
-/
namespace Sys2Proof.Machine

/-- Some of the scalars an instruction reads are poisoned (R261). -/
def Cur.sPoison (c : Cur) (ns : List (BitVec 6)) : Bool := ns.any (fun n => c.spoisoned n)

/-- A scalar instruction: the scalars it reads, the one it writes, its value. -/
def runScalar (i : Instr) (p : Bool) (reads : List (BitVec 6)) (sd : BitVec 6) (f : Cur → DWord) (s : State) : Out :=
  issue i p (fun c => preOf true (c.sPoison reads))
    (fun c s => modGang (gangRefOf c.r) (fun g => g.setSBy c.r.frag sd (f c)) s) s

/-- A scalar instruction of two sources. -/
def runScalar2 (i : Instr) (p : Bool) (sb sa sd : BitVec 6) (f : DWord → DWord → DWord) : State → Out :=
  runScalar i p [sa, sb] sd (fun c => f (c.s sa) (c.s sb))

/-- SADD (R368). -/
def execSadd (sb sa sd : BitVec 6) (p : Bool) : State → Out := runScalar2 (.sadd sb sa sd p) p sb sa sd (· + ·)
/-- SSUB (R368). -/
def execSsub (sb sa sd : BitVec 6) (p : Bool) : State → Out := runScalar2 (.ssub sb sa sd p) p sb sa sd (· - ·)
/-- SMUL (R368). -/
def execSmul (sb sa sd : BitVec 6) (p : Bool) : State → Out := runScalar2 (.smul sb sa sd p) p sb sa sd (· * ·)
/-- SAND (R368). -/
def execSand (sb sa sd : BitVec 6) (p : Bool) : State → Out := runScalar2 (.sand sb sa sd p) p sb sa sd (· &&& ·)
/-- SOR (R368). -/
def execSor (sb sa sd : BitVec 6) (p : Bool) : State → Out := runScalar2 (.sor sb sa sd p) p sb sa sd (· ||| ·)
/-- SXOR (R368). -/
def execSxor (sb sa sd : BitVec 6) (p : Bool) : State → Out := runScalar2 (.sxor sb sa sd p) p sb sa sd (· ^^^ ·)
/-- SSHL (R368). -/
def execSshl (sb sa sd : BitVec 6) (p : Bool) : State → Out :=
  runScalar2 (.sshl sb sa sd p) p sb sa sd (fun a b => a <<< (b.toNat % 64))
/-- SSHR (R368). -/
def execSshr (sb sa sd : BitVec 6) (p : Bool) : State → Out :=
  runScalar2 (.sshr sb sa sd p) p sb sa sd (fun a b => a >>> (b.toNat % 64))
/-- SSAR (R368). -/
def execSsar (sb sa sd : BitVec 6) (p : Bool) : State → Out :=
  runScalar2 (.ssar sb sa sd p) p sb sa sd (fun a b => a.sshiftRight (b.toNat % 64))
/-- SMOV (R368). -/
def execSmov (sa sd : BitVec 6) (p : Bool) : State → Out := runScalar (.smov sa sd p) p [sa] sd (fun c => c.s sa)
/-- SSEL (R368): the destination selects. -/
def execSsel (sb sa sd : BitVec 6) (p : Bool) : State → Out :=
  runScalar (.ssel sb sa sd p) p [sa, sb, sd] sd (fun c => if c.s sd ≠ 0#64 then c.s sa else c.s sb)

/-- The conditions of SCMP. -/
def scmpHolds (k : ScmpCond) (a b : DWord) : Bool :=
  match k with
  | .eq => a == b
  | .ne => a != b
  | .lt => a.slt b
  | .le => a.sle b
  | .ltu => a.ult b
  | .leu => a.ule b

/-- SCMP (R368). -/
def execScmp (cond : ScmpCond) (sb sa sd : BitVec 6) (p : Bool) : State → Out :=
  runScalar2 (.scmp cond sb sa sd p) p sb sa sd (fun a b => if scmpHolds cond a b then 1#64 else 0#64)

/-- SLI (R374). -/
def execSli (imm : BitVec 16) (sd : BitVec 6) (p : Bool) : State → Out :=
  runScalar (.sli imm sd p) p [] sd (fun _ => imm.signExtend 64)
/-- SLI.SH (R374). -/
def execSliSh (imm : BitVec 16) (sd : BitVec 6) (p : Bool) : State → Out :=
  runScalar (.sliSh imm sd p) p [sd] sd (fun c => (c.s sd <<< 16) ||| imm.setWidth 64)

/-- A predicate takes a value in the bits of the fragment mask; in TRIPLE each quad's bits take its reference
lane's (R88, R354). -/
def Cur.putP (c : Cur) (pd : BitVec 3) (v : Mask) (g : Gang) : Gang :=
  g.setP pd c.frag.mask (if c.triple then spreadRef v else v)

/-- The operations of PLOP. -/
def plopVal (op : PlopOp) (a b : Mask) : Mask :=
  match op with
  | .and => a &&& b
  | .or => a ||| b
  | .xor => a ^^^ b
  | .andn => a &&& ~~~ b
  | .orn => a ||| ~~~ b
  | .not => ~~~ a
  | .mov => a

/-- PLOP reads its second predicate. -/
def plopTwo (op : PlopOp) : Bool := op != .not && op != .mov

/-- PLOP on predicates (R354). -/
def execPlop (op : PlopOp) (pb pa pd : BitVec 3) (p : Bool) (s : State) : Out :=
  issue (.plop op pb pa pd p) p (fun c => preOf true (c.gang.ppoisoned pa || (plopTwo op && c.gang.ppoisoned pb)))
    (fun c s => modGang (gangRefOf c.r) (c.putP pd (plopVal op (c.gang.pr pa) (c.gang.pr pb))) s) s

/-- PLOP.FROMS (R354). -/
def execPlopFroms (sa : BitVec 6) (pd : BitVec 3) (p : Bool) (s : State) : Out :=
  issue (.plopFroms sa pd p) p (fun c => preOf true (c.spoisoned sa))
    (fun c s => modGang (gangRefOf c.r) (c.putP pd ((c.s sa).setWidth 32)) s) s

/-- PLOP.TOS (R354). -/
def execPlopTos (pa : BitVec 3) (sd : BitVec 6) (p : Bool) (s : State) : Out :=
  issue (.plopTos pa sd p) p (fun c => preOf true (c.gang.ppoisoned pa))
    (fun c s => modGang (gangRefOf c.r) (fun g => g.setSBy c.r.frag sd ((c.gang.pr pa).setWidth 64)) s) s

end Sys2Proof.Machine
end

