-- ==== Sys2Proof/Machine/Special.lean ====
section
/-!
DEFINITION. Special registers and the instructions about them (R21, R31, R54, R55, R75, R89-R93, R268, R277, R281, R315,
R345, R358, R377, R381, R386).
-/
namespace Sys2Proof.Machine

/-- IDS (R92). -/
def Cur.ids (c : Cur) : Nat :=
  c.grp.g % 2 ^ 32 * 2 ^ 32 + (if c.triple then 2 ^ 31 else 0) + c.grp.g % max c.lau.r.cluster 1 * 2 ^ 29
    + c.lau.r.cluster * 2 ^ 26 + c.r.gang * 2 ^ 21 + c.lau.r.gangs * 2 ^ 15 + c.lau.r.threads

/-- LEASE.MEASURED (R216). -/
def Gang.measured (g : Gang) : Nat := min 65535 (g.leaseBase + g.leaseE)

/-- The lowest quad of a fragment mask. -/
def Cur.lowQuad (c : Cur) : Nat := (quadsIn c.frag.mask).headD 0

/-- A fold that a read of NITCNT holds (R55): those of the reader's own lanes, which a REGANG has ordered before it among them, and
of lanes that have exited; of a fragment still split from the reader it is unpredictable. -/
def Cur.seesFold (c : Cur) (s : State) (x : NitFold) (i : Nat) : Bool :=
  x.mask &&& c.frag.mask != 0#32 || x.mask &&& c.gang.live == 0#32 || Config.freeBool (2 ^ 160 * (s.clock + 1) + 2 ^ 159 + i)

/-- NITCNT as read (R55): exact in a gang of one fragment, and while no other fragment has folded counts. -/
def Cur.nitcntRead (c : Cur) (s : State) : DWord :=
  if c.gang.frags.length ≤ 1 then c.gang.nitcnt
  else
    match c.gang.book.nit with
    | none => c.gang.nitcnt
    | some (b, l) => (l.zipIdx.filter (fun e => c.seesFold s e.1 e.2)).foldl (fun v e => addCounts v e.1.cancel e.1.cmp e.1.divz) b

/-- The value of a special register to an SREAD (R89-R93). LEASECFG reads zero: a program is not privileged (R90). -/
def Cur.special (c : Cur) (n : BitVec 6) (s : State) : DWord :=
  match n.toNat with
  | 0x00 => c.frag.exec.setWidth 64
  | 0x01 => (c.gang.quad c.lowQuad).mode.setWidth 64
  | 0x02 => c.gang.nitcfg.setWidth 64
  | 0x03 => c.nitcntRead s
  | 0x04 => c.satf.setWidth 64
  | 0x06 => c.lau.r.seed
  | 0x07 => BitVec.ofNat 64 c.ids
  | 0x08 => c.gang.gset.setWidth 64
  | 0x09 => BitVec.ofNat 64 (c.gang.measured * 65536 + c.gang.leaseDecl.toNat)
  | 0x0B => c.frag.sig.setWidth 64
  | 0x0C => c.gang.tcause
  | 0x0D => c.gang.epc
  | 0x0E => cycleAt c.grp.core s
  | _ => 0#64

/-- ICOUNT of each lane of EXEC into a register pair (R93). -/
def Cur.readIcount (c : Cur) (d : Nat) (g : Gang) : Gang :=
  (lanesIn c.frag.exec).foldl (fun g l =>
    let v := (c.gang.quad (l / 4)).icount.toNat
    (g.setReg d l (BitVec.ofNat 32 v) false).setReg (d + 1) l (BitVec.ofNat 32 (v / 2 ^ 32)) false) g

/-- SREAD (R377). -/
def execSread (sel sd : BitVec 6) (p : Bool) (s : State) : Out :=
  issue (.sread sel sd p) p
    (fun c => Pre.unless (sel != 0x05#6 || regOk c.regs sd.toNat true) (illop .operand))
    (fun c s =>
      if sel = 0x05#6 then modGang (gangRefOf c.r) (c.readIcount sd.toNat) s
      else modGang (gangRefOf c.r) (fun g => g.setSBy c.r.frag sd (c.special sel s)) s) s

/-- The registers an SWRITE may not write (R90). -/
def swriteBarred (n : BitVec 6) : Bool := [0x05, 0x06, 0x07, 0x0A, 0x0C, 0x0E].contains n.toNat

/-- Change the issuing fragment's entry. -/
def Gang.onFrag (g : Gang) (c : Cur) (f : Frag → Frag) : Gang := { g with frags := amod c.r.frag f g.frags }

/-- Write a special register (R21, R31, R54, R55, R75, R91, R93). -/
def Cur.writeSpecial (c : Cur) (n : BitVec 6) (v : DWord) (g : Gang) : Gang :=
  let w : Word := v.setWidth 32
  match n.toNat with
  | 0x00 => g.onFrag c (fun f =>
      { f with exec := if c.triple then spreadRef w &&& f.mask else w &&& f.mask })
  | 0x01 => g.modQuads c.frag.mask (fun q => { q with mode := w &&& 0x1F#32 })
  | 0x02 => { g with nitcfg := w &&& 0x003F3F3F#32 }
  | 0x03 => { g with nitcnt := v &&& 0x0000FFFFFFFFFFFF#64, book := { g.book with nit := none } }
  | 0x04 => { (g.onFrag c (fun f => { f with pendSatf := 0#7 })) with satf := w &&& 0x7F#32 }
  | 0x08 => { g with gset := w }
  | 0x09 => { g with leaseDecl := v.setWidth 16 }
  | 0x0B => g.onFrag c (fun f => { f with sig := w })
  | 0x0D => { g with epc := pcOf v }
  | _ => g

/-- The special registers of the gang that SWRITE writes, with the value that they hold then: another fragment of a split may write one too
(R377). -/
def gangSpecial (n : BitVec 6) (g : Gang) : Option DWord :=
  match n.toNat with
  | 0x02 => some (g.nitcfg.setWidth 64)
  | 0x03 => some g.nitcnt
  | 0x04 => some (g.satf.setWidth 64)
  | 0x08 => some (g.gset.setWidth 64)
  | 0x09 => some (g.leaseDecl.setWidth 64)
  | 0x0D => some g.epc
  | _ => none

/-- A fragment has written a special register of its gang. -/
def Gang.noteSpecial (g : Gang) (fi : Nat) (n : BitVec 6) : Gang :=
  match gangSpecial n g with
  | some v => g.noteW fi (64 + n.toNat) v false
  | none => g

/-- SWRITE (R90, R377). -/
def execSwrite (sa sel : BitVec 6) (p : Bool) (s : State) : Out :=
  issue (.swrite sa sel p) p
    (fun c => (Pre.unless (!swriteBarred sel) { cls := 0x04 }).andThen (preOf true (c.spoisoned sa)))
    (fun c s => modGang (gangRefOf c.r) (fun g => (c.writeSpecial sel (c.s sa) g).noteSpecial c.r.frag sel) s) s

/-- LEASE (R345). -/
def execLease (sa : BitVec 6) (p : Bool) (s : State) : Out :=
  issue (.lease sa p) p (fun c => preOf true (c.spoisoned sa))
    (fun c s => modGang (gangRefOf c.r) (fun g => ({ g with leaseDecl := (c.s sa).setWidth 16 } : Gang).noteSpecial c.r.frag 0x09#6) s) s

/-- The operations of the gang in flight: of its own paths, its copies, its joint instructions. -/
def Cur.flying (c : Cur) (s : State) : List Nat :=
  c.gang.ops.map (fun o => o.id)
    ++ ((coreOf c.grp.core s).copies.filter (fun o => o.grp == c.r.grp && o.gang == c.r.gang)).map (fun o => o.id)
    ++ (c.grp.matrix.queue.filter (fun o => c.gang.joints.any (fun j => j.1 == o.id))).map (fun o => o.id)

/-- The events that they have added to a counter so far (R281). -/
def Cur.counted (c : Cur) (n : Nat) (s : State) : Nat :=
  (s.caused.filter (fun e => (c.flying s).contains e.1 && e.2.1 == n)).foldl (fun k e => k + e.2.2) 0

/-- The most events of a code that they may still cause (log entry 19): of the memory's, 64 for an operation or a store, and those of every
L2 line for a CMO; 16 for each element of a copy, and its bytes; 2^20 for a joint instruction. -/
def Cur.toCome (c : Cur) (code : Nat) (s : State) : Nat :=
  let copies := (coreOf c.grp.core s).copies.filter (fun o => o.grp == c.r.grp && o.gang == c.r.gang)
  let joints := (c.grp.matrix.queue.filter (fun o => c.gang.joints.any (fun j => j.1 == o.id))).length
  if code = 0x40 then copies.foldl (fun k o => k + (o.boxes * 8)) 0 + 2 ^ 20 * joints
  else if code = 0x41 ∨ code = 0x42 then 2 ^ 20 * joints
  else if [0x04, 0x05, 0x10, 0x11, 0x12, 0x20, 0x21, 0x22, 0x30].contains code then
    64 * (c.gang.ops.length + c.gang.sbuf.length) + (if c.gang.ops.any (fun o => o.isCmo) then s.l2.length else 0)
      + copies.foldl (fun k o => k + 16 * o.boxes) 0 + 2 ^ 20 * joints
  else 0

/-- The value of a session counter (R279, R281): 0 to another context, and of fabric events in a virtual function; each event of the
reader's own instructions in flight, counted already or still to come, may or may not be in it, which is free. -/
def Cur.counterRead (c : Cur) (n : Nat) (s : State) : DWord :=
  let fn := ownerFn c.ctx s
  let ctl := (mreg fn 0x1B00 s).toNat
  let code := (mreg fn (0x1C00 + 8 * n) s).toNat % 65536
  if bits ctl 31 31 = 1 ∧ bits ctl 13 8 = c.ctx.toNat then
    (if fn ≠ 0 ∧ (code = 0x30 ∨ code = 0x31) then 0#64
     else
       let v := (mreg fn (0x1E00 + 8 * n) s).toNat
       let some' := fun (i most : Nat) => (Config.freeDWord (65536 * s.clock + 64 * i + n)).toNat % (most + 1)
       BitVec.ofNat 64 ((v + 2 ^ 48 - some' 0 (c.counted n s) + some' 1 (c.toCome code s)) % 2 ^ 48))
  else 0#64

/-- CTRRD (R315). -/
def execCtrrd (n sd : BitVec 6) (p : Bool) (s : State) : Out :=
  issue (.ctrrd n sd p) p (fun _ => .go)
    (fun c s => modGang (gangRefOf c.r) (fun g => g.setSBy c.r.frag sd (c.counterRead n.toNat s)) s) s

/-- SIGCHK (R268): a mismatch halts the gang; inside a handler it does nothing. -/
def execSigchk (sa : BitVec 6) (p : Bool) (s : State) : Out :=
  issue (.sigchk sa p) p (fun c => preOf true (c.spoisoned sa))
    (fun c s =>
      if c.frag.inHandler then s
      else
        let s1 := modFrag c.r (fun f => { f with sig := 0#32 }) s
        if c.frag.sig = (c.s sa).setWidth 32 then s1 else haltFault c c.frag.pc { cls := 0x0A } s1) s

/-- PROGRESS (R277, R358): a region begins; on a launch under trial its counter rises. -/
def execProgress (k : BitVec 3) (p : Bool) (s : State) : Out :=
  issue (.progress k p) p (fun _ => .go)
    (fun c s =>
      let s1 := beginRegion c.r s
      let r := 0x1B40 + 8 * k.toNat
      if onTrial c.lau.fn s = some c.grp.launch then
        setMreg c.lau.fn r (BitVec.ofNat 64 (((mreg c.lau.fn r s).toNat + 1) % 2 ^ 48)) s1
      else s1) s

/-- The record of a TRACE (R284). -/
def traceBytes (c : Cur) (tag : Nat) (v : DWord) (s : State) : List Byte :=
  toBytes 1 1 ++ toBytes 1 c.ctx.toNat ++ toBytes 1 tag ++ toBytes 1 0 ++ toBytes 2 c.grp.core ++ toBytes 1 c.r.frag
    ++ toBytes 1 (recOf c c.frag.pc { cls := 0 }).qdepth ++ toBytes 8 (cycleAt c.grp.core s).toNat
    ++ toBytes 8 c.lau.name.toNat ++ toBytes 4 c.grp.g ++ toBytes 1 c.r.gang ++ toBytes 1 0xFF ++ toBytes 2 0
    ++ toBytes 8 c.frag.pc.toNat ++ toBytes 4 c.frag.mask.toNat ++ toBytes 4 0 ++ toBytes 8 v.toNat ++ toBytes 8 0

/-- TRACE (R282, R381): a region begins; an open session that takes the queue's records gets one. -/
def execTrace (tag : BitVec 5) (sa : BitVec 6) (p : Bool) (s : State) : Out :=
  issue (.trace tag sa p) p (fun c => preOf true (c.spoisoned sa))
    (fun c s =>
      let s1 := beginRegion c.r s
      if (mreg c.lau.fn 0x1A10 s).getLsbD c.lau.queue then
        traceRecord c.lau.fn (traceBytes c tag.toNat (c.s sa) s) s1
      else s1) s

end Sys2Proof.Machine
end

