-- ==== Sys2Proof/Machine/System.lean ====
section
/-!
DEFINITION. The system rows (R160, R178, R306, R307, R351, R367, R382, R386) and the words that are no instruction
(R111, R112, R131).
-/
namespace Sys2Proof.Machine

/-- NOP (R351). -/
def execNop (p : Bool) (s : State) : Out := issue (.nop p) p (fun _ => .go) (fun _ s => s) s

/-- A path by its code (R158). -/
def pathOf (n : Nat) : Path := match n with | 0 => .g | 1 => .s | 2 => .k | 3 => .x | _ => .w

/-- The threshold of a WAIT (R160). -/
def waitLimit (fromS : Bool) (imm sa : BitVec 6) (c : Cur) : Nat :=
  if fromS then min 63 (c.s sa).toNat else imm.toNat

/-- The checks of a WAIT, and its wait (R160). -/
def waitPre (fromS : Bool) (imm sa : BitVec 6) (path : BitVec 3) (c : Cur) : Pre :=
  (preOf true (fromS && c.spoisoned sa)).andThen
    (if c.gang.counter (pathOf path.toNat) ≤ waitLimit fromS imm sa c then .go else .stall)

/-- WAIT (R160). -/
def execWait (fromS : Bool) (imm sa : BitVec 6) (path : BitVec 3) (p : Bool) (s : State) : Out :=
  issue (.wait fromS imm sa path p) p (waitPre fromS imm sa path)
    (fun c s => invalidated c s) s

/-- The barrier instance a BAR or CBAR joins is open for the other kind (R307). -/
def otherKind (cbar : Bool) (b : Nat) (c : Cur) (s : State) : Bool :=
  if cbar then
    (clusterOf c.r.grp s).any (fun k => match aget k s.groups with
      | some g => (g.bar b).arrived != 0#32 && !(g.bar b).cbar
      | none => false)
  else (c.grp.bar b).cbar

/-- Arrival at a barrier: a region begins, the fragment is held, and the instance may complete (R307). -/
def arriveBar (cbar : Bool) (b : Nat) (sd : BitVec 6) (c : Cur) (s : State) : State :=
  let s1 := beginRegion c.r (invalidated c s)
  let s2 := modFrag c.r (fun f => { f with hold := .bar b cbar sd }) s1
  let mark := fun (here : Bool) (g : Group) =>
    { g with barriers := g.barriers.modify b (fun x =>
        { x with arrived := if here then x.arrived ||| laneBit c.r.gang else x.arrived, cbar := cbar }) }
  let s3 := if cbar then (clusterOf c.r.grp s2).foldl (fun s k => modGroup k (mark (k == c.r.grp)) s) s2
    else modGroup c.r.grp (mark true) s2
  settleBarrier c.r.grp b s3

/-- BAR and CBAR (R306, R307): the release of R181 holds the arrival until the stores of the gang that act at its scope are performed
(R176). -/
def runBar (i : Instr) (cbar : Bool) (id : BitVec 4) (sd : BitVec 6) (p : Bool) (s : State) : Out :=
  issue i p
    (fun c => (Pre.unless (decide (id.toNat < c.lau.r.barriers)) (illop .operand)).andThen
      ((Pre.unless (decide (c.gang.frags.length ≤ 1) && !otherKind cbar id.toNat c s) { cls := 0x07 }).andThen
        (Pre.stallIf (c.gang.sbuf.any (fun e => e.acts c.r.grp (if cbar then 2 else 1)) || c.gang.logWaits))))
    (arriveBar cbar id.toNat sd) s

/-- BAR (R307). -/
def execBar (id : BitVec 4) (sd : BitVec 6) (p : Bool) : State → Out := runBar (.bar id sd p) false id sd p
/-- CBAR (R307). -/
def execCbar (id : BitVec 4) (sd : BitVec 6) (p : Bool) : State → Out := runBar (.cbar id sd p) true id sd p

/-- The fault detail of a software trap: TCAUSE[39:8], with the code in TCAUSE[39:32] (R240, R242). -/
def codeDetail (code : BitVec 6) : Word := (code.setWidth 32) <<< 24

/-- TRAP (R382). -/
def execTrap (code : BitVec 6) (p : Bool) (s : State) : Out :=
  issue (.trap code p) p (fun _ => .go)
    (fun c s =>
      if c.frag.inHandler then s
      else
        match c.handler with
        | some h => trapOrWait c h (((codeDetail code).setWidth 64) <<< 8 ||| 0x10#64) s
        | none => takeFaultAt c c.frag.pc (pcOf (c.frag.pc + 4#64)) { cls := 0x10, detail := codeDetail code } s) s

/-- BKPT (R382). -/
def execBkpt (code : BitVec 6) (p : Bool) (s : State) : Out :=
  issue (.bkpt code p) p (fun _ => .go)
    (fun c s => takeFaultAt c c.frag.pc (pcOf (c.frag.pc + 4#64)) { cls := 0x11, detail := codeDetail code } s) s

/-- RETT (R367). -/
def execRett (p : Bool) (s : State) : Out :=
  issue (.rett p) p (fun c => Pre.unless c.frag.inHandler (illop .operand))
    (fun c s => handlerFree (gangRefOf c.r)
      (modFrag c.r (fun f => { f with pc := pcOf c.gang.epc, inHandler := false }) s)) s

/-- YIELD (R386). -/
def execYield (p : Bool) (s : State) : Out :=
  issue (.yield p) p (fun _ => .go)
    (fun c s => yieldPlace c.grp.core (gangRefOf c.r) (modGang (gangRefOf c.r) (fun g => { g with yielded := some (cycleAt c.grp.core s).toNat }) s)) s

/-- FENCE (R176-R178): a logged atomic that still waits at the home is an earlier access too. -/
def execFence (kind : BitVec 2) (scope : BitVec 3) (p : Bool) (s : State) : Out :=
  issue (.fence kind scope p) p
    (fun c => if c.gang.logWaits || (kind.getLsbD 1 && c.gang.counter .w != 0) then .stall else .go)
    (fun c s => fenceAcq kind scope c (fenceRel kind scope c s)) s

/-- A word that is no instruction raises ILLOP before issue (R131). -/
def runIllop (k : Illop) (s : State) : Out :=
  match cur s with
  | none => .fault .noIssuer
  | some c => .next (takeFault c (illop k) s)

/-- The halfword 0 (R111, R131). -/
def execIllegalHalfword (s : State) : Out := runIllop .illegal s
/-- Major opcode 0x7E (R111, R131). -/
def execIllegal (_ : BitVec 23) (_ : Bool) (s : State) : Out := runIllop .illegal s
/-- A reserved major opcode (R131). -/
def execReservedMajorOpcode (_ : BitVec 32) (s : State) : Out := runIllop .reserved s
/-- An XP word misused (R112, R131). -/
def execXpPrefix (_ : BitVec 32) (s : State) : Out := runIllop .illegal s

end Sys2Proof.Machine
end

