-- ==== Sys2Proof/Machine/Stops.lean ====
section
/-!
DEFINITION. Debug stops: breakpoints and stop requests (R275, R276).
-/
namespace Sys2Proof.Machine

/-- A fragment waits at its next instruction: a WAIT, BWAIT or MWAIT whose wait is not over, and which no breakpoint stops before. -/
def waitsNow (c : Cur) (s : State) : Bool :=
  c.frag.ready && (bpHit c s).isNone && !c.frag.stopReq &&
    (match fetch c s with
     | .ok fr =>
       (match decode fr with
        | .ok (.wait fromS imm sa path _) => waitPre fromS imm sa path c == .stall
        | .ok (.bwait sa _) => bwaitPre sa c s == .stall
        | .ok (.mwait all tile _) => mwaitPre all tile c == .stall
        | _ => false)
     | _ => false)

/-- A fragment is to stop before its next instruction, or, where it waits, before the one after (R275); one that a fault or
a stop holds is not stopped again. -/
def stopFragment (s : State) (r : FragRef) : State :=
  match curOf r s with
  | none => s
  | some c =>
    match c.frag.hold with
    | .fault _ _ => s
    | _ => modFrag r (fun f => { f with stopReq := true, waitSkip := waitsNow c s }) s

/-- A stop request of one gang. -/
def stopGang (g : GangRef) (s : State) : State :=
  match gangOf g s with
  | none => s
  | some gg => (akeys gg.frags).foldl (fun s i => stopFragment s { grp := g.grp, gang := g.gang, frag := i }) s

/-- The record of a group HOLD (R276): GANG is 0xFF. A request names no path, and R276 states no value of what describes one. -/
def wholeRecord (l : Launch) (g : Group) (c : Option Cur) (kind detail : Nat) (s : State) : FRec :=
  let free := fun (i w : Nat) => (Config.freeDWord (2 ^ 122 + 4 * s.clock + i)).toNat % 2 ^ w
  let base : FRec :=
    match c with
    | some c => recOf c c.frag.pc { cls := 0x20, kind := kind, detail := BitVec.ofNat 32 detail }
    | none =>
      { cls := 0x20#8, kind := BitVec.ofNat 8 kind, ctx := l.ctx, access := 0#8, launch := l.name, grp := g.g,
        gang := 0xFF, split := free 0 8, qdepth := free 1 8, pc := BitVec.ofNat 64 (free 2 64),
        mask := BitVec.ofNat 32 (free 3 32), detail := BitVec.ofNat 32 detail, addr := 0#64 }
  { base with gang := 0xFF }

/-- A stop request of a resident group (R275). One whose suspension has begun is stopped when it comes back, unless that is a stop
itself. -/
def stopResident (k gang : Nat) (whole : Bool) (s : State) : State :=
  match aget k s.groups with
  | none => s
  | some g =>
    match aget g.launch s.launches with
    | none => s
    | some l =>
      if g.ended then s
      else if g.suspended then
        modGroup k (fun g => { g with susp := g.susp.map (fun x =>
          if x.debug != none then x else { x with stops := x.stops ++ [(g.g, gang, whole)] }) }) s
      else if whole then
        advanceSusp k (askSusp k { hold := true, tail := false, debug := some (wholeRecord l g none 2 0 s), base := none } s)
      else stopGang { grp := k, gang := gang } s

/-- The requests that waited for the groups of an admitted entry. -/
def applyStops (e : DEntry) (s : State) : State :=
  e.stops.foldl (fun s x =>
    match s.groups.find? (fun y => y.2.launch == e.launch && y.2.g == x.1) with
    | some (k, _) => stopResident k x.2.1 x.2.2 s
    | none => s) s

/-- A stop request: of a resident group, or of one that a dispatch entry names; of none, it has no effect (R275). -/
def stopRequest (fn : Nat) (val : BitVec 64) (s : State) : State :=
  let v := val.toNat
  match runningLaunch fn (bits v 21 16) s with
  | none => s
  | some (k, _) =>
    let g := bits v 63 32
    match s.groups.find? (fun e => e.2.launch == k && e.2.g == g) with
    | some (key, _) => stopResident key (bits v 4 0) (val.getLsbD 30) s
    | none =>
      { s with entries := s.entries.map (fun e =>
          if e.2.launch = k ∧ e.2.groups.contains g then
            (e.1, { e.2 with stops := e.2.stops ++ [(g, bits v 4 0, val.getLsbD 30)] })
          else e) }

/-- STOP_REQUEST: a write of STOPCTL (R273, R275). -/
def execStopRequest (fn : Nat) (val : BitVec 64) (s : State) : Out :=
  let s1 := setMreg fn 0x1920 (val &&& 0xFFFFFFFF403F001F#64) s
  evt (if val.getLsbD 31 then stopRequest fn val s1 else s1)

/-- One stopped fragment: held, with its record (R276). -/
def stopHere (c : Cur) (kind detail : Nat) (s : State) : State :=
  let (k, s1) := addToken
    { fn := ownerFn c.ctx s, debug := true, vectorC := false, kind := .frags, frags := [c.r], key := none,
      record := recOf c c.frag.pc { cls := 0x20, kind := kind, detail := BitVec.ofNat 32 detail }, written := false, live := true } s
  modFrag c.r (fun f => { f with stopReq := false, hold := .fault k c.frag.pc }) s1

/-- A breakpoint with WHOLE: a group HOLD, for which the fragment waits where the save pool has no room (R234). -/
def breakWhole (c : Cur) (n : Nat) (s : State) : Out :=
  let s1 := advanceSusp c.r.grp (askSusp c.r.grp
    { hold := true, tail := false, debug := some (wholeRecord c.lau c.grp (some c) 1 n s), base := none } s)
  match aget c.r.grp s1.groups with
  | some g => if g.suspended then evt s1 else .next { s1 with stalled := c.r :: s1.stalled }
  | none => evt s1

/-- BREAKPOINT_STOP (R275): a fragment has reached an enabled breakpoint, or a stop request its next boundary. -/
def execBreakpointStop (r : FragRef) (s : State) : Out :=
  match curOf r s with
  | none => evt s
  | some c =>
    if c.frag.ready then
      match bpHit c s with
      | some n =>
        if (mreg (ownerFn c.ctx s) (0x1940 + 8 * n) s).getLsbD 0 then breakWhole c n s else evt (stopHere c 1 n s)
      | none => if mustStop c s then evt (stopHere c 2 0 s) else evt s
    else evt s

end Sys2Proof.Machine
end

