-- ==== Sys2Proof/Machine/Admit.lean ====
section
/-!
DEFINITION. The cores of a function (R291), BANKCFG (R148, R149), resources and placement (R210-R214), and admission.
-/
namespace Sys2Proof.Machine

/-! Cores of a function (R291). -/

/-- A virtual function is enabled and partitioned. -/
def partitioned (n : Nat) (s : State) : Bool := vfOn n s && (mreg 0 (0x2000 + 32 * n) s).getLsbD 62

/-- The partitioned function that has a core's core cluster. -/
def partOwner (core : Nat) (s : State) : Option Nat :=
  ((List.range 16).map (· + 1)).find? (fun n => partitioned n s && (mreg 0 (0x2008 + 32 * n) s).getLsbD (core / 4))

/-- A core belongs to a function: a partitioned one's own clusters, the rest to the others. -/
def coreServes (fn core : Nat) (s : State) : Bool :=
  decide (core < 160) && (match partOwner core s with | some n => n == fn | none => fn == 0 || !partitioned fn s)

/-- The cores of a function, in their order. -/
def coresFor (fn : Nat) (s : State) : List Nat := (List.range 160).filter (fun c => coreServes fn c s)

/-- The function may have groups admitted now: its slice runs, no switch of slices is under way, the device does not go to
sleep, and dispatch is not frozen (R233, R269, R291, R297). -/
def admits (fn : Nat) (s : State) : Bool :=
  s.power == .d0 && !s.sleeping && !s.dispatchFrozen && running fn s && (!s.switching || partitioned fn s)

/-! BANKCFG (R148, R149). -/

/-- Banks that resident groups' scratch uses. -/
def bankInUse (core b : Nat) (s : State) : Bool :=
  s.groups.any (fun e => e.2.core == core && e.2.granules.any (fun x => x / 8 == b))

/-- The lines of a bank that leaves the cache are invalidated. They leave no victim tag (R149). -/
def dropBank (core b : Nat) (s : State) : State :=
  if (coreOf core s).l1.isEmpty then s else modCore core (fun k => { k with l1 := k.l1.filter (fun e => e.2.bank != b) }) s

/-- A write to BANKCFG.SCR (R149). Of a bank that becomes scratch capacity falls at once; it takes no line once the gangs that the fall
deactivates are inactive, and its lines go when the switch ends. A bit that differs for a bank still BUSY changes nothing (log entry 64). -/
def writeScr (core : Nat) (val : BitVec 16) (s : State) : State :=
  (List.range 16).foldl (fun s b =>
    let k := coreOf core s
    let bit := 1#16 <<< b
    if val.getLsbD b == k.scr.getLsbD b || k.busy.getLsbD b then s
    else if val.getLsbD b then modCore core (fun k => { k with scr := k.scr ||| bit, busy := k.busy ||| bit }) s
    else if bankInUse core b s then modCore core (fun k => { k with refused := k.refused ||| bit }) s
    else modCore core (fun k => { k with scr := k.scr &&& ~~~ bit, busy := k.busy ||| bit }) s) (modCore core (fun k => k) s)

/-- A write of the whole of BANKCFG (R148): writing 1 clears a REFUSED bit, then SCR is written. -/
def writeBankcfg (core : Nat) (val : DWord) (s : State) : State :=
  writeScr core (val.setWidth 16) (modCore core (fun k => { k with refused := k.refused &&& ~~~ (val >>> 32).setWidth 16 }) s)

/-- A driver's write to BANKCFG.SCR (R149). -/
def execBankcfgScrWrite (core : Nat) (val : BitVec 16) (s : State) : Out :=
  if core < 160 then evt (writeScr core val s) else evt s

/-- A switching bank can end its switch: one that leaves the cache only once no gang is left to deactivate (R149, R218). -/
def bankReady (core b : Nat) (s : State) : Bool :=
  (coreOf core s).busy.getLsbD b && (!(coreOf core s).scr.getLsbD b || (overflowGang core s).isNone)

/-- A switching bank has been invalidated and zeroed, or has joined the cache empty (R149). -/
def execBankSwitchDone (core : Nat) (bank : BitVec 4) (s : State) : Out :=
  if bankReady core bank.toNat s then
    evt (modCore core (fun k => { k with busy := k.busy &&& ~~~ (1#16 <<< bank.toNat) }) (dropBank core bank.toNat s))
  else evt s

/-! Resources (R210). -/

/-- The groups that hold resources of a core. -/
def groupsOn (core : Nat) (s : State) : List Group := (s.groups.filter (fun e => e.2.core == core)).map Prod.snd

/-- Granules of registers a gang takes (R104). -/
def LRec.granules (r : LRec) : Nat := (r.regs + 15) / 16

/-- Granules of scratch a group takes. -/
def LRec.scrGranules (r : LRec) : Nat := (r.scratch + 4095) / 4096

/-- The gangs placed on a core: partition, first granule, granules. A group that has ended holds none, and a gang that has
ended none once its stores have drained (R210, R318). -/
def placed (core : Nat) (s : State) : List (Nat × Nat × Nat) :=
  ((groupsOn core s).filter (fun g => !g.ended)).flatMap (fun g =>
    let n := match aget g.launch s.launches with | some l => l.r.granules | none => 7
    (g.gangs.filter (fun e => !e.2.vacated)).map (fun e => (e.2.partition, e.2.granule, n)))

/-- The lowest run of free granules of a partition. -/
def findRun (used : List (Nat × Nat × Nat)) (p n : Nat) : Option Nat :=
  (List.range (129 - n)).find? (fun a => used.all (fun u => u.1 != p || decide (a + n ≤ u.2.1) || decide (u.2.1 + u.2.2 ≤ a)))

/-- Free gang slots of a partition. -/
def freeSlots (used : List (Nat × Nat × Nat)) (p : Nat) : Nat := 16 - (used.filter (fun u => u.1 == p)).length

/-- Where the next gang goes (R211): the partition with the most free slots that holds a run, ties to the lowest. -/
def placeOne (off : BitVec 4) (n : Nat) (used : List (Nat × Nat × Nat)) : Option (Nat × Nat) :=
  let fit := (List.range 4).filterMap (fun p =>
    if off.getLsbD p || freeSlots used p == 0 then none else (findRun used p n).map (fun a => (p, a)))
  fit.find? (fun x => fit.all (fun y => decide (freeSlots used y.1 ≤ freeSlots used x.1)))

/-- Place gangs one after another (R211). -/
def placeGangs (off : BitVec 4) (n : Nat) : Nat → List (Nat × Nat × Nat) → Option (List (Nat × Nat))
  | 0, _ => some []
  | k + 1, used =>
    match placeOne off n used with
    | none => none
    | some (p, a) => (placeGangs off n k (used ++ [(p, a, n)])).map (fun t => (p, a) :: t)

/-- The free scratch granules of a core. -/
def freeScratch (core : Nat) (s : State) : List Nat :=
  let k := coreOf core s
  let used := (groupsOn core s).flatMap (fun g => g.granules)
  (List.range 128).filter (fun x =>
    k.scr.getLsbD (x / 8) && !k.busy.getLsbD (x / 8) && !k.bankOff.getLsbD (x / 8) && !used.contains x)

/-- Where a group of a launch fits on a core (R210): its gangs' places and its scratch granules. A group that has ended
takes its scratch alone (R145). -/
def fitOn (l : Launch) (core : Nat) (live : Bool) (s : State) : Option (List (Nat × Nat) × List Nat) :=
  let k := coreOf core s
  let here := (groupsOn core s).filter (fun g => !g.ended)
  let recs := here.filterMap (fun g => (aget g.launch s.launches).map (fun l => l.r))
  let scr := freeScratch core s
  if scr.length < l.r.scrGranules then none
  else if !live then some ([], scr.take l.r.scrGranules)
  else if 64 < recs.foldl (fun n r => n + r.barriers) 0 + l.r.barriers then none
  else if l.r.tiles ≠ 0 ∧ (k.engineOff ∨ recs.any (fun r => r.tiles != 0)) then none
  else (placeGangs k.partOff l.r.granules l.r.gangs (placed core s)).map (fun p => (p, scr.take l.r.scrGranules))

/-! Admission. -/

/-- A group starts on a core, every gang with an acquire (R184). -/
def startGroup (launch g core : Nat) (l : Launch) (places : List (Nat × Nat)) (granules : List Nat) (s : State) : State :=
  let (k, s1) := fresh s
  let s2 := { s1 with groups := aput k (Group.start l launch g core k (cycleAt core s1).toNat places granules) s1.groups }
  acquire core l.ctx 3 (modLaunch launch (fun l => { l with admitted := l.admitted ++ [g] }) (seatGroup k s2))

/-- The saved group of a launch with an index. -/
def savedOf (launch g : Nat) (s : State) : Option (Nat × Saved) :=
  s.saved.find? (fun e => e.2.group.launch == launch && e.2.group.g == g)

/-- One group of an entry comes to a core. -/
def enter (e : DEntry) (l : Launch) (s : State) (x : Nat × Nat × List (Nat × Nat) × List Nat) : State :=
  let (g, core, places, granules) := x
  if e.restore then
    match savedOf e.launch g s with
    | some (k, _) => let (n, s1) := fresh s; restoreGroup k core n places granules s1
    | none => s
  else startGroup e.launch g core l places granules s

/-- A member of an entry still runs: a saved group may have ended before (R145). -/
def memberLive (e : DEntry) (g : Nat) (s : State) : Bool :=
  if e.restore then (match savedOf e.launch g s with | some (_, x) => !x.group.ended | none => true) else true

/-- Distinct cores for the groups of a cluster, in rank order (R213). -/
def assign (e : DEntry) (l : Launch) (s : State) : List Nat → List Nat → Option (List (Nat × Nat × List (Nat × Nat) × List Nat))
  | [], _ => some []
  | g :: t, cores =>
    cores.findSome? (fun c =>
      match fitOn l c (memberLive e g s) s with
      | none => none
      | some (p, x) => (assign e l s t (cores.filter (fun d => d != c))).map (fun r => (g, c, p, x) :: r))

/-- A core may admit groups of a launch now: it belongs to the launch's function (R291), and the function is admitted. -/
def heeds (l : Launch) (core : Nat) (s : State) : Bool := admits l.fn s && coreServes l.fn core s

/-- Where an entry of a core's dispatch queue fits now. -/
def fitEntry (e : DEntry) (core : Nat) (s : State) : Option (List (Nat × Nat × List (Nat × Nat) × List Nat)) :=
  match aget e.launch s.launches with
  | none => none
  | some l =>
    if !heeds l core s then none
    else if l.r.cluster ≤ 1 then assign e l s e.groups [core]
    else assign e l s e.groups (coreCluster core)

/-- An entry's launch writes BANKCFG on a core before its first group is admitted there (R148). -/
def bankFirst (e : DEntry) (core : Nat) (s : State) : Bool :=
  match aget e.launch s.launches with
  | some l => l.r.flags / 2 % 2 == 1 && !l.banksDone.contains core && heeds l core s
  | none => false

/-- The cores an entry stands in the queue of. -/
def entryCores (e : DEntry) (core : Nat) : List Nat := if e.groups.length ≤ 1 then [core] else coreCluster core

/-- An entry leaves its queues. -/
def dropEntry (id : Nat) (s : State) : State :=
  { s with entries := aerase id s.entries,
           cores := s.cores.map (fun c => (c.1, { c.2 with dispatchQ := c.2.dispatchQ.filter (fun x => x != id) })) }

/-- What a core finds as it goes through its dispatch queue (R212): the entry to admit, or one whose launch must set
BANKCFG first, and the entries passed over. An entry refused as often as its launch allows is not passed over. -/
def examine (core : Nat) (s : State) : List Nat → List Nat → Option (Nat × List Nat)
  | [], _ => none
  | id :: t, passed =>
    match aget id s.entries with
    | none => examine core s t passed
    | some e =>
      if (entryCores e core).any (fun c => bankFirst e c s) || (fitEntry e core s).isSome then some (id, passed)
      else
        match aget e.launch s.launches with
        | some l => if l.r.agelimit ≤ e.refusals && heeds l core s then none
                    else examine core s t (if heeds l core s then passed ++ [id] else passed)
        | none => examine core s t passed

/-- A core admits the first entry of its dispatch queue that fits (R210-R213). -/
def admitStep (core : Nat) (s : State) : State :=
  match examine core s (coreOf core s).dispatchQ [] with
  | none => s
  | some (id, passed) =>
    match aget id s.entries with
    | none => s
    | some e =>
      match (entryCores e core).filter (fun c => bankFirst e c s), aget e.launch s.launches with
      | c :: cs, some l =>
        (c :: cs).foldl (fun s c => modLaunch e.launch (fun l => { l with banksDone := l.banksDone ++ [c] })
          (writeScr c l.r.bankscr s)) s
      | [], some l =>
        (match fitEntry e core s with
         | none => s
         | some xs =>
           let s1 := { s with entries := s.entries.map (fun d =>
             (d.1, if passed.contains d.1 then { d.2 with refusals := d.2.refusals + 1 } else d.2)) }
           applyStops e (xs.foldl (enter e l) (dropEntry id s1)))
      | _, none => dropEntry id s

/-- ADMIT_GROUP. -/
def execAdmitGroup (core : Nat) (s : State) : Out := evt (admitStep core s)

/-! A whole launch at once (R214). -/

/-- The state with a group's resources taken, for looking further. -/
def taking (launch g core : Nat) (l : Launch) (p : List (Nat × Nat)) (x : List Nat) (s : State) : State :=
  { s with groups := s.groups ++ [(2 ^ 64 + g, Group.start l launch g core 0 0 p x)] }

/-- How many groups of a launch a core can still take, counted up to 64 (R2, R210). -/
def roomOn (launch core : Nat) (l : Launch) : Nat → State → Nat
  | 0, _ => 0
  | n + 1, s =>
    match fitOn l core true s with
    | none => 0
    | some (p, x) => roomOn launch core l n (taking launch n core l p x s) + 1

/-- Of some cores of one core cluster, `n` distinct ones for a cluster of groups: those that can take most, since the groups of a launch
are alike. -/
def fullest (launch : Nat) (l : Launch) (s : State) : Nat → List Nat → Option (List Nat)
  | 0, _ => some []
  | n + 1, cs =>
    match cs.find? (fun c => roomOn launch c l 64 s != 0 && cs.all (fun d => decide (roomOn launch d l 64 s ≤ roomOn launch c l 64 s))) with
    | none => none
    | some c => (fullest launch l s n (cs.filter (fun d => d != c))).map (c :: ·)

/-- The groups of a unit on some cores, one after another. -/
def assignTo (launch : Nat) (l : Launch) : List (Nat × Nat) → State → Option (List (Nat × Nat × List (Nat × Nat) × List Nat) × State)
  | [], s => some ([], s)
  | (g, c) :: t, s =>
    match fitOn l c true s with
    | none => none
    | some (p, x) => (assignTo launch l t (taking launch g c l p x s)).map (fun r => ((g, c, p, x) :: r.1, r.2))

/-- Cores for a unit of a launch, a group or a cluster, from some cores: `home` names the core of a group where a log does (R227); else a
group takes the first core it fits, a cluster distinct cores of the first core cluster that has them. -/
def unitCores (launch : Nat) (l : Launch) (cores : List Nat) (home : Nat → Option Nat) (gs : List Nat) (s : State) : Option (List Nat) :=
  match gs.mapM home with
  | some cs => some cs
  | none =>
    if gs.length ≤ 1 then (cores.find? (fun c => (fitOn l c true s).isSome)).map (fun c => [c])
    else (List.range 40).findSome? (fun k => fullest launch l s gs.length ((coreCluster (4 * k)).filter (fun c => cores.contains c)))

/-- Cores for every unit of a launch, one after another. -/
def assignAll (launch : Nat) (l : Launch) (cores : List Nat) (home : Nat → Option Nat) : List (List Nat) → State →
    Option (List (Nat × Nat × List (Nat × Nat) × List Nat))
  | [], _ => some []
  | gs :: t, s =>
    match (unitCores launch l cores home gs s).bind (fun cs => assignTo launch l (List.zip gs cs) s) with
    | none => none
    | some (xs, s1) => (assignAll launch l cores home t s1).map (fun r => xs ++ r)

/-- Groups of a launch. -/
def LRec.count (r : LRec) : Nat := r.gx * r.gy * r.gz

/-- A co-operative launch (R207). -/
def LRec.coop (r : LRec) : Bool := r.flags % 2 == 1

/-- The units of a launch: its groups, or its clusters. -/
def LRec.units (r : LRec) : List (List Nat) :=
  (List.range (r.count / max r.cluster 1)).map (fun u => (List.range (max r.cluster 1)).map (fun i => u * max r.cluster 1 + i))

/-- The state with no group resident: every core idle under its present BANKCFG, or, where `own` says so, under the launch's own, which
the launch sets before its first group is admitted (R148, R214). -/
def idleCores (l : Launch) (own : Bool) (s : State) : State :=
  let s1 := { s with groups := [], saved := [], cores := s.cores.map (fun e => (e.1, { e.2 with busy := 0#16 })) }
  if own && l.r.flags / 2 % 2 == 1 then (coresFor l.fn s).foldl (fun s c => modCore c (fun k => { k with scr := l.r.bankscr }) s) s1 else s1

/-- The launch could run on idle cores (R214): a co-operative one whole, under their present BANKCFG, and any one of its groups or
clusters. Under which BANKCFG the second is looked at is log entry 47. -/
def couldFit (launch : Nat) (l : Launch) (s : State) : Bool :=
  let on := fun (own : Bool) (us : List (List Nat)) =>
    (assignAll launch l (coresFor l.fn s) (fun _ => none) us { idleCores l own s with launches := aput launch l s.launches }).isSome
  on true (l.r.units.take 1) && (!l.r.coop || (decide (l.r.count ≤ 160 * 64) && on false l.r.units))

end Sys2Proof.Machine
end

