-- ==== Sys2Proof/Machine/Loader.lean ====
section
/-!
DEFINITION. The Adxia object and its loader (R137-R141), and the frame owners the driver records (R153): what the world
outside gives the device by no register.
-/
namespace Sys2Proof.Machine

/-- A section of an object (R137). -/
structure Section where
  type : Nat
  logAlign : Nat
  off : Nat
  size : Nat
  deriving DecidableEq, Repr

/-- A section table entry is well formed: its reserved fields are 0 and its alignment is that of its type (R137). -/
def sectionOk (b : List Byte) : Bool :=
  let t := field b 0 2
  let a := field b 2 1
  decide (1 ≤ t) && decide (t ≤ 6) && field b 3 1 == 0 && field b 24 8 == 0
    && (t != 1 || a == 12) && (t != 2 || a == 6) && (t != 6 || decide (3 ≤ a))

/-- Read a section table entry. -/
def readSection (b : List Byte) : Section :=
  { type := field b 0 2, logAlign := field b 2 1, off := field b 8 8, size := field b 16 8 }

/-- No two ranges of a list meet. -/
def disjoint : List (Nat × Nat) → Bool
  | [] => true
  | (a, n) :: t => t.all (fun x => n == 0 || x.2 == 0 || decide (a + n ≤ x.1) || decide (x.1 + x.2 ≤ a)) && disjoint t

/-- The sections of a file whose header and section table the loader accepts (R137). It refuses every file in which a field does not
hold a value that R137 lists, also where R137 names no outcome: NSECT, FLAGS, TYPE, ALIGN, SECTOFF, FILESIZE (log entry 57). -/
def sections (b : List Byte) : Option (List Section) :=
  let n := field b 8 2
  let so := field b 16 8
  let size := field b 40 8
  let raw := (List.range n).map (fun i => b.drop (so + 32 * i))
  let ss := raw.map readSection
  let ok := field b 0 4 == 0x01584441 && field b 4 2 == 1 && field b 6 2 == 0 && decide (1 ≤ n) && decide (n ≤ 6)
    && field b 12 4 == 0 && so % 8 == 0 && field b 48 8 == 0 && field b 56 8 == 0 && size == b.length
    && raw.all sectionOk && decide (nodup (ss.map (fun s => s.type)) = ss.map (fun s => s.type))
    && ss.all (fun s => decide (s.off + s.size ≤ size)) && disjoint (ss.map (fun s => (s.off, s.size)))
  if ok then some ss else none

/-- The contents of the section of a type; none stands for an empty one. -/
def contents (b : List Byte) (ss : List Section) (t : Nat) : List Byte :=
  match ss.find? (fun s => s.type == t) with
  | some s => (b.drop s.off).take s.size
  | none => []

/-- A scratch window record of .meta (R58, R138). -/
def readWindow (b : List Byte) : Window :=
  { base := field b 0 8, size := field b 8 8, stride := field b 16 8, layout := field b 24 1, format := field b 25 1,
    esize := field b 26 1 }

/-- The element size that a FORMAT fixes, as ESIZE (R58). -/
def formatEsize : Nat → Option Nat
  | 1 => some 3
  | 2 => some 2
  | 3 => some 1
  | 4 => some 1
  | _ => none

/-- A window record the driver accepts (R58): codes of its tables that agree, no MEAN of raw elements, sizes of whole elements, and
zero in its reserved bytes. -/
def windowOk (b : List Byte) : Bool :=
  let w := readWindow b
  let e := 2 ^ w.esize
  decide (w.layout ≤ 2) && decide (w.format ≤ 4) && decide (w.esize ≤ 3) && !(w.layout == 2 && w.format == 0)
    && (match formatEsize w.format with | some x => w.esize == x | none => true)
    && w.base % e == 0 && w.size % e == 0 && w.stride % e == 0 && decide (w.size ≤ w.stride) && field b 27 5 == 0

/-- The window records that a kernel lists, as they lie in .meta after the kernel records and the kinds (R138). -/
def kernelWindows (md : List Byte) (nkern npool i : Nat) : List (List Byte) :=
  let k := md.drop (64 * i)
  (List.range (min (field k 9 1) 8)).map (fun j => (md.drop (64 * nkern + npool + 32 * field k (24 + 4 * j) 4)).take 32)

/-- The windows of a kernel the driver accepts (R58): whole records, each one accepted, whose first planes do not meet. -/
def windowsOk (ws : List (List Byte)) : Bool :=
  ws.all (fun b => b.length == 32 && windowOk b) && disjoint (ws.map (fun b => ((readWindow b).base, (readWindow b).size)))

/-- A kernel record (R138), with its handler from .trap (R139). -/
def readKernel (md trap : List Byte) (nkern npool i : Nat) : Kernel :=
  let k := md.drop (64 * i)
  let h := ((List.range (trap.length / 16)).map (fun j => trap.drop (16 * j))).find? (fun e => field e 0 4 == i)
  { triple := field k 4 1 == 1, regs := field k 5 1, gangs := field k 6 1, barriers := field k 7 1, cluster := field k 8 1,
    lease := field k 10 2, scratch := field k 12 4, entry := field k 16 8,
    layouts := (kernelWindows md nkern npool i).map readWindow,
    handler := h.map (fun e => field e 8 8) }

/-- A kernel record holds values of R138 and windows of R58. An object with another one is refused whole (log entry 57). -/
def kernelOk (md : List Byte) (nkern npool i : Nat) : Bool :=
  let k := md.drop (64 * i)
  decide (field k 4 1 ≤ 1) && decide (1 ≤ field k 5 1) && decide (field k 5 1 ≤ 112) && decide (1 ≤ field k 6 1)
    && decide (field k 6 1 ≤ 32) && decide (field k 7 1 ≤ 16) && decide (1 ≤ field k 8 1) && decide (field k 8 1 ≤ 4)
    && decide (field k 9 1 ≤ 8) && field k 56 8 == 0 && windowsOk (kernelWindows md nkern npool i)

/-- One relocation (R140): the dword at POOLOFF takes the address it names, plus its addend. -/
def relocate (data : Nat) (slots : Nat → Nat) (pool : Memory) (e : List Byte) : Memory :=
  let o := field e 0 4
  let v := field e 8 8
  let base := if field e 4 1 = 1 then data + v else slots v
  putCells (place o (toBytes 8 ((base + getNum pool o 8) % 2 ^ 64))) pool

/-- A relocation entry the loader accepts (R140): one with another KIND, POOLOFF or slot has the object refused (log entry 57). -/
def relocOk (poolSize : Nat) (e : List Byte) : Bool :=
  field e 0 4 % 8 == 0 && decide (field e 0 4 + 8 ≤ poolSize) && (field e 4 1 == 1 || field e 4 1 == 2) && field e 5 3 == 0
    && (field e 4 1 == 1 || decide (field e 8 8 < 64))

/-- A SHAPE record the loader accepts (R141). -/
def shapeOk (m : Memory) (a : Nat) : Bool :=
  let f := getNum m (a + 16) 1
  let fl := getNum m (a + 19) 1
  let p := getNum m (a + 17) 1
  let d := getNum m (a + 18) 1
  decide (f ≤ 9) && decide (p ≤ 1) && decide (1 ≤ d) && decide (d ≤ 5) && decide (fl < 32) && decide (bits fl 3 1 ≤ 5)
    && getNum m (a + 22) 2 == 0 && (p == 0 || getNum m (a + 24) 4 != 0)
    && (List.range 5).all (fun k => getNum m (a + 28 + 3 * k) 3 != 0)
    && (List.range 5).all (fun k => decide (k < d) || (getNum m (a + 28 + 3 * k) 3 == 1 && getNum m (a + 43 + k) 1 == 0
        && (k == 0 || getNum m (a + 44 + 4 * k) 4 == 0)))
    && !(fl.testBit 4 && (f == 3 || f == 4 || f == 5 || f == 6 || f == 9))

/-- An address the loader may place a section at (R137): a multiple of its load alignment, and nothing of it past virtual address 2^57,
where the model refuses the object (log entry 57). -/
def placedOk (ss : List Section) (type va : Nat) : Bool :=
  match ss.find? (fun s => s.type == type) with
  | some s => va % 2 ^ s.logAlign == 0 && decide (va + s.size ≤ 2 ^ 57)
  | none => true

/-- What the loader makes of a file: the object, and the bytes it places at virtual addresses of the context. -/
structure Loaded where
  obj : Obj
  placed : List (Nat × List Byte)
  deriving DecidableEq, Repr

/-- The loader (R137-R141): an object of a context, from its file, where its .text, .data and .pool are placed, and the driver's
binding slots. Nothing of a refused file is loaded. The kinds are those of the whole 64-byte records of .pool; a .trap entry of a kernel
that the file has not, and trailing bytes of .trap or .reloc that fill no entry, are passed over (log entry 57). -/
def loadObject (ctx : BitVec 6) (file : List Byte) (text data poolAt : Nat) (slots : Nat → Nat) : Option Loaded :=
  match sections file with
  | none => none
  | some ss =>
    let nk := field file 10 2
    let pool := contents file ss 2
    let md := contents file ss 3
    let reloc := contents file ss 4
    let trap := contents file ss 5
    let es := (List.range (reloc.length / 16)).map (fun i => reloc.drop (16 * i))
    let np := pool.length / 64
    let m := es.foldl (relocate data slots) (putCells (place 0 pool) [])
    let kinds := (List.range np).map (fun i => field md (64 * nk + i) 1)
    let offs := es.map (fun e => field e 0 4)
    let traps := (List.range (trap.length / 16)).map (fun j => trap.drop (16 * j))
    let owners := traps.map (fun e => field e 0 4)
    if placedOk ss 1 text && placedOk ss 6 data && placedOk ss 2 poolAt && decide (64 * nk + np ≤ md.length)
        && es.all (relocOk pool.length) && decide (nodup offs = offs) && decide (nodup owners = owners)
        && traps.all (fun e => field e 4 4 == 0)
        && (List.range nk).all (kernelOk md nk np) && kinds.all (fun k => decide (k ≤ 1))
        && (List.range np).all (fun i => kinds.getD i 0 == 0 || shapeOk m (64 * i)) then
      some {
        obj := { ctx := ctx, text := text, pool := m, poolAt := poolAt, poolSize := pool.length, kinds := kinds,
                 kernels := (List.range nk).map (readKernel md trap nk np) }
        placed := [(text, contents file ss 1), (data, contents file ss 6), (poolAt, getBytes m 0 pool.length)] }
    else none

/-- The loader writes a byte where the context's tables map its address; where they map nothing it writes nothing. -/
def loadByteAt (ctx : BitVec 6) (va : Nat) (b : Byte) (s : State) : State :=
  match walk ctx va s with
  | .ok t => putPhys (t.phys va) [b] s
  | _ => s

/-- The driver has an object loaded: its sections lie in memory, and its handle names it from then on. -/
def State.withObject (s : State) (handle : Nat) (x : Loaded) : State :=
  let s1 := x.placed.foldl (fun s p => p.2.zipIdx.foldl (fun s e => loadByteAt x.obj.ctx (p.1 + e.2) e.1 s) s) s
  { s1 with objects := aput handle x.obj s1.objects }

/-- The driver records the owner of a 64 KiB frame (R153). -/
def State.withOwner (s : State) (frame : Nat) (ctx : BitVec 6) : State := { s with owners := sput frame ctx s.owners }

end Sys2Proof.Machine
end

