-- ==== Sys2Proof/Machine/Ringmaster.lean ====
section
/-!
DEFINITION. Queues and launch records (R205-R208, R226), dispatch (R209, R214, R221, R224-R227) and the end of a launch (R206).
-/
namespace Sys2Proof.Machine

/-- DEVSTAT.READY (R296). -/
def deviceReady (s : State) : Bool := (mreg 0 0x2420 s).getLsbD 0

/-- Where a queue's registers lie (R205). -/
def queueAt (q : Nat) : Nat := 0x1000 + 32 * q

/-- A queue is disabled; records of it no longer end at once (R205, R403). -/
def disableQueue (fn q : Nat) (s : State) : State :=
  let s1 := setMreg fn (queueAt q + 8) (mreg fn (queueAt q + 8) s &&& ~~~ 0x80000000#64) s
  { s1 with endedQueues := s1.endedQueues.filter (fun e => e != (fn, q)) }

/-- The records of a queue's ring. -/
def queueSize (fn q : Nat) (s : State) : Nat := 2 ^ min ((mreg fn (queueAt q + 8) s).toNat % 32) 16

/-- A TAIL out of range disables its queue (R205). -/
def checkTail (fn q : Nat) (s : State) : State :=
  let head := (mreg fn (queueAt q + 16) s).toNat
  let tail := (mreg fn (queueAt q + 24) s).toNat
  if tail < head ∨ head + queueSize fn q s < tail then disableQueue fn q s else s

/-- A write of a queue's TAIL, the doorbell (R205). -/
def ringDoorbell (fn q : Nat) (val : DWord) (s : State) : State :=
  if !deviceReady s then s else checkTail fn q (setMreg fn (queueAt q + 24) val s)

/-- QTAIL_DOORBELL. -/
def execQtailDoorbell (fn q : Nat) (val : BitVec 64) (s : State) : Out :=
  if fn ≤ 16 ∧ q < 64 then evt (ringDoorbell fn q val s) else evt s

/-! Completion records (R206). -/

/-- Write a completion record, or leave a fault record whose token writes it again. A record whose place lies in the pool takes PERM like any
other write there: R140 speaks of kernels alone (log entry 72). -/
def writeCompletion (key : Nat) (c : Completion) (s : State) : State :=
  if c.addr = 0 then s
  else
    let s := mendTables c.ctx c.addr 1 .wr s
    let r : Res := if c.addr < 2 ^ 57 then resolveVa c.ctx c.addr .wr 0 s else .bad (permAt .wr c.addr)
    let fail := fun (f : FReq) =>
      let rec' : FRec :=
        { cls := BitVec.ofNat 8 f.cls, kind := BitVec.ofNat 8 f.kind, ctx := c.ctx, access := 0x22#8,
          launch := BitVec.ofNat 64 (c.queue % 64 * 2 ^ 58 + c.recno % 2 ^ 58), grp := 0, gang := 0, split := 0, qdepth := 0,
          pc := 0#64, mask := 0#32, detail := 0#32, addr := BitVec.ofNat 64 c.addr }
      (addToken { fn := c.fn, debug := false, vectorC := false, kind := .completion key, frags := [], key := none, record := rec',
                  written := false, live := true } { s with completions := aput key c s.completions }).2
    match r with
    | .at p =>
      let s1 := tlbTouch c.ctx c.addr s
      putPhys p.key (toBytes 8 c.val.toNat ++ toBytes 2 c.status ++ toBytes 2 c.detail ++ zeros 4) s1
    | .bad f => fail f
    | _ => fail (permAt .wr c.addr)

/-- Complete a record. -/
def complete (c : Completion) (s : State) : State :=
  let (k, s1) := fresh s
  writeCompletion k c s1

/-! Launch records (R207, R208). -/

/-- The 128 bytes of a record as fields. -/
def parseRecord (b : List Byte) : LRec :=
  { object := field b 0 8, kernel := field b 8 4, mode := field b 12 1, regs := field b 13 1, gangs := field b 14 1,
    barriers := field b 15 1, bx := field b 16 2, b_y := field b 18 2, bz := field b 20 2, cluster := field b 22 1,
    tiles := field b 23 1, gx := field b 24 4, gy := field b 28 4, gz := field b 32 4, scratch := field b 36 4,
    seed := BitVec.ofNat 64 (field b 40 8), args := BitVec.ofNat 64 (field b 48 8), pbase := field b 56 8, psize := field b 64 4,
    lease := field b 68 2, order := field b 70 1, flags := field b 71 1, agelimit := field b 72 2,
    bankscr := BitVec.ofNat 16 (field b 74 2), quantum := field b 76 4, logbase := field b 80 8, logsize := field b 88 8,
    completion := field b 96 8, compval := BitVec.ofNat 64 (field b 104 8) }

/-- The checks of R208 with the offset each names, 8 apart from the log's own, as (check, offset) of those that fail. -/
def recordFaults (b : List Byte) (r : LRec) (k : Option Kernel) : List (Nat × Nat) :=
  let t := r.mode == 1
  let n := r.threads
  let bad := fun (c : Bool) (x : Nat × Nat) => if c then [x] else []
  (List.range 16).flatMap (fun i => bad (field b (112 + i) 1 != 0) (1, 112 + i))
    ++ bad (decide (1 < r.mode)) (1, 12) ++ bad (decide (4 < r.order)) (1, 70) ++ bad (decide (3 < r.flags)) (1, 71)
    ++ (match k with
        | none => [(2, 0)]
        | some k =>
          bad ((if k.triple then 1 else 0) != r.mode) (2, 12) ++ bad (k.regs != r.regs) (2, 13) ++ bad (k.gangs != r.gangs) (2, 14)
            ++ bad (k.barriers != r.barriers) (2, 15) ++ bad (k.cluster != r.cluster) (2, 22) ++ bad (k.scratch != r.scratch) (2, 36))
    ++ bad (r.regs == 0 || decide (112 < r.regs)) (3, 13)
    ++ bad (r.bx == 0) (4, 16) ++ bad (r.b_y == 0) (4, 18) ++ bad (r.bz == 0) (4, 20)
    ++ bad (decide ((if t then 256 else 1024) < n)) (4, 16)
    ++ bad (r.gangs != (if t then (n + 7) / 8 else (n + 31) / 32)) (4, 14)
    ++ bad (r.gx == 0) (5, 24) ++ bad (r.gy == 0) (5, 28) ++ bad (r.gz == 0) (5, 32) ++ bad (decide (2 ^ 32 < r.count)) (5, 24)
    ++ bad (r.cluster == 0 || r.count % r.cluster != 0) (5, 22)
    ++ bad (decide (8 < r.tiles) || (t && r.tiles % 4 != 0)) (6, 23)
    ++ bad (r.agelimit == 0) (7, 72) ++ bad (r.order == 2 && r.quantum == 0) (7, 76)
    ++ bad ((r.order == 3 || r.order == 4) && r.logbase % 64 != 0) (8, 80)
    ++ bad ((r.order == 3 || r.order == 4) && decide (r.logsize < 64)) (8, 88)
    ++ bad (r.pbase % 16 != 0) (9, 56) ++ bad (r.psize % 16 != 0) (9, 64) ++ bad (r.completion % 16 != 0) (9, 96)

/-- The log of a BOUND launch passes R226. -/
def logOk (l : Launch) (s : State) : Bool :=
  logGet l 0 4 s == 0x01474F4C && logGet l 4 4 s % 2 == 0 && decide (64 + 32 * logCount l s ≤ l.r.logsize)
    && logGet l 24 4 s == l.r.gx && logGet l 28 4 s == l.r.gy && logGet l 32 4 s == l.r.gz && logGet l 36 4 s == l.r.scratch
    && (List.range (logCount l s)).all (fun i =>
      logGet l (64 + 32 * i) 1 s != 1 || decide (logGet l (65 + 32 * i) 1 s < (coresFor l.fn s).length))

/-- The least of the failing checks: the first check's lowest offset. -/
def firstFault (l : List (Nat × Nat)) : Option Nat :=
  (l.find? (fun x => l.all (fun y => decide (x.1 < y.1) || (x.1 == y.1 && decide (x.2 ≤ y.2))))).map Prod.snd

/-- Bytes the Ringmaster reads; a poisoned word's are unpredictable (R262). -/
def seenBytes (a n : Nat) (s : State) : List Byte :=
  (List.range n).map (fun i =>
    if sget ((a + i) / 8) s.poison == 1#1 then Config.freeByte (2 ^ 140 * (s.clock + 1) + a + i) else sget (a + i) s.mem)

/-- The bytes of a launch record: one that the driver has overwritten before it was taken is unpredictable (R11, R205, log entry 65). -/
def recordBytes (fn q n a : Nat) (s : State) : List Byte :=
  if s.overwritten.contains (fn, q, n) then (List.range 128).map (fun i => Config.freeByte (2 ^ 142 * (s.clock + 1) + 128 * n + i))
  else seenBytes a 128 s

/-- The record that stands in a slot of a queue's ring and has not been taken. -/
def slotRecord (fn q slot : Nat) (s : State) : Option Nat :=
  let head := (mreg fn (queueAt q + 16) s).toNat
  let size := queueSize fn q s
  let n := head + (slot + size - head % size) % size
  if n < (mreg fn (queueAt q + 24) s).toNat then some n else none

/-- A write from outside meets records of a queue that have not been taken. -/
def meetQueue (a n : Nat) (s : State) (x : Nat × Nat) : State :=
  let base := drv (mreg x.1 (queueAt x.2) s).toNat
  let first := a / 128
  let slots := ((List.range ((a + n + 127) / 128 - first)).map (fun i => 128 * (first + i))).filter (fun p =>
    decide (base ≤ p) && decide (p < base + 128 * queueSize x.1 x.2 s))
  { s with overwritten := s.overwritten ++ ((slots.filterMap (fun p => slotRecord x.1 x.2 ((p - base) / 128) s)).map (fun m =>
      (x.1, x.2, m))).filter (fun e => !s.overwritten.contains e) }

/-- A write from outside meets save areas in use (R235): a debugger may write that of a group its token holds. -/
def meetSaved (a n : Nat) (s : State) : State :=
  { s with saved := s.saved.map (fun e =>
      let b := drv e.2.base
      if a < b + e.2.size ∧ b < a + n ∧ !(e.2.hold && e.2.token.isSome) then (e.1, { e.2 with spoiled := true }) else e) }

/-- The enabled queues, found in the registers that are not zero. -/
def enabledQueues (s : State) : List (Nat × Nat) :=
  s.mmio.filterMap (fun e =>
    let off := e.1 % 65536
    if 0x1000 ≤ off ∧ off < 0x1800 ∧ off % 32 = 8 ∧ e.2.getLsbD 31 then some (e.1 / 65536, (off - 0x1000) / 32) else none)

/-- What a write of `n` bytes from outside spoils: launch records not yet taken, those of queues disabled with their HEAD kept among
them (R270), and save areas in use. -/
def outsideMeets (a n : Nat) (s : State) : State :=
  (enabledQueues s ++ s.keptHeads.filter (fun q => !(enabledQueues s).contains q)).foldl (meetQueue a n) (meetSaved a n s)

/-- A queue has a record to take (R205, R206, R265, R269). -/
def queueTakes (fn q : Nat) (s : State) : Bool :=
  let ctl := (mreg fn (queueAt q + 8) s).toNat
  let ctx := BitVec.ofNat 6 (bits ctl 13 8)
  bits ctl 31 31 == 1 && ctx != 0#6 && ownerFn ctx s == fn && (fn == 0 || vfOn fn s)
    && decide ((mreg fn (queueAt q + 16) s).toNat < (mreg fn (queueAt q + 24) s).toNat) && (runningLaunch fn q s).isNone
    && !s.resetting.contains (fn, q) && deviceReady s && !s.dispatchFrozen && s.power == .d0 && decide (s.retired.length < 8191)

/-- The launch a record stands for. It keeps its own copy of the pool, which SLD.POOL and the SHAPE reads take: what is written later from
outside to the place of the pool is not seen by them (log entry 72). -/
def launchOf (fn q head : Nat) (ctx : BitVec 6) (r : LRec) (o : Obj) (k : Kernel) : Launch :=
  { fn := fn, queue := q, recno := head, ctx := ctx, r := r, kern := k, text := o.text, pool := o.pool, poolSize := o.poolSize,
    kinds := o.kinds, dispatched := [], admitted := [], ended := [], status := 0, stopped := false, ndisp := 0, ngrant := 0,
    trunc := false, coreSeq := [], addrSeq := [], consumed := [], banksDone := [] }

/-- The Ringmaster takes the next record of a queue: it starts the launch, refuses it, or ends it at once where its context
has ended (R208, R214, R403). -/
def takeRecord (fn q : Nat) (s : State) : State :=
  let head := (mreg fn (queueAt q + 16) s).toNat
  let ctx := BitVec.ofNat 6 (bits (mreg fn (queueAt q + 8) s).toNat 13 8)
  let a := drv ((mreg fn (queueAt q) s).toNat + 128 * (head % queueSize fn q s))
  match badLine a 128 s with
  | some ln => memoryError 0#64 ln s
  | none =>
    let b := recordBytes fn q head a s
    let r := parseRecord b
    let s0 := { s with overwritten := s.overwritten.filter (fun e => e != (fn, q, head)) }
    let s1 := setMreg fn (queueAt q + 16) (BitVec.ofNat 64 (head + 1)) (readLines a 128 s0)
    let done := fun (st detail : Nat) (s : State) => complete
      { fn := fn, queue := q, recno := head, ctx := ctx, addr := r.completion, val := r.compval, status := st, detail := detail } s
    if s.endedQueues.contains (fn, q) then done 3 0 s1
    else
      let o := match aget r.object s.objects with | some o => if o.ctx = ctx then some o else none | none => none
      match o, o.bind (fun o => o.kernels[r.kernel]?) with
      | some o, some k =>
        let l := launchOf fn q head ctx r o k
        let log := if r.order = 4 ∧ !logOk l s then [(8, 80)] else []
        let s1 := if r.order = 4 then readLog l s1 else s1
        (match firstFault (recordFaults b r (some k) ++ log) with
         | some d => done 1 d s1
         | none =>
           let (key, s2) := fresh s1
           let l1 := if couldFit key l s2 then l else { l with status := 2, stopped := true }
           let s3 := { s2 with launches := aput key l1 s2.launches }
           if r.order = 3 ∧ l1.status = 0 then logPut l 0 (logHeader l) s3 else s3)
      | _, _ => done 1 ((firstFault (recordFaults b r none)).getD 0) s1

/-- TAKE_LAUNCH_RECORD. -/
def execTakeLaunchRecord (fn q : Nat) (s : State) : Out :=
  if queueTakes fn q s then evt (takeRecord fn q s) else evt s

/-! The end of a launch (R206). -/

/-- Every group of a launch has ended, or it has been stopped and nothing of it is left. -/
def launchOver (k : Nat) (s : State) : Bool :=
  match aget k s.launches with
  | none => false
  | some l =>
    (l.stopped || decide (l.ended.length = l.r.count))
      && s.groups.all (fun e => e.2.launch != k || e.2.ended) && s.saved.all (fun e => e.2.group.launch != k)

/-- Records of a BOUND launch's log that nothing has consumed (R227). -/
def logLeft (l : Launch) (s : State) : Bool :=
  (List.range (logCount l s)).any (fun i =>
    (logGet l (64 + 32 * i) 1 s == 2 && !l.consumed.contains i)
      || (logGet l (64 + 32 * i) 1 s == 1 && !l.dispatched.contains (logGet l (68 + 32 * i) 4 s)))

/-- The status a launch ends with (R206). -/
def endStatus (l : Launch) (s : State) : Nat :=
  if l.status ≠ 0 then l.status
  else if l.r.order = 4 ∧ logLeft l s then 4
  else if l.r.order = 3 ∧ l.trunc then 5
  else 0

/-- A launch leaves the device with its completion record. -/
def finishLaunch (launch : Nat) (l : Launch) (s : State) : State :=
  let s1 := { s with launches := aerase launch s.launches, groups := s.groups.filter (fun e => e.2.launch != launch),
                     entries := s.entries.filter (fun e => e.2.launch != launch) }
  complete { fn := l.fn, queue := l.queue, recno := l.recno, ctx := l.ctx, addr := l.r.completion, val := l.r.compval,
             status := endStatus l s, detail := 0 } (if l.r.order = 4 then readLog l s1 else s1)

/-- The Ringmaster can complete launches. -/
def completing (s : State) : Bool := !s.dispatchFrozen && (s.power == .d0 || s.power == .tripped)

/-- A completion record that no live token stands for: its retry waited for the end of a dispatch freeze (R206, R269). -/
def retried (key : Nat) (s : State) : Option Completion :=
  if s.tokens.any (fun e => e.2.live && e.2.kind == .completion key) then none else aget key s.completions

/-- LAUNCH_COMPLETION: of a launch, or of a record written again. -/
def execLaunchCompletion (launch : Nat) (s : State) : Out :=
  match aget launch s.launches with
  | none =>
    (match retried launch s with
     | some c => if completing s then evt (writeCompletion launch c { s with completions := aerase launch s.completions }) else evt s
     | none => evt s)
  | some l => if launchOver launch s && completing s then evt (finishLaunch launch l s) else evt s

/-! Dispatch (R209). -/

/-- The entries a core's dispatch queue holds: those of a function whose slice is over stand aside until its next turn (R209, R233). -/
def entriesOn (core : Nat) (s : State) : Nat :=
  ((coreOf core s).dispatchQ.filter (fun id =>
    match aget id s.entries with | some e => running (fnOf e.launch s) s | none => false)).length

/-- A cluster's number of groups. -/
def LRec.unit (r : LRec) : Nat := max r.cluster 1

/-- The cluster, or single group, of the grid with the lowest index not yet dispatched that a test admits. -/
def nextUnit (l : Launch) (p : Nat → Bool) : Option Nat :=
  (List.range (l.r.count / l.r.unit)).find? (fun u => !l.dispatched.contains (u * l.r.unit) && p u)

/-- The recorded dispatches of a BOUND launch's log: core index, group, SEQ (R225). -/
def logDispatches (l : Launch) (s : State) : List (Nat × Nat × Nat) :=
  (List.range (logCount l s)).filterMap (fun i =>
    let o := 64 + 32 * i
    if logGet l o 1 s = 1 then some (logGet l (o + 1) 1 s, logGet l (o + 4) 4 s, logGet l (o + 8) 8 s) else none)

/-- The index of a core in its function's list (R225). -/
def coreIndex (fn core : Nat) (s : State) : Nat := ((coresFor fn s).takeWhile (fun c => c != core)).length

/-- The next first dispatch of a launch to a core, as its order mode has it (R209, R221, R227). -/
def nextFor (l : Launch) (core : Nat) (s : State) : Option Nat :=
  match l.r.order with
  | 1 => (nextUnit l (fun _ => true)).filter (fun u => (List.range (u * l.r.unit)).all (fun g => l.admitted.contains g))
  | 4 =>
    let ds := logDispatches l s
    let open_ := ds.filter (fun d => !l.dispatched.contains d.2.1 && decide (d.2.1 < l.r.count))
    let mine := open_.filter (fun d => d.1 == coreIndex l.fn core s)
    (match mine.find? (fun d => mine.all (fun e => decide (d.2.2 ≤ e.2.2))) with
     | some d => some (d.2.1 / l.r.unit)
     | none => if open_.isEmpty then nextUnit l (fun _ => true) else none)
  | _ => nextUnit l (fun _ => true)

/-- The groups of a unit. -/
def unitGroups (l : Launch) (u : Nat) : List Nat := (List.range l.r.unit).map (fun i => u * l.r.unit + i)

/-- Note a first dispatch, with its record under RECORD (R224). -/
def noteDispatch (k core : Nat) (s : State) (g : Nat) : State :=
  match aget k s.launches with
  | none => s
  | some l =>
    let s1 := modLaunch k (fun l => { l with dispatched := l.dispatched ++ [g] }) s
    if l.r.order = 3 then logDispatch k (coreIndex l.fn core s) g s1 else if l.r.order = 4 then readLog l s1 else s1

/-- The launch can dispatch more groups: its function may have groups admitted. -/
def dispatching (l : Launch) (s : State) : Bool := !l.stopped && decide (l.dispatched.length < l.r.count) && admits l.fn s

/-- A co-operative launch: every group at once, where all fit (R214). -/
def dispatchAll (k : Nat) (l : Launch) (s : State) : State :=
  let cores := coresFor l.fn s
  let unset := if l.r.flags / 2 % 2 = 1 then cores.filter (fun c => !l.banksDone.contains c) else []
  if !admits l.fn s then s
  else if !unset.isEmpty then
    unset.foldl (fun s c => writeScr c l.r.bankscr s) (modLaunch k (fun l => { l with banksDone := l.banksDone ++ unset }) s)
  else
    let ds := if l.r.order = 4 then logDispatches l s else []
    let home := fun (g : Nat) => (ds.find? (fun d => d.2.1 == g)).map (fun d => cores.getD d.1 0)
    match assignAll k l cores home l.r.units s with
    | none => s
    | some xs => xs.foldl (fun s x => startGroup k x.1 x.2.1 l x.2.2.1 x.2.2.2 (noteDispatch k x.2.1 s x.1)) s

/-- A launch's next entry goes to a core's dispatch queue while it holds fewer than 4 (R209, R213). -/
def dispatchTo (k core : Nat) (l : Launch) (s : State) : State :=
  match nextFor l core s with
  | none => s
  | some u =>
    let gs := unitGroups l u
    let cs := if l.r.unit = 1 then [core] else coreCluster core
    if cs.all (fun c => coreServes l.fn c s && decide (entriesOn c s < 4)) then
      let (id, s1) := fresh (gs.foldl (noteDispatch k core) s)
      cs.foldl (fun s c => modCore c (fun x => { x with dispatchQ := x.dispatchQ ++ [id] }) s)
        { s1 with entries := aput id { launch := k, groups := gs, refusals := 0, restore := false, stops := [] } s1.entries }
    else s

/-! Entries that move (R230, R291). -/

/-- The cores whose dispatch queues hold an entry. -/
def queueCores (id : Nat) (s : State) : List Nat := (s.cores.filter (fun e => e.2.dispatchQ.contains id)).map Prod.fst

/-- An entry stands in the queue of a core that its function has lost to a partitioned one (R291). -/
def stranded (id : Nat) (e : DEntry) (s : State) : Bool :=
  (queueCores id s).any (fun c => !coreServes (fnOf e.launch s) c s)

/-- The Ringmaster may move an entry to the dispatch queue of a core, or those of its core cluster (R230, log entry 70): one that has been
suspended, or that is stranded. -/
def mayMove (id : Nat) (e : DEntry) (core : Nat) (s : State) : Bool :=
  let cores := entryCores e core
  (e.restore || stranded id e s) && !s.dispatchFrozen && s.power == .d0
    && cores.all (fun c => coreServes (fnOf e.launch s) c s && !(queueCores id s).contains c)
    && (cores.length ≤ 1 || core % 4 == 0)

/-- The moves the Ringmaster may make, and whether it must (R291). -/
def entryMoves (s : State) : List (Nat × Nat × Bool) :=
  s.entries.flatMap (fun e => ((List.range 160).filter (fun c => mayMove e.1 e.2 c s)).map (fun c => (e.1, c, stranded e.1 e.2 s)))

/-- An entry goes to the head of another core's dispatch queue (R230). -/
def moveEntry (id core : Nat) (s : State) : Out :=
  match aget id s.entries with
  | some e =>
    if mayMove id e core s then
      evt ((entryCores e core).foldl (fun s c => modCore c (fun k => { k with dispatchQ := id :: k.dispatchQ }) s)
        { s with cores := s.cores.map (fun c => (c.1, { c.2 with dispatchQ := c.2.dispatchQ.filter (fun x => x != id) })) })
    else evt s
  | none => evt s

/-- DISPATCH_GROUP. -/
def execDispatchGroup (launch core : Nat) (s : State) : Out :=
  match aget launch s.launches with
  | none => evt s
  | some l =>
    if dispatching l s then evt (if l.r.coop then dispatchAll launch l s else dispatchTo launch core l s) else evt s

end Sys2Proof.Machine
end

