-- ==== Sys2Proof/Machine/Actions.lean ====
section
/-!
DEFINITION. The fault and debug rings' records (R241, R276) and the driver's actions on their tokens (R243, R244, R206).
-/
namespace Sys2Proof.Machine

/-- FAULT_RECORD_WRITE (R241, R276): the oldest pending record of each of a function's rings, where there is room. -/
def execFaultRecordWrite (fn : Nat) (s : State) : Out := evt (writeRing fn true (writeRing fn false s))

/-- The live token a function's FTOKEN names (R243). -/
def liveToken (fn : Nat) (s : State) : Option (Nat × Token) :=
  let k := (mreg fn 0x1820 s).toNat
  match aget k s.tokens with
  | some t => if t.live && t.fn == fn then some (k, t) else none
  | none => none

/-- FACT.STALE after an action. -/
def setStale (fn : Nat) (b : Bool) (s : State) : State := setMreg fn 0x1828 (if b then 4#64 else 0#64) s

/-- A token has been acted on. A written record's token goes. -/
def acted (k : Nat) (s : State) : State := { s with tokens := amod k (fun t => { t with live := false }) s.tokens }

/-- A held fragment goes on at its retry point (R239), and what a peer has refused of it is asked for again (R147); after a breakpoint,
past it once (R276). -/
def resumeFrag (token : Nat) (t : Token) (s : State) (r : FragRef) : State :=
  modFragAny r (fun f =>
    match f.hold with
    | .fault k p =>
      if k = token then { f with hold := .run, pc := p, bpSkip := f.bpSkip || (t.debug && t.record.kind == 1#8) } else f
    | _ => f) (modGang (gangRefOf r) (fun g =>
      { g with ops := g.ops.map (fun (o : PendOp) => if o.frag = r.frag then { o with refused := false } else o) }) s)

/-- The fragments of a group held by a breakpoint that stand at it pass it once (R276). -/
def passBreak (token : Nat) (t : Token) (s : State) : State :=
  if t.record.kind = 1#8 then
    { s with saved := s.saved.map (fun e =>
        if e.2.token = some token ∧ e.2.group.g = t.record.grp then
          (e.1, { e.2 with group := { e.2.group with gangs := e.2.group.gangs.map (fun g =>
            (g.1, { g.2 with frags := g.2.frags.map (fun f =>
              (f.1, if f.2.pc = t.record.pc then { f.2 with bpSkip := true } else f.2)) })) } })
        else e) }
  else s

/-- A completion record that waited for its token. -/
def takeCompletion (key : Nat) (s : State) : Option (Completion × State) :=
  (aget key s.completions).map (fun c => (c, { s with completions := aerase key s.completions }))

/-- RETRY (R243, R244, R206, R276). A completion record waits for the end of a dispatch freeze (R269). -/
def retryToken (k : Nat) (t : Token) (s : State) : State :=
  if t.vectorC then s
  else
    match t.kind with
    | .frags | .queued => t.frags.foldl (resumeFrag k t) s
    | .engine core copy => modCopy core copy (fun c => { c with token := none }) s
    | .drain grp joint => modJoint grp joint (fun o => { o with token := none }) s
    | .group _ => resumeSaved k (passBreak k t s)
    | .completion key =>
      if completing s then (match takeCompletion key s with | some (c, s1) => writeCompletion key c s1 | none => s) else s

/-- The fault of a drain, as its listed gangs take it (R201). -/
def Token.freq (t : Token) : FReq := { cls := t.record.cls.toNat, kind := t.record.kind.toNat, addr := t.record.addr, access := t.record.access.toNat }

/-- ABANDON (R243, R244, R206). -/
def abandonToken (k : Nat) (t : Token) (s : State) : State :=
  if t.vectorC then s
  else
    match t.kind with
    | .frags | .queued =>
      (t.frags.foldl (fun (l : List GangRef) r => if l.contains (gangRefOf r) then l else l ++ [gangRefOf r]) []).foldl
        (fun s g => haltAny g s) s
    | .engine core copy =>
      (match (coreOf core s).copies.find? (fun c => c.id == copy) with | some c => c.stop core 2 s | none => s)
    | .drain grp joint =>
      (match (aget grp s.groups).bind (fun g => g.matrix.queue.find? (fun o => o.id == joint)) with
       | some op => settleGroup grp (stopDrain grp op t.freq s)
       | none => s)
    | .group key =>
      (match aget key s.saved with
       | some sv => resumeSaved k ((akeys sv.group.gangs).foldl (fun s g => haltAny { grp := key, gang := g } s) s)
       | none => resumeSaved k s)
    | .completion key => (match takeCompletion key s with | some (_, s1) => s1 | none => s)

/-- An action on the token that FTOKEN names, or STALE where it names no live one. -/
def onToken (fn : Nat) (act : Nat → Token → State → State) (s : State) : State :=
  match liveToken fn s with
  | none => setStale fn true s
  | some (k, t) => promoteAll (setStale fn false (act k t (acted k s)))

/-- FACT with ACTION 0, RETRY. -/
def execFactRetry (fn : Nat) (s : State) : Out := evt (onToken fn retryToken s)

/-- FACT with ACTION 1, ABANDON. -/
def execFactAbandon (fn : Nat) (s : State) : Out := evt (onToken fn abandonToken s)

/-- FACT with ACTION 2, TERMINATE. -/
def execFactTerminate (fn : Nat) (s : State) : Out := evt (onToken fn (fun _ t s => endContext t.record.ctx s) s)

/-- FACT with the reserved ACTION 3. -/
def execFactReserved (fn : Nat) (s : State) : Out := evt (setStale fn true s)

end Sys2Proof.Machine
end

