-- ==== Sys2Proof/Machine/Atomic.lean ====
section
/-!
DEFINITION. ATOM, ACAS and XSADD (R125, R179, R180, R223, R227, R302-R304, R385).
-/
namespace Sys2Proof.Machine

/-- Bytes of an atomic by W (R125). -/
def amoSize (o : AMO) : Nat := 4 * 2 ^ (o.w.toNat - 2)

/-- The access of an atomic row. -/
def amoAccess (o : AMO) (sp : Space) : Access :=
  { sp := sp, need := .at, size := amoSize o, sb := o.sb, off := offOperand o.off o.ow, imm := sint o.imm.toNat 5,
    g := { pe := o.pe, pg := o.pg, pn := o.pn } }

/-- Registers of one operand. -/
def amoRegs (o : AMO) : Nat := amoSize o / 4

/-- Registers of the whole group: an ACAS has a second operand (R303). -/
def amoGroup (aop : Nat) (o : AMO) : Nat := if aop = 12 then 2 * amoRegs o else amoRegs o

/-- What a lane's registers hold from one on. -/
def Cur.regNum (c : Cur) (r n l : Nat) : Nat :=
  (List.range n).foldl (fun v i => v + (c.v (r + i) l).toNat * 2 ^ (32 * i)) 0

/-- A lane of an atomic with the place it acts on. -/
structure AmoLane where
  lane : Nat
  va : Nat
  dest : Place
  deriving DecidableEq, Repr

/-- The lanes that act on memory: plane 0 of a window alone (R62), helper lanes left out (R18). -/
def amoLanes (a : Access) (c : Cur) (s : State) : List AmoLane :=
  (goodLooks (a.looks .raw false c s)).flatMap (fun e =>
    (e.2.take 1).flatMap (fun x => (x.planes.take 1).map (fun p => { lane := e.1, va := p.2, dest := p.1 })))

/-- Places of an atomic. -/
def amoPlaces (a : Access) (ls : List AmoLane) : List (Place × Nat) := ls.map (fun l => (l.dest, a.size))

/-- The checks of an atomic (R132, R303), and its waits: for its gang's own buffered stores to the same bytes, for an earlier
release, as a release itself for the earlier stores its scope acts on, or, where no lane takes part, as a FENCE does for every W
operation, and as an ordered one for the waiting atomics before it (R170, R176-R179). -/
def amoPre (aop : Nat) (a : Access) (o : AMO) (c : Cur) (s : State) : Pre :=
  let ls := amoLanes a c s
  let n := amoGroup aop o
  let pois := (a.threads c).any (fun l => (List.range n).any (fun i => c.vpoisoned (o.data.toNat + i) l))
  (preOf (a.offOk c.regs && decide (o.data.toNat < 112) && groupOk c.regs o.data.toNat n) (a.poisoned c || pois)).andThen
    ((a.check (a.looks .raw false c s) c).andThen
      ((badOf (linesOf (amoPlaces a ls)) s).andThen
        ((Pre.stallIf (ls.any (fun l => overlapsOwn c.gang.sbuf l.dest a.size) || c.gang.sbuf.any (fun e => e.rel.isSome)
            || (o.ord.getLsbD 1 && (c.gang.sbuf.any (fun e => e.acts c.r.grp o.scope.toNat)
                || (ls.isEmpty && c.gang.counter .w != 0)))
            || (o.ord != 0#2 && o.scope != 0#3 && c.gang.logWaits) || c.gang.behindLog (amoPlaces a ls))).andThen
          (c.pathFull (pathFor a.sp)))))

/-- What the lanes of an atomic have done so far. -/
structure AmoAcc where
  s : State
  writes : List RegWrite
  sat : Bool
  waits : List LogLane
  operands : List (Nat × Nat × Nat)
  diverged : Bool
  marks : List Mark
  deriving DecidableEq, Repr

/-- The old value of a lane, in every lane it serves (R49, R304). -/
def amoWords (o : AMO) (act : Mask) (c : Cur) (l : Nat) (r : AmoRes) : List RegWrite :=
  (c.served act l).flatMap (fun m => wordsFrom o.data.toNat m (amoRegs o) r.old r.pois)

/-- One lane performs its operation at the place, or waits: for a link, for a peer's answer (R147), or, logged under BOUND, for its turn
(R227). -/
def amoLane (tag : Tag) (aop : Nat) (a : Access) (o : AMO) (c : Cur) (acc : AmoAcc) (l : AmoLane) : AmoAcc :=
  let n := amoRegs o
  let x := c.regNum o.data.toNat n l.lane
  let y := if aop = 12 then c.regNum (o.data.toNat + n) n l.lane else 0
  let id : LogLane := { lane := l.lane, t := c.bigT l.lane, icount := (c.gang.quad (l.lane / 4)).icount.toNat, va := l.va,
                        place := l.dest }
  let logged := o.log && (a.sp == .g || a.sp == .h) && (match l.dest with | .phys _ => true | _ => false)
  let act := fun (s : State) =>
    let (s1, r) := amoAt { c.writer s with lane := l.lane } tag aop a.size (if vaSpace a.sp then some l.va else none) l.dest x y s
    ({ acc with s := s1, marks := acc.marks ++ marksOf l.dest a.size s, writes := acc.writes ++ amoWords o (c.act a.g) c l.lane r, sat := acc.sat || r.sat } : AmoAcc)
  let wait := { acc with waits := acc.waits ++ [id], operands := acc.operands ++ [(l.lane, x, y)] }
  if l.dest.atPeer.isSome || !placeReached c.ctx l.dest acc.s || (!acc.waits.isEmpty && acc.waits.any (fun w => w.place == l.dest)) then wait
  else if logged ∧ c.lau.r.order = 3 then
    let r := act acc.s
    { r with s := logGrant c.grp.launch id r.s }
  else if logged ∧ c.lau.r.order = 4 then
    match (aget c.grp.launch acc.s.launches).map (fun la => logTurn la id acc.s) with
    | some (.now i) => act (logConsume c.grp.launch i (readLog c.lau acc.s))
    | some .later => wait
    | _ => { acc with diverged := true }
  else act acc.s

/-- The effect of an atomic. -/
def amoEff (aop : Nat) (a : Access) (o : AMO) (c : Cur) (s : State) : State :=
  let s := banked c (a.banks o.data.toNat (amoGroup aop o)) s
  let ls := amoLanes a c s
  let zeros := ((c.memLanes (c.act a.g)).filter (fun l => c.helper l)).flatMap (fun l =>
    amoWords o (c.act a.g) c l { old := 0, pois := false, sat := false })
  let rel := if o.ord.getLsbD 1 then some o.scope.toNat else none
  let tag : Tag :=
    { by' := .gang c.r.grp c.r.gang, op := s.serial, marks := c.gang.marks (gangRefOf c.r) rel (s.serial + 1) }
  let r := ls.foldl (amoLane tag aop a o c)
    { s := s, writes := zeros, sat := false, waits := [], operands := [], diverged := false, marks := [] }
  let acq := o.ord.getLsbD 0
  let log : Option LogWait := if r.waits.isEmpty then none else
    some { order := if o.log && (a.sp == .g || a.sp == .h) then c.lau.r.order else 0, aop := aop, size := a.size, operands := r.operands, lanes := r.waits, dst := o.data.toNat,
           acq := if acq then some o.scope.toNat else none, since := (cycleAt c.grp.core s).toNat, act := c.act a.g, frag := c.r.frag, mask := c.frag.mask,
           depth := (c.writer s).depth, pc := c.frag.pc, virt := vaSpace a.sp, pub := tag.marks }
  let (id, s1) := addOp c (fun id =>
    { PendOp.blank id (pathFor a.sp) c.r.frag with
      writes := r.writes, satXs := r.sat, atomic := true, commit := a.sp != .p, log := log, marks := r.marks, ports := portsOf c.ctx (amoPlaces a ls) s,
      hostLink := onHost (amoPlaces a ls) }) r.s
  let s2 := if vaSpace a.sp then touchVas c.ctx (ls.filterMap (fun l =>
      match l.dest with | .phys _ => some l.va | .scr .. => none)) s1 else s1
  let s3 := if footCounts a.sp (ls.map (fun l =>
      (l.lane, [{ off := 0, len := a.size, win := none, planes := [(l.dest, l.va)], digit := none }]))) then
      footprint (gangRefOf c.r) (linesOf (amoPlaces a ls)) s2 else s2
  let s3 := modGang (gangRefOf c.r) (fun g => (g.settleAt c.frag.mask (amoPlaces a ls)).ordered id rel) s3
  let s3 := if rel.isSome then accessRel (c.act a.g == 0#32) o.scope.toNat c s3 else s3
  let s4 := if acq && r.waits.isEmpty then accessAcq (c.act a.g == 0#32) o.scope.toNat id r.marks c s3 else s3
  let s5 := if a.sp = .p then s4 else beginRegion c.r s4
  if r.diverged then stopLaunch c.grp.launch 4 s5 else s5

/-- An atomic of operation AOP. -/
def runAmo (i : Instr) (aop : Nat) (sp : Space) (o : AMO) (s : State) : Out :=
  let a := amoAccess o sp
  issueMem i o.p (fun c s => amoPre aop a o c s) (fun c s => noteEvents c s (amoEff aop a o c s)) s

/-- ATOM.ADD (R304). -/
def execAtomAdd (sp : Space) (o : AMO) (s : State) : Out := runAmo (.atomAdd sp o) 0 sp o s
/-- ATOM.MIN (R304). -/
def execAtomMin (sp : Space) (o : AMO) (s : State) : Out := runAmo (.atomMin sp o) 1 sp o s
/-- ATOM.MINU (R304). -/
def execAtomMinu (sp : Space) (o : AMO) (s : State) : Out := runAmo (.atomMinu sp o) 2 sp o s
/-- ATOM.MAX (R304). -/
def execAtomMax (sp : Space) (o : AMO) (s : State) : Out := runAmo (.atomMax sp o) 3 sp o s
/-- ATOM.MAXU (R304). -/
def execAtomMaxu (sp : Space) (o : AMO) (s : State) : Out := runAmo (.atomMaxu sp o) 4 sp o s
/-- ATOM.MAXE (R302). -/
def execAtomMaxe (sp : Space) (o : AMO) (s : State) : Out := runAmo (.atomMaxe sp o) 5 sp o s
/-- ATOM.AND (R304). -/
def execAtomAnd (sp : Space) (o : AMO) (s : State) : Out := runAmo (.atomAnd sp o) 6 sp o s
/-- ATOM.OR (R304). -/
def execAtomOr (sp : Space) (o : AMO) (s : State) : Out := runAmo (.atomOr sp o) 7 sp o s
/-- ATOM.XOR (R304). -/
def execAtomXor (sp : Space) (o : AMO) (s : State) : Out := runAmo (.atomXor sp o) 8 sp o s
/-- ATOM.XCHG (R304). -/
def execAtomXchg (sp : Space) (o : AMO) (s : State) : Out := runAmo (.atomXchg sp o) 9 sp o s
/-- ATOM.FADD (R302). -/
def execAtomFadd (sp : Space) (o : AMO) (s : State) : Out := runAmo (.atomFadd sp o) 10 sp o s
/-- ATOM.FMAX (R302). -/
def execAtomFmax (sp : Space) (o : AMO) (s : State) : Out := runAmo (.atomFmax sp o) 11 sp o s
/-- ACAS (R304). -/
def execAcas (sp : Space) (o : AMO) (s : State) : Out := runAmo (.acas sp o) 12 sp o s
/-- XSADD (R385). -/
def execXsadd (sp : Space) (o : AMO) (s : State) : Out := runAmo (.xsadd sp o) 13 sp o s

end Sys2Proof.Machine
end

