-- ==== Sys2Proof/Machine/Branch.lean ====
section
/-!
DEFINITION. Branches, splits, fusion and exit (R22-R30, R310, R311, R318, R364-R366).
-/
namespace Sys2Proof.Machine

/-- Move a fragment to an address. -/
def Gang.jump (g : Gang) (fi : Nat) (pc : DWord) : Gang :=
  { g with frags := amod fi (fun f => { f with pc := pcOf pc }) g.frags }

/-- The target of a branch with a displacement (R310). -/
def Cur.target (c : Cur) (disp : BitVec 19) : DWord := c.frag.pc + ((disp.signExtend 64) <<< 1)

/-- The lanes of EXEC in which a branch predicate holds (R24, R311). -/
def Cur.taken (c : Cur) (n : Bool) (pr : BitVec 3) : Mask :=
  (if n then ~~~ c.gang.pr pr else c.gang.pr pr) &&& c.frag.exec

/-- A predicate read in EXEC is poisoned (R261). -/
def Cur.prPoison (c : Cur) (pr : BitVec 3) : Bool := c.frag.exec != 0#32 && c.gang.ppoisoned pr

/-- BRA on a predicate (R311): the whole fragment moves, and never splits. -/
def execBraCond (disp : BitVec 19) (n : Bool) (pr : BitVec 3) (p : Bool) (s : State) : Out :=
  issue (.braCond disp n pr p) p (fun c => preOf true (c.prPoison pr))
    (fun c s => if c.taken n pr = 0#32 then s else modGang (gangRefOf c.r) (fun g => g.jump c.r.frag (c.target disp)) s) s

/-- BRA (R311). -/
def execBra (disp : BitVec 19) (p : Bool) (s : State) : Out :=
  issue (.bra disp p) p (fun _ => .go)
    (fun c s => modGang (gangRefOf c.r) (fun g => g.jump c.r.frag (c.target disp)) s) s

/-- The address after an instruction of a fragment. -/
def Cur.nextPc (c : Cur) (len : Nat) : DWord := pcOf (c.frag.pc + BitVec.ofNat 64 len)

/-- A call: s63 takes the address of the next instruction, the fragment moves, the upper levels empty (R311, R99). -/
def callTo (c : Cur) (t : DWord) (s : State) : State :=
  modGang (gangRefOf c.r) (fun g => (((g.setSBy c.r.frag 63#6 (c.nextPc 4)).jump c.r.frag t)).invalidate c.frag.mask) s

/-- CALL (R311). -/
def execCall (disp : BitVec 19) (p : Bool) (s : State) : Out :=
  issue (.call disp p) p (fun _ => .go) (fun c s => callTo c (c.target disp) s) s

/-- The lane whose register pair gives a branch target (R311, R49). -/
def Cur.targetLane (c : Cur) : Nat :=
  c.ref ((lowLane (if c.frag.exec = 0#32 then c.frag.mask else c.frag.exec)).getD 0)

/-- The target in a register pair. -/
def Cur.regTarget (c : Cur) (vn : BitVec 6) : DWord :=
  c.v (vn.toNat + 1) c.targetLane ++ c.v vn.toNat c.targetLane

/-- The checks of a branch to a register (R310, R311, R106): a pair below the declared count, an even target. A lane outside EXEC
raises no UE (R132, R261). -/
def regBranchPre (vn : BitVec 6) (c : Cur) : Pre :=
  (preOf (regOk c.regs vn.toNat true)
    (c.frag.exec != 0#32 && (c.vpoisoned vn.toNat c.targetLane || c.vpoisoned (vn.toNat + 1) c.targetLane))).andThen
    (Pre.unless (!(c.regTarget vn).getLsbD 0) { cls := 0x02, addr := c.regTarget vn })

/-- BRA to a register (R311). -/
def execBraReg (vn : BitVec 6) (p : Bool) (s : State) : Out :=
  issue (.braReg vn p) p (regBranchPre vn)
    (fun c s => modGang (gangRefOf c.r) (fun g => g.jump c.r.frag (c.regTarget vn)) s) s

/-- CALL to a register (R311). -/
def execCallReg (vn : BitVec 6) (p : Bool) (s : State) : Out :=
  issue (.callReg vn p) p (regBranchPre vn) (fun c s => callTo c (c.regTarget vn) s) s

/-- RET (R366). -/
def execRet (p : Bool) (s : State) : Out :=
  issue (.ret p) p
    (fun c => (preOf true (c.spoisoned 63#6)).andThen
      (Pre.unless (!(c.s 63#6).getLsbD 0) { cls := 0x02, addr := c.s 63#6 }))
    (fun c s => modGang (gangRefOf c.r) (fun g => (g.jump c.r.frag (c.s 63#6)).invalidate c.frag.mask) s) s

/-! Splits (R24, R25). -/

/-- The lowest free index of a table of eight. -/
def freeIx {α : Type} (l : AList α) : Option Nat := (List.range 8).find? (fun i => (aget i l).isNone)

/-- Add a fragment: its upper levels are empty and its region begins (R29, R34, R99). -/
def Gang.addFrag (g : Gang) (f : Frag) : Gang :=
  match freeIx g.frags with
  | none => g
  | some i => ({ (g.invalidate f.mask) with frags := aput i f g.frags }).beginRegion i

/-- The quads of a fragment whose lanes part (R24). -/
def mixedQuads (mask t : Mask) : List Nat :=
  (quadsIn mask).filter (fun q => quadBits t q != 0#4 && quadBits t q != quadBits mask q)

/-- The quads that do not take a branch (R24). -/
def notTakenQuads (mask t : Mask) : List Nat := (quadsIn mask).filter (fun q => quadBits t q == 0#4)

/-- The lanes of a mask in some quads. -/
def maskOfQuads (mask : Mask) (qs : List Nat) : Mask := qs.foldl (fun m q => m ||| quadPlace (quadBits mask q) q) 0#32

/-- A BRV splits (R24): some quad is mixed, or quads fall on both sides. -/
def splits (mask t : Mask) : Bool :=
  !(mixedQuads mask t).isEmpty || (!(notTakenQuads mask t).isEmpty && t &&& mask != 0#32)

/-- BRV's room for a split: a free record, and a free entry on the stack of every mixed quad (R24, R25). -/
def Gang.canSplit (g : Gang) (mask t : Mask) : Bool :=
  (freeIx g.recs).isSome && (mixedQuads mask t).all (fun q => decide ((g.quad q).stack.length < 8))

/-- Split a fragment that takes a branch in the lanes `t` (R24, R25). What is pending is folded for all its lanes (R34, R55); the taken
side keeps the table entry. -/
def Gang.split (g : Gang) (fi : Nat) (t : Mask) (target fall : DWord) : Gang :=
  match aget fi g.frags, freeIx g.recs with
  | some f, some k =>
    let pushed := (mixedQuads f.mask t).foldl (fun g q => g.modQuad q (fun x =>
      { x with stack := { split := k, second := false, pc := fall, notTaken := quadBits f.mask q &&& ~~~ quadBits t q,
                          lanes := quadBits f.mask q, xl := quadBits f.exec q } :: x.stack })) g
    let other := maskOfQuads f.mask (notTakenQuads f.mask t)
    let g0 := (pushed.invalidate f.mask).beginRegion fi
    let f0 := (aget fi g0.frags).getD f
    let g1 : Gang := { g0 with
      book := if g.frags.length ≤ 1 then { g0.book with nit := none } else g0.book
      recs := aput k { origin := f.mask, parent := f.split, jpc := 0#64 } g0.recs
      frags := aput fi { f0 with pc := pcOf target, mask := t, exec := f.exec &&& t, split := some k } g0.frags }
    let g2 := g1.beginRegion fi
    if other = 0#32 then g2
    else g2.addFrag { Frag.start fall other with exec := f.exec &&& other, split := some k, sig := f.sig, inHandler := f.inHandler }
  | _, _ => g

/-- BRV (R24). -/
def execBrv (disp : BitVec 19) (n : Bool) (pr : BitVec 3) (p : Bool) (s : State) : Out :=
  issue (.brv disp n pr p) p
    (fun c => (preOf true (c.prPoison pr)).andThen
      (Pre.unless (!splits c.frag.mask (c.taken n pr) || c.gang.canSplit c.frag.mask (c.taken n pr)) { cls := 0x06 }))
    (fun c s =>
      let t := c.taken n pr
      if splits c.frag.mask t then modGang (gangRefOf c.r) (fun g => g.split c.r.frag t (c.target disp) (c.nextPc 4)) s
      else
        modGang (gangRefOf c.r) (fun g =>
          (if t = 0#32 then g else g.jump c.r.frag (c.target disp)).invalidate c.frag.mask) s) s

/-! Fusion (R25-R27). -/

/-- A fragment descends from a split (R26). -/
def Gang.descends (g : Gang) (f : Frag) (k : Nat) : Bool := (g.chain 8 f.split).contains k

/-- Put four lanes of a quad in place of what a mask has there. -/
def setQuad (m : Mask) (q : Nat) (b : BitVec 4) : Mask := (m &&& ~~~ quadMask q) ||| quadPlace b q

/-- The top of a quad's stack, where it names a split. -/
def Gang.topFor (g : Gang) (q k : Nat) : Option QEntry :=
  match (g.quad q).stack with
  | e :: _ => if e.split = k then some e else none
  | [] => none

/-- A quad pops its entry: both sides' lanes come together (R25). -/
def popQuad (k : Nat) (acc : Gang × Mask × Mask) (q : Nat) : Gang × Mask × Mask :=
  match acc.1.topFor q k with
  | some e =>
    if e.second then
      (acc.1.modQuad q (fun x => { x with stack := x.stack.tail }), setQuad acc.2.1 q e.lanes,
       setQuad acc.2.2 q ((quadBits acc.2.2 q ||| e.xl) &&& e.lanes))
    else acc
  | none => acc

/-- The quads of a fragment that leave it at a REGANG of split `k` for their second side (R25). -/
def Gang.leavers (g : Gang) (f : Frag) (k : Nat) : List Nat :=
  (quadsIn f.mask).filter (fun q => match g.topFor q k with | some e => !e.second | none => false)

/-- A quad turns to its second side at a REGANG. -/
def turnQuad (k : Nat) (pc : DWord) (exec : Mask) (g : Gang) (q : Nat) : Gang :=
  g.modQuad q (fun x => { x with stack := match x.stack with
    | e :: t => if e.split = k then { e with second := true, pc := pc, xl := quadBits exec q } :: t else e :: t
    | [] => [] })

/-- A fragment arrives at a REGANG at `pc` that names split `k` (R25). Whether the fragment still stands in its entry. A fragment
formed for the second side is in no handler (log entry 63). -/
def Gang.arrive (g : Gang) (fi k : Nat) (pc : DWord) : Gang × Bool :=
  match aget fi g.frags with
  | none => (g, false)
  | some f =>
    let out := g.leavers f k
    let (g1, mask, exec) := (quadsIn f.mask).foldl (popQuad k) (g, f.mask, f.exec)
    let es := out.filterMap (fun q => (g.topFor q k).map (fun e => (q, e)))
    let nm := es.foldl (fun m e => m ||| quadPlace e.2.notTaken e.1) 0#32
    let nx := es.foldl (fun m e => m ||| quadPlace (e.2.notTaken &&& e.2.xl) e.1) 0#32
    let keep := ~~~ maskOfQuads 0xFFFFFFFF#32 out
    let g2 := out.foldl (turnQuad k pc f.exec) g1
    let stay : Frag := { f with mask := mask &&& keep, exec := exec &&& keep }
    match es with
    | [] => ({ g2 with frags := aput fi stay g2.frags }, true)
    | (_, e) :: _ =>
      let new : Frag := { Frag.start e.pc nm with exec := nx, split := some k }
      if stay.mask = 0#32 then
        let g3 := ({ g2 with frags := aput fi { f with pc := pc } g2.frags }).beginRegion fi
        (({ (g3.invalidate nm) with frags := aput fi new g3.frags }).beginRegion fi, false)
      else (({ g2 with frags := aput fi stay g2.frags }).addFrag new, true)

/-- One fragment takes in another: its lanes, and what is pending with it (R26, R55, R75). -/
def Frag.absorb (a b : Frag) : Frag :=
  { a with
    mask := a.mask ||| b.mask, exec := a.exec ||| b.exec, stopReq := a.stopReq || b.stopReq, waitSkip := a.waitSkip && b.waitSkip
    pendCancel := satAdd16 a.pendCancel b.pendCancel, pendCmp := satAdd16 a.pendCmp b.pendCmp
    pendDivz := satAdd16 a.pendDivz b.pendDivz, pendSatf := a.pendSatf ||| b.pendSatf }

/-- The folds that a fusion orders before what follows it are seen by every lane of the fused fragment, as are those of lanes that
have exited (R55). -/
def Gang.fuseFolds (g : Gang) (m : Mask) : Option (DWord × List NitFold) :=
  g.book.nit.map (fun e => (e.1, e.2.map (fun x =>
    if x.mask &&& m != 0#32 || x.mask &&& g.live == 0#32 then { x with mask := x.mask ||| m } else x)))

/-- Several fragments become one, in the first one's entry: PC, SPLIT and masks as told, SIG 0 (R26, R267). What the others have
in flight becomes the fused fragment's. -/
def Gang.merge (g : Gang) (fi : Nat) (others : List Nat) (pc : DWord) (split : Option Nat) : Gang :=
  match aget fi g.frags with
  | none => g
  | some f =>
    let fs := others.filterMap (fun i => aget i g.frags)
    let f' : Frag := fs.foldl Frag.absorb { f with pc := pc, split := split, waiting := false, sig := 0#32 }
    let g1 : Gang := { (g.invalidate f'.mask) with
      frags := others.foldl (fun l i => aerase i l) (aput fi f' g.frags)
      ops := g.ops.map (fun o => if others.contains o.frag then { o with frag := fi } else o)
      joints := g.joints.map (fun j => if others.contains (j.2.2 - 2) && decide (2 ≤ j.2.2) then (j.1, j.2.1, 2 + fi) else j)
      book := { g.book with nit := g.fuseFolds f'.mask } }
    g1.beginRegion fi

/-- Two writes of fragments that ran apart: of different table entries, or of disjoint lanes. -/
def SWrite.apart (a b : SWrite) : Bool := a.frag != b.frag || a.mask &&& b.mask == 0#32

/-- A write inside split `k` by a fragment that is now part of a fused one, or has exited. -/
def Gang.within (g : Gang) (k : Nat) (m : Mask) (w : SWrite) : Bool :=
  w.splits.contains k && (w.mask &&& m != 0#32 || w.mask &&& g.live == 0#32)

/-- The writes of a register that are candidates for its value after a fusion inside split `k`, into the lanes `m`: where fragments
that ran apart wrote it, all of them (R88, R377). -/
def Gang.contested (g : Gang) (k : Nat) (m : Mask) (n : Nat) : List SWrite :=
  let ws := g.book.swrote.filter (fun w => w.reg == n && g.within k m w)
  if ws.any (fun a => ws.any (fun b => a.apart b)) then ws else []

/-- A register of the gang takes the value of a write. -/
def Gang.takeW (g : Gang) (w : SWrite) : Gang :=
  if w.reg < 64 then
    let n := BitVec.ofNat 6 w.reg
    if w.pois then (g.setS n w.val).poisonS n else g.setS n w.val
  else
    match w.reg - 64 with
    | 0x02 => { g with nitcfg := w.val.setWidth 32 }
    | 0x03 => { g with nitcnt := w.val, book := { g.book with nit := none } }
    | 0x04 => { g with satf := w.val.setWidth 32 }
    | 0x08 => { g with gset := w.val.setWidth 32 }
    | 0x09 => { g with leaseDecl := w.val.setWidth 16 }
    | 0x0D => { g with epc := w.val }
    | _ => g

/-- A register after a fusion: of the values that fragments apart wrote any one, freely (R88, R377, log entry 59). `seed` numbers the
choice. -/
def Gang.settleScalar (seed fi k : Nat) (m : Mask) (g : Gang) (n : Nat) : Gang :=
  let ws := g.contested k m n
  match ws[Config.pick (128 * seed + n) ws.length % ws.length]? with
  | some w =>
    let g1 := g.takeW w
    { g1 with book := { g1.book with swrote := { w with frag := fi, mask := m } :: g1.book.swrote.filter (fun x => !ws.contains x) } }
  | none => g

/-- The record of a split has gone: no write is noted inside it any more. -/
def Book.close (b : Book) (k : Nat) : Book :=
  { b with swrote := (b.swrote.map (fun w => { w with splits := w.splits.erase k })).filter (fun w => !w.splits.isEmpty) }

/-- The registers of the gang after a fusion inside split `k`, in the fragment that came of it (R88, R377): what was written inside is now
that fragment's, and once the split has completed it is noted no more. -/
def Gang.settleScalars (seed fi k : Nat) (done : Bool) (g : Gang) : Gang :=
  match aget fi g.frags with
  | none => g
  | some f =>
    let g1 := (nodup (g.book.swrote.map SWrite.reg)).foldl (Gang.settleScalar seed fi k f.mask) g
    let b : Book := { g1.book with swrote := g1.book.swrote.map (fun w => if g1.within k f.mask w then { w with frag := fi, mask := f.mask } else w) }
    { g1 with book := if done then b.close k else b }

/-- What numbers the free choices of a fusion at a step. -/
def fusionSeed (s : State) : Nat := 2 ^ 160 * (s.clock + 1)

/-- The fragments that wait at the REGANG.WAIT of a split whose every descendant waits there (R26). -/
def Gang.fusible (g : Gang) (k : Nat) : List Nat :=
  let ds := g.frags.filter (fun e => g.descends e.2 k)
  if ds.all (fun e => e.2.waiting && e.2.split == some k) then ds.map Prod.fst else []

/-- The union of the masks of fragments. -/
def Gang.unionMask (g : Gang) (fs : List Nat) : Mask :=
  fs.foldl (fun m i => match aget i g.frags with | some f => m ||| f.mask | none => m) 0#32

/-- Complete a split whose waiting fragments may fuse (R26, R27). A fragment's index where the masks are not
conserved: the gang then takes SIGFAIL. -/
def Gang.complete (g : Gang) (seed k : Nat) : Gang × Option Nat :=
  match aget k g.recs, g.fusible k with
  | some r, fi :: rest =>
    if g.unionMask (fi :: rest) = r.origin then
      ((({ g with recs := aerase k g.recs }).merge fi rest (pcOf (r.jpc + 4#64)) r.parent).settleScalars seed fi k true, none)
    else (g, some fi)
  | _, _ => (g, none)

/-- Complete a split of a gang; a mask mismatch is SIGFAIL, attributed to the REGANG (R27). -/
def completeSplit (r : GangRef) (k : Nat) (s : State) : State :=
  match gangOf r s with
  | none => s
  | some g =>
    match g.complete (fusionSeed s) k with
    | (g', none) => modGang r (fun _ => g') s
    | (_, some fi) =>
      match curOf { grp := r.grp, gang := r.gang, frag := fi } s with
      | some c => haltFault c (((aget k g.recs).map (fun x => x.jpc)).getD c.frag.pc) { cls := 0x0A } s
      | none => s

/-- A REGANG that fuses nothing: invalidation, SIG 0 but in a handler, and a region (R26, R364). -/
def regangAlone (c : Cur) (s : State) : State :=
  modGang (gangRefOf c.r) (fun g =>
    ({ (g.invalidate c.frag.mask) with
       frags := amod c.r.frag (fun f => { f with sig := if f.inHandler then f.sig else 0#32 }) g.frags }).beginRegion c.r.frag) s

/-- The split a REGANG names: none outside a split or inside a handler (R26, R364). -/
def Cur.named (c : Cur) : Option Nat := if c.frag.inHandler then none else c.frag.split

/-- A fragment parks at its REGANG.WAIT (R26, R34). -/
def parkAt (c : Cur) (k : Nat) (s : State) : State :=
  modGang (gangRefOf c.r) (fun g =>
    ({ g with
       recs := amod k (fun x => { x with jpc := c.frag.pc }) g.recs
       frags := amod c.r.frag (fun f => { f with waiting := true, sig := 0#32 }) g.frags }).beginRegion c.r.frag) s

/-- The effect of REGANG.WAIT (R26). -/
def regangWaitEff (c : Cur) (s : State) : State :=
  match c.named, gangOf (gangRefOf c.r) s with
  | some k, some g =>
    let (g1, stays) := (g.invalidate c.frag.mask).arrive c.r.frag k c.frag.pc
    let s1 := modGang (gangRefOf c.r) (fun _ => g1) s
    if stays then
      match aget k g.recs with
      | some x =>
        if x.jpc ≠ 0#64 ∧ x.jpc ≠ c.frag.pc then haltFault c c.frag.pc { cls := 0x0A } s1
        else completeSplit (gangRefOf c.r) k (parkAt c k s1)
      | none => s1
    else s1
  | _, _ => regangAlone c s

/-- REGANG.WAIT (R26). -/
def execRegangWait (p : Bool) (s : State) : Out := issue (.regangWait p) p (fun _ => .go) regangWaitEff s

/-- The other fragments that a REGANG.TRY at `pc` fuses: of the same split, standing there, neither parked nor held. -/
def Gang.standing (g : Gang) (fi k : Nat) (pc : DWord) : List Nat :=
  (g.frags.filter (fun e => e.1 != fi && e.2.split == some k && e.2.pc == pc && e.2.hold == .run
    && !e.2.waiting && !e.2.inHandler)).map Prod.fst

/-- A fragment counts as having executed the REGANG.TRY (R26, R33), and its quads arrive (R25). -/
def tryOther (k : Nat) (pc : DWord) (acc : Gang × List Nat) (i : Nat) : Gang × List Nat :=
  match aget i acc.1.frags with
  | none => acc
  | some f =>
    let g := (acc.1.modQuads f.exec (fun q => { q with icount := q.icount + 1 })).invalidate f.mask
    let (g1, stays) := (g.beginRegion i).arrive i k pc
    (g1, if stays then acc.2 ++ [i] else acc.2)

/-- A fragment that continues after the REGANG.TRY fuses with the others (R26). -/
def Gang.tryFuse (g : Gang) (seed fi k : Nat) (pc : DWord) (others : List Nat) : Gang :=
  match aget fi g.frags, aget k g.recs with
  | some f, some r =>
    let mine := fi :: others
    let rest := g.frags.any (fun e => !mine.contains e.1 && g.descends e.2 k)
    let done := g.unionMask mine = r.origin && !rest
    (if done then ({ g with recs := aerase k g.recs }).merge fi others (pcOf (pc + 4#64)) r.parent
    else g.merge fi others (pcOf (pc + 4#64)) f.split).settleScalars seed fi k done
  | _, _ => g

/-- The effect of REGANG.TRY (R26). -/
def regangTryEff (c : Cur) (s : State) : State :=
  match c.named, gangOf (gangRefOf c.r) s with
  | some k, some g =>
    let (g1, stays) := (g.invalidate c.frag.mask).arrive c.r.frag k c.frag.pc
    let s1 := modGang (gangRefOf c.r) (fun _ => g1) s
    if stays then
      let (g2, others) := (g1.standing c.r.frag k c.frag.pc).foldl (tryOther k c.frag.pc) (g1, [])
      if others.isEmpty then regangAlone c (modGang (gangRefOf c.r) (fun _ => g2) s)
      else modGang (gangRefOf c.r) (fun _ => g2.tryFuse (fusionSeed s) c.r.frag k c.frag.pc others) s
    else s1
  | _, _ => regangAlone c s

/-- REGANG.TRY (R26). -/
def execRegangTry (p : Bool) (s : State) : Out := issue (.regangTry p) p (fun _ => .go) regangTryEff s

/-- REGION (R365). -/
def execRegion (p : Bool) (s : State) : Out :=
  issue (.region p) p (fun _ => .go) (fun c s => beginRegion c.r (invalidated c s)) s

/-! EXIT (R28, R29, R318). -/

/-- Lanes leave every record of a chain and every stack entry (R28). -/
def Gang.forget (g : Gang) (chain : List Nat) (m : Mask) : Gang :=
  let g1 := (quadsIn m).foldl (fun g q => g.modQuad q (fun x => { x with stack := x.stack.map (fun e =>
    { e with notTaken := e.notTaken &&& ~~~ quadBits m q, lanes := e.lanes &&& ~~~ quadBits m q }) })) g
  { g1 with
    exited := g1.exited ||| m
    recs := chain.foldl (fun l k => amod k (fun x => { x with origin := x.origin &&& ~~~ m }) l) g1.recs
    ops := g1.ops.map (fun o => { o with writes := o.writes.filter (fun w => !m.getLsbD w.lane) }) }

/-- The stack of a quad from its first entry that still has lanes to run (R29). -/
def dropSpent : List QEntry → List QEntry
  | [] => []
  | e :: t => if (if e.second then e.lanes else e.notTaken) = 0#4 then dropSpent t else e :: t

/-- How a quad whose lanes have exited goes on (R29): its address, lanes and EXEC. -/
def Gang.resumeQuad (g : Gang) (q : Nat) : Option (DWord × BitVec 4 × BitVec 4) :=
  match dropSpent (g.quad q).stack with
  | [] => none
  | e :: _ => let l := if e.second then e.lanes else e.notTaken; some (e.pc, l, l &&& e.xl)

/-- The stack of such a quad afterwards: a first side turns to the second, with PC 0 and XL 0. -/
def resumeStack (l : List QEntry) : List QEntry :=
  match dropSpent l with
  | [] => []
  | e :: t => (if e.second then e else { e with second := true, pc := 0#64, xl := 0#4 }) :: t

/-- Join a quad to the list of fragments that continue, one per address (R29). -/
def joinQuad (q : Nat) (r : DWord × BitVec 4 × BitVec 4) : List (DWord × Mask × Mask) → List (DWord × Mask × Mask)
  | [] => [(r.1, quadPlace r.2.1 q, quadPlace r.2.2 q)]
  | (pc, m, x) :: t =>
    if pc = r.1 then (pc, m ||| quadPlace r.2.1 q, x ||| quadPlace r.2.2 q) :: t else (pc, m, x) :: joinQuad q r t

/-- The fragments that go on where a fragment of mask `m` exits (R29). -/
def Gang.continuing (g : Gang) (m : Mask) : List (DWord × Mask × Mask) :=
  (quadsIn m).foldl (fun l q => match g.resumeQuad q with | some r => joinQuad q r l | none => l) []

/-- Records on a chain with no descendant left are freed, innermost first; the first that still has one is returned. -/
def Gang.freeRecs (g : Gang) : List Nat → Gang × Option Nat
  | [] => (g, none)
  | k :: t =>
    if g.frags.any (fun e => g.descends e.2 k) then (g, some k)
    else ({ g with recs := aerase k g.recs, book := g.book.close k } : Gang).freeRecs t

/-- The gang after a fragment's exit, and the split whose waiting fragments may now fuse (R28, R29). A fragment formed for the second
side of a quad is in no handler, also where a BRV inside a handler made the quad mixed: the model's choice (log entry 63). -/
def Gang.exitFrag (g : Gang) (fi : Nat) : Gang × Option Nat :=
  match aget fi g.frags with
  | none => (g, none)
  | some f =>
    let chain := g.chain 8 f.split
    let g1 := (g.beginRegion fi).forget chain f.mask
    let new := g1.continuing f.mask
    let g2 := g1.modQuads f.mask (fun x => { x with stack := resumeStack x.stack })
    let g3 := new.foldl (fun (g : Gang) e => g.addFrag { Frag.start e.1 e.2.1 with exec := e.2.2, split := f.split })
      { g2 with frags := aerase fi g2.frags, ops := g2.ops.map (fun (o : PendOp) => if o.frag = fi then { o with frag := 8 } else o) }
    g3.freeRecs chain

/-- The last lane of a gang has ended: loads in flight are dropped, stores and atomics complete (R318). -/
def Gang.finish (g : Gang) : Gang :=
  { g with ended := true, active := false, starved := none, parked := false,
           ops := g.ops.filter (fun o => o.path == .w || o.log.isSome) }

/-- Loads in flight write nothing in lanes that have ended (R318). -/
def Gang.dropLanes (g : Gang) (m : Mask) : Gang :=
  { g with ops := g.ops.map (fun (o : PendOp) => { o with writes := o.writes.filter (fun w => !m.getLsbD w.lane) }) }

/-- The effect of EXIT. -/
def exitEff (c : Cur) (s : State) : State :=
  let r := gangRefOf c.r
  match gangOf r s with
  | none => s
  | some g =>
    let (g1, k) := g.exitFrag c.r.frag
    let s1 := modGang r (fun _ => g1.dropLanes c.frag.mask) s
    let s2 := match k with | some k => completeSplit r k s1 | none => s1
    if g1.frags.isEmpty then settleGroup r.grp (vacate r (gangLeaves r (modGang r Gang.finish s2)))
    else if c.frag.inHandler then handlerFree r s2 else s2

/-- EXIT (R28, R318). -/
def execExit (p : Bool) (s : State) : Out := issue (.exit p) p (fun _ => .go) exitEff s

end Sys2Proof.Machine
end

