-- ==== Sys2Proof/Machine/Complete.lean ====
section
/-!
DEFINITION. Completion of what a gang has in flight: loads, stores, cache maintenance, logged atomics, copies and joint
instructions (R151, R156, R159, R164, R192, R227).
-/
namespace Sys2Proof.Machine

/-! Loads, atomics and special functions (R159). -/

/-- A live port leads to every peer the operation names, and a host link is up where it needs one (R286, R293). -/
def PendOp.reachable (o : PendOp) (s : State) : Bool :=
  o.ports.all (fun m => m &&& s.ports != 0#16) && (!o.hostLink || s.links != 0#2)

/-- The operation can complete now. -/
def PendOp.canComplete (o : PendOp) (s : State) : Bool := !o.done && o.path != .w && o.log.isNone && o.reachable s

/-- An operation of a gang is done, and retires with those before it. -/
def Gang.opDone (g : Gang) (op : Nat) : Gang :=
  ({ g with ops := g.ops.map (fun (x : PendOp) => if x.id = op then { x with done := true } else x) } : Gang).retired

/-- An operation of a gang by its number. -/
def opOf (g : GangRef) (op : Nat) (s : State) : Option (Gang × PendOp) :=
  (gangOf g s).bind (fun gg => (gg.ops.find? (fun o => o.id == op)).map (fun o => (gg, o)))

/-- The operation does not go on while its fragment is held by the fault of its refusal (R147, R239). -/
def Gang.refuses (g : Gang) (op : Nat) : Bool :=
  g.ops.any (fun o => o.id == op && o.refused
    && (match aget o.frag g.frags with | some f => (match f.hold with | .fault .. => true | _ => false) | none => false))

/-- A word of a result reaches its register: in the lanes of a parked fragment an operand-cache slot stays empty, since the park bit that
establishes the completion empties it (R99, R343). What an atomic returns is live at a restart, though the register was killed when its
region began (R36, R105, log entry 52). -/
def Gang.land (g : Gang) (o : PendOp) (w : RegWrite) : Gang :=
  if g.parked && g.parkMask.getLsbD w.lane && decide (112 ≤ w.reg) then g
  else
    let g1 := g.setReg w.reg w.lane w.val w.pois
    if o.commit then { g1 with dead := sput w.reg (sget w.reg g.dead &&& ~~~ laneBit w.lane) g.dead } else g1

/-- The result is written in every lane, and the operation is done (R159). -/
def Gang.deliver (g : Gang) (o : PendOp) : Gang :=
  let g1 := o.writes.foldl (fun g w => g.land o w) g
  let g2 := match o.sdst with
    | some d => (if o.spois then (g1.setS d o.sval).poisonS d else g1.setS d o.sval).noteS o.frag d o.sval o.spois
    | none => g1
  { (g2.opDone o.id) with
    reads := g.reads.filter (fun x => x.op != o.id)
    hist := { g.hist with seen := o.marks.foldl addMark g.hist.seen } }

/-- The context of a group's launch. -/
def ctxOf (g : Group) (s : State) : BitVec 6 := match aget g.launch s.launches with | some l => l.ctx | none => 0#6

/-- The loads in flight that may read bytes, by gang and operation: again, or, which must come, for the first time. -/
def rereads (s : State) : List (GangRef × Nat × Bool) :=
  s.groups.flatMap (fun e => e.2.gangs.flatMap (fun g => (g.2.reads.filter (fun x =>
    (rereadOf (ctxOf e.2 s) e.2.core g.2 x s).isSome)).map (fun x => (⟨e.1, g.1⟩, x.op, x.unread))))

/-- L1 gives up the copies that a load has read past, so that no later load finds an older value there (R170, R172). -/
def dropStale (core : Nat) (l1 : Option (BitVec 6)) (lns : List Nat) (s : State) : State :=
  match l1 with
  | some x => (lns.filter (fun ln => !l1Hit core x ln s)).foldl (fun s ln => evict core ln s) s
  | none => s

/-- A load in flight reads its bytes again, or for the first time. -/
def rereadNow (r : GangRef) (op : Nat) (s : State) : Out :=
  match aget r.grp s.groups, gangOf r s with
  | some g, some gg =>
    match gg.reads.find? (fun x => x.op == op) with
    | some x =>
      match rereadOf (ctxOf g s) g.core gg x s with
      | some (x', o') =>
        let first := x'.lines.filter (fun ln => !x.lines.contains ln)
        let s1 := modGang r (fun gg =>
          { gg with ops := gg.ops.map (fun o => if o.id = op then o' else o), reads := gg.reads.map (fun y => if y.op = op then x' else y) }) s
        evt (causedBy (ctxOf g s) op s
          (readAll r g.core x.l1 true first (dropStale g.core x.l1 (x'.lines.filter (fun ln => x.lines.contains ln)) s1)))
      | none => evt s
    | none => evt s
  | _, _ => evt s

/-- A peer has answered a load (R147): the lane has read its bytes there. -/
def answered (r : GangRef) (op lane : Nat) (p : Place) (n : Nat) (s : State) : State :=
  match aget r.grp s.groups, gangOf r s with
  | some g, some gg =>
    (match gg.reads.find? (fun x => x.op == op), gg.ops.find? (fun o => o.id == op && !o.done) with
     | some x, some o =>
       let x' := { x with seen := x.seen.map (fun y =>
         if y.lane = lane ∧ y.place = p ∧ y.len = n then { Seen.now x (ctxOf g s) g.core gg.sbuf lane (p, n) s with late := false } else y) }
       modGang r (fun gg =>
         { gg with ops := gg.ops.map (fun (y : PendOp) => if y.id = op then o.withReads x' else y)
                   reads := gg.reads.map (fun y => if y.op = op then x' else y) }) s
     | _, _ => s)
  | _, _ => s

/-- The operations in flight whose results may reach registers before they complete, by gang (R161). -/
def landings (s : State) : List (GangRef × Nat) :=
  s.groups.flatMap (fun e => e.2.gangs.flatMap (fun g =>
    (g.2.ops.filter (fun o => o.bound g.2 && !o.writes.isEmpty)).map (fun o => (⟨e.1, g.1⟩, o.id))))

/-- Words of an operation's result, free which, reach their registers before it completes: another instruction's write to one of them then
stands, and a load's lane of one is read again no more (R161). -/
def landNow (r : GangRef) (op : Nat) (s : State) : Out :=
  match opOf r op s with
  | some (gg, o) =>
    if o.bound gg then
      let now := fun (w : RegWrite) => Config.freeBool (2 ^ 137 * (s.clock + 1) + 4096 * op + 32 * w.reg + w.lane)
      let hit := fun (x : LateRead) (p : Seen) =>
        o.writes.any (fun w => now w && (w.lane == p.lane || (x.triple && w.lane / 4 == p.lane / 4)))
      evt (modGang r (fun g =>
        let g1 := (o.writes.filter now).foldl (fun g w => g.land o w) g
        { g1 with
          ops := g1.ops.map (fun (y : PendOp) => if y.id = op then { y with writes := y.writes.filter (fun w => !now w) } else y)
          reads := g1.reads.map (fun x =>
            if x.op = op then { x with seen := x.seen.map (fun p => if hit x p then { p with late := false } else p) } else x) }) s)
    else evt s
  | none => evt s

/-- A clamp of an XS atomic shows: of one that a DISCARD does not repeat, in SATF, into which the region start that comes with the
atomic folds what it sets (R34, R36, R75, R83, log entry 52); of a private one, in its fragment's pending flags, or, where that fragment
has exited, in SATF. -/
def satDelivered (g : GangRef) (commit : Bool) (frag : Nat) (s : State) : State :=
  match gangOf g s with
  | none => s
  | some gg =>
    if !commit && (aget frag gg.frags).isSome then pendSat { grp := g.grp, gang := g.gang, frag := frag } satXs s
    else modGang g (fun gg => { gg with
      satf := gg.satf ||| BitVec.ofNat 32 satXs
      book := { gg.book with swrote := gg.book.swrote.map (fun w => if w.reg = 64 + 0x04 then { w with val := w.val ||| BitVec.ofNat 64 satXs } else w) } }) s

/-- A fragment that waited for the result takes fault NIT (R54, R56), also while a group HOLD is under way: the instruction has issued (R234;
log entry 76). -/
def nitDelivered (g : GangRef) (op : Nat) (s : State) : State :=
  match gangOf g s with
  | none => s
  | some gg =>
    gg.frags.foldl (fun s e =>
      match e.2.hold with
      | .nitHalt o pc detail =>
        if o = op then
          (match curOf { grp := g.grp, gang := g.gang, frag := e.1 } s with
           | some c => takeFaultAt c pc c.frag.pc { cls := 0x05, detail := detail } s
           | none => s)
        else s
      | _ => s) s

/-- The read requests of a load that peers answer leave by the fabric (R147, R292). -/
def askReads (g : GangRef) (o : PendOp) (s : State) : State :=
  match (aget g.grp s.groups).bind (fun x => aget x.launch s.launches) with
  | some l => if o.isCmo then s else o.ranges.foldl (fun s r => askPeer l.ctx (.phys r.1) (fun va => .read va r.2) s) s
  | none => s

/-- A load, atomic or special function completes (R159). -/
def execLoadComplete (g : GangRef) (op : Nat) (s : State) : Out :=
  match opOf g op s with
  | some (gg, o) =>
    if o.canComplete s && !gg.refuses op && !gg.reads.any (fun x => x.op == op && x.unread) then
      let s1 := modGang g (fun gg => gg.deliver o) (askReads g o s)
      let s2 := if o.satXs then satDelivered g o.commit o.frag s1 else s1
      evt (settleGroup g.grp (nitDelivered g op s2))
    else evt s
  | none => evt s

/-! Stores (R151). -/

/-- The performance of a store reads its line: a fill, or a part of the first ECC word (R264, R402). -/
def SbEntry.readsLine (e : SbEntry) (s : State) : Option Nat :=
  match e.line with
  | .phys a => if a < peerBase ∧ writeReads (a / 128) e.cells s then some (a / 128) else none
  | .scr .. => none

/-- The oldest store of a gang can be performed: its link is up, no peer has refused it, and a release has nothing of its gang before it. -/
def SbEntry.canPerform (e : SbEntry) (g : Gang) (s : State) : Bool :=
  (match e.ports with | some m => m &&& s.ports != 0#16 | none => true) && (!e.hostLink || s.links != 0#2)
  && !g.refuses e.op && (e.rel.isNone || e.rel == some 0#3
    || (g.ops.all (fun o => o.log.isNone || decide (e.op < o.id)) && g.reads.all (fun x => !x.unread || decide (e.op < x.op))))

/-- The oldest entry has been acknowledged; its store is done when none of its entries is left. -/
def Gang.acked (g : Gang) (e : SbEntry) : Gang :=
  let g1 := Gang.ordered { g with sbuf := g.sbuf.tail } e.op (e.rel.map (fun (x : BitVec 3) => x.toNat))
  if g1.sbuf.any (fun x => x.op == e.op) then g1 else g1.opDone e.op

/-- The oldest store-buffer entry of a gang is performed and acknowledged (R151). -/
def execStoreAck (g : GangRef) (s : State) : Out :=
  match aget g.grp s.groups with
  | none => evt s
  | some grp =>
    match aget g.gang grp.gangs, aget grp.launch s.launches with
    | some gg, some l =>
      (match gg.sbuf with
       | [] => evt s
       | e :: _ =>
         if e.canPerform gg s then
           match e.readsLine s with
           | some ln =>
             if fatalLevel ln s != 0 then evt (memoryError l.name ln s)
             else evt (settleGroup g.grp (vacate g (modGang g (fun gg => gg.acked e)
               (causedBy l.ctx e.op s (performEntry e (fun _ => true) grp g.gang l (scrubLine ln s))))))
           | none => evt (settleGroup g.grp (vacate g (modGang g (fun gg => gg.acked e)
               (causedBy l.ctx e.op s (performEntry e (fun _ => true) grp g.gang l s)))))
         else evt s)
    | _, _ => evt s

/-! Cache maintenance (R156). -/

/-- A range names a line. -/
def inRanges (rs : List (Nat × Nat)) (ln : Nat) : Bool :=
  rs.any (fun r => decide (128 * ln < r.1 + r.2) && decide (r.1 < 128 * ln + 128))

/-- An earlier store of the gang to a line the CMO names is not yet acknowledged. -/
def PendOp.behindStore (o : PendOp) (g : Gang) : Bool :=
  g.sbuf.any (fun e => decide (e.op < o.id) &&
    (match e.line with | .phys a => inRanges o.ranges (a / 128) | .scr .. => false))

/-- A dirty copy that cannot be corrected. -/
def badDirty (ln : Nat) (l : AList CLine) : Bool :=
  match aget ln l with
  | some c => c.dirty && decide (2 ≤ c.flips)
  | none => false

/-- A core gives up its L1 copy of a line; no victim tag is left. -/
def dropL1 (core ln : Nat) (s : State) : State :=
  if (aget ln (coreOf core s).l1).isSome then modCore core (fun k => { k with l1 := aerase ln k.l1 }) s else s

/-- One line treated at a level and every level above it (R156). A write-back is a read of the line (R402). -/
def cmoLine (core level op : Nat) (s : State) (ln : Nat) : State :=
  let s1 := if op = 0 then s else dropL1 core ln s
  if level = 0 then s1
  else if badDirty ln s1.l2 then memoryErrorAt 1 ln 0#64 s1
  else
    let s2 := if op = 0 then cleanL2 ln s1 else dropL2 ln s1
    if level = 1 then s2
    else if badDirty ln s2.mirror then memoryErrorAt 2 ln 0#64 s2
    else if op = 0 then cleanMirror ln s2
    else dropMirror ln s2

/-- The lines of some ranges that a core's L1, the L2 or the Mirror holds. -/
def heldLines (core : Nat) (rs : List (Nat × Nat)) (s : State) : List Nat :=
  (nodup (akeys (coreOf core s).l1 ++ akeys s.l2 ++ akeys s.mirror)).filter (fun ln => inRanges rs ln)

/-- A CMO can be carried out: no earlier store of the gang to its lines is unacknowledged, and a link is up for the dirty host lines that
it writes back (R156, R286). -/
def PendOp.canTreat (o : PendOp) (core : Nat) (g : Gang) (s : State) : Bool :=
  o.isCmo && !o.done && !o.behindStore g && (o.cmoLevel == 0 || (heldLines core o.ranges s).all (fun ln => !backCutOff ln s))

/-- Every line a CMO names has been treated (R156). -/
def execCmoComplete (g : GangRef) (op : Nat) (s : State) : Out :=
  match opOf g op s, aget g.grp s.groups with
  | some (gg, o), some grp =>
    if o.canTreat grp.core gg s then
      let s1 := (heldLines grp.core o.ranges s).foldl (cmoLine grp.core o.cmoLevel o.cmoOp) s
      evt (settleGroup g.grp (modGang g (fun gg => gg.opDone op) s1))
    else evt s
  | _, _ => evt s

/-! Logged atomics (R227). -/

/-- A granted lane leaves the waiting ones with its result; the last one carries out the acquire. -/
def PendOp.granted (o : PendOp) (w : LogWait) (triple : Bool) (lane : Nat) (r : AmoRes) : PendOp :=
  let rest := w.lanes.filter (fun x => x.lane != lane)
  { o with
    writes := o.writes ++ (servedBy triple w.act lane).flatMap (fun m => wordsFrom w.dst m (w.size / 4) r.old r.pois)
    satXs := o.satXs || r.sat
    log := if rest.isEmpty then none else some { w with lanes := rest } }

/-- A waiting lane is granted: it holds the next record of its address, `rec` (R227), or its link is back, and a grant under RECORD
is recorded (R223). -/
def grantLane (g : GangRef) (o : PendOp) (w : LogWait) (x : LogLane) (rec : Option Nat) (grp : Group) (l : Launch) (s : State) : State :=
  let v := (w.operands.find? (fun e => e.1 == x.lane)).getD (0, 0, 0)
  let (s0, r) := amoAt (w.writer grp g.gang x.lane l) { by' := .gang g.grp g.gang, op := o.id, marks := w.pub } w.aop w.size (if w.virt then some x.va else none) x.place v.2.1 v.2.2
    (match rec with | some i => logConsume grp.launch i s | none => s)
  let s1 := causedBy l.ctx o.id s (if w.order = 3 then logGrant grp.launch x s0 else s0)
  let o' := { o.granted w l.kern.triple x.lane r with marks := o.marks ++ marksOf x.place w.size s }
  let s2 := modGang g (fun gg => { gg with ops := gg.ops.map (fun (y : PendOp) => if y.id = o.id then o' else y) }) s1
  match o'.log, w.acq with
  | none, some scope => acquireBy g grp.core l.ctx scope o.id o'.marks s2
  | _, _ => s2

/-- A waiting lane of a logged atomic comes to its turn, or proves to have none (R227). -/
def execLoggedAtomicGrant (g : GangRef) (op lane : Nat) (s : State) : Out :=
  match opOf g op s, aget g.grp s.groups with
  | some (gg, o), some grp =>
    (match o.log, aget grp.launch s.launches with
     | some w, some l =>
       (match w.lanes.find? (fun x => x.lane == lane) with
        | some x =>
          if o.reachable s && !gg.refuses op then
            match badOf (linesOf [(x.place, w.size)]) s with
            | .line ln => evt (memoryError l.name ln s)
            | _ =>
              if w.order ≠ 4 then
                (if (w.lanes.head?).map (fun y => y.lane) = some lane then evt (grantLane g o w x none grp l s) else evt s)
              else
                match logTurn l x s with
                | .absent => evt (stopLaunch grp.launch 4 s)
                | .later => evt s
                | .now rec => evt (grantLane g o w x (some rec) grp l (readLog l s))
          else evt s
        | none => evt s)
     | _, _ => evt s)
  | _, _ => evt s

/-- A logged lane has waited for more than 2^26 clocks: the launch has diverged (R227). -/
def execReplayWaitTimeout (g : GangRef) (op : Nat) (s : State) : Out :=
  match opOf g op s, aget g.grp s.groups with
  | some (_, o), some grp =>
    (match o.log with
     | some w => if w.order = 4 ∧ 2 ^ 26 < elapsed grp.core w.since s then evt (stopLaunch grp.launch 4 s) else evt s
     | none => evt s)
  | _, _ => evt s

/-! Engines. -/

/-- The copy engine of a core moves an element, or a whole chunk (R164). -/
def execCopyElementWrite (core copy : Nat) (s : State) : Out :=
  match (coreOf core s).copies.find? (fun c => c.id == copy) with
  | some c =>
    evt (causedBy c.ctx copy s (copyStep core copy (engineLine (c.xfer core s).launch c.ctx (copyStep core copy) 64) s))
  | none => evt s

/-- The matrix engine of a group completes a joint instruction, or one step of a drain (R192). -/
def execJointComplete (grp : Nat) (mismatches : BitVec 2) (s : State) : Out :=
  match aget grp s.groups with
  | some g =>
    match aget g.launch s.launches with
    | some l =>
      let s1 := jointStep grp mismatches.toNat (engineLine l.name l.ctx (jointStep grp mismatches.toNat) 64) s
      evt (settleGroup grp (match nextJoint grp s with | some op => causedBy l.ctx op.id s s1 | none => s1))
    | none => evt s
  | none => evt s

end Sys2Proof.Machine
end

