-- ==== Sys2Proof/Machine/Float.lean ====
section
/-!
DEFINITION. The floating-point rows of the A and B pipes, FDIV and the special functions (R319-R328, R339, R340).
-/
namespace Sys2Proof.Machine

/-- The float type codes (R118, R122). -/
inductive Fty where
  | f32 | f64 | f16x2 | bf16x2
  deriving DecidableEq, Repr

/-- A TY or FT code. -/
def Fty.of (n : Nat) : Fty := match n % 4 with | 0 => .f32 | 1 => .f64 | 2 => .f16x2 | _ => .bf16x2

/-- The format of an element. -/
def Fty.fmt : Fty → Fmt
  | .f32 => .f32
  | .f64 => .f64
  | .f16x2 => .f16
  | .bf16x2 => .bf16

/-- A 64-bit operand. -/
def Fty.wide (t : Fty) : Bool := t == .f64
/-- Two elements in a word (R301). -/
def Fty.packed (t : Fty) : Bool := t == .f16x2 || t == .bf16x2
/-- The elements of an operand. -/
def Fty.elems (t : Fty) : List Nat := if t.packed then [0, 1] else [0]
/-- What ix stands for (R116). -/
def Fty.ix : Fty → IxKind
  | .f32 => .f32
  | .f64 => .f64
  | .f16x2 => .h2
  | .bf16x2 => .h2

/-- Element j of a value (R301). -/
def Fty.el (t : Fty) (x j : Nat) : Nat := if t.packed then x / 2 ^ (16 * j) % 65536 else x

/-- The value with the given elements. -/
def Fty.pack (t : Fty) (h : Nat → Nat) : Nat := if t.packed then h 0 + 65536 * h 1 else h 0

/-- The draw of a lane's quad (R40). -/
def Cur.draw (c : Cur) (l : Nat) : Nat :=
  carousel (c.bigT l) (c.gang.quad (l / 4)).icount.toNat c.lau.r.seed.toNat

/-- RoundMode (R301, R41, R44). -/
def Cur.roundMode (c : Cur) (x : Pfx) (l j : Nat) : Rm :=
  let q := c.gang.quad (l / 4)
  let ref := match pfxOverride x with | some r => Rm.of r | none => Rm.of q.rnd
  if !c.triple || l % 4 == 3 || !q.dodraw then ref
  else if (c.draw l).testBit (l % 4 + 8 * (j % 2) + 4 * (j / 2)) then .ru else .rd

/-- MODE.FTZ of a lane's quad. -/
def Cur.ftz (c : Cur) (l : Nat) : Bool := (c.gang.quad (l / 4)).ftz

/-- An element of a source as a float instruction reads it: SMOD, then FlushIn (R301). -/
def Fty.read (t : Fty) (c : Cur) (l : Nat) (smod : Nat) (o : Operand) (j : Nat) : Nat :=
  t.fmt.flush (c.ftz l) (t.fmt.smod smod (t.el (o.val c l) j))

/-- SMOD as it bears on srcA. -/
def smodA (x : Pfx) : Nat := if pfxSmod x = 2 then 0 else pfxSmod x
/-- SMOD as it bears on srcC (R113). -/
def smodC (x : Pfx) : Nat := if pfxSmod x = 2 then 1 else 0

/-- A rounded and flushed element (R301). -/
def Fty.put (t : Fty) (c : Cur) (x : Pfx) (l j : Nat) (v : Rm → Xr) : Nat :=
  let m := c.roundMode x l j
  t.fmt.flush (c.ftz l) (t.fmt.round m (v m))

/-- ilogb of a finite non-zero value. -/
def Fv.log : Fv → Option Int
  | .fin s m e => if m = 0 then none else some (Fv.fin s m e).dy.ilogb
  | _ => none

/-- The loss of a cancellation, or none where no event may be raised (R51). -/
def cancelLoss (f : Fmt) (u w : Fv) (r : Nat) : Option Int :=
  let bad : Fv → Bool := fun v => match v with | .fin .. => false | _ => true
  if bad u || bad w || bad (f.dec r) then none
  else
    match u.log, w.log with
    | none, none => none
    | lu, lw =>
      match (f.dec r).log with
      | none => some f.p
      | some k => some (max (lu.getD (lw.getD 0)) (lw.getD (lu.getD 0)) - k)

/-- The CANCEL events of an instruction (R51): `ops` gives the addends of an element on a lane. -/
def cancelHits (t : Fty) (g : Guard) (ops : Cur → Nat → Nat → Fv × Fv) (f : LaneFn) (c : Cur) : List NitHit :=
  if c.triple then
    (quadsIn (c.act g)).flatMap (fun q =>
      if (c.gang.quad q).sib then
        t.elems.filterMap (fun j =>
          let uw := ops c (4 * q + 3) j
          match cancelLoss t.fmt uw.1 uw.2 (t.el (f c (4 * q + 3)).1 j) with
          | none => none
          | some loss =>
            let dig := digitsOf t.fmt (t.el (f c (4 * q)).1 j) (t.el (f c (4 * q + 1)).1 j) (t.el (f c (4 * q + 2)).1 j)
            if ((c.gang.nitcfg.toNat / 256 % 64 : Nat) : Int) ≤ loss ∧ dig < c.gang.nitcfg.toNat / 65536 % 64 then
              some { quad := q, elem := j, digits := dig, loss := loss.toNat }
            else none)
      else [])
  else []

/-! FADD, FSUB, FMUL, FFMA, FSCALE (R319). -/

/-- The addends of FADD and FSUB. -/
def addends (neg : Bool) (t : Fty) (b : Bin) (c : Cur) (l j : Nat) : Fv × Fv :=
  let u := t.fmt.dec (t.read c l (smodA b.x) b.a j)
  let w := t.fmt.dec (t.read c l 0 b.b j)
  (u, if neg then w.neg else w)

/-- A lane of FADD and FSUB. -/
def addLane (neg : Bool) (t : Fty) (b : Bin) : LaneFn := fun c l =>
  (t.pack (fun j => t.put c b.x l j (fun m => fvAdd m (addends neg t b c l j).1 (addends neg t b c l j).2)), 0)

/-- FADD and FSUB. -/
def runAdd (neg : Bool) (t : Fty) (b : Bin) (s : State) : Out :=
  (b.vop t.wide true).run true (addLane neg t b) 1
    (cancelHits t (pfxGuard b.x) (addends neg t b) (addLane neg t b)) s

/-- A lane of FMUL. -/
def mulLane (t : Fty) (b : Bin) : LaneFn := fun c l =>
  (t.pack (fun j => t.put c b.x l j (fun _ =>
    (fvMul (t.fmt.dec (t.read c l (smodA b.x) b.a j)) (t.fmt.dec (t.read c l 0 b.b j))).xr)), 0)

/-- FMUL. -/
def runMul (t : Fty) (b : Bin) (s : State) : Out := (b.vop t.wide true).run true (mulLane t b) 1 noHits s

/-- The addends of FFMA: the exact product and c. -/
def fmaAddends (t : Fty) (b : Bin) (cc : Operand) (c : Cur) (l j : Nat) : Fv × Fv :=
  (fvMul (t.fmt.dec (t.read c l (smodA b.x) b.a j)) (t.fmt.dec (t.read c l 0 b.b j)),
   t.fmt.dec (t.read c l (smodC b.x) cc j))

/-- A lane of FFMA. -/
def fmaLane (t : Fty) (b : Bin) (cc : Operand) : LaneFn := fun c l =>
  (t.pack (fun j => t.put c b.x l j (fun m => fvAdd m (fmaAddends t b cc c l j).1 (fmaAddends t b cc c l j).2)), 0)

/-- FFMA. -/
def runFma (t : Fty) (i : Instr) (o : A3) (s : State) : Out :=
  let b : Bin := { i := i, p := o.p, x := o.x, a := operand o.x .srcC t.ix o.a t.wide o.da,
                   b := operand o.x .srcC t.ix o.b t.wide o.db, dst := o.d }
  let cc := operandC o.x o.d t.wide
  { (b.vop t.wide true) with srcs := [b.a, b.b, cc] }.run true (fmaLane t b cc) 1
    (cancelHits t (pfxGuard o.x) (fmaAddends t b cc) (fmaLane t b cc)) s

/-- A lane of FSCALE. -/
def scaleLane (t : Fty) (b : Bin) : LaneFn := fun c l =>
  (t.pack (fun j => t.put c b.x l j (fun _ =>
    fvScale (t.fmt.dec (t.read c l (smodA b.x) b.a j))
      (if t.packed then sint (b.b.val c l / 2 ^ (16 * j)) 16 else sint (b.b.val c l) 32))), 0)

/-- FSCALE: srcB is an integer, one register even for F64. -/
def runScale (t : Fty) (i : Instr) (o : A3) (s : State) : Out :=
  let b : Bin := { a3Bin i o t.ix t.wide with
    b := operand o.x .sx (if t.packed then .s16x2 else .int) o.b false o.db }
  (b.vop t.wide true).run true (scaleLane t b) 1 noHits s

/-- A lane of FMIN and FMAX (R326). -/
def minMaxLane (mx : Bool) (t : Fty) (b : Bin) : LaneFn := fun c l =>
  (t.pack (fun j => t.fmt.minMax mx (t.read c l (smodA b.x) b.a j) (t.read c l 0 b.b j)), 0)

/-- FMIN and FMAX. -/
def runMinMax (mx : Bool) (t : Fty) (b : Bin) (s : State) : Out :=
  (b.vop t.wide true).run true (minMaxLane mx t b) 1 noHits s

/-- The type of an A3 row from its prefix. -/
def ftyA3 (o : A3) : Fty := Fty.of (pfxTy o.x)

/-- An A3 float instruction's sources. -/
def fBin (i : Instr) (o : A3) (t : Fty) : Bin := a3Bin i o t.ix t.wide

/-- FADD (R319). -/
def execFadd (o : A3) : State → Out := runAdd false (ftyA3 o) (fBin (.fadd o) o (ftyA3 o))
/-- FSUB (R319). -/
def execFsub (o : A3) : State → Out := runAdd true (ftyA3 o) (fBin (.fsub o) o (ftyA3 o))
/-- FMUL (R319). -/
def execFmul (o : A3) : State → Out := runMul (ftyA3 o) (fBin (.fmul o) o (ftyA3 o))
/-- FFMA (R319). -/
def execFfma (o : A3) : State → Out := runFma (ftyA3 o) (.ffma o) o
/-- FMIN (R326). -/
def execFmin (o : A3) : State → Out := runMinMax false (ftyA3 o) (fBin (.fmin o) o (ftyA3 o))
/-- FMAX (R326). -/
def execFmax (o : A3) : State → Out := runMinMax true (ftyA3 o) (fBin (.fmax o) o (ftyA3 o))
/-- FSCALE (R319). -/
def execFscale (o : A3) : State → Out := runScale (ftyA3 o) (.fscale o) o
/-- FADD.F64 (R319). -/
def execFaddF64 (o : A3) : State → Out := runAdd false .f64 (fBin (.faddF64 o) o .f64)
/-- FSUB.F64 (R319). -/
def execFsubF64 (o : A3) : State → Out := runAdd true .f64 (fBin (.fsubF64 o) o .f64)
/-- FMUL.F64 (R319). -/
def execFmulF64 (o : A3) : State → Out := runMul .f64 (fBin (.fmulF64 o) o .f64)
/-- FFMA.F64 (R319). -/
def execFfmaF64 (o : A3) : State → Out := runFma .f64 (.ffmaF64 o) o
/-- FADD, 16-bit (R110). -/
def execFadd16 (s5 : BitVec 5) (d6 : BitVec 6) : State → Out := runAdd false .f32 (halfBin (.fadd16 s5 d6) s5 d6)
/-- FSUB, 16-bit (R110). -/
def execFsub16 (s5 : BitVec 5) (d6 : BitVec 6) : State → Out := runAdd true .f32 (halfBin (.fsub16 s5 d6) s5 d6)
/-- FMUL, 16-bit (R110). -/
def execFmul16 (s5 : BitVec 5) (d6 : BitVec 6) : State → Out := runMul .f32 (halfBin (.fmul16 s5 d6) s5 d6)
/-- FMAX, 16-bit (R110). -/
def execFmax16 (s5 : BitVec 5) (d6 : BitVec 6) : State → Out := runMinMax true .f32 (halfBin (.fmax16 s5 d6) s5 d6)

/-- FCMP (R321). -/
def execFcmp (cond : BitVec 4) (pd : BitVec 3) (o : C3) (s : State) : Out :=
  let t := Fty.of (pfxTy o.x)
  let a := operand o.x .sx t.ix o.a t.wide o.da
  let b := operand o.x .sx t.ix o.b t.wide o.db
  VCmp.run { i := .fcmp cond pd o, p := o.p, x := o.x, srcs := [a, b], pd := pd }
    (fun c l => fcond cond.toNat (t.fmt.dec (t.read c l (smodA o.x) a 0)) (t.fmt.dec (t.read c l 0 b 0))) s

/-! FUN, ITOF (R316, R320, R327, R328, R340). -/

/-- An AF instruction of one source. -/
def afOp (i : Instr) (o : AF) (k : IxKind) (swide dwide fp : Bool) : VOp :=
  { i := i, p := o.p, x := o.x, srcs := [operand o.x .unused k o.a swide o.da], dst := o.d, wide := dwide, fp := fp }

/-- The source of an AF instruction in a lane. -/
def VOp.src (v : VOp) (c : Cur) (l : Nat) : Nat := match v.srcs with | a :: _ => a.val c l | [] => 0

/-- FRND (R327). -/
def execFrnd (ft rc : BitVec 2) (o : AF) (s : State) : Out :=
  let t := Fty.of ft.toNat
  let v := afOp (.frnd ft rc o) o t.ix t.wide t.wide true
  v.run true (fun c l => (t.pack (fun j =>
    t.fmt.frnd (Rm.of rc) (t.fmt.flush (c.ftz l) (t.fmt.smod (smodA o.x) (t.el (v.src c l) j)))), 0)) 1 noHits s

/-- FCLASS (R320). -/
def execFclass (ft : BitVec 2) (o : AF) (s : State) : Out :=
  let t := Fty.of ft.toNat
  let v := afOp (.fclass ft o) o t.ix t.wide false true
  v.run true (fun c l => (t.pack (fun j => t.fmt.fclass (t.el (v.src c l) j)), 0)) 1 noHits s

/-- DIGITS (R316, R46, R47). Under MODE.SIB = 1 a TRIPLE quad reads its siblings alone; under MODE.SIB = 0 its four lanes receive the
reference lane's count (R20, R300; log entry 56). -/
def execDigits (ft : BitVec 2) (o : AF) (s : State) : Out :=
  let t := Fty.of ft.toNat
  let v := afOp (.digits ft o) o t.ix t.wide false true
  let el : Cur → Nat → Nat → Nat := fun c l j => t.fmt.smod (smodA o.x) (t.el (v.src c l) j)
  v.runPre
    (fun c =>
      let reads := (lanesIn (c.act (pfxGuard o.x))).filter (fun l =>
        c.computes true l && !(c.triple && (c.gang.quad (l / 4)).sib && l % 4 == 3))
      preOf (v.srcs.all (fun a => a.ok c.regs) && dstOk c.regs o.d false)
        (c.guardPoisoned (pfxGuard o.x) || reads.any (fun l => v.srcs.any (fun a => a.poisoned c l))))
    (fun c l => (t.pack (fun j =>
      if c.triple && (c.gang.quad (l / 4)).sib then
        digitsOf t.fmt (el c (l / 4 * 4) j) (el c (l / 4 * 4 + 1) j) (el c (l / 4 * 4 + 2) j)
      else digitsOne t.fmt (el c l j)), 0)) 1 noHits s

/-- The range of an FTOI target (R70). -/
def IntFmtRange : IntFmt → Int × Int
  | .s32 => (-2147483648, 2147483647)
  | .n32 => (0, 4294967295)
  | .s64 => (-9223372036854775808, 9223372036854775807)
  | .n64 => (0, 18446744073709551615)

/-- An FTOI target is a pair. -/
def intWide (it : IntFmt) : Bool := it == .s64 || it == .n64

/-- FTOI (R328). -/
def execFtoi (it : IntFmt) (f64 : Bool) (rc : BitVec 2) (o : AF) (s : State) : Out :=
  let t : Fty := if f64 then .f64 else .f32
  let v := afOp (.ftoi it f64 rc o) o t.ix f64 (intWide it) true
  v.run true (fun c l =>
    let r := fvToInt (Rm.of rc) (IntFmtRange it).1 (IntFmtRange it).2
      (t.fmt.dec (t.fmt.flush (c.ftz l) (t.fmt.smod (smodA o.x) (v.src c l))))
    (wrapTo 64 r.1, if r.2 then satCvt else 0)) 1 noHits s

/-- ITOF (R340). -/
def execItof (it : BitVec 3) (ft : BitVec 2) (o : AF) (s : State) : Out :=
  let t := Fty.of ft.toNat
  let wide := it == 2#3 || it == 3#3
  let v := afOp (.itof it ft o) o .int wide t.wide true
  v.run true (fun c l =>
    (t.pack (fun j =>
      let x := v.src c l
      let n : Int := match it.toNat with
        | 0 => sint x 32
        | 1 => x
        | 2 => sint x 64
        | 3 => x
        | 4 => sint (x / 2 ^ (16 * j)) 16
        | _ => ((x / 2 ^ (16 * j) % 65536 : Nat) : Int)
      t.fmt.round (c.roundMode o.x l j) (intXr n 0)), 0)) 1 noHits s

/-! FCVT (R322-R324). -/

/-- The format of a code of R122. -/
def fcvtFmt (n : BitVec 3) : Fmt :=
  match n.toNat with | 0 => .f32 | 1 => .f64 | 2 => .f16 | 3 => .bf16 | 4 => .e4m3 | _ => .e5m2

/-- The number of elements an FCVT converts, and the bit offsets of element 0 in source and destination (R322). -/
def fcvtShape (dst src : BitVec 3) (h : Bool) : Nat × Nat × Nat :=
  let k := if h then 16 else 0
  match fcvtClass dst, fcvtClass src with
  | 0, 0 => (1, 0, 0)
  | 1, 0 => (1, 0, k)
  | 0, 1 => (1, k, 0)
  | 1, 1 => (2, 0, 0)
  | 2, 0 => (2, 0, k)
  | 2, 1 => (2, 0, k)
  | 1, 2 => (2, k, 0)
  | 0, 2 => (2, k, 0)
  | _, _ => (4, 0, 0)

/-- SAT of a prefix. -/
def pfxSat : Pfx → Bool
  | .xo x => x.sat
  | _ => false

/-- One converted element and whether SATF.FP8 is set (R323, R69). -/
def fcvtElem (fs fd : Fmt) (sat ftz : Bool) (m : Rm) (x : Nat) : Nat × Bool :=
  let v := (fs.dec (fs.flush ftz x)).xr
  let r := if sat then fd.roundSat m v else (fd.round m v, false)
  (fd.flush ftz r.1, r.2)

/-- The destination keeps the parts an FCVT does not write (R322). -/
def fcvtKeeps (dst src : BitVec 3) : Bool :=
  (fcvtClass dst == 1 && fcvtClass src == 0) || (fcvtClass dst == 2 && decide (fcvtClass src ≤ 1))

/-- The bits an FCVT keeps: the other half of the word. -/
def fcvtKept (dst src : BitVec 3) (h : Bool) : Nat :=
  if fcvtKeeps dst src then (if h then 0xFFFF else 0xFFFF0000) else 0

/-- FCVT between float formats (R322, R323). -/
def execFcvt (dst src : BitVec 3) (h : Bool) (o : AF) (s : State) : Out :=
  let fs := fcvtFmt src
  let fd := fcvtFmt dst
  let sh := fcvtShape dst src h
  let swide := src == 1#3 || (fcvtClass dst == 2 && fcvtClass src == 0)
  let dwide := dst == 1#3 || (fcvtClass dst == 0 && fcvtClass src == 2)
  let v : VOp := { afOp (.fcvt dst src h o) o .int swide dwide true with kept := fcvtKept dst src h }
  v.run true (fun c l =>
    (List.range sh.1).foldl (fun acc i =>
        let pos := sh.2.2 + fd.w * i
        let r := fcvtElem fs fd (pfxSat o.x) (c.ftz l) (c.roundMode o.x l (pos / fd.w))
          (v.src c l / 2 ^ (sh.2.1 + fs.w * i) % 2 ^ fs.w)
        (acc.1 + r.1 * 2 ^ pos, if r.2 then acc.2 ||| satFp8 else acc.2))
      (0, 0)) 1 noHits s

/-- The exponent scalar of the XS forms of FCVT, as a source of its own (R324). -/
def expScalar (x : Pfx) : Operand :=
  { spec := 126, wide := true, dead := false, sx := match x with | .xo y => some (y.srcc.setWidth 6) | _ => none, ix := none }

/-- FCVT to XS (R324). -/
def execFcvtToXs (src : BitVec 3) (o : AF) (s : State) : Out :=
  let f := fcvtFmt src
  let v := afOp (.fcvtToXs src o) o .int (src == 1#3) true true
  { v with srcs := v.srcs ++ [expScalar o.x] }.run true (fun c l =>
    let r := toXs (f.dec (v.src c l)) (sint ((expScalar o.x).val c l) 16)
    (wrapTo 64 r.1, if r.2 then satXs else 0)) 1 noHits s

/-- FCVT from XS (R324, R84). -/
def execFcvtFromXs (dst : BitVec 3) (o : AF) (s : State) : Out :=
  let f := fcvtFmt dst
  let v := afOp (.fcvtFromXs dst o) o .int true (dst == 1#3) true
  { v with srcs := v.srcs ++ [expScalar o.x] }.run true (fun c l =>
    (f.round (c.roundMode o.x l 0) (intXr (sint (v.src c l) 64) (sint ((expScalar o.x).val c l) 16)), 0)) 1 noHits s

/-! FDIV and the special functions (R325). -/

/-- The DIVZ events (R53): a divisor sibling that is zero, NaN or infinite, or siblings that count no digit. -/
def divzHits (t : Fty) (g : Guard) (divisor : Cur → Nat → Nat → Nat) (c : Cur) : List NitHit :=
  if c.triple then
    (quadsIn (c.act g)).flatMap (fun q =>
      if (c.gang.quad q).sib then
        t.elems.filterMap (fun j =>
          let xs := [0, 1, 2].map (fun k => divisor c (4 * q + k) j)
          if digitsOf t.fmt (xs.getD 0 0) (xs.getD 1 0) (xs.getD 2 0) = 0
              ∨ xs.any (fun x => x % t.fmt.sgn == 0) then
            some { quad := q, elem := j, digits := 0, loss := 0 }
          else none)
      else [])
  else []

/-- FDIV (R325). -/
def execFdiv (o : A3) (s : State) : Out :=
  let t := ftyA3 o
  let b := fBin (.fdiv o) o t
  (b.vop t.wide true).runLater .x (fun c l =>
      (t.pack (fun j => t.put c o.x l j (fun _ =>
        fvDiv (t.fmt.dec (t.read c l (smodA o.x) b.a j)) (t.fmt.dec (t.read c l 0 b.b j)))), 0))
    3 (divzHits t (pfxGuard o.x) (fun c l j => t.read c l 0 b.b j)) s

/-- The XSF row: one source, a function of R72, and whether it raises DIVZ. -/
def runXsf (i : Instr) (ft : BitVec 2) (o : AF) (f : Fv → Xr) (divz : Bool) (s : State) : Out :=
  let t := Fty.of ft.toNat
  let a := operand o.x .sx t.ix o.a t.wide o.da
  let v : VOp := { i := i, p := o.p, x := o.x, srcs := [a], dst := o.d, wide := t.wide, fp := true }
  v.runLater .x (fun c l =>
      (t.pack (fun j => t.put c o.x l j (fun _ => f (t.fmt.dec (t.read c l (smodA o.x) a j)))), 0))
    3 (fun c => if divz then divzHits t (pfxGuard o.x) (fun c l j => t.read c l (smodA o.x) a j) c else []) s

/-- 1 / x (R72). -/
def fvRcp (a : Fv) : Xr := fvDiv (.fin false 1 0) a

/-- FRCP (R325). -/
def execFrcp (ft : BitVec 2) (o : AF) : State → Out := runXsf (.frcp ft o) ft o fvRcp true
/-- FRSQ (R325). -/
def execFrsq (ft : BitVec 2) (o : AF) : State → Out := runXsf (.frsq ft o) ft o fvRsqrt true
/-- FSQRT (R325). -/
def execFsqrt (ft : BitVec 2) (o : AF) : State → Out := runXsf (.fsqrt ft o) ft o fvSqrt false
/-- FEXP2 (R325). -/
def execFexp2 (ft : BitVec 2) (o : AF) : State → Out := runXsf (.fexp2 ft o) ft o fvExp2 false
/-- FLOG2 (R325). -/
def execFlog2 (ft : BitVec 2) (o : AF) : State → Out := runXsf (.flog2 ft o) ft o fvLog2 false
/-- FSINPI (R325). -/
def execFsinpi (ft : BitVec 2) (o : AF) : State → Out := runXsf (.fsinpi ft o) ft o fvSinpi false
/-- FCOSPI (R325). -/
def execFcospi (ft : BitVec 2) (o : AF) : State → Out := runXsf (.fcospi ft o) ft o fvCospi false

end Sys2Proof.Machine
end

