-- ==== Sys2Proof/Machine/Functions.lean ====
section
/-!
DEFINITION. Virtual functions (R289-R291) and the world switch between time-sliced ones (R233).
-/
namespace Sys2Proof.Machine

/-! Enabling and disabling (R290). -/

/-- VFCTLn. -/
def vfCtl (n : Nat) (s : State) : DWord := mreg 0 (0x2000 + 32 * n) s
/-- VFCLn. -/
def vfClusters (n : Nat) (s : State) : DWord := mreg 0 (0x2008 + 32 * n) s
/-- VFCTXn. -/
def vfContexts (n : Nat) (s : State) : DWord := mreg 0 (0x2010 + 32 * n) s

/-- A write that would set EN of a function is refused. -/
def vfRefused (n : Nat) (val : BitVec 64) (s : State) : Bool :=
  let others := ((List.range 16).map (· + 1)).filter (fun m => m != n && vfOn m s)
  others.any (fun m => vfContexts m s &&& vfContexts n s != 0#64)
    || (val.getLsbD 62 && (vfClusters n s == 0#64
        || others.any (fun m => partitioned m s && vfClusters m s &&& vfClusters n s != 0#64)))

/-- The fields of VFCTLn but EN. -/
def vfFields (val : BitVec 64) : DWord := val &&& 0x400000000000FFFF#64

/-- The groups of other functions on the cores of a function that has just become a partitioned one are discarded (R291, log entry 39). -/
def clearCores (n : Nat) (s : State) : State :=
  if partitioned n s then
    discardAll ((s.groups.filter (fun e => !e.2.ended && fnOf e.2.launch s != n && coreServes n e.2.core s)).map Prod.fst) s
  else s

/-- VF_ENABLE: a write of VFCTLn with EN set. A refused write writes nothing. -/
def execVfEnable (n : Nat) (val : BitVec 64) (s : State) : Out :=
  if n = 0 ∨ 16 < n ∨ vfOn n s ∨ vfRefused n val s then evt s
  else evt (clearCores n (setMreg 0 (0x2000 + 32 * n) (vfFields val ||| 0x8000000000000000#64) s))

/-- The launches of a function whose groups are gone complete. -/
def finishAll (fn : Nat) (s : State) : State :=
  if completing s then
    ((s.launches.filter (fun e => e.2.fn == fn && launchOver e.1 s)).map Prod.fst).foldl (fun s k =>
      match aget k s.launches with | some l => finishLaunch k l s | none => s) s
  else s

/-- A function has a launch to run. -/
def hasWork (fn : Nat) (s : State) : Bool :=
  s.launches.any (fun e => e.2.fn == fn) || (List.range 64).any (fun q => queueTakes fn q s)

/-- The function takes turns: the PF, or an enabled time-sliced VF. -/
def sliced (fn : Nat) (s : State) : Bool := fn == 0 || (vfOn fn s && !partitioned fn s)

/-- Whose turn comes next: the first in the order PF, then VFs in rising n, that has a launch to run; else nobody's. -/
def nextSlice (s : State) : Option Nat :=
  ((List.range 17).map (fun i => (s.sliceFn + 1 + i) % 17)).find? (fun fn => sliced fn s && hasWork fn s)

/-- The contexts of a virtual function end, and its launches complete; where it had the turn, the next function has it (R291). -/
def disableVf (n : Nat) (s : State) : State :=
  let s1 := ((List.range 63).filter (fun i => (vfContexts n s).getLsbD (i + 1))).foldl
    (fun s i => endContext (BitVec.ofNat 6 (i + 1)) s) s
  let s2 := finishAll n s1
  let s3 := setMreg 0 (0x2000 + 32 * n) (vfCtl n s2 &&& ~~~ 0x8000000000000000#64) s2
  if s3.sliceFn = n then { s3 with switching := false, sliceFn := (nextSlice s3).getD 0, sliceStart := (cycleAt 0 s3).toNat } else s3

/-- VF_DISABLE: a write of VFCTLn with EN clear. PART and SLICE keep their values where the function was enabled. -/
def execVfDisable (n : Nat) (val : BitVec 64) (s : State) : Out :=
  if n = 0 ∨ 16 < n then evt s
  else if vfOn n s then evt (disableVf n s)
  else evt (setMreg 0 (0x2000 + 32 * n) (vfFields val) s)

/-! The world switch (R233, R291). -/

/-- The length of a function's slice in clocks (R289). -/
def sliceLength (fn : Nat) (s : State) : Nat :=
  let v := (mreg 0 (if fn = 0 then 0x2018 else 0x2000 + 32 * fn) s).toNat % 65536
  65536 * max v 1

/-- The turn of the present function is over, and another one's comes. -/
def sliceOver (s : State) : Bool :=
  !s.switching && s.power == .d0 && !s.dispatchFrozen
    && (match nextSlice s with | some fn => fn != s.sliceFn | none => false)
    && decide (sliceLength s.sliceFn s ≤ elapsed 0 s.sliceStart s)

/-- The resident groups of a function. -/
def residentGroups (fn : Nat) (s : State) : List Nat :=
  (s.groups.filter (fun e => fnOf e.2.launch s == fn)).map Prod.fst

/-- The outgoing function has left its cores. -/
def switchReady (s : State) : Bool := s.switching && (residentGroups s.sliceFn s).isEmpty

/-- The next function's turn begins. Counter sessions are registers of their functions, and stay with them (R281). -/
def beginSlice (s : State) : State :=
  { s with switching := false, sliceFn := (nextSlice s).getD s.sliceFn, sliceStart := (cycleAt 0 s).toNat }

/-- WORLD_SWITCH: the outgoing function's groups are discarded, waiting for the save pool where they must; then the next
function's turn begins. -/
def execWorldSwitch (s : State) : Out :=
  let s1 := if sliceOver s then discardAll ((residentGroups s.sliceFn s).filter (fun k =>
      match aget k s.groups with | some g => !g.ended | none => false)) { s with switching := true } else s
  evt (if switchReady s1 then beginSlice s1 else s1)

end Sys2Proof.Machine
end

