-- ==== Sys2Proof/Machine/Int.lean ====
section
/-!
DEFINITION. The integer arithmetic rows of the A and B pipes (R329-R338) and the saturating forms (R74).
-/
namespace Sys2Proof.Machine

/-- An integer type (R73, R118): element width, signedness, operand width. -/
structure Ity where
  e : Nat
  signed : Bool
  deriving DecidableEq, Repr

/-- A TY code of the integer rows (R118). -/
def Ity.of (n : Nat) : Ity :=
  { e := match n / 2 with | 0 => 32 | 1 => 64 | 2 => 16 | _ => 8, signed := n % 2 == 0 }

/-- A 64-bit operand. -/
def Ity.wide (t : Ity) : Bool := t.e == 64

/-- What ix stands for (R116). -/
def Ity.ix (t : Ity) : IxKind := match t.e with | 16 => .s16x2 | 8 => .s8x4 | _ => .int

/-- The elements of an operand. -/
def Ity.elems (t : Ity) : List Nat := match t.e with | 16 => [0, 1] | 8 => [0, 1, 2, 3] | _ => [0]

/-- Elem (R329). -/
def Ity.el (t : Ity) (x j : Nat) : Int :=
  if t.signed then sint (x / 2 ^ (t.e * j)) t.e else ((x / 2 ^ (t.e * j) % 2 ^ t.e : Nat) : Int)

/-- The least value of an element. -/
def Ity.lo (t : Ity) : Int := if t.signed then -((2 ^ (t.e - 1) : Nat) : Int) else 0
/-- The largest value of an element. -/
def Ity.hi (t : Ity) : Int := if t.signed then ((2 ^ (t.e - 1) : Nat) : Int) - 1 else ((2 ^ t.e : Nat) : Int) - 1

/-- Sat (R74, R329): the clamped value and whether the clamp changed it. -/
def Ity.sat (t : Ity) (v : Int) : Int × Bool := satInt t.lo t.hi v

/-- Elementwise: an operation on two elements that says whether it clamped, the result wrapped to the element. -/
def elementwise (t : Ity) (flag : Nat) (op : Nat → Int → Int → Int × Bool) (a b : Nat) : Nat × Nat :=
  t.elems.foldl (fun acc j =>
    let r := op j (t.el a j) (t.el b j)
    (acc.1 + wrapTo t.e r.1 * 2 ^ (t.e * j), if r.2 then acc.2 ||| flag else acc.2)) (0, 0)

/-- An elementwise integer instruction. -/
def runInt (t : Ity) (flag : Nat) (op : Nat → Int → Int → Int × Bool) (b : Bin) (s : State) : Out :=
  (b.vop t.wide false).run true (fun c l => elementwise t flag op (b.a.val c l) (b.b.val c l)) 1 noHits s

/-- An operation that wraps. -/
def wraps (f : Int → Int → Int) : Nat → Int → Int → Int × Bool := fun _ a b => (f a b, false)

/-- The type of an integer row from its prefix. -/
def ityOf (x : Pfx) : Ity := Ity.of (pfxTy x)

/-- An A3 integer instruction's sources. -/
def intBin (i : Instr) (o : A3) : Bin := a3Bin i o (ityOf o.x).ix (ityOf o.x).wide

/-- An I-format integer instruction's sources. -/
def intBinI (i : Instr) (o : IF) : Bin := iBin i o (ityOf o.x).ix (ityOf o.x).wide

/-- S32. -/
def ityS32 : Ity := { e := 32, signed := true }

/-- IADD (R332). -/
def execIadd (o : A3) : State → Out := runInt (ityOf o.x) 0 (wraps (fun a b => a + b)) (intBin (.iadd o) o)
/-- ISUB (R332). -/
def execIsub (o : A3) : State → Out := runInt (ityOf o.x) 0 (wraps (fun a b => a - b)) (intBin (.isub o) o)
/-- IMUL (R332). -/
def execImul (o : A3) : State → Out := runInt (ityOf o.x) 0 (wraps (fun a b => a * b)) (intBin (.imul o) o)
/-- IMIN (R332). -/
def execImin (o : A3) : State → Out := runInt (ityOf o.x) 0 (wraps min) (intBin (.imin o) o)
/-- IMAX (R332). -/
def execImax (o : A3) : State → Out := runInt (ityOf o.x) 0 (wraps max) (intBin (.imax o) o)
/-- IADD, I form (R332). -/
def execIaddI (o : IF) : State → Out := runInt (ityOf o.x) 0 (wraps (fun a b => a + b)) (intBinI (.iaddI o) o)
/-- IMUL, I form (R332). -/
def execImulI (o : IF) : State → Out := runInt (ityOf o.x) 0 (wraps (fun a b => a * b)) (intBinI (.imulI o) o)
/-- IADD, 16-bit (R110). -/
def execIadd16 (s5 : BitVec 5) (d6 : BitVec 6) : State → Out :=
  runInt ityS32 0 (wraps (fun a b => a + b)) (halfBin (.iadd16 s5 d6) s5 d6)
/-- ISUB, 16-bit (R110). -/
def execIsub16 (s5 : BitVec 5) (d6 : BitVec 6) : State → Out :=
  runInt ityS32 0 (wraps (fun a b => a - b)) (halfBin (.isub16 s5 d6) s5 d6)
/-- IMUL, 16-bit (R110). -/
def execImul16 (s5 : BitVec 5) (d6 : BitVec 6) : State → Out :=
  runInt ityS32 0 (wraps (fun a b => a * b)) (halfBin (.imul16 s5 d6) s5 d6)
/-- IMIN, 16-bit (R110). -/
def execImin16 (s5 : BitVec 5) (d6 : BitVec 6) : State → Out :=
  runInt ityS32 0 (wraps min) (halfBin (.imin16 s5 d6) s5 d6)
/-- IMAX, 16-bit (R110). -/
def execImax16 (s5 : BitVec 5) (d6 : BitVec 6) : State → Out :=
  runInt ityS32 0 (wraps max) (halfBin (.imax16 s5 d6) s5 d6)

/-- IADDS (R333). -/
def execIadds (o : A3) : State → Out :=
  runInt (ityOf o.x) satAdd (fun _ a b => (ityOf o.x).sat (a + b)) (intBin (.iadds o) o)
/-- ISUBS (R333). -/
def execIsubs (o : A3) : State → Out :=
  runInt (ityOf o.x) satAdd (fun _ a b => (ityOf o.x).sat (a - b)) (intBin (.isubs o) o)

/-- IMULH (R337): the upper half of the exact product. -/
def execImulh (o : A3) : State → Out :=
  runInt (ityOf o.x) 0 (wraps (fun a b => a * b / ((2 ^ (ityOf o.x).e : Nat) : Int))) (intBin (.imulh o) o)

/-- RoundShift (R74): floor of a + 2^(n-1) over 2^n, or a left shift clamped to the element. -/
def roundShift (t : Ity) (a n : Int) : Int × Bool :=
  if 0 < n then ((a + ((2 ^ (n.toNat - 1) : Nat) : Int)) / ((2 ^ n.toNat : Nat) : Int), false)
  else if n = 0 then (a, false)
  else t.sat (a * ((2 ^ (-n).toNat : Nat) : Int))

/-- ISHRR (R338): the count is the low 6 bits, or the low 5 of each element. -/
def execIshrr (o : A3) : State → Out :=
  let t := ityOf o.x
  runInt t satShr (fun _ a b => roundShift t a (sint (wrapTo 32 b) (if t.e = 32 then 6 else 5))) (intBin (.ishrr o) o)

/-- Sources of a row that reads a third one. -/
def intBinC (i : Instr) (o : A3) (t : Ity) : Bin :=
  { i := i, p := o.p, x := o.x, a := operand o.x .srcC t.ix o.a t.wide o.da,
    b := operand o.x .srcC t.ix o.b t.wide o.db, dst := o.d }

/-- IMAD (R337). -/
def execImad (o : A3) (s : State) : Out :=
  let t := ityOf o.x
  let b := intBinC (.imad o) o t
  let cc := operandC o.x o.d t.wide
  { (b.vop t.wide false) with srcs := [b.a, b.b, cc] }.run true (fun c l =>
    (wrapTo t.e (t.el (b.a.val c l) 0 * t.el (b.b.val c l) 0 + t.el (cc.val c l) 0), 0)) 1 noHits s

/-- IDOT2 (R336): TY 0 reads S16X2 into S32, TY 5 N16X2 into N32. -/
def execIdot2 (o : A3) (s : State) : Out :=
  let sg := pfxTy o.x == 0
  let t : Ity := { e := 16, signed := sg }
  let d : Ity := { e := 32, signed := sg }
  let b := intBinC (.idot2 o) o t
  let cc := operandC o.x o.d false
  { (b.vop false false) with srcs := [b.a, b.b, cc] }.run true (fun c l =>
    let x := b.a.val c l
    let y := b.b.val c l
    let r := d.sat (d.el (cc.val c l) 0 + t.el x 0 * t.el y 0 + t.el x 1 * t.el y 1)
    (wrapTo 32 r.1, if r.2 then satDot else 0)) 1 noHits s

/-- Half of PKS: the elements of one source, clamped to half their width (R353). -/
def packHalf (t d : Ity) (x : Nat) : Nat × Nat :=
  t.elems.foldl (fun acc j =>
    let r := d.sat (t.el x j)
    (acc.1 + wrapTo d.e r.1 * 2 ^ (d.e * j), if r.2 then satPk else acc.2)) (0, 0)

/-- PKS (R353). -/
def execPks (o : A3) (s : State) : Out :=
  let t := ityOf o.x
  let d : Ity := { e := t.e / 2, signed := t.signed }
  let b := intBin (.pks o) o
  (b.vop false false).run true (fun c l =>
    let x := packHalf t d (b.a.val c l)
    let y := packHalf t d (b.b.val c l)
    (x.1 + 65536 * y.1, x.2 ||| y.2)) 1 noHits s

/-! Compares (R335). -/

/-- ICMP's condition (R121). -/
def icond (c : Nat) (a b : Int) : Bool :=
  match c with
  | 0 => a == b
  | 1 => a != b
  | 2 => decide (a < b)
  | 3 => decide (a ≤ b)
  | 4 => decide (b < a)
  | _ => decide (b ≤ a)

/-- ICMP (R335). -/
def execIcmp (cond : BitVec 4) (pd : BitVec 3) (o : C3) (s : State) : Out :=
  let t := ityOf o.x
  let a := operand o.x .sx t.ix o.a t.wide o.da
  let b := operand o.x .sx t.ix o.b t.wide o.db
  VCmp.run { i := .icmp cond pd o, p := o.p, x := o.x, srcs := [a, b], pd := pd }
    (fun c l => icond cond.toNat (t.el (a.val c l) 0) (t.el (b.val c l) 0)) s

/-- ICMP, I form (R335). -/
def execIcmpI (cond : BitVec 4) (pd : BitVec 3) (o : CI) (s : State) : Out :=
  let t := ityOf o.x
  let a := operand o.x .unused t.ix o.a t.wide false
  VCmp.run { i := .icmpI cond pd o, p := o.p, x := o.x, srcs := [a], pd := pd }
    (fun c l => icond cond.toNat (t.el (a.val c l) 0) (t.el (immOf o.imm o.x) 0)) s

end Sys2Proof.Machine
end

