-- ==== Sys2Proof/Machine/Lane.lean ====
section
/-!
DEFINITION. The lane-exchange rows of pipe M (R50, R76, R317, R346, R359-R363, R371, R375, R376, R383).
-/
namespace Sys2Proof.Machine

/-- A lane-exchange instruction (R359): its destination is a register and no latch is pushed. `reads` names the words
that reach a lane; `path` is the path it counts on, if any. -/
def runExch (o : VOp) (ok : Cur → Bool) (reads : Cur → Nat → List (Operand × Nat)) (path : Option Path) (f : LaneFn)
    (s : State) : Out :=
  issueFrom o.srcs o.i o.p
    (fun c =>
      let g := pfxGuard o.x
      (preOf (o.srcs.all (fun a => a.ok c.regs) && regOk c.regs o.dst.toNat o.wide && ok c)
        (c.guardPoisoned g || (lanesIn (c.act g)).any (fun l => (reads c l).any (fun r => r.1.poisoned c r.2)))).andThen
        (match path with | none => .go | some p => c.pathFull p))
    (fun c s =>
      match path with
      | none => pendSat c.r (o.sats c f) (modGang (gangRefOf c.r) (o.write false c f) s)
      | some p =>
        let a := c.act (pfxGuard o.x)
        (addOp c (fun id => { PendOp.blank id p c.r.frag with writes := o.words c f })
          (modGang (gangRefOf c.r) (fun g => o.srcs.foldl (fun g s => g.killSrc s a) g) s)).2) s

/-- No limit beyond the operands' own. -/
def anyLaunch : Cur → Bool := fun _ => true

/-- An exchange whose lanes each take one word of one source: `src` is the lane it comes from. -/
def runTake (i : Instr) (o : AF) (wide : Bool) (src : Nat → Nat) (s : State) : Out :=
  let a := operand o.x .sx .int o.a wide o.da
  runExch { i := i, p := o.p, x := o.x, srcs := [a], dst := o.d, wide := wide } anyLaunch (fun _ l => [(a, src l)]) none
    (fun c l => (a.val c (src l), 0)) s

/-- QSWAP (R360). -/
def execQswap (w : Bool) (sel : BitVec 2) (o : AF) : State → Out :=
  runTake (.qswap w sel o) o w (fun l => l / 4 * 4 + (l % 4 ^^^ sel.toNat))

/-- QBCAST (R360). -/
def execQbcast (w : Bool) (sel : BitVec 2) (o : AF) : State → Out :=
  runTake (.qbcast w sel o) o w (fun l => l / 4 * 4 + sel.toNat)

/-- The lane SHFL takes a lane's word from (R371, R50). -/
def shflSrc (b : Operand) (c : Cur) (l : Nat) : Nat :=
  if c.triple then 4 * (b.val c (refLane l) % 8) + l % 4 else b.val c l % 32

/-- SHFL (R371). -/
def execShfl (o : A3) (s : State) : Out :=
  let a := operand o.x .sx .int o.a false o.da
  let b := operand o.x .sx .int o.b false o.db
  runExch { i := .shfl o, p := o.p, x := o.x, srcs := [a, b], dst := o.d, wide := false } anyLaunch
    (fun c l => [(b, c.ref l), (a, shflSrc b c l)]) (some .s) (fun c l => (a.val c (shflSrc b c l), 0)) s

/-- A place in the sequence of two registers that SLIDE reads: the second register, and the lane (R376). TRIPLE slides
by quads. -/
def slideSrc (up : Bool) (dist : Nat) (c : Cur) (l : Nat) : Bool × Nat :=
  let n := if c.triple then 4 * dist else dist
  if up then (decide (l < n), (l + 32 - n) % 32) else (decide (32 ≤ l + n), (l + n) % 32)

/-- A distance within its limit (R375). -/
def slideOkDist (dist : Nat) (c : Cur) : Bool := !c.triple || decide (dist ≤ 8)

/-- SLIDE filled from the next register (R375, R376). -/
def runSlide (i : Instr) (up : Bool) (dist : Nat) (o : SlideF) (s : State) : Out :=
  let a := operand o.x .unused .int o.a false false
  let f : Operand := { a with spec := o.a.toNat + 1 }
  let fits := decide (o.a.toNat < 119) && o.a.toNat != 111
  let from_ := fun c l => let r := slideSrc up dist c l; (if r.1 then f else a, r.2)
  runExch { i := i, p := o.p, x := o.x, srcs := [a, f], dst := o.d, wide := false } (fun c => fits && slideOkDist dist c)
    (fun c l => [from_ c l]) (some .s) (fun c l => ((from_ c l).1.val c (from_ c l).2, 0)) s

/-- SLIDE.DOWN (R376). -/
def execSlideDown (dist : BitVec 5) (o : SlideF) : State → Out := runSlide (.slideDown dist o) false dist.toNat o
/-- SLIDE.UP (R376). -/
def execSlideUp (dist : BitVec 5) (o : SlideF) : State → Out := runSlide (.slideUp dist o) true dist.toNat o

/-- SLIDE filled from a scalar (R375, R376). -/
def execSlideFill (up : Bool) (dist : BitVec 5) (fill : BitVec 6) (o : SlideF) (s : State) : Out :=
  let a := operand o.x .unused .int o.a false false
  let f : Operand := { spec := 126, wide := false, dead := false, sx := some fill, ix := none }
  let from_ := fun c l => let r := slideSrc up dist.toNat c l; (if r.1 then f else a, r.2)
  runExch { i := .slideFill up dist fill o, p := o.p, x := o.x, srcs := [a], dst := o.d, wide := false }
    (fun c => decide (o.a.toNat < 126) && slideOkDist dist.toNat c)
    (fun c l => [from_ c l]) (some .s) (fun c l => ((from_ c l).1.val c (from_ c l).2, 0)) s

/-- MATCH (R346, R50): in TRIPLE the reference lanes' keys. -/
def execMatch (w : Bool) (o : AF) (s : State) : Out :=
  let a := operand o.x .sx .int o.a w o.da
  runExch { i := .match w o, p := o.p, x := o.x, srcs := [a], dst := o.d, wide := false } anyLaunch
    (fun c l => [(a, c.ref l)]) (some .s)
    (fun c l => (bitsOf (fun m => (c.act (pfxGuard o.x)).getLsbD m && a.val c (c.ref m) == a.val c (c.ref l)) 32, 0)) s

/-! REDUX (R76, R362, R363). -/

/-- Two lanes' values combined; an empty lane passes its partner through (R76). The flag says whether a step clamped. -/
def combine (f : Nat → Nat → Nat × Bool) : Option (Nat × Bool) → Option (Nat × Bool) → Option (Nat × Bool)
  | none, b => b
  | a, none => a
  | some a, some b => let r := f a.1 b.1; some (r.1, a.2 || b.2 || r.2)

/-- The tree of R76: `f` is the operation at a lane, `ds` the distances. -/
def reduxTree (f : Nat → Nat → Nat → Nat × Bool) : List Nat → List (Option (Nat × Bool)) → List (Option (Nat × Bool))
  | [], v => v
  | d :: ds, v => reduxTree f ds ((List.range d).map (fun l => combine (f l) (v.getD l none) (v.getD (l + d) none)))

/-- The integer steps of REDUX (R362). -/
def reduxInt (op : Nat) (t : Ity) (a b : Nat) : Nat × Bool :=
  let u := t.el a 0
  let w := t.el b 0
  match op with
  | 0 => (wrapTo t.e (u + w), false)
  | 1 => (wrapTo t.e (min u w), false)
  | 2 => (wrapTo t.e (max u w), false)
  | 3 => (a &&& b, false)
  | 4 => (a ||| b, false)
  | 5 => (a ^^^ b, false)
  | _ => let r := t.sat (u + w); (wrapTo t.e r.1, r.2)

/-- The quad whose MODE and draw govern a REDUX (R76). -/
def Cur.leadQuad (c : Cur) : Nat := (quadsIn c.frag.exec).headD 0

/-- The float steps of REDUX at a position (R76, R362). -/
def reduxFloat (op : Nat) (t : Fty) (x : Pfx) (c : Cur) (l a b : Nat) : Nat × Bool :=
  let lead := 4 * c.leadQuad + l % 4
  let rd := fun v j => t.fmt.flush (c.ftz lead) (t.el v j)
  (t.pack (fun j =>
    match op with
    | 7 => t.put c x lead j (fun m => fvAdd m (t.fmt.dec (rd a j)) (t.fmt.dec (rd b j)))
    | 8 => t.fmt.minMax false (rd a j) (rd b j)
    | _ => t.fmt.minMax true (rd a j) (rd b j)), false)

/-- A float REDUX in TRIPLE under MODE.SIB = 0: position 3 stands for all (R76). -/
def reduxRefOnly (op : Nat) (c : Cur) : Bool := decide (7 ≤ op) && c.triple && !(c.gang.quad c.leadQuad).sib

/-- REDUX (R362, R363). -/
def execRedux (op : BitVec 4) (ty : BitVec 3) (o : AF) (s : State) : Out :=
  let fl := decide (7 ≤ op.toNat)
  let wide := if fl then (Fty.of ty.toNat).wide else (Ity.of ty.toNat).wide
  let a := operand o.x .unused .int o.a wide o.da
  let step := fun c l u w => if fl then reduxFloat op.toNat (Fty.of ty.toNat) o.x c (if c.triple then l else 3) u w
                             else reduxInt op.toNat (Ity.of ty.toNat) u w
  let tree := fun c => reduxTree (step c) (if c.triple then [16, 8, 4] else [16, 8, 4, 2, 1])
    (lanes.map (fun l => if (c.act (pfxGuard o.x)).getLsbD l then some (a.val c l, false) else none))
  runExch { i := .redux op ty o, p := o.p, x := o.x, srcs := [a], dst := o.d, wide := wide } anyLaunch
    (fun c l => if reduxRefOnly op.toNat c then [(a, refLane l)] else [(a, l)]) none
    (fun c l =>
      match (tree c).getD (if c.triple then (if reduxRefOnly op.toNat c then 3 else l % 4) else 0) none with
      | some r => (r.1, if r.2 then satAdd else 0)
      | none => (0, 0)) s

/-! Votes and election (R317, R383). -/

/-- An instruction that reads a predicate in EXEC and writes what `f` says, where EXEC is not zero. -/
def runVote (i : Instr) (ps : Option (BitVec 3)) (p : Bool) (f : Cur → Gang → Gang) (s : State) : Out :=
  issue i p
    (fun c => preOf true (match ps with | some n => c.frag.exec != 0#32 && c.gang.ppoisoned n | none => false))
    (fun c s => if c.frag.exec = 0#32 then s else modGang (gangRefOf c.r) (f c) s) s

/-- VOTE.ANY (R383). -/
def execVoteAny (ps pd : BitVec 3) (p : Bool) : State → Out :=
  runVote (.voteAny ps pd p) (some ps) p (fun c g =>
    g.setP pd c.frag.exec (if c.gang.pr ps &&& c.frag.exec != 0#32 then 0xFFFFFFFF#32 else 0#32))
/-- VOTE.ALL (R383). -/
def execVoteAll (ps pd : BitVec 3) (p : Bool) : State → Out :=
  runVote (.voteAll ps pd p) (some ps) p (fun c g =>
    g.setP pd c.frag.exec (if c.gang.pr ps &&& c.frag.exec == c.frag.exec then 0xFFFFFFFF#32 else 0#32))
/-- VOTE.BAL (R383). -/
def execVoteBal (ps : BitVec 3) (sd : BitVec 6) (p : Bool) : State → Out :=
  runVote (.voteBal ps sd p) (some ps) p (fun c g => g.setSBy c.r.frag sd ((c.gang.pr ps &&& c.frag.exec).setWidth 64))

/-- The lanes ELECT chooses (R317, R50). -/
def Cur.elected (c : Cur) : Mask :=
  match (lanesIn c.frag.exec).find? (fun l => !c.helper l) with
  | none => 0#32
  | some l => if c.triple then quadMask (l / 4) else laneBit l

/-- ELECT (R317). -/
def execElect (pd : BitVec 3) (p : Bool) : State → Out :=
  runVote (.elect pd p) none p (fun c g => g.setP pd c.frag.exec c.elected)

/-! READLN, WRITELN (R361). -/

/-- READLN (R361): `sl` is the scalar the lane comes from, `lane` the lane. -/
def runReadln (i : Instr) (x : Pfx) (a : BitVec 7) (sd : BitVec 6) (da p : Bool) (sl : Option (BitVec 6))
    (lane : Cur → Nat) (s : State) : Out :=
  let o := operand x .sx .int a false da
  let from_ := fun c => c.ref (lane c)
  issue i p
    (fun c =>
      let acts := c.act (pfxGuard x) != 0#32
      preOf (o.ok c.regs) (c.guardPoisoned (pfxGuard x) || (acts && (o.poisoned c (from_ c) ||
        (match sl with | some n => c.spoisoned n | none => false)))))
    (fun c s =>
      let m := c.act (pfxGuard x)
      if m = 0#32 then s
      else modGang (gangRefOf c.r) (fun g => (g.killSrc o m).setSBy c.r.frag sd (BitVec.ofNat 64 (o.val c (from_ c)))) s) s

/-- READLN with an immediate lane. -/
def execReadlnImm (lane : BitVec 5) (a : BitVec 7) (sd : BitVec 6) (da p : Bool) (x : Pfx) : State → Out :=
  runReadln (.readlnImm lane a sd da p x) x a sd da p none (fun _ => lane.toNat)
/-- READLN with the lane in a scalar. -/
def execReadlnScalar (sl : BitVec 6) (a : BitVec 7) (sd : BitVec 6) (da p : Bool) (x : Pfx) : State → Out :=
  runReadln (.readlnScalar sl a sd da p x) x a sd da p (some sl) (fun c => (c.s sl).toNat % 32)

/-- WRITELN (R361). -/
def runWriteln (i : Instr) (x : Pfx) (sa : BitVec 6) (d : BitVec 7) (p : Bool) (sl : Option (BitVec 6))
    (lane : Cur → Nat) (s : State) : Out :=
  let hit := fun (c : Cur) l => if c.triple then l / 4 == lane c / 4 else l == lane c
  issue i p
    (fun c =>
      let a := c.act (pfxGuard x)
      preOf (regOk c.regs d.toNat false)
        (c.guardPoisoned (pfxGuard x) || (a != 0#32 && (match sl with | some n => c.spoisoned n | none => false))
          || ((lanesIn a).any (hit c) && c.spoisoned sa)))
    (fun c s => modGang (gangRefOf c.r) (fun g =>
      ((lanesIn (c.act (pfxGuard x))).filter (hit c)).foldl (fun g l => g.setReg d.toNat l ((c.s sa).setWidth 32) false) g) s) s

/-- WRITELN with an immediate lane. -/
def execWritelnImm (lane : BitVec 5) (sa : BitVec 6) (d : BitVec 7) (p : Bool) (x : Pfx) : State → Out :=
  runWriteln (.writelnImm lane sa d p x) x sa d p none (fun _ => lane.toNat)
/-- WRITELN with the lane in a scalar. -/
def execWritelnScalar (sl : BitVec 6) (sa : BitVec 6) (d : BitVec 7) (p : Bool) (x : Pfx) : State → Out :=
  runWriteln (.writelnScalar sl sa d p x) x sa d p (some sl) (fun c => (c.s sl).toNat % 32)

end Sys2Proof.Machine
end

