-- ==== Sys2Proof/Machine/Logic.lean ====
section
/-!
DEFINITION. Moves, logic, shifts, bit fields, selection and permutation (R305, R308, R312, R330, R350, R352, R355, R357,
R369, R370).
-/
namespace Sys2Proof.Machine

/-- The width of a TY 0 or TY 2 row. -/
def bitsWide (ty : Nat) : Bool := ty == 2
/-- Its number of bits. -/
def bitsW (ty : Nat) : Nat := if bitsWide ty then 64 else 32

/-- A one-source IUN instruction on 32 or 64 bits. -/
def runIun (i : Instr) (ty : BitVec 3) (o : AF) (f : Nat → Nat → Nat) (s : State) : Out :=
  let v : VOp := { i := i, p := o.p, x := o.x, srcs := [operand o.x .unused .int o.a (bitsWide ty.toNat) o.da],
                   dst := o.d, wide := bitsWide ty.toNat }
  v.run true (fun c l => (f (bitsW ty.toNat) (match v.srcs with | a :: _ => a.val c l | [] => 0), 0)) 1 noHits s

/-- The bits of a number in reverse order. -/
def revBits (w x : Nat) : Nat := bitsOf (fun i => x.testBit (w - 1 - i)) w

/-- MOV (R350). -/
def execMov (ty : BitVec 3) (o : AF) : State → Out := runIun (.mov ty o) ty o (fun _ a => a)
/-- NOT (R352). -/
def execNot (ty : BitVec 3) (o : AF) : State → Out := runIun (.not ty o) ty o (fun w a => 2 ^ w - 1 - a % 2 ^ w)
/-- POPC (R355). -/
def execPopc (ty : BitVec 3) (o : AF) : State → Out := runIun (.popc ty o) ty o (fun w a => countBits a w)
/-- CLZ (R312). -/
def execClz (ty : BitVec 3) (o : AF) : State → Out :=
  runIun (.clz ty o) ty o (fun w a => if a % 2 ^ w = 0 then w else w - 1 - Nat.log2 (a % 2 ^ w))
/-- BREV (R312). -/
def execBrev (ty : BitVec 3) (o : AF) : State → Out := runIun (.brev ty o) ty o revBits

/-- IABS (R330). -/
def execIabs (ty : BitVec 3) (o : AF) (s : State) : Out :=
  let t := Ity.of ty.toNat
  let v : VOp := { i := .iabs ty o, p := o.p, x := o.x, srcs := [operand o.x .unused t.ix o.a t.wide o.da],
                   dst := o.d, wide := t.wide }
  v.run true (fun c l => elementwise t 0 (wraps (fun a _ => (a.natAbs : Int)))
    (match v.srcs with | a :: _ => a.val c l | [] => 0) 0) 1 noHits s

/-- MOV, 16-bit (R110): the destination is no source. -/
def execMov16 (s5 : BitVec 5) (d6 : BitVec 6) (s : State) : Out :=
  let b := halfBin (.mov16 s5 d6) s5 d6
  { (b.vop false false) with srcs := [b.b] }.run true (fun c l => (b.b.val c l, 0)) 1 noHits s

/-- A bitwise instruction on 32 or 64 bits (R305, R352). -/
def runBits (b : Bin) (wide : Bool) (f : Nat → Nat → Nat) (s : State) : Out :=
  (b.vop wide false).run true (fun c l => (f (b.a.val c l) (b.b.val c l), 0)) 1 noHits s

/-- Sources of a logical A3 row. -/
def bitBin (i : Instr) (o : A3) : Bin := a3Bin i o .int (bitsWide (pfxTy o.x))
/-- Sources of a logical I row. -/
def bitBinI (i : Instr) (o : IF) : Bin := iBin i o .int (bitsWide (pfxTy o.x))

/-- AND (R305). -/
def execAnd (o : A3) : State → Out := runBits (bitBin (.and o) o) (bitsWide (pfxTy o.x)) (· &&& ·)
/-- OR (R352). -/
def execOr (o : A3) : State → Out := runBits (bitBin (.or o) o) (bitsWide (pfxTy o.x)) (· ||| ·)
/-- XOR (R352). -/
def execXor (o : A3) : State → Out := runBits (bitBin (.xor o) o) (bitsWide (pfxTy o.x)) (· ^^^ ·)
/-- AND, I form (R305). -/
def execAndI (o : IF) : State → Out := runBits (bitBinI (.andI o) o) (bitsWide (pfxTy o.x)) (· &&& ·)
/-- OR, I form (R352). -/
def execOrI (o : IF) : State → Out := runBits (bitBinI (.orI o) o) (bitsWide (pfxTy o.x)) (· ||| ·)
/-- XOR, I form (R352). -/
def execXorI (o : IF) : State → Out := runBits (bitBinI (.xorI o) o) (bitsWide (pfxTy o.x)) (· ^^^ ·)
/-- AND, 16-bit (R110). -/
def execAnd16 (s5 : BitVec 5) (d6 : BitVec 6) : State → Out := runBits (halfBin (.and16 s5 d6) s5 d6) false (· &&& ·)
/-- OR, 16-bit (R110). -/
def execOr16 (s5 : BitVec 5) (d6 : BitVec 6) : State → Out := runBits (halfBin (.or16 s5 d6) s5 d6) false (· ||| ·)
/-- XOR, 16-bit (R110). -/
def execXor16 (s5 : BitVec 5) (d6 : BitVec 6) : State → Out := runBits (halfBin (.xor16 s5 d6) s5 d6) false (· ^^^ ·)

/-- The shifts (R369). -/
inductive Shift where
  | left | right | arith
  deriving DecidableEq, Repr

/-- A shift of w bits; the count acts modulo w (R369). -/
def shiftBy (k : Shift) (w a n : Nat) : Nat :=
  match k with
  | .left => a * 2 ^ (n % w) % 2 ^ w
  | .right => a % 2 ^ w / 2 ^ (n % w)
  | .arith => wrapTo w (sint a w / ((2 ^ (n % w) : Nat) : Int))

/-- A shift instruction; its count is one 32-bit operand (R369). -/
def runShift (k : Shift) (wide : Bool) (b : Bin) (s : State) : Out :=
  runBits b wide (shiftBy k (if wide then 64 else 32)) s

/-- Sources of a shift, A3 form. -/
def shiftBin (i : Instr) (o : A3) : Bin :=
  { (a3Bin i o .int (bitsWide (pfxTy o.x))) with b := operand o.x .sx .int o.b false o.db }

/-- SHL (R369). -/
def execShl (o : A3) : State → Out := runShift .left (bitsWide (pfxTy o.x)) (shiftBin (.shl o) o)
/-- SHR (R369). -/
def execShr (o : A3) : State → Out := runShift .right (bitsWide (pfxTy o.x)) (shiftBin (.shr o) o)
/-- SAR (R369). -/
def execSar (o : A3) : State → Out := runShift .arith (bitsWide (pfxTy o.x)) (shiftBin (.sar o) o)
/-- SHL, I form (R369). -/
def execShlI (o : IF) : State → Out := runShift .left (bitsWide (pfxTy o.x)) (bitBinI (.shlI o) o)
/-- SHR, I form (R369). -/
def execShrI (o : IF) : State → Out := runShift .right (bitsWide (pfxTy o.x)) (bitBinI (.shrI o) o)
/-- SAR, I form (R369). -/
def execSarI (o : IF) : State → Out := runShift .arith (bitsWide (pfxTy o.x)) (bitBinI (.sarI o) o)
/-- SHL, 16-bit (R110). -/
def execShl16 (s5 : BitVec 5) (d6 : BitVec 6) : State → Out := runShift .left false (halfBin (.shl16 s5 d6) s5 d6)
/-- SHR, 16-bit (R110). -/
def execShr16 (s5 : BitVec 5) (d6 : BitVec 6) : State → Out := runShift .right false (halfBin (.shr16 s5 d6) s5 d6)
/-- SAR, 16-bit (R110). -/
def execSar16 (s5 : BitVec 5) (d6 : BitVec 6) : State → Out := runShift .arith false (halfBin (.sar16 s5 d6) s5 d6)

/-- BFX on w bits (R308): b gives position and length. -/
def bfxOf (signed : Bool) (w a b : Nat) : Nat :=
  let len := min (b / 256 % 256) w
  if len = 0 then 0
  else
    let f := if signed then wrapTo len (sint a w / ((2 ^ (b % 256) : Nat) : Int)) else a % 2 ^ w / 2 ^ (b % 256) % 2 ^ len
    if signed then wrapTo w (sint f len) else f

/-- BFI on w bits (R308). -/
def bfiOf (w a b c : Nat) : Nat :=
  let len := min (b / 256 % 256) w
  let m := (2 ^ len - 1) * 2 ^ (b % 256) % 2 ^ w
  (c - (c &&& m)) + (a * 2 ^ (b % 256) &&& m)

/-- BFX (R308). -/
def execBfx (o : A3) (s : State) : Out :=
  let t := ityOf o.x
  let b : Bin := { (a3Bin (.bfx o) o .int t.wide) with b := operand o.x .sx .int o.b false o.db }
  (b.vop t.wide false).run true (fun c l => (bfxOf t.signed t.e (b.a.val c l) (b.b.val c l), 0)) 1 noHits s

/-- BFI (R308). -/
def execBfi (o : A3) (s : State) : Out :=
  let t := ityOf o.x
  let a := operand o.x .srcC .int o.a t.wide o.da
  let b := operand o.x .srcC .int o.b false o.db
  let cc := operandC o.x o.d t.wide
  let v : VOp := { i := .bfi o, p := o.p, x := o.x, srcs := [a, b, cc], dst := o.d, wide := t.wide }
  v.run true (fun c l => (bfiOf t.e (a.val c l) (b.val c l) (cc.val c l), 0)) 1 noHits s

/-- SEL (R370): the guard fields of its prefix name the selector. -/
def execSel (o : A3) (s : State) : Out :=
  let w := bitsWide (pfxTy o.x)
  let b := a3Bin (.sel o) o .int w
  let g := pfxGuard o.x
  let v : VOp := { (b.vop w false) with x := Pfx.none }
  v.runPre (fun c => preOf (v.srcs.all (fun a => a.ok c.regs) && dstOk c.regs o.d w && o.x != Pfx.none)
      (c.guardPoisoned g || c.poison false (pfxGuard Pfx.none) v.srcs))
    (fun c l => (if (c.gang.pr g.pg).getLsbD l != g.pn then b.a.val c l else b.b.val c l, 0)) 1 noHits s

/-- PRMT's bytes (R357). -/
def permute (a b c : Nat) : Nat :=
  (List.range 4).foldl (fun acc k =>
    let sel := c / 16 ^ k % 16
    let x := (a % 2 ^ 32 + 2 ^ 32 * b) / 256 ^ (sel % 8) % 256
    acc + (if 8 ≤ sel then (if 128 ≤ x then 255 else 0) else x) * 256 ^ k) 0

/-- PRMT (R357): its prefix is required. -/
def execPrmt (o : A3) (s : State) : Out :=
  let b : Bin := { i := .prmt o, p := o.p, x := o.x, a := operand o.x .srcC .int o.a false o.da,
                   b := operand o.x .srcC .int o.b false o.db, dst := o.d }
  let cc := operandC o.x o.d false
  { (b.vop false false) with srcs := [b.a, b.b, cc] }.run (o.x != Pfx.none)
    (fun c l => (permute (b.a.val c l) (b.b.val c l) (cc.val c l), 0)) 1 noHits s

end Sys2Proof.Machine
end

