-- ==== Sys2Proof/Machine/Reliability.lean ====
section
/-!
DEFINITION. Error injection (R401, R402), uncorrectable errors (R261, R264), self-test (R266) and the Ringmaster's
restart (R269, R270).
-/
namespace Sys2Proof.Machine

/-! Injection (R401, R402). -/

/-- Bits flipped in a word that already has some flipped: which ones is not stated, so their number is free within what it can be. -/
def flipMore (old new step : Nat) : Nat :=
  if old = 0 then new else old + new - 2 * (Config.pick step (min old new + 1) % (min old new + 1))

/-- A line as the level of an injection holds it: held, and dirty. -/
def heldAt (level ln : Nat) (s : State) : Bool × Bool :=
  if isRetired (128 * ln) s then (false, false)
  else
    match level with
    | 1 => (match aget ln s.l2 with | some c => (true, c.dirty) | none => (false, false))
    | 2 => (match aget ln s.mirror with | some c => (true, c.dirty) | none => (false, false))
    | _ => (true, false)

/-- The flip itself. -/
def inject (level ln n : Nat) (stuck : Bool) (s : State) : State :=
  let flip := fun (c : CLine) => { c with flips := flipMore c.flips n s.clock, stuck := c.stuck || stuck }
  let cells := fun (s : State) => if stuck && level != 3 then { s with stuck := s.stuck ++ [(level, ln, segmentOf ln level s)] } else s
  match level with
  | 1 => cells { s with l2 := amod ln flip s.l2 }
  | 2 => cells { s with mirror := amod ln flip s.mirror }
  | _ => { s with hbmFlips := aput ln (flipMore ((aget ln s.hbmFlips).getD 0) n s.clock) s.hbmFlips }

/-- ERROR_INJECT: a write of ERRINJ. -/
def execErrorInject (val : BitVec 64) (s : State) : Out :=
  let v := val.toNat
  let level := bits v 5 4
  let n := bits v 1 0
  let ln := bits (mreg 0 0x2608 s).toNat 38 7
  let kept := val &&& 0x10000033#64
  if val.getLsbD 31 && level != 0 && (n == 1 || n == 2) then
    let h := heldAt level ln s
    let res : DWord := (if h.1 then 0#64 else 0x40000000#64) ||| (if h.2 then 0x20000000#64 else 0#64)
    let s1 := setMreg 0 0x2600 (kept ||| res) s
    evt (if h.1 then inject level ln n (val.getLsbD 28) s1 else s1)
  else evt (setMreg 0 0x2600 (kept ||| (mreg 0 0x2600 s &&& 0x60000000#64)) s)

/-! Memory (R264). -/

/-- The launch of the selected fragment, 0 where none is. -/
def finder (s : State) : DWord := match cur s with | some c => c.lau.name | none => 0#64

/-- MEMORY_UE: the word of a dirty line, or HBM data that no cache holds, cannot be corrected. A clean line is refetched, and nothing
happens. -/
def execMemoryUe (level : BitVec 2) (pa : Nat) (s : State) : Out :=
  let ln := pa / 128
  let dirty := fun (l : AList CLine) => match aget ln l with | some c => c.dirty | none => false
  let hit := match level.toNat with
    | 1 => dirty s.l2
    | 2 => dirty s.mirror
    | 3 => (aget ln s.l2).isNone && (aget ln s.mirror).isNone
    | _ => false
  let met := fatalLevel ln s == level.toNat && level != 0#2
  if isDev pa && (hit || met) then
    evt (contain (finder s) (lineErrAt level.toNat ln s) (poisonWords level.toNat (pa / 8) s))
  else evt s

/-- What a cache does of itself: a line is written down, or given up, written down first (R153, R154). -/
inductive CacheMove where
  | l2 (ln : Nat) (drop : Bool)
  | mirror (ln : Nat) (drop : Bool)
  deriving DecidableEq, Repr

/-- The moves the caches may make: when they make one is no architecture (R154). The Mirror gives up a 512-byte line whole. -/
def cacheMoves (s : State) : List CacheMove :=
  (s.l2.filter (fun e => !backCutOff e.1 s)).flatMap (fun e => .l2 e.1 true :: (if e.2.dirty then [.l2 e.1 false] else []))
    ++ s.mirror.flatMap (fun e => .mirror e.1 true :: (if e.2.dirty then [.mirror e.1 false] else []))

/-- The caches make a move; its write-back reads the line (R402). -/
def cacheMove (m : CacheMove) (s : State) : Out :=
  match m with
  | .l2 ln drop =>
    evt (if badDirty ln s.l2 then memoryErrorAt 1 ln 0#64 s else if drop then dropL2 ln s else cleanL2 ln s)
  | .mirror ln drop =>
    let lns := if drop then (List.range 4).map (fun i => ln / 4 * 4 + i) else [ln]
    evt (lns.foldl (fun s ln =>
      if badDirty ln s.mirror then memoryErrorAt 2 ln 0#64 s else if drop then dropMirror ln s else cleanMirror ln s) s)

/-! Registers and the split table (R261, R23). -/

/-- A register word is poisoned; its data is unpredictable. -/
def Gang.corrupt (g : Gang) (t : RegErr) (step : Nat) : Gang :=
  let v := Config.freeDWord (2 ^ 123 + step)
  match t with
  | .vreg r l =>
    { g with vregs := sput (32 * r.toNat + l.toNat) (v.setWidth 32) g.vregs,
             vpois := sput r.toNat (sget r.toNat g.vpois ||| laneBit l.toNat) g.vpois }
  | .sreg n => { g with sregs := sput n.toNat v g.sregs, spois := g.spois ||| (1#64 <<< n.toNat) }
  | .preg n => { g with pregs := sput n.toNat (v.setWidth 32) g.pregs, ppois := g.ppois ||| (1#8 <<< n.toNat) }
  | _ => g

/-- A gang takes UE: attributed to a fragment of it (R23, R263). -/
def gangUe (g : GangRef) (frag : Nat) (s : State) : State :=
  match curOf { grp := g.grp, gang := g.gang, frag := frag } s with
  | some c => haltFault c c.frag.pc { cls := 0x0B } s
  | none => s

/-- UNCORRECTABLE_REGISTER_ERROR: the word's bank is to be tested (R266); split-table parity is contained as UE. -/
def execUncorrectableRegisterError (g : GangRef) (target : RegErr) (s : State) : Out :=
  match aget g.grp s.groups, gangOf g s with
  | some grp, some gg =>
    if grp.ended || gg.ended || gg.halted then evt s
    else
      match target with
      | .vreg r _ =>
        let regs := match aget grp.launch s.launches with | some l => l.r.regs | none => 0
        if r.toNat < regs then
          evt (quiesce (.regBank grp.core gg.partition (r.toNat % 4)) (modGang g (fun x => x.corrupt target s.clock) s))
        else evt s
      | .sreg _ => evt (modGang g (fun x => x.corrupt target s.clock) s)
      | .preg _ => evt (modGang g (fun x => x.corrupt target s.clock) s)
      | .splitEntry i => evt (gangUe g i.toNat s)
      | .splitRecord i =>
        (match aget i.toNat gg.recs, gg.frags.head? with
         | some _, some f => evt (gangUe g f.1 s)
         | _, _ => evt s)
  | _, _ => evt s

/-! Self-test (R266). -/

/-- The partitions, banks and engine of a core that its segments take out of service. -/
def setOff (core : Nat) (s : State) : State :=
  let out := outOfService s
  let part := fun (p : Nat) => out.any (fun x => match x with | .regBank c q _ => c == core && q == p | _ => false)
  let bank := fun (b : Nat) => out.any (fun x => match x with | .sramBank c d => c == core && d == b | _ => false)
  let eng := out.any (fun x => match x with | .matrixSeg c _ => c == core | _ => false)
  modCore core (fun k => { k with partOff := BitVec.ofNat 4 (bitsOf part 4), bankOff := BitVec.ofNat 16 (bitsOf bank 16), engineOff := eng }) s

/-- The core a segment lies in. -/
def Segment.core? : Segment → Option Nat
  | .regBank c _ _ => some c
  | .sramBank c _ => some c
  | .matrixSeg c _ => some c
  | .l2Way .. => none
  | .mirrorSub .. => none

/-- Its core's admission follows the segment lists. -/
def setOffOf (seg : Segment) (s : State) : State := match Segment.core? seg with | some c => setOff c s | none => s

/-- The groups that a segment's quiesce discards. -/
def quiesceGroups (seg : Segment) (s : State) : List Nat :=
  let on := fun (core : Nat) (p : Group → Bool) =>
    (s.groups.filter (fun e => e.2.core == core && !e.2.ended && p e.2)).map Prod.fst
  match seg with
  | .regBank c p _ => on c (fun g => g.gangs.any (fun e => e.2.partition == p))
  | .sramBank c b => (s.groups.filter (fun e => e.2.core == c && e.2.granules.any (fun x => x / 8 == b))).map Prod.fst
  | .matrixSeg c _ => on c (fun g => match aget g.launch s.launches with | some l => l.r.tiles != 0 | none => false)
  | .l2Way .. => []
  | .mirrorSub .. => []

/-- Lines of a way or a subarray are written back and dropped; the reads of the write-backs may find errors (R402). -/
def quiesceLines (seg : Segment) (s : State) : State :=
  match seg with
  | .l2Way slice way =>
    (akeys (s.l2.filter (fun e => e.2.seg == 16 * slice + way))).foldl (fun s ln =>
      if badDirty ln s.l2 then memoryErrorAt 1 ln 0#64 s else dropL2 ln s) s
  | .mirrorSub die sub =>
    (akeys (s.mirror.filter (fun e => e.2.seg == 64 * die + sub))).foldl (fun s ln =>
      if badDirty ln s.mirror then memoryErrorAt 2 ln 0#64 s else dropMirror ln s) s
  | .sramBank c b => if (coreOf c s).scr.getLsbD b then s else dropBank c b s
  | _ => s

/-- The quiesce of a segment has finished: the gangs that a lowered capacity deactivates are inactive (R149); the matrix segments of
a core are tested one after another. -/
def quiet (seg : Segment) (s : State) : Bool :=
  s.quiescing.contains seg && (quiesceGroups seg s).isEmpty
    && (match seg with
        | .matrixSeg c _ => !s.testing.any (fun x => match x with | .matrixSeg d _ => c == d | _ => false)
        | .sramBank c b => (coreOf c s).scr.getLsbD b || (overflowGang c s).isNone
        | .l2Way slice way => s.l2.all (fun e => e.2.seg != 16 * slice + way || !backCutOff e.1 s)
        | _ => true)

/-- SELF_TEST_START: the quiesce goes on, and the march test begins once it has finished. A core SRAM bank and a matrix segment are named by
their own array checks too, when a word of theirs cannot be corrected: no other step of the device reports it. -/
def execSelfTestStart (seg : Segment) (s : State) : Out :=
  let s0 := match seg with | .sramBank .. | .matrixSeg .. => quiesce seg s | _ => s
  if s0.quiescing.contains seg then
    let s1 := discardAll (quiesceGroups seg s0) (setOffOf seg s0)
    if quiet seg s1 then
      let s2 := quiesceLines seg { s1 with quiescing := s1.quiescing.filter (fun x => x != seg) }
      evt { s2 with testing := s2.testing ++ [seg] }
    else evt s1
  else evt s

/-- The record of a self-test (R260). -/
def testRecord (seg : Segment) (pass : Bool) (s : State) : ERec :=
  let r := fun (role unit code addr : Nat) =>
    ({ kind := if pass then 8 else 9, ctx := 0#6, role := role, detect := hopId 0#6 unit s, seg := code, addr := addr } : ERec)
  match seg with
  | .regBank c p b => r 7 c 1 (2 ^ 16 * c + 256 * p + b)
  | .sramBank c b => r 7 c 2 (2 ^ 16 * c + b)
  | .l2Way sl w => r 6 (0xC0 + sl / 160) 3 (2 ^ 16 * sl + w)
  | .mirrorSub d x => r 3 (0xA0 + d) 4 (2 ^ 16 * d + x)
  | .matrixSeg c x => r 5 c 5 (2 ^ 16 * c + x)

/-- SELF_TEST_DONE: TESTPASS, or QUARANTINE with the segment disabled. Faulty cells of an injection fail the test (R401). -/
def execSelfTestDone (seg : Segment) (pass : Bool) (s : State) : Out :=
  if s.testing.contains seg then
    let ok := pass && !s.stuck.any (fun e => e.2.2 == seg)
    let s1 := { s with testing := s.testing.filter (fun x => x != seg),
                       quarantined := if ok then s.quarantined else s.quarantined ++ [seg] }
    evt (errorRecord 0#6 (testRecord seg ok s1) (setOffOf seg s1))
  else evt s

/-! The Ringmaster (R269, R270). -/

/-- RINGMASTER_LOCKSTEP_MISMATCH: dispatch freezes while both cores boot. -/
def execRingmasterLockstepMismatch (s : State) : Out := evt { s with dispatchFrozen := true, ringmasterBoot := true }

/-- RINGMASTER_BOOT_DONE: dispatch resumes, and after a restart DEVSTAT.READY is set once its self-test is over; a failure is
reported and leaves dispatch frozen. -/
def execRingmasterBootDone (ok : Bool) (s : State) : Out :=
  if s.ringmasterBoot then
    if !ok then evt (setMreg 0 0x2420 (mreg 0 0x2420 s ||| 2#64)
      { s with ringmasterBoot := false, reports := s.reports ++ [.bootFailed] })
    else if s.restarting && !(s.quiescing.isEmpty && s.testing.isEmpty) then evt s
    else if s.restarting then
      evt (setMreg 0 0x2420 (mreg 0 0x2420 s ||| 1#64)
        { s with ringmasterBoot := false, restarting := false, dispatchFrozen := false })
    else evt { s with ringmasterBoot := false, dispatchFrozen := false }
  else evt s

end Sys2Proof.Machine
end

