-- ==== Sys2Proof/Machine/Platform.lean ====
section
/-!
DEFINITION. The platform: bring-up, power and clocks (R3, R296-R298), the host's links and its CXL.mem accesses (R286,
R288), the fabric's ports and flits (R292, R293, R147, R256), and attestation (R271, R299).
-/
namespace Sys2Proof.Machine

/-! Bring-up and power. -/

/-- The segments of every core that are out of service take effect on it. -/
def setOffAll (s : State) : State := (outOfService s).foldl (fun s x => setOffOf x s) s

/-- The HBM is zeroed, and L2 and Mirror are invalid (R296). -/
def zeroDevice (s : State) : State :=
  { s with mem := s.mem.filter (fun c => !isDev c.1), poison := s.poison.filter (fun w => !isDev (8 * w.1)),
           l2 := [], mirror := [], hbmFlips := [] }

/-- BRING_UP (R296): the firmware verifies or does not; memory is zeroed, the tables of the flash are applied, the links are
trained, and DEVSTAT shows READY or the failure. -/
def execBringUp (ok : Bool) (s : State) : Out :=
  if mreg 0 0x2420 s == 0#64 && s.power == .d0 && !s.restarting && !s.ringmasterBoot then
    if ok then evt (setMreg 0 0x2420 1#64 { setOffAll (zeroDevice s) with links := 3#2 }) else evt (setMreg 0 0x2420 2#64 s)
  else evt s

/-- The device has lost its power: everything but the flash tables is as at reset (R297). Host and peer memory, and what the
device has sent, are outside it. -/
def powerLost (p : Power) (s : State) : State :=
  { State.reset with
    agenda := s.agenda, clock := s.clock, serial := s.serial
    mem := s.mem.filter (fun c => !isDev c.1), poison := s.poison.filter (fun w => !isDev (8 * w.1))
    retired := s.retired, quarantined := s.quarantined, stuck := s.stuck, msix := s.msix, power := p, ports := s.ports
    sent := s.sent, hostReads := s.hostReads, reports := s.reports }

/-- D3COLD_ENTRY. A tripped device stays tripped until a management reset (R298). -/
def execD3coldEntry (s : State) : Out := if s.power = .tripped then evt s else evt (powerLost .d3cold s)

/-- MANAGEMENT_RESET: the device comes up from D3cold or from a thermal trip, to be brought up (R297, R298). -/
def execManagementReset (s : State) : Out :=
  if s.power = .d3cold ∨ s.power = .tripped then evt (setOffAll (powerLost .d0 s)) else evt s

/-- D0_WAKE: a host request over the link wakes the device (R297). -/
def execD0Wake (s : State) : Out :=
  if s.links = 0#2 then evt s
  else
    match s.power with
    | .d3hot => evt { s with power := .d0 }
    | .d3cold => evt (setOffAll (powerLost .d0 s))
    | _ => evt s

/-- Dirty lines go down to the HBM; a write-back reads its line (R402). -/
def writeBack (s : State) : State :=
  let s1 := (akeys s.l2).foldl (fun s ln => if badDirty ln s.l2 then memoryErrorAt 1 ln 0#64 s else cleanL2 ln s) s
  (akeys s1.mirror).foldl (fun s ln => if badDirty ln s.mirror then memoryErrorAt 2 ln 0#64 s else cleanMirror ln s) s1

/-- D3HOT_ENTRY: resident groups are discarded first, waiting for the save pool where they must (R234, R297). -/
def execD3hotEntry (s : State) : Out :=
  if s.power = .d0 then
    let s1 := discardAll ((s.groups.filter (fun e => !e.2.ended)).map Prod.fst) { s with sleeping := true }
    if s1.groups.isEmpty then evt { writeBack s1 with power := .d3hot, sleeping := false } else evt s1
  else evt s

/-- Where a sensor of a die or a stack trips the device, in 1/16 degree (R298). -/
def tripAt (n : Nat) : Int := if n < 24 then 1840 else 1680

/-- The sensors with one of a die or a stack, free which, at its trip point or above it (R298). -/
def hotTemps (s : State) : List (BitVec 16) :=
  let hot := Config.pick s.clock 32 % 32
  s.temps.zipIdx.map (fun e => if e.2 = hot ∧ e.1.toInt < tripAt hot then BitVec.ofInt 16 (tripAt hot) else e.1)

/-- THERMAL_TRIP: a sensor reads its trip point, every context ends, and core power is removed (R298). -/
def execThermalTrip (s : State) : Out :=
  if s.power = .d0 ∨ s.power = .d3hot then
    let s1 := (List.range 63).foldl (fun s i => endContext (BitVec.ofNat 6 (i + 1)) s) s
    evt { s1 with power := .tripped, cores := [], sleeping := false, switching := false, temps := hotTemps s1 }
  else evt s

/-- The design power limit in 1/16 W (R6, R298): 3,400 W, and 40 W less for each degree of the coolant inlet above 45. -/
def powerLimit (s : State) : Int :=
  let inlet := (s.temps[32]?.getD 0#16).toInt
  54400 - 40 * max 0 (inlet - 720)

/-- What PLDM carries over the management bus (R299): the sensors, the power limit in 1/16 W, the reports of R265 and R269. -/
def pldm (s : State) : List (BitVec 16) × Int × List Report :=
  (s.temps, powerLimit s, s.reports.filter (fun r => r == .tableFull || r == .bootFailed))

/-- CLOCK_STEP: 125 MHz up or down, between 1.0 and 4.0 GHz (R3). -/
def execClockStep (raise : Bool) (s : State) : Out :=
  evt { s with clockSteps := if raise then min 32 (s.clockSteps + 1) else max 8 (s.clockSteps - 1) }

/-! Host links and CXL.mem. -/

/-- HOST_LINK_DOWN. -/
def execHostLinkDown (port : Bool) (s : State) : Out :=
  evt { s with links := s.links &&& (if port then 1#2 else 2#2) }

/-- HOST_LINK_UP. -/
def execHostLinkUp (port : Bool) (s : State) : Out :=
  evt { s with links := s.links ||| (if port then 2#2 else 1#2) }

/-- The host can reach device memory. -/
def hostReaches (pa n : Nat) (s : State) : Bool := s.links != 0#2 && s.power == .d0 && decide (0 < n) && decide (pa + n ≤ 2 ^ 39)

/-- A host read finds a line that cannot be corrected (R264). -/
def hostFinds (ln : Nat) (s : State) : State := if fatalLevel ln s = 0 then scrubLine ln s else memoryError 0#64 ln s

/-- A line whose read answers with the poison indication (R288). -/
def linePoisoned (ln : Nat) (s : State) : Bool := isRetired (128 * ln) s || poisonedAt (.phys (128 * ln)) 128 s

/-- CXL_MEM_READ (R288). -/
def execCxlMemRead (pa len : Nat) (s : State) : Out :=
  if hostReaches pa len s then
    let lns := linesFrom pa len
    let s1 := lns.foldl (fun s ln => if isRetired (128 * ln) s then s else hostFinds ln s) s
    let bad := lns.any (fun ln => linePoisoned ln s1)
    let data := if bad then (List.range len).map (fun i => Config.freeByte (2 ^ 141 * (s.clock + 1) + pa + i)) else getBytes s1.mem pa len
    evt { (if bad then s1 else lns.foldl (fun s ln => touchLine ln s) s1) with hostReads := s1.hostReads ++ [(data, bad)] }
  else evt s

/-- Cells performed at the homes of their lines, after the reads that this takes; nothing lands in a retired frame. -/
def hostPerform (cells : List Host.Cell) (s : State) (ln : Nat) : State :=
  let mine := cells.filter (fun c => c.1 / 128 == ln)
  if isRetired (128 * ln) s then s
  else
    let s1 := if writeReads ln mine s then hostFinds ln s else s
    if isRetired (128 * ln) s1 then s1 else perform (.phys (128 * ln)) mine s1

/-- An agent outside the device writes memory of its own: the host its own, whose lines that the device holds under CXL.cache it takes
back first, or a peer the peer's (R152, R168, log entry 4). -/
def outsideWrite (pa : Nat) (data : List Byte) (s : State) : State :=
  let held := (linesFrom pa data.length).filter (fun ln => decide (128 * ln < peerBase) && (aget ln s.l2).isSome)
  let s1 := held.foldl (fun s ln => let s := hostFinds ln s; { s with l2 := aerase ln s.l2 }) s
  let cells := place pa data
  { s1 with
    mem := putCells cells s1.mem, poison := (wholeWords cells).foldl (fun m w => sput w 0#1 m) s1.poison
    marks := unmark (.phys 0) cells s1.marks }

/-- The write of an agent outside the device to its own memory happens: a line that the device holds comes back by a link. -/
def outsideCan (pa n : Nat) (s : State) : Bool :=
  decide (peerBase ≤ pa) || (decide (hostBase ≤ pa) && decide (pa + n ≤ peerBase)
    && (s.links != 0#2 || (linesFrom pa n).all (fun ln => (aget ln s.l2).isNone)))

/-- CXL_MEM_WRITE (R288): a write of device memory, or, at an address of the model's numbering beyond it, of memory outside the device
by its own agents. -/
def execCxlMemWrite (pa : Nat) (data : List Byte) (s : State) : Out :=
  if hostReaches pa data.length s then evt (outsideMeets pa data.length ((linesFrom pa data.length).foldl (hostPerform (place pa data)) s))
  else if outsideCan pa data.length s then evt (outsideMeets pa data.length (outsideWrite pa data s))
  else evt s

/-! The fabric. -/

/-- FABRIC_PORT_DOWN. -/
def execFabricPortDown (port : BitVec 4) (s : State) : Out := evt { s with ports := s.ports &&& ~~~ (1#16 <<< port.toNat) }

/-- FABRIC_PORT_UP. -/
def execFabricPortUp (port : BitVec 4) (s : State) : Out := evt { s with ports := s.ports ||| (1#16 <<< port.toNat) }

/-- A node is a member of the context's fabric group (R293). -/
def isMember (ctx : BitVec 6) (node : BitVec 16) (s : State) : Bool :=
  mreg 0 0x2400 s != 0#64 &&
    (List.range (min (getNum s.mem (fabricDesc ctx s + 1) 1) 128)).any (fun k =>
      getNum s.mem (fabricDesc ctx s + 16 + 8 * k) 2 == node.toNat)

/-- The places of the bytes a request names, or the fault it answers with (R147). -/
def requestPlaces (ctx : BitVec 6) (va n : Nat) (need : Need) (s : State) : Except FReq (List Nat) :=
  (List.range n).foldr (fun i r =>
    if va + i < 2 ^ 57 then
      match resolveVa ctx (va + i) need i s with
      | .at (.phys a) => r.map (fun t => a :: t)
      | .bad f => .error f
      | _ => .error (permAt need (va + i))
    else .error (permAt need (va + i))) (.ok [])

/-- Send an answer, by the port and the virtual channel that its request came by. -/
def reply (port : BitVec 4) (f : Flit) (op : FlitOp) (s : State) : State := sendFlit port 2#8 f.vc f.ctx f.src op s

/-- The bytes at some places, and whether one lies in a poisoned word. -/
def bytesOf (as : List Nat) (s : State) : List Byte × Bool :=
  (as.map (fun a => sget a s.mem), as.any (fun a => poisonedAt (.phys a) 1 s))

/-- The lines of some bytes. -/
def linesAt (as : List Nat) : List Nat := nodup (as.map (· / 128))

/-- An uncorrectable line among some bytes: at the home, or, for an add in device memory, at the Mirror (R155). -/
def badAt (add : Bool) (as : List Nat) (s : State) : Option Nat :=
  (linesAt as).find? (fun ln => (if add && as.all isDev then mirrorLevel ln s else fatalLevel ln s) != 0)

/-- A request performed at this device's homes, with its answer. A line that cannot be corrected ends its owner instead. -/
def serve (port : BitVec 4) (f : Flit) (va n : Nat) (need : Need) (act : List Nat → State → State × FlitOp) (s : State) : State :=
  let s := mendTables f.ctx va n need s
  match requestPlaces f.ctx va n need s with
  | .error e => reply port f (.refusal e.cls e.kind va) s
  | .ok as =>
    match badAt (match f.op with | .add .. => true | _ => false) as s with
    | some ln => memoryError 0#64 ln s
    | none =>
      let r := act as (if (match f.op with | .add .. => as.all isDev | _ => false) then s else homeReads (port.toNat / 4) (linesAt as) s)
      reply port f r.2 r.1

/-- The number some bytes spell. -/
def numOf (as : List Nat) (s : State) : Nat := match as with | a :: _ => oldNum (.phys a) as.length s | [] => 0

/-- Bytes that came by a port are performed at some places. -/
def writeAt (port : BitVec 4) (as : List Nat) (bs : List Byte) (s : State) : State :=
  perform (.phys (as.headD 0)) (List.zip as bs) s (port.toNat / 4)

/-- A request that a member of the context's group sends (R147, R155, R180). -/
def request (port : BitVec 4) (f : Flit) (s : State) : State :=
  match f.op with
  | .read va n => serve port f va n .rd (fun as s => (s, .response (bytesOf as s).1 (bytesOf as s).2)) s
  | .write va bs => serve port f va bs.length .wr (fun as s => (writeAt port as bs s, .response [] false)) s
  | .atomic aop n va a b =>
    serve port f va n .at (fun as s =>
      let old := numOf as s
      let s1 := match (amoNew aop.toNat n old a b).1 with | some v => writeAt port as (toBytes n v) s | none => s
      (s1, .response (toBytes n old) (bytesOf as s).2)) s
  | .add format va v =>
    serve port f va (elemSize format.toNat) .at (fun as s =>
      let new := (addElem format.toNat (numOf as s) v).1
      let cells := List.zip as (toBytes (elemSize format.toNat) new)
      (if as.all isDev then performMirror cells s else writeAt port as (toBytes (elemSize format.toNat) new) s, .response [] false)) s
  | _ => s

/-- The elements that bytes spell. -/
def elemsOf (n : Nat) : Nat → List Byte → List Nat
  | 0, _ => []
  | k + 1, b => if b.isEmpty then [] else ofBytes (b.take n) :: elemsOf n k (b.drop n)

/-- The receiving port verifies a chunk's sums against the data that came with them (R256); STALE ones are not verified. -/
def verifyFlits (port : BitVec 4) (ctx : BitVec 6) (header data : List Byte) (format : Nat) (s : State) : State :=
  let h := Hdr.parse header
  let n := max (elemSize format) 1
  let r := sums (if h.kind = 1 then (elemsOf n data.length data).map (exactWord format) else words32 data.length data)
  if h.stale || h.agrees r then s
  else errorRecord ctx
    { kind := 1, ctx := ctx, role := 4, lrole := h.lrole, detect := hopId ctx (0xB0 + port.toNat) s, lasthop := h.last,
      tag := h.tag, hops := h.hops, index := h.index, s1h := h.s1, s2h := h.s2, s1c := r.1, s2c := r.2,
      addr := (Config.freeDWord (2 ^ 124 + s.clock)).toNat } s

/-- Data of a channel that its next checksum flit covers. -/
def gatherData (ch : Nat) (op : FlitOp) (s : State) : State :=
  let more := fun (b : List Byte) => { s with rxData := aput ch ((aget ch s.rxData).getD [] ++ b) s.rxData }
  match op with
  | .write _ bs => more bs
  | .add format _ v => more (toBytes (elemSize format.toNat) v)
  | _ => s

/-- The address that a request names. -/
def flitVa : FlitOp → Nat
  | .read va _ | .write va _ | .atomic _ _ va _ _ | .add _ va _ | .refusal _ _ va => va
  | .response .. | .checksum .. | .acknowledge .. => 0

/-- An access to a peer that has been asked for and not been performed: of a gang, with its fragment, its operation, pc and lane, or of a
copy; where it lies there, its bytes, ACCESS, and its request. -/
structure Asked where
  who : FragRef
  op : Nat
  pc : DWord
  lane : Nat
  copy : Option Nat
  peer : Nat
  va : Nat
  len : Nat
  access : Nat
  flit : FlitOp
  deriving DecidableEq, Repr

/-- The loads, stores and atomics of a gang that are asked for at peers and not performed. -/
def askedBy (r : GangRef) (g : Gang) : List Asked :=
  let who := fun (op : Nat) => match g.ops.find? (fun o => o.id == op) with
    | some o => ({ grp := r.grp, gang := r.gang, frag := o.frag } : FragRef)
    | none => { grp := r.grp, gang := r.gang, frag := 8 }
  g.reads.flatMap (fun x => (x.seen.filter (fun p => p.late || !p.got)).filterMap (fun p => p.place.atPeer.map (fun e =>
      { who := who x.op, op := x.op, pc := x.pc, lane := p.lane, copy := none, peer := e.1, va := e.2, len := p.len, access := 1,
        flit := .read e.2 p.len })))
    ++ g.sbuf.flatMap (fun e => (runs e.cells).filterMap (fun q => match e.line with
      | .phys _ => (Place.phys q.1).atPeer.map (fun a =>
          { who := who e.op, op := e.op, pc := e.pc, lane := 0, copy := none, peer := a.1, va := a.2, len := q.2.length, access := 2,
            flit := .write a.2 q.2 })
      | .scr .. => none))
    ++ g.ops.flatMap (fun o => match o.log with
      | none => []
      | some w => w.lanes.filterMap (fun x => x.place.atPeer.map (fun a =>
          let v := (w.operands.find? (fun e => e.1 == x.lane)).getD (0, 0, 0)
          { who := who o.id, op := o.id, pc := w.pc, lane := x.lane, copy := none, peer := a.1, va := a.2, len := w.size, access := 11,
            flit := .atomic (BitVec.ofNat 4 w.aop) w.size a.2 v.2.1 v.2.2 })))

/-- The element that a copy comes to next, where it goes to a peer. -/
def askedOf (core : Nat) (c : CopyOp) (s : State) : List Asked :=
  if c.dir = 3#2 ∧ c.token.isNone ∧ !c.format ∧ c.writes c.next then
    match c.farDest c.next s, c.read c.next s with
    | .ok (p, _), .ok v =>
      (match p.atPeer with
       | some a =>
         [{ who := { grp := c.grp, gang := c.gang, frag := c.frag }, op := c.id, pc := c.pc, lane := 0, copy := some core, peer := a.1, va := a.2,
            len := c.shape.e, access := engineAccess (if c.op = 0#2 then .wr else .at),
            flit := if c.op = 0#2 then .write a.2 (toBytes c.shape.e v.1) else .add (BitVec.ofNat 4 c.shape.format) a.2 v.1 }]
       | none => [])
    | _, _ => []
  else []

/-- Everything of a context that is asked for at the peers of a node. -/
def asked (ctx : BitVec 6) (node : BitVec 16) (s : State) : List Asked :=
  ((s.groups.filter (fun e => !e.2.ended && ctxOf e.2 s == ctx)).flatMap (fun e =>
      e.2.gangs.flatMap (fun g => if g.2.halted then [] else askedBy ⟨e.1, g.1⟩ g.2))
    ++ s.cores.flatMap (fun k => (k.2.copies.filter (fun c => c.ctx == ctx)).flatMap (fun c => askedOf k.1 c s))).filter
      (fun x => peerNode ctx x.peer s == node)

/-- The peer's refusal becomes the fault of the access that asked, which has no effect until the fault is retried (R147, R239, R244):
of the issuing instruction, or of the copy engine. A fragment that is held already, or has exited, takes none: the access is asked for
again. -/
def refuseTo (x : Asked) (f : FReq) (s : State) : State :=
  match x.copy with
  | some core =>
    (match (coreOf core s).copies.find? (fun c => c.id == x.op) with
     | some c =>
       let (k, s1) := engineFault (c.xfer core s) (.engine core c.id) f s
       modCopy core c.id (fun c => { c with token := some k }) s1
     | none => s)
  | none =>
    match curOf x.who s with
    | some c =>
      if c.frag.hold = .run then
        takeFaultAt c x.pc c.frag.pc f (modGang (gangRefOf x.who) (fun g =>
          { g with ops := g.ops.map (fun (o : PendOp) => if o.id = x.op then { o with refused := true } else o) }) s)
      else s
    | none => s

/-- A peer refuses a request of a context (R147, R293), for an access to the 64 KiB unit that it names; which, where several are asked
for there, is free. -/
def refusal (f : Flit) (cls kind va : Nat) (s : State) : State :=
  match pickOf s.clock ((asked f.ctx f.src s).filter (fun x => x.va / 65536 == va / 65536)) with
  | some x =>
    refuseTo x { cls := cls, kind := kind, addr := BitVec.ofNat 64 (x.peer * 2 ^ 57 + x.va), access := x.access }
      (sendTo f.ctx x.peer 1#8 x.flit s)
  | none => s

/-- A peer answers a read or an atomic with what it has found (R147, R292): that is what its memory held, and the access that has asked for
so many bytes there, which is free where several have, has read it. -/
def response (f : Flit) (data : List Byte) (poison : Bool) (s : State) : State :=
  match pickOf s.clock ((asked f.ctx f.src s).filter (fun x => x.len == data.length && x.access != 2 && x.copy.isNone)) with
  | some x =>
    let p : Place := .phys (peerBase + x.peer * 2 ^ 57 + x.va)
    let s1 := outsideWrite p.key data s
    let s2 := if poison then poisonAt p data.length s1 else s1
    if x.access = 11 then { s2 with agenda := .loggedAtomicGrant (gangRefOf x.who) x.op x.lane :: s2.agenda }
    else answered (gangRefOf x.who) x.op x.lane p data.length s2
  | none => s

/-- A receiver's word on the flits of a channel (R292): those up to a number have arrived, or those from it on are asked for again, which
the port sends from its replay buffer. -/
def acknowledged (port : BitVec 4) (vc : BitVec 2) (upTo : BitVec 12) (again : Bool) (s : State) : State :=
  let here := fun (x : Sent) => x.port == port && x.flit.vc == vc
  if again then
    (s.replay.filter (fun x => here x && decide ((x.flit.seq - upTo).toNat < 2048))).foldl
      (fun s x => countFabric 0x0030 { s with sent := s.sent ++ [x] }) s
  else { s with replay := s.replay.filter (fun x => !(here x && decide ((upTo - x.flit.seq).toNat < 2048))) }

/-- A flit delivered in its order (R292). -/
def deliverFlit (port : BitVec 4) (f : Flit) (s : State) : State :=
  let ch := channel port f.vc
  match f.type.toNat, f.op with
  | 1, op =>
    if isMember f.ctx f.src s then request port f (gatherData ch op s) else reply port f (.refusal 4 0 (flitVa op)) s
  | 2, .refusal cls kind va => if isMember f.ctx f.src s && (cls == 3 || cls == 4) then refusal f cls kind va s else s
  | 2, .response data poison => if isMember f.ctx f.src s && !data.isEmpty then response f data poison s else s
  | 4, .checksum header format =>
    verifyFlits port f.ctx header ((aget ch s.rxData).getD []) format.toNat { s with rxData := aerase ch s.rxData }
  | _, _ => s

/-- FLIT_RECEIVE: a flit that fails its CRC, or comes out of order, waits for its retry; a credit and acknowledgement flit has no place in
that order (R292). -/
def execFlitReceive (port : BitVec 4) (flit : Flit) (s : State) : Out :=
  if s.ports.getLsbD port.toNat && s.power == .d0 then
    let ch := channel port flit.vc
    let s1 := countFabric 0x0031 s
    if flit.type = 3#8 then
      match flit.crcOk, flit.op with
      | true, .acknowledge upTo again => evt (acknowledged port flit.vc upTo again s1)
      | _, _ => evt s1
    else if flit.crcOk && flit.seq == sget ch s1.rxSeq then
      evt (deliverFlit port flit { s1 with rxSeq := sput ch (flit.seq + 1) s1.rxSeq })
    else evt s1
  else evt s

/-! Attestation. -/

/-- A segment as a number of the quarantine table. -/
def segNum : Segment → Nat
  | .regBank core part bank => 8 * (64 * (4 * core + part) + bank)
  | .sramBank core bank => 8 * (16 * core + bank) + 1
  | .l2Way slice way => 8 * (16 * slice + way) + 2
  | .mirrorSub die sub => 8 * (64 * die + sub) + 3
  | .matrixSeg core seg => 8 * (8 * core + seg) + 4

/-- The measurements of an attestation report (R271): the boot ROM, the firmware image, the retirement and quarantine tables, and the
device's configuration, which is taken to be the registers that are not zero (log entry 68). -/
def measurements (s : State) : List (BitVec 256) :=
  [Config.measure 0 [], Config.measure 1 [],
   Config.measure 2 (s.retired.length :: s.retired.flatMap (fun e => [e.1, e.2]) ++ s.quarantined.map segNum),
   Config.measure 3 (s.mmio.flatMap (fun e => [e.1, e.2.toNat]))]

/-- ATTESTATION_REQUEST: a report leaves the device, signed over its nonce and its measurements (R271, R299). -/
def execAttestationRequest (nonce : BitVec 64) (s : State) : Out :=
  evt { s with reports := s.reports ++ [.attestation nonce (measurements s) (Config.attest nonce (measurements s))] }

end Sys2Proof.Machine
end

