-- ==== Sys2Proof/Machine/Sessions.lean ====
section
/-!
DEFINITION. Queue reset (R285), trace sessions (R282, R283), Lantern trials (R277) and counters that wrap (R279).
-/
namespace Sys2Proof.Machine

/-! Queue reset (R285). -/

/-- The groups that a queue reset stops have completed what they had issued (R36, R285). -/
def resetOver (fn q : Nat) (s : State) : Bool :=
  match runningLaunch fn q s with
  | some (k, _) => launchOver k s
  | none => true

/-- The end of a queue reset: the records are abandoned, the queue is disabled, and its trace session closes (R285). -/
def endReset (fn q : Nat) (s : State) : State :=
  let s1 := disableQueue fn q (setMreg fn (queueAt q + 16) (mreg fn (queueAt q + 24) s) s)
  let s2 := { s1 with resetting := s1.resetting.filter (fun e => e != (fn, q)), keptHeads := s1.keptHeads.filter (fun e => e != (fn, q)) ++ [(fn, q)] }
  if (mreg fn 0x1A10 s2).getLsbD q then traceEnd fn 2 q s2 else s2

/-- A queue is reset: its launch stops with no completion record, and when what its groups had issued is complete the reset
ends. -/
def resetQueue (fn q : Nat) (s : State) : State :=
  let s1 := if s.resetting.contains (fn, q) then s
    else match runningLaunch fn q s with
      | some (k, _) => stopLaunch k 3 (modLaunch k (fun l => { l with r := { l.r with completion := 0 } }) s)
      | none => s
  if resetOver fn q s1 then endReset fn q s1
  else if s1.resetting.contains (fn, q) then s1 else { s1 with resetting := s1.resetting ++ [(fn, q)] }

/-- QUEUE_RESET: a write of QRST. -/
def execQueueReset (fn : Nat) (q : BitVec 6) (s : State) : Out := evt (resetQueue fn q.toNat s)

/-! Trace sessions. -/

/-- The fields of TSCTL but EN. -/
def tsFields (val : BitVec 64) : DWord := val &&& 0x40003F1F#64

/-- A write of TSCTL (R273): setting EN opens a session, with TSDROP cleared; clearing it closes the session with a
terminator of the session's own context (R283). -/
def writeTsctl (fn : Nat) (val : BitVec 64) (s : State) : State :=
  let is_open := (mreg fn 0x1A08 s).getLsbD 31
  if val.getLsbD 31 then
    setMreg fn 0x1A08 (tsFields val ||| 0x80000000#64) (if is_open then s else setMreg fn 0x1A20 0#64 s)
  else setMreg fn 0x1A08 (tsFields val) (traceEnd fn 1 0 s)

/-- TRACE_SESSION_OPEN. -/
def execTraceSessionOpen (fn : Nat) (val : BitVec 64) (s : State) : Out :=
  evt (writeTsctl fn (val ||| 0x80000000#64) s)

/-- TRACE_SESSION_CLOSE. -/
def execTraceSessionClose (fn : Nat) (val : BitVec 64) (s : State) : Out :=
  evt (writeTsctl fn (val &&& ~~~ 0x80000000#64) s)

/-! Lantern. -/

/-- A write of LNCTL (R273, R277): setting EN from 0 clears the trial's counts, and no hold is left but on the gangs of a launch that stays
on trial. -/
def writeLnctl (fn : Nat) (val : BitVec 64) (s : State) : State :=
  let was := (mreg fn 0x1AC0 s).getLsbD 63
  let s1 := if val.getLsbD 63 && !was then
      (List.range 8).foldl (fun s k => setMreg fn (0x1B40 + 8 * k) 0#64 s) (setMreg fn 0x1AD8 0#64 (setMreg fn 0x1AE0 0#64 s))
    else s
  let s2 := setMreg fn 0x1AC0 (val &&& 0x80000000003F00FF#64) s1
  mapGangs (fun _ g _ gg => if fnOf g.launch s = fn ∧ onTrial fn s2 ≠ onTrial fn s then { gg with lantern := 0#16 } else gg) s2

/-- LANTERN_START. -/
def execLanternStart (fn : Nat) (val : BitVec 64) (s : State) : Out :=
  evt (writeLnctl fn (val ||| 0x8000000000000000#64) s)

/-! Counters. -/

/-- COUNTER_WRAP: a counter of an open session that stands at its largest value counts one more event (R279). -/
def execCounterWrap (fn : Nat) (n : BitVec 6) (s : State) : Out :=
  let code := (mreg fn (0x1C00 + 8 * n.toNat) s).toNat % 65536
  if (mreg fn 0x1B00 s).getLsbD 31 && running fn s && countedCode fn code && mreg fn (0x1E00 + 8 * n.toNat) s == 0xFFFFFFFFFFFF#64 then
    evt (addCounter fn n.toNat 1 s)
  else evt s

end Sys2Proof.Machine
end

