-- ==== Sys2Proof/Machine/Translation.lean ====
section
/-!
DEFINITION. Invalidation of translations (R249), and host-space translation by ATS and PRI (R251).
-/
namespace Sys2Proof.Machine

/-! TLBICTL (R249). -/

/-- The invalidation a write of TLBICTL names: bits [15:0] of TLBIVA are ignored. -/
def tlbiOf (fn : Nat) (val : BitVec 64) (s : State) : Tlbi :=
  let v := val.toNat
  let ctx := BitVec.ofNat 6 (bits v 13 8)
  if val.getLsbD 6 then { fn := fn, ctx := ctx, va := 0, size := 2 ^ 64 }
  else { fn := fn, ctx := ctx, va := (mreg fn 0x1840 s).toNat / 65536 * 65536, size := 65536 * 2 ^ min (bits v 5 0) 41 }

/-- TLB_INVALIDATE: a write of TLBICTL, GO starting an invalidation. -/
def execTlbInvalidate (fn : Nat) (val : BitVec 64) (s : State) : Out :=
  let busy := mreg fn 0x1848 s &&& 0x40000000#64
  let s1 := setMreg fn 0x1848 ((val &&& 0x3F7F#64) ||| busy) s
  if val.getLsbD 31 then
    evt { setMreg fn 0x1848 (mreg fn 0x1848 s1 ||| 0x40000000#64) s1 with tlbi := s1.tlbi ++ [tlbiOf fn val s] }
  else evt s1

/-- A held translation of virtual space lies in an invalidated range. -/
def Tlbi.hits (x : Tlbi) (t : TlbEnt) : Bool :=
  t.ctx == x.ctx && t.mem != 2 && decide (x.va < t.va + t.size) && decide (t.va < x.va + x.size)

/-- Bytes at a place lie in the page a translation names. -/
def TlbEnt.covers (t : TlbEnt) (p : Place) (n : Nat) : Bool :=
  match p with
  | .phys a => decide (a < t.phys t.va + t.size) && decide (t.phys t.va < a + n)
  | .scr .. => false

/-- A gang of a context has an access in flight through some of its translations: a buffered store, a load that may read again, a CMO,
a logged atomic that waits. -/
def Gang.uses (g : Gang) (ts : List TlbEnt) : Bool :=
  g.sbuf.any (fun e => ts.any (fun t => t.covers e.line 128))
    || g.reads.any (fun x => (loadPlaces x.es).any (fun p => ts.any (fun t => t.covers p.1 p.2)))
    || g.ops.any (fun o => o.isCmo && !o.done && o.ranges.any (fun r => ts.any (fun t => t.covers (.phys r.1) r.2)))
    || g.ops.any (fun o => match o.log with
        | some w => w.lanes.any (fun x => ts.any (fun t => t.covers x.place w.size))
        | none => false)

/-- Accesses of the context through some translations still wait to be performed, those of groups in a HOLD save area among them. -/
def inFlight (ctx : BitVec 6) (ts : List TlbEnt) (s : State) : Bool :=
  (s.groups.map Prod.snd ++ s.saved.map (fun e => e.2.group)).any (fun g =>
    (match aget g.launch s.launches with | some l => l.ctx == ctx | none => false) && g.gangs.any (fun x => x.2.uses ts))

/-- The translations an invalidation removes that the tables no longer hold. -/
def oldEntries (x : Tlbi) (s : State) : List TlbEnt := s.tlb.filter (fun t => x.hits t && walk t.ctx t.va s != .ok t)

/-- Every invalidation of a function can complete. -/
def tlbiReady (fn : Nat) (s : State) : Bool :=
  (mreg fn 0x1848 s).getLsbD 30 && (s.tlbi.filter (fun x => x.fn == fn)).all (fun x => !inFlight x.ctx (oldEntries x s) s)

/-- TLB_INVALIDATE_DONE: no TLB holds an old translation any more, and BUSY clears. -/
def execTlbInvalidateDone (fn : Nat) (s : State) : Out :=
  if tlbiReady fn s then
    let mine := s.tlbi.filter (fun x => x.fn == fn)
    evt { setMreg fn 0x1848 (mreg fn 0x1848 s &&& ~~~ 0x40000000#64) s with
            tlb := s.tlb.filter (fun t => !mine.any (fun x => x.hits t)), tlbi := s.tlbi.filter (fun x => x.fn != fn) }
  else evt s

/-! Host space (R251). -/

/-- A held host-space translation. -/
def isAts (ctx : BitVec 6) (t : TlbEnt) : Bool := t.ctx == ctx && t.mem == 2

/-- ATS_INVALIDATION: the matching entries are dropped. -/
def execAtsInvalidation (ctx : BitVec 6) (va : BitVec 64) (size : Nat) (s : State) : Out :=
  evt { s with tlb := s.tlb.filter (fun t =>
    !(isAts ctx t && decide (va.toNat < t.va + t.size) && decide (t.va < va.toNat + size))) }

/-- The entry a returned translation is held as: a size below 64 KiB as 4 KiB. `hpa` is the host address of the first byte
of the returned range. -/
def atsEntry (ctx : BitVec 6) (va hpa size : Nat) (rd wr : Bool) : TlbEnt :=
  let sz := if size < 65536 then 4096 else size
  let base := va / sz * sz
  { ctx := ctx, va := base, size := sz, pa := hpa + (base - va / max size 1 * size), mem := 2, rd := rd, wr := wr, ex := false }

/-- ATS_TRANSLATION_RESPONSE: a requested translation arrives, or leads to a page request. -/
def execAtsTranslationResponse (ctx : BitVec 6) (va : BitVec 64) (present : Bool) (hpa size : Nat) (rd wr : Bool) (s : State) :
    Out :=
  let page := va.toNat / 4096
  if s.atsReqs.contains (ctx, page) then
    let s1 := { s with atsReqs := s.atsReqs.filter (fun e => e != (ctx, page)) }
    if present then
      evt { s1 with tlb := s1.tlb ++ [atsEntry ctx va.toNat hpa size rd wr], hostWaits := s1.hostWaits.filter (fun e => e.1 != (ctx, page)) }
    else if s1.priReqs.contains (ctx, page) then evt s1
    else evt { s1 with priReqs := s1.priReqs ++ [(ctx, page)] }
  else evt s

/-- PRI_RESPONSE: the translation is asked for again, or the accesses that wait for it take PAGE of kind 2. -/
def execPriResponse (ctx : BitVec 6) (va : BitVec 64) (ok : Bool) (s : State) : Out :=
  let page := va.toNat / 4096
  if s.priReqs.contains (ctx, page) then
    let s1 := { s with priReqs := s.priReqs.filter (fun e => e != (ctx, page)), hostWaits := s.hostWaits.filter (fun e => e.1 != (ctx, page)) }
    evt (if ok then s1 else { s1 with priRefused := s1.priRefused ++ s.hostWaits.filter (fun e => e.1 == (ctx, page)) })
  else evt s

end Sys2Proof.Machine
end

