-- ==== Sys2Proof/Machine/Registers.lean ====
section
/-!
DEFINITION. A write to a register of a function's management window (R12, R205, R241, R259, R265, R273, R289, R293, R401).
-/
namespace Sys2Proof.Machine

/-- The fields that a write stores, and those where writing 1 clears, by offset; only the physical function's window has
those from 0x2000 on, and RTBASE. A register written here has no other behaviour. -/
def storeMask (fn off : Nat) : DWord × DWord :=
  let all : DWord := 0xFFFFFFFFFFFFFFFF#64
  let ring : DWord := 0x8000001F#64
  if off % 8 ≠ 0 then (0#64, 0#64)
  else if off = 0x1800 ∨ off = 0x1810 ∨ off = 0x1820 ∨ off = 0x1838 ∨ off = 0x1840 ∨ off = 0x1850 ∨ off = 0x1858 ∨ off = 0x1860 then
    (all, 0#64)
  else if off = 0x1808 ∨ off = 0x1908 then (ring, 0#64)
  else if off = 0x1868 then (if fn = 0 then all else 0#64, 0#64)
  else if off = 0x1900 ∨ off = 0x1910 then (all, 0#64)
  else if 0x1940 ≤ off ∧ off < 0x1980 then (all, 0#64)
  else if off = 0x1A00 ∨ off = 0x1A10 ∨ off = 0x1A28 ∨ off = 0x1AC8 ∨ off = 0x1AD0 then (all, 0#64)
  else if 0x1A40 ≤ off ∧ off < 0x1AC0 then (if off % 16 = 0 then 0x01FFFFFFFFFFFFFF#64 else all, 0#64)
  else if off = 0x1B00 then (0x80003F00#64, 0#64)
  else if off = 0x1B08 then (0#64, all)
  else if 0x1C00 ≤ off ∧ off < 0x1E00 then (0x1FFFF#64, 0#64)
  else if 0x1E00 ≤ off ∧ off < 0x2000 then (0xFFFFFFFFFFFF#64, 0#64)
  else if fn ≠ 0 then (0#64, 0#64)
  else if off = 0x2018 then (0xFFFF#64, 0#64)
  else if off = 0x2400 then (all, 0#64)
  else if off = 0x2608 then (0x7FFFFFFF80#64, 0#64)
  else (0#64, 0#64)

/-- Store a value by the access codes of R12: stored fields take it, fields that 1 clears lose its bits, the rest stand. -/
def storeReg (fn off : Nat) (val : BitVec 64) (s : State) : State :=
  let (rw, w1c) := storeMask fn off
  let old := mreg fn off s
  setMreg fn off ((val &&& rw) ||| (old &&& ~~~ (rw ||| w1c)) ||| (old &&& w1c &&& ~~~ val)) s

/-- A queue is enabled: HEAD counts from there, unless it is kept. -/
def restartHead (fn q : Nat) (s : State) : State :=
  if s.keptHeads.contains (fn, q) then { s with keptHeads := s.keptHeads.filter (fun e => e != (fn, q)) }
  else setMreg fn (queueAt q + 16) 0#64 { s with overwritten := s.overwritten.filter (fun e => (e.1, e.2.1) != (fn, q)) }

/-- A write of a queue's registers (R205, R296): BASE, CTX and LOGN stand while EN = 1; clearing EN disables the queue.
Setting EN restarts HEAD at 0, the count of records taken since, but for a queue whose HEAD a reset or a restart keeps (R270, R285,
log entry 60). -/
def writeQueue (fn off : Nat) (val : BitVec 64) (s : State) : State :=
  let q := (off - 0x1000) / 32
  let on := (mreg fn (queueAt q + 8) s).getLsbD 31
  if !deviceReady s then s
  else
    match off % 32 with
    | 0 => if on then s else setMreg fn off val s
    | 8 =>
      if on then (if val.getLsbD 31 then s else disableQueue fn q s) 
      else
        let s1 := setMreg fn off (val &&& 0x80003F1F#64) s
        checkTail fn q (if val.getLsbD 31 then restartHead fn q s1 else s1)
    | 24 => ringDoorbell fn q val s
    | _ => s

/-- VFCTLn, VFCLn, VFCTXn (R289, R290): their fields stand while the function is enabled. -/
def writeVf (off : Nat) (val : BitVec 64) (s : State) : Out :=
  let n := (off - 0x2000) / 32
  match off % 32 with
  | 0 => if val.getLsbD 63 then execVfEnable n val s else execVfDisable n val s
  | 8 => if vfOn n s then evt s else evt (setMreg 0 off (val &&& 0xFFFFFFFFFF#64) s)
  | 16 => if vfOn n s then evt s else evt (setMreg 0 off (val &&& ~~~ 1#64) s)
  | _ => evt s

/-- A write of FACT (R241). -/
def writeFact (fn : Nat) (val : BitVec 64) (s : State) : Out :=
  match bits val.toNat 1 0 with
  | 0 => execFactRetry fn s
  | 1 => execFactAbandon fn s
  | 2 => execFactTerminate fn s
  | _ => execFactReserved fn s

/-- A write in a core's management window (R93, R148): BANKCFG and LEASECFG. The specification gives these windows no address: here
they are those of functions 256 to 415, with BANKCFG at offset 0 and LEASECFG at 8 (log entry 58). -/
def writeCoreReg (core off : Nat) (val : DWord) (s : State) : State :=
  match off with
  | 0 => writeBankcfg core val s
  | 8 => modCore core (fun k => { k with fill := val.setWidth 5 }) s
  | _ => s

/-- REGISTER_WRITE: a register without a behaviour of its own stores by its access code; the others do what their writes do. -/
def execRegisterWrite (fn : Nat) (off : BitVec 16) (val : BitVec 64) (s : State) : Out :=
  let o := off.toNat
  if 256 ≤ fn ∧ fn < 416 then evt (writeCoreReg (fn - 256) o val s)
  else if 16 < fn then evt s
  else if 0x1000 ≤ o ∧ o < 0x1800 then (if o % 8 = 0 then evt (writeQueue fn o val s) else evt s)
  else if o = 0x1828 then writeFact fn val s
  else if o = 0x1830 then execQpre fn (val.setWidth 6) s
  else if o = 0x1848 then execTlbInvalidate fn val s
  else if o = 0x1920 then execStopRequest fn val s
  else if o = 0x19F0 then execQueueReset fn (val.setWidth 6) s
  else if o = 0x1A08 then evt (writeTsctl fn val s)
  else if o = 0x1AC0 then evt (writeLnctl fn val s)
  else if fn = 0 ∧ 0x2020 ≤ o ∧ o < 0x2220 then writeVf o val s
  else if fn = 0 ∧ o = 0x2600 then execErrorInject val s
  else if fn = 0 ∧ o = 0x1868 then evt (mirrorTable (storeReg fn o val s))
  else evt (storeReg fn o val s)

end Sys2Proof.Machine
end

