-- ==== Sys2Proof/Machine/Schedule.lean ====
section
/-!
DEFINITION. The core's own scheduling: the activation rule (R218), footprints (R216), starvation (R219) and quantum
expiry (R222).
-/
namespace Sys2Proof.Machine

/-! The activation rule (R218). -/

/-- A core deactivates one gang while its leases exceed its capacity (R218, Overflow). -/
def execGangDeactivate (core : Nat) (s : State) : Out :=
  match overflowGang core s with
  | some a => evt (setInactive a.r s)
  | none => evt s

/-- A core activates a pinned gang, or the oldest inactive one that fits (R218, Room and Pinning). -/
def execGangActivate (core : Nat) (s : State) : Out :=
  match roomGang core s with
  | some a => evt (setActive a.r false s)
  | none => evt s

/-- A gang has been inactive for 65,536 clocks (R218, Rotation), and is pinned or not kept out by pinned gangs that alone exceed
capacity (Pinning). -/
def rotationDue (g : GangRef) (s : State) : Bool :=
  match aget g.grp s.groups, gangOf g s with
  | some grp, some gg =>
    !grp.ended && !gg.active && !gg.halted && !gg.ended && decide (65536 ≤ elapsed grp.core gg.changedAt s)
      && (grp.waitsFor g.gang || !pinnedOver grp.core (seats grp.core s) s)
  | _, _ => false

/-- GANG_ROTATION. -/
def execGangRotation (g : GangRef) (s : State) : Out :=
  match aget g.grp s.groups with
  | some grp => if rotationDue g s then evt (rotateIn grp.core g s) else evt s
  | none => evt s

/-! Footprints (R216). -/

/-- 512 times the natural logarithm of 512 / d for 0 < d < 512, rounded up; it is no integer there. -/
def lnEstimate (d : Nat) : Nat :=
  let j := Nat.log2 d
  let z := (d - 2 ^ j) * wScale / (d + 2 ^ j)
  let t := (9 - j) * ln2Scaled - 2 * atanhSeries 170 1 z (z * z / wScale)
  512 * t / wScale + 1

/-- Est(k) (R216). -/
def footEst (k : Nat) : Nat := if k = 0 then 0 else if 512 ≤ k then 4096 else lnEstimate (512 - k)

/-- The window of a gang's footprint ends. -/
def Gang.windowEnd (g : Gang) : Gang :=
  { g with leaseBase := footEst (countBits g.footprint.toNat 512), footprint := 0#512, window := 0, leaseE := 0 }

/-- FOOTPRINT_WINDOW_END. -/
def execFootprintWindowEnd (g : GangRef) (s : State) : Out :=
  match gangOf g s with
  | some gg => if 2048 ≤ gg.window then evt (modGang g Gang.windowEnd s) else evt s
  | none => evt s

/-! Starvation (R219). -/

/-- A gang has been ready for 64 clocks without issuing, and is not starved yet. -/
def mayStarve (g : GangRef) (s : State) : Bool :=
  match aget g.grp s.groups, gangOf g s with
  | some grp, some gg =>
    !grp.ended && !grp.suspended && gg.starved.isNone && !(readyFrags g.grp g.gang gg s).isEmpty && !gg.yields grp.core s
      && s.waiting.any (fun e => e.1 == .gang g && decide (64 ≤ elapsed grp.core e.2 s))
  | _, _ => false

/-- GANG_STARVED. -/
def execGangStarved (g : GangRef) (s : State) : Out :=
  if mayStarve g s then evt (modGang g (fun gg => { gg with starved := some s.clock }) s) else evt s

/-! Quantum expiry (R222). -/

/-- Some entry of a core's dispatch queue fails to fit there. -/
def entryFails (core : Nat) (s : State) : Bool :=
  (coreOf core s).dispatchQ.any (fun id =>
    match aget id s.entries with
    | some e => (match aget e.launch s.launches with | some l => heeds l core s && (fitEntry e core s).isNone | none => false)
    | none => false)

/-- A group's residency has reached its quantum and an entry fails to fit. -/
def quantumOver (grp : Nat) (s : State) : Bool :=
  match aget grp s.groups with
  | none => false
  | some g =>
    match aget g.launch s.launches with
    | none => false
    | some l =>
      l.r.order == 2 && !g.ended && g.susp.isNone && decide (l.r.quantum * 1024 ≤ elapsed g.core g.since s)
        && entryFails g.core s

/-- QUANTUM_EXPIRY: a DISCARD whose entry goes to the tail (R222, R229). -/
def execQuantumExpiry (grp : Nat) (s : State) : Out :=
  if quantumOver grp s then
    evt (advanceSusp grp (askSusp grp { hold := false, tail := true, debug := none, base := none } s))
  else evt s

end Sys2Proof.Machine
end

