-- ==== Sys2Proof/Machine/Dispatch.lean ====
section
/-!
DEFINITION. One arm per instruction and event row, each a direct call of its meaning.
-/
namespace Sys2Proof.Machine

/-- The effect of one instruction of the selected fragment, or of one step of the device. -/
def exec (i : Instr) (s : State) : Host.Outcome State Fault Refusal :=
  match i with
  | .fadd o => Sys2Proof.Machine.execFadd o s
  | .fsub o => Sys2Proof.Machine.execFsub o s
  | .fmul o => Sys2Proof.Machine.execFmul o s
  | .ffma o => Sys2Proof.Machine.execFfma o s
  | .fmin o => Sys2Proof.Machine.execFmin o s
  | .fmax o => Sys2Proof.Machine.execFmax o s
  | .fscale o => Sys2Proof.Machine.execFscale o s
  | .fcmp cond pd o => Sys2Proof.Machine.execFcmp cond pd o s
  | .faddF64 o => Sys2Proof.Machine.execFaddF64 o s
  | .fsubF64 o => Sys2Proof.Machine.execFsubF64 o s
  | .fmulF64 o => Sys2Proof.Machine.execFmulF64 o s
  | .ffmaF64 o => Sys2Proof.Machine.execFfmaF64 o s
  | .frnd ft rc o => Sys2Proof.Machine.execFrnd ft rc o s
  | .fclass ft o => Sys2Proof.Machine.execFclass ft o s
  | .digits ft o => Sys2Proof.Machine.execDigits ft o s
  | .ftoi it f64 rc o => Sys2Proof.Machine.execFtoi it f64 rc o s
  | .itof it ft o => Sys2Proof.Machine.execItof it ft o s
  | .fcvt dst src h o => Sys2Proof.Machine.execFcvt dst src h o s
  | .fcvtToXs src o => Sys2Proof.Machine.execFcvtToXs src o s
  | .fcvtFromXs dst o => Sys2Proof.Machine.execFcvtFromXs dst o s
  | .mov ty o => Sys2Proof.Machine.execMov ty o s
  | .not ty o => Sys2Proof.Machine.execNot ty o s
  | .iabs ty o => Sys2Proof.Machine.execIabs ty o s
  | .popc ty o => Sys2Proof.Machine.execPopc ty o s
  | .clz ty o => Sys2Proof.Machine.execClz ty o s
  | .brev ty o => Sys2Proof.Machine.execBrev ty o s
  | .iadd o => Sys2Proof.Machine.execIadd o s
  | .isub o => Sys2Proof.Machine.execIsub o s
  | .imul o => Sys2Proof.Machine.execImul o s
  | .imulh o => Sys2Proof.Machine.execImulh o s
  | .imad o => Sys2Proof.Machine.execImad o s
  | .imin o => Sys2Proof.Machine.execImin o s
  | .imax o => Sys2Proof.Machine.execImax o s
  | .icmp cond pd o => Sys2Proof.Machine.execIcmp cond pd o s
  | .iadds o => Sys2Proof.Machine.execIadds o s
  | .isubs o => Sys2Proof.Machine.execIsubs o s
  | .idot2 o => Sys2Proof.Machine.execIdot2 o s
  | .ishrr o => Sys2Proof.Machine.execIshrr o s
  | .pks o => Sys2Proof.Machine.execPks o s
  | .sel o => Sys2Proof.Machine.execSel o s
  | .prmt o => Sys2Proof.Machine.execPrmt o s
  | .bfx o => Sys2Proof.Machine.execBfx o s
  | .bfi o => Sys2Proof.Machine.execBfi o s
  | .and o => Sys2Proof.Machine.execAnd o s
  | .or o => Sys2Proof.Machine.execOr o s
  | .xor o => Sys2Proof.Machine.execXor o s
  | .shl o => Sys2Proof.Machine.execShl o s
  | .shr o => Sys2Proof.Machine.execShr o s
  | .sar o => Sys2Proof.Machine.execSar o s
  | .icmpI cond pd o => Sys2Proof.Machine.execIcmpI cond pd o s
  | .iaddI o => Sys2Proof.Machine.execIaddI o s
  | .imulI o => Sys2Proof.Machine.execImulI o s
  | .andI o => Sys2Proof.Machine.execAndI o s
  | .orI o => Sys2Proof.Machine.execOrI o s
  | .xorI o => Sys2Proof.Machine.execXorI o s
  | .shlI o => Sys2Proof.Machine.execShlI o s
  | .shrI o => Sys2Proof.Machine.execShrI o s
  | .sarI o => Sys2Proof.Machine.execSarI o s
  | .mov16 s5 d6 => Sys2Proof.Machine.execMov16 s5 d6 s
  | .iadd16 s5 d6 => Sys2Proof.Machine.execIadd16 s5 d6 s
  | .isub16 s5 d6 => Sys2Proof.Machine.execIsub16 s5 d6 s
  | .imul16 s5 d6 => Sys2Proof.Machine.execImul16 s5 d6 s
  | .imin16 s5 d6 => Sys2Proof.Machine.execImin16 s5 d6 s
  | .imax16 s5 d6 => Sys2Proof.Machine.execImax16 s5 d6 s
  | .and16 s5 d6 => Sys2Proof.Machine.execAnd16 s5 d6 s
  | .or16 s5 d6 => Sys2Proof.Machine.execOr16 s5 d6 s
  | .xor16 s5 d6 => Sys2Proof.Machine.execXor16 s5 d6 s
  | .shl16 s5 d6 => Sys2Proof.Machine.execShl16 s5 d6 s
  | .shr16 s5 d6 => Sys2Proof.Machine.execShr16 s5 d6 s
  | .sar16 s5 d6 => Sys2Proof.Machine.execSar16 s5 d6 s
  | .fadd16 s5 d6 => Sys2Proof.Machine.execFadd16 s5 d6 s
  | .fsub16 s5 d6 => Sys2Proof.Machine.execFsub16 s5 d6 s
  | .fmul16 s5 d6 => Sys2Proof.Machine.execFmul16 s5 d6 s
  | .fmax16 s5 d6 => Sys2Proof.Machine.execFmax16 s5 d6 s
  | .illegal n p => Sys2Proof.Machine.execIllegal n p s
  | .ldG o => Sys2Proof.Machine.execLdG o s
  | .ldS o => Sys2Proof.Machine.execLdS o s
  | .ldC o => Sys2Proof.Machine.execLdC o s
  | .ldP o => Sys2Proof.Machine.execLdP o s
  | .ldH o => Sys2Proof.Machine.execLdH o s
  | .ldF o => Sys2Proof.Machine.execLdF o s
  | .stG o => Sys2Proof.Machine.execStG o s
  | .stS o => Sys2Proof.Machine.execStS o s
  | .stC o => Sys2Proof.Machine.execStC o s
  | .stP o => Sys2Proof.Machine.execStP o s
  | .stH o => Sys2Proof.Machine.execStH o s
  | .stF o => Sys2Proof.Machine.execStF o s
  | .atomAdd sp o => Sys2Proof.Machine.execAtomAdd sp o s
  | .atomMin sp o => Sys2Proof.Machine.execAtomMin sp o s
  | .atomMinu sp o => Sys2Proof.Machine.execAtomMinu sp o s
  | .atomMax sp o => Sys2Proof.Machine.execAtomMax sp o s
  | .atomMaxu sp o => Sys2Proof.Machine.execAtomMaxu sp o s
  | .atomMaxe sp o => Sys2Proof.Machine.execAtomMaxe sp o s
  | .atomAnd sp o => Sys2Proof.Machine.execAtomAnd sp o s
  | .atomOr sp o => Sys2Proof.Machine.execAtomOr sp o s
  | .atomXor sp o => Sys2Proof.Machine.execAtomXor sp o s
  | .atomXchg sp o => Sys2Proof.Machine.execAtomXchg sp o s
  | .atomFadd sp o => Sys2Proof.Machine.execAtomFadd sp o s
  | .atomFmax sp o => Sys2Proof.Machine.execAtomFmax sp o s
  | .acas sp o => Sys2Proof.Machine.execAcas sp o s
  | .xsadd sp o => Sys2Proof.Machine.execXsadd sp o s
  | .pref level o => Sys2Proof.Machine.execPref level o s
  | .cmo level op o => Sys2Proof.Machine.execCmo level op o s
  | .cmoRange level op sb sa p => Sys2Proof.Machine.execCmoRange level op sb sa p s
  | .fence kind scope p => Sys2Proof.Machine.execFence kind scope p s
  | .qswap w sel o => Sys2Proof.Machine.execQswap w sel o s
  | .qbcast w sel o => Sys2Proof.Machine.execQbcast w sel o s
  | .shfl o => Sys2Proof.Machine.execShfl o s
  | .slideDown dist o => Sys2Proof.Machine.execSlideDown dist o s
  | .slideUp dist o => Sys2Proof.Machine.execSlideUp dist o s
  | .slideFill up dist fill o => Sys2Proof.Machine.execSlideFill up dist fill o s
  | .match w o => Sys2Proof.Machine.execMatch w o s
  | .redux op ty o => Sys2Proof.Machine.execRedux op ty o s
  | .voteAny ps pd p => Sys2Proof.Machine.execVoteAny ps pd p s
  | .voteAll ps pd p => Sys2Proof.Machine.execVoteAll ps pd p s
  | .voteBal ps sd p => Sys2Proof.Machine.execVoteBal ps sd p s
  | .elect pd p => Sys2Proof.Machine.execElect pd p s
  | .readlnImm lane a sd da p x => Sys2Proof.Machine.execReadlnImm lane a sd da p x s
  | .readlnScalar sl a sd da p x => Sys2Proof.Machine.execReadlnScalar sl a sd da p x s
  | .writelnImm lane sa d p x => Sys2Proof.Machine.execWritelnImm lane sa d p x s
  | .writelnScalar sl sa d p x => Sys2Proof.Machine.execWritelnScalar sl sa d p x s
  | .sadd sb sa sd p => Sys2Proof.Machine.execSadd sb sa sd p s
  | .ssub sb sa sd p => Sys2Proof.Machine.execSsub sb sa sd p s
  | .smul sb sa sd p => Sys2Proof.Machine.execSmul sb sa sd p s
  | .sand sb sa sd p => Sys2Proof.Machine.execSand sb sa sd p s
  | .sor sb sa sd p => Sys2Proof.Machine.execSor sb sa sd p s
  | .sxor sb sa sd p => Sys2Proof.Machine.execSxor sb sa sd p s
  | .sshl sb sa sd p => Sys2Proof.Machine.execSshl sb sa sd p s
  | .sshr sb sa sd p => Sys2Proof.Machine.execSshr sb sa sd p s
  | .ssar sb sa sd p => Sys2Proof.Machine.execSsar sb sa sd p s
  | .smov sa sd p => Sys2Proof.Machine.execSmov sa sd p s
  | .ssel sb sa sd p => Sys2Proof.Machine.execSsel sb sa sd p s
  | .scmp cond sb sa sd p => Sys2Proof.Machine.execScmp cond sb sa sd p s
  | .sli imm sd p => Sys2Proof.Machine.execSli imm sd p s
  | .sliSh imm sd p => Sys2Proof.Machine.execSliSh imm sd p s
  | .sld sz sp imm sa sd p => Sys2Proof.Machine.execSld sz sp imm sa sd p s
  | .sst sz sp imm sa sd p => Sys2Proof.Machine.execSst sz sp imm sa sd p s
  | .sread sel sd p => Sys2Proof.Machine.execSread sel sd p s
  | .swrite sa sel p => Sys2Proof.Machine.execSwrite sa sel p s
  | .plop op pb pa pd p => Sys2Proof.Machine.execPlop op pb pa pd p s
  | .plopFroms sa pd p => Sys2Proof.Machine.execPlopFroms sa pd p s
  | .plopTos pa sd p => Sys2Proof.Machine.execPlopTos pa sd p s
  | .fdiv o => Sys2Proof.Machine.execFdiv o s
  | .frcp ft o => Sys2Proof.Machine.execFrcp ft o s
  | .frsq ft o => Sys2Proof.Machine.execFrsq ft o s
  | .fsqrt ft o => Sys2Proof.Machine.execFsqrt ft o s
  | .fexp2 ft o => Sys2Proof.Machine.execFexp2 ft o s
  | .flog2 ft o => Sys2Proof.Machine.execFlog2 ft o s
  | .fsinpi ft o => Sys2Proof.Machine.execFsinpi ft o s
  | .fcospi ft o => Sys2Proof.Machine.execFcospi ft o s
  | .braCond disp n pr p => Sys2Proof.Machine.execBraCond disp n pr p s
  | .bra disp p => Sys2Proof.Machine.execBra disp p s
  | .brv disp n pr p => Sys2Proof.Machine.execBrv disp n pr p s
  | .call disp p => Sys2Proof.Machine.execCall disp p s
  | .braReg vn p => Sys2Proof.Machine.execBraReg vn p s
  | .callReg vn p => Sys2Proof.Machine.execCallReg vn p s
  | .ret p => Sys2Proof.Machine.execRet p s
  | .regangWait p => Sys2Proof.Machine.execRegangWait p s
  | .regangTry p => Sys2Proof.Machine.execRegangTry p s
  | .region p => Sys2Proof.Machine.execRegion p s
  | .exit p => Sys2Proof.Machine.execExit p s
  | .nop p => Sys2Proof.Machine.execNop p s
  | .wait fromS imm sa path p => Sys2Proof.Machine.execWait fromS imm sa path p s
  | .bar id sd p => Sys2Proof.Machine.execBar id sd p s
  | .cbar id sd p => Sys2Proof.Machine.execCbar id sd p s
  | .copy dir op sb sa sk p => Sys2Proof.Machine.execCopy dir op sb sa sk p s
  | .binit sb sa p => Sys2Proof.Machine.execBinit sb sa p s
  | .bwait sa p => Sys2Proof.Machine.execBwait sa p s
  | .mldw fmt sb sa p => Sys2Proof.Machine.execMldw fmt sb sa p s
  | .mswap p => Sys2Proof.Machine.execMswap p s
  | .mma fmt sb sa tile p => Sys2Proof.Machine.execMma fmt sb sa tile p s
  | .mfence p => Sys2Proof.Machine.execMfence p s
  | .mwait all tile p => Sys2Proof.Machine.execMwait all tile p s
  | .mdrain mode sb sa tile p => Sys2Proof.Machine.execMdrain mode sb sa tile p s
  | .mzero tile p => Sys2Proof.Machine.execMzero tile p s
  | .trap code p => Sys2Proof.Machine.execTrap code p s
  | .rett p => Sys2Proof.Machine.execRett p s
  | .bkpt code p => Sys2Proof.Machine.execBkpt code p s
  | .trace tag sa p => Sys2Proof.Machine.execTrace tag sa p s
  | .ctrrd n sd p => Sys2Proof.Machine.execCtrrd n sd p s
  | .progress k p => Sys2Proof.Machine.execProgress k p s
  | .yield p => Sys2Proof.Machine.execYield p s
  | .lease sa p => Sys2Proof.Machine.execLease sa p s
  | .sigchk sa p => Sys2Proof.Machine.execSigchk sa p s
  | .jointComplete grp mismatches => Sys2Proof.Machine.execJointComplete grp mismatches s
  | .loadComplete g op => Sys2Proof.Machine.execLoadComplete g op s
  | .storeAck g => Sys2Proof.Machine.execStoreAck g s
  | .cmoComplete g op => Sys2Proof.Machine.execCmoComplete g op s
  | .loggedAtomicGrant g op lane => Sys2Proof.Machine.execLoggedAtomicGrant g op lane s
  | .replayWaitTimeout g op => Sys2Proof.Machine.execReplayWaitTimeout g op s
  | .copyElementWrite core copy => Sys2Proof.Machine.execCopyElementWrite core copy s
  | .qtailDoorbell fn q val => Sys2Proof.Machine.execQtailDoorbell fn q val s
  | .takeLaunchRecord fn q => Sys2Proof.Machine.execTakeLaunchRecord fn q s
  | .launchCompletion launch => Sys2Proof.Machine.execLaunchCompletion launch s
  | .dispatchGroup launch core => Sys2Proof.Machine.execDispatchGroup launch core s
  | .admitGroup core => Sys2Proof.Machine.execAdmitGroup core s
  | .gangDeactivate core => Sys2Proof.Machine.execGangDeactivate core s
  | .gangActivate core => Sys2Proof.Machine.execGangActivate core s
  | .gangRotation g => Sys2Proof.Machine.execGangRotation g s
  | .footprintWindowEnd g => Sys2Proof.Machine.execFootprintWindowEnd g s
  | .gangStarved g => Sys2Proof.Machine.execGangStarved g s
  | .quantumExpiry grp => Sys2Proof.Machine.execQuantumExpiry grp s
  | .discard grp => Sys2Proof.Machine.execDiscard grp s
  | .qpre fn q => Sys2Proof.Machine.execQpre fn q s
  | .groupHold grp => Sys2Proof.Machine.execGroupHold grp s
  | .stopRequest fn val => Sys2Proof.Machine.execStopRequest fn val s
  | .breakpointStop r => Sys2Proof.Machine.execBreakpointStop r s
  | .faultRecordWrite fn => Sys2Proof.Machine.execFaultRecordWrite fn s
  | .factRetry fn => Sys2Proof.Machine.execFactRetry fn s
  | .factAbandon fn => Sys2Proof.Machine.execFactAbandon fn s
  | .factTerminate fn => Sys2Proof.Machine.execFactTerminate fn s
  | .factReserved fn => Sys2Proof.Machine.execFactReserved fn s
  | .tlbInvalidate fn val => Sys2Proof.Machine.execTlbInvalidate fn val s
  | .tlbInvalidateDone fn => Sys2Proof.Machine.execTlbInvalidateDone fn s
  | .atsInvalidation ctx va size => Sys2Proof.Machine.execAtsInvalidation ctx va size s
  | .priResponse ctx va ok => Sys2Proof.Machine.execPriResponse ctx va ok s
  | .bankcfgScrWrite core val => Sys2Proof.Machine.execBankcfgScrWrite core val s
  | .bankSwitchDone core bank => Sys2Proof.Machine.execBankSwitchDone core bank s
  | .queueReset fn q => Sys2Proof.Machine.execQueueReset fn q s
  | .traceSessionOpen fn val => Sys2Proof.Machine.execTraceSessionOpen fn val s
  | .traceSessionClose fn val => Sys2Proof.Machine.execTraceSessionClose fn val s
  | .lanternStart fn val => Sys2Proof.Machine.execLanternStart fn val s
  | .counterWrap fn n => Sys2Proof.Machine.execCounterWrap fn n s
  | .vfEnable n val => Sys2Proof.Machine.execVfEnable n val s
  | .vfDisable n val => Sys2Proof.Machine.execVfDisable n val s
  | .errorInject val => Sys2Proof.Machine.execErrorInject val s
  | .registerWrite fn off val => Sys2Proof.Machine.execRegisterWrite fn off val s
  | .memoryUe level pa => Sys2Proof.Machine.execMemoryUe level pa s
  | .selfTestStart seg => Sys2Proof.Machine.execSelfTestStart seg s
  | .selfTestDone seg pass => Sys2Proof.Machine.execSelfTestDone seg pass s
  | .ringmasterBootDone ok => Sys2Proof.Machine.execRingmasterBootDone ok s
  | .clockStep raise => Sys2Proof.Machine.execClockStep raise s
  | .bringUp ok => Sys2Proof.Machine.execBringUp ok s
  | .hostLinkDown port => Sys2Proof.Machine.execHostLinkDown port s
  | .hostLinkUp port => Sys2Proof.Machine.execHostLinkUp port s
  | .fabricPortDown port => Sys2Proof.Machine.execFabricPortDown port s
  | .fabricPortUp port => Sys2Proof.Machine.execFabricPortUp port s
  | .flitReceive port flit => Sys2Proof.Machine.execFlitReceive port flit s
  | .cxlMemRead pa len => Sys2Proof.Machine.execCxlMemRead pa len s
  | .cxlMemWrite pa data => Sys2Proof.Machine.execCxlMemWrite pa data s
  | .attestationRequest nonce => Sys2Proof.Machine.execAttestationRequest nonce s
  | .reservedMajorOpcode w => Sys2Proof.Machine.execReservedMajorOpcode w s
  | .xpPrefix w => Sys2Proof.Machine.execXpPrefix w s
  | .uncorrectableRegisterError g target => Sys2Proof.Machine.execUncorrectableRegisterError g target s
  | .atsTranslationResponse ctx va present hpa size rd wr => Sys2Proof.Machine.execAtsTranslationResponse ctx va present hpa size rd wr s
  | .illegalHalfword => Sys2Proof.Machine.execIllegalHalfword s
  | .worldSwitch => Sys2Proof.Machine.execWorldSwitch s
  | .ringmasterLockstepMismatch => Sys2Proof.Machine.execRingmasterLockstepMismatch s
  | .thermalTrip => Sys2Proof.Machine.execThermalTrip s
  | .d3hotEntry => Sys2Proof.Machine.execD3hotEntry s
  | .d0Wake => Sys2Proof.Machine.execD0Wake s
  | .managementReset => Sys2Proof.Machine.execManagementReset s
  | .d3coldEntry => Sys2Proof.Machine.execD3coldEntry s

end Sys2Proof.Machine
end

