-- ==== Sys2Proof/Machine/Engine.lean ====
section
/-!
DEFINITION. The fetch of a step, and the steps that the device can take of itself now: completions, the cores' scheduling, the Ringmaster's work,
suspensions and self-tests. Which of them comes next is free (R7).
-/
namespace Sys2Proof.Machine

/-- A fetch, past the errors that it meets in lines of other contexts (R264): what it gives, those errors, and the state. -/
def fetchLines (c : Cur) : Nat → List LineErr → State → Fetched × List LineErr × State
  | 0, es, s => (fetch c s, es, s)
  | n + 1, es, s =>
    match fetch c s with
    | .line ln =>
      if foreign c.ctx ln s then fetchLines c n (lineErrAt (errLevel ln s) ln s :: es) (blunt ln s) else (.line ln, es, s)
    | r => (r, es, s)

/-- A next state with the errors that were met dealt with. -/
def afterLines (launch : DWord) (es : List LineErr) (o : Out) : Out :=
  match o with
  | .next s => .next (containAll launch es s)
  | o => o

/-- What the operations of a gang can do: complete, be granted, be treated, be performed, run out of time. -/
def opSteps (r : GangRef) (core : Nat) (g : Gang) (l : Launch) (s : State) : List Instr :=
  g.ops.flatMap (fun o =>
    (if o.canComplete s && !g.refuses o.id then [Instr.loadComplete r o.id] else [])
      ++ (if o.canTreat core g s then [Instr.cmoComplete r o.id] else [])
      ++ (match o.log with
          | none => []
          | some w =>
            (if o.reachable s && !g.refuses o.id then
                (if w.order = 4 then w.lanes.filterMap (fun x =>
                  match logTurn l x s with | .later => none | _ => some (Instr.loggedAtomicGrant r o.id x.lane))
                 else (w.lanes.take 1).map (fun x => Instr.loggedAtomicGrant r o.id x.lane))
              else [])
              ++ (if w.order == 4 && decide (2 ^ 26 < elapsed core w.since s) then [Instr.replayWaitTimeout r o.id] else [])))
  ++ (match g.sbuf with | e :: _ => if e.canPerform g s then [Instr.storeAck r] else [] | [] => [])

/-- A gang has ready fragments. -/
def isReady (s : State) (r : GangRef) (g : Gang) : Bool := !(readyFrags r.grp r.gang g s).isEmpty

/-- Another gang of a gang's partition is ready too, so that being starved can matter (R219). -/
def contended (core : Nat) (r : GangRef) (p : Nat) (s : State) : Bool :=
  s.groups.any (fun e => e.2.core == core && !e.2.ended && !e.2.suspended && e.2.gangs.any (fun g =>
    g.2.partition == p && ((⟨e.1, g.1⟩ : GangRef) != r) && isReady s ⟨e.1, g.1⟩ g.2))

/-- The steps of a resident group and its gangs. -/
def groupSteps (k : Nat) (g : Group) (s : State) : List Instr :=
  match aget g.launch s.launches with
  | none => []
  | some l =>
    g.gangs.flatMap (fun e =>
      let r : GangRef := { grp := k, gang := e.1 }
      opSteps r g.core e.2 l s
        ++ (if rotationDue r s then [Instr.gangRotation r] else [])
        ++ (if contended g.core r e.2.partition s && mayStarve r s then [Instr.gangStarved r] else []))
    ++ (if (nextJoint k s).isSome then [Instr.jointComplete k 0#2] else [])
    ++ (if quantumOver k s then [Instr.quantumExpiry k] else [])
    ++ (match g.susp with
        | some x => if suspReady k s then [if x.hold then Instr.groupHold k else Instr.discard k] else []
        | none => [])

/-- The steps of a core. -/
def coreSteps (core : Nat) (s : State) : List Instr :=
  ((coreOf core s).copies.filterMap (fun c => if copyReady core c.id s then some (Instr.copyElementWrite core c.id) else none))
    ++ (if (overflowGang core s).isSome then [Instr.gangDeactivate core] else [])
    ++ (if (roomGang core s).isSome then [Instr.gangActivate core] else [])
    ++ (match (coreOf core s).dispatchQ with
        | [] => []
        | q => if (examine core s q []).isSome then [Instr.admitGroup core] else [])
    ++ (if (coreOf core s).busy = 0#16 then []
        else ((List.range 16).filter (fun b => bankReady core b s)).map (fun b =>
          Instr.bankSwitchDone core (BitVec.ofNat 4 b)))

/-- The cores anything happens on. -/
def coresInUse (s : State) : List Nat := nodup (s.groups.map (fun e => e.2.core) ++ akeys s.cores)

/-- The steps of the Ringmaster for a launch. -/
def launchSteps (k : Nat) (l : Launch) (s : State) : List Instr :=
  (if launchOver k s && completing s then [Instr.launchCompletion k] else [])
    ++ (if dispatching l s then
          (if l.r.coop then [Instr.dispatchGroup k 0]
           else ((coresFor l.fn s).filter (fun c =>
             decide (entriesOn c s < 4) && (nextFor l c s).isSome)).map (fun c => Instr.dispatchGroup k c))
        else [])

/-- Some of these groups have not been asked to leave. -/
def unasked (ks : List Nat) (s : State) : Bool :=
  ks.any (fun k => match aget k s.groups with | some g => g.susp.isNone | none => false)

/-- The steps of the Ringmaster, the rings, the self-tests and the translation caches. -/
def ringSteps (s : State) : List Instr :=
  ((enabledQueues s).filter (fun q => queueTakes q.1 q.2 s)).map (fun q => Instr.takeLaunchRecord q.1 q.2)
    ++ s.launches.flatMap (fun e => launchSteps e.1 e.2 s)
    ++ (if completing s then (s.completions.filter (fun e => (retried e.1 s).isSome)).map (fun e => Instr.launchCompletion e.1) else [])
    ++ (nodup ((s.tokens.filter (fun e => e.2.pending && ringRoom e.2.fn e.2.debug s)).map (fun e => e.2.fn))).map Instr.faultRecordWrite
    ++ (s.resetting.filter (fun q => resetOver q.1 q.2 s)).map (fun q => Instr.queueReset q.1 (BitVec.ofNat 6 q.2))
    ++ (s.quiescing.filter (fun x => quiet x s || unasked (quiesceGroups x s) s)).map Instr.selfTestStart
    ++ s.testing.map (fun x => Instr.selfTestDone x true)
    ++ (nodup (s.tlbi.map (fun x => x.fn))).filterMap (fun fn => if tlbiReady fn s then some (Instr.tlbInvalidateDone fn) else none)
    ++ (if s.ringmasterBoot && (!s.restarting || (s.quiescing.isEmpty && s.testing.isEmpty)) then [Instr.ringmasterBootDone true] else [])
    ++ (if switchReady s || sliceOver s then [Instr.worldSwitch] else [])
    ++ (if s.sleeping && (s.groups.isEmpty || unasked (akeys s.groups) s) then [Instr.d3hotEntry] else [])

/-- The engine steps that can happen now. -/
def engineSteps (s : State) : List Instr :=
  s.groups.flatMap (fun e => groupSteps e.1 e.2 s) ++ (coresInUse s).flatMap (fun c => coreSteps c s) ++ ringSteps s

end Sys2Proof.Machine
end

