-- ==== Sys2Proof/Machine/Step.lean ====
section
/-!
DEFINITION. One step of the device: the next input, or the next engine step, or the next instruction of a fragment.
-/
namespace Sys2Proof.Machine

/-- A sensor's reading: while the device has not tripped, none of a die or a stack is at its trip point (R298). -/
def senseTemp (s : State) (n : Nat) : BitVec 16 :=
  let t := Config.temperature n s.clock
  if s.power = .tripped ∨ 32 ≤ n ∨ t.toInt < tripAt n then t else BitVec.ofInt 16 (tripAt n - 1)

/-- Clocks pass on every core (R3, R93), and the sensors read again (R298). -/
def State.runClocks (s : State) : State :=
  { s with
    clock := s.clock + 1, cycles := s.cycles.zipIdx.map (fun e => e.1 + clocksIn e.2 s.clock)
    temps := (List.range 33).map (senseTemp s) }

/-- Time passes. -/
def tick (s : State) : State := lanternCool s.clock (lanternCount s.clock s.runClocks)

/-- What may come next. -/
inductive Turn where
  | frag (r : FragRef)
  | engine (i : Instr)
  | cache (m : CacheMove)
  | reread (r : GangRef) (op : Nat) (must : Bool)
  | land (r : GangRef) (op : Nat)
  | move (entry core : Nat) (must : Bool)
  deriving DecidableEq, Repr

/-- What must have its turn at some time, under the name it waits by (R219, R220); the others only may. -/
def Turn.wanted : Turn → Option Wanted
  | .frag r => some (.frag r)
  | .engine i => some (.engine i)
  | .move e c true => some (.move e c)
  | .reread r op true => some (.read r op)
  | .move _ _ false | .cache _ | .reread _ _ false | .land .. => none

/-- Everything that may come next when no input waits. -/
def turns (s : State) : List Turn :=
  (candidates s).map Turn.frag ++ (engineSteps s).map Turn.engine ++ (cacheMoves s).map Turn.cache
    ++ (rereads s).map (fun e => Turn.reread e.1 e.2.1 e.2.2) ++ (landings s).map (fun e => Turn.land e.1 e.2) ++ (entryMoves s).map (fun e => Turn.move e.1 e.2.1 e.2.2)

/-- Since when something has been waiting: since now, where it has not waited before. -/
def State.since (s : State) (now : Nat) (w : Wanted) : Wanted × Nat := (s.waiting.find? (fun e => e.1 == w)).getD (w, now)

/-- Since when each thing that may come next, and must at some time, has been waiting. -/
def waits (ts : List Turn) (s : State) : List (Wanted × Nat) := (ts.filterMap Turn.wanted).map (s.since s.clock)

/-- Since when each ready gang has been ready without issuing, and its fragments (R219). -/
def readyWaits (s : State) : List (Wanted × Nat) :=
  (readyGangs s).flatMap (fun g =>
    s.since (cycleAt g.core s).toNat (.gang g.ref) :: g.frags.map (fun r => s.since s.clock (.frag r)))

/-- A turn ends a wait: of what it is given to, and of the gang whose fragment issues. -/
def Wanted.served (w : Wanted) (t : Option Wanted) : Bool :=
  t == some w || (match t, w with | some (.frag r), .gang g => gangRefOf r == g | _, _ => false)

/-- The turn of what has waited longest, where that is longer than anything can be passed over (R219, R220, log
entry 67). -/
def overdue (ts : List Turn) (s : State) : Option Turn :=
  let ws := waits ts s
  let late := ws.find? (fun e => decide (Config.patience < s.clock - e.2) && ws.all (fun x => decide (e.2 ≤ x.2)))
  late.bind (fun e => ts.find? (fun t => t.wanted == some e.1))

/-- What comes next: the only thing that may, or what is overdue, or a free one (R7, R219). -/
def nextTurn (s : State) : Option Turn :=
  match turns s with
  | [] => none
  | [t] => some t
  | ts => (overdue ts s).or (pickOf s.clock ts)

/-- What still waits when a turn has been given. -/
def State.given (t : Option Turn) (s : State) : State :=
  let ws := waits (turns s) s
  { s with waiting := (ws ++ (readyWaits s).filter (fun e => !ws.contains e)).filter (fun e => !e.1.served (t.bind Turn.wanted)) }

/-- The selected fragment fetches, decodes and executes one instruction. -/
def stepFrag (r : FragRef) (s : State) : Host.Outcome State Fault Refusal :=
  match curOf r s with
  | none => .fault .noIssuer
  | some c =>
    if mustStop c s then exec (.breakpointStop r) s
    else
      match fetchLines c 8 [] s with
      | (.fault f, _, _) => .next (takeFault c f { s with sel := some r })
      | (.line l, _, _) => exec (.memoryUe (BitVec.ofNat 2 (fatalLevel l s)) (128 * l)) { s with sel := some r }
      | (.table l, _, _) => .next (reportLine l s)
      | (.wait, es, s') => afterLines c.lau.name es (.next (stallCur c s'))
      | (.ok fr, es, s') =>
        let s1 := { fetchTouch c fr.len s' with sel := some r }
        afterLines c.lau.name es (match decode fr with
          | .bad k => .next (takeFault c (illop k) s1)
          | .ok i => exec i s1)

/-- One step. -/
def step (s : State) : Host.Outcome State Fault Refusal :=
  match s.agenda with
  | i :: rest => if i.isInstruction then .next (tick { s with agenda := rest })
    else exec i (tick { s with agenda := rest, sel := none })
  | [] =>
    let s1 := tick (s.given (nextTurn s))
    match nextTurn s with
    | none => .next s1
    | some (.engine i) => exec i { s1 with sel := none }
    | some (.cache m) => cacheMove m { s1 with sel := none }
    | some (.reread r op _) => rereadNow r op { s1 with sel := none }
    | some (.land r op) => landNow r op { s1 with sel := none }
    | some (.move e c _) => moveEntry e c { s1 with sel := none }
    | some (.frag r) => stepFrag r s1

/-- The machine with an instruction where the next fetch reads it. A program comes to run through a launch record and a
loaded object (R139, R207), which the world outside supplies; this puts a launch in place and its first instruction at
the kernel's entry (log entry 5). -/
def State.withFetchWord (s : State) (nbits w : Nat) : State := putWord 0x300000 nbits w (probe s)

end Sys2Proof.Machine
end

