-- ==== Sys2Proof/Safety.lean ====
section
/-!
DEFINITION. What counts as a safe run, and the terms in which claims speak of a step: what one instruction leaves alone outside its
gang, and what it leaves alone in it.
-/
namespace Sys2Proof.Machine

/-- A step answers a next state. -/
def goesOn (s : State) : Bool :=
  match step s with
  | .next _ => true
  | _ => false

/-- `n` steps answer next states. -/
def safeFor : Nat → State → Bool
  | 0, _ => true
  | n + 1, s => match step s with | .next t => safeFor n t | _ => false

/-- The resident groups stand in the order of their keys, each has its barriers 0 to 15, and each of its gangs its eight
quads (R8). -/
structure State.InOrder (s : State) : Prop where
  groups : (akeys s.groups).Pairwise (· < ·)
  barriers : ∀ e ∈ s.groups, e.2.barriers.length = 16
  quads : ∀ e ∈ s.groups, ∀ x ∈ e.2.gangs, x.2.quads.length = 8

/-- A group apart from its gangs: its scratch, barriers, matrix engine and place. -/
def Group.shell (g : Group) : Group := { g with gangs := [] }

/-- A gang apart from its Lantern hold and its yield mark, which issues of other gangs change (R277, R386). -/
def Gang.quiet (g : Gang) : Gang := { g with lantern := 0#16, yielded := none }

/-- A gang apart from what the scheduler keeps of it besides: whether it is active, and since when, and whether it starves (R218, R219). -/
def Gang.unseated (g : Gang) : Gang :=
  { g.quiet with active := false, changedAt := 0, exempt := false, starved := none }

/-- The registers that count issues and holds: LNHOLD, CSOVF and the session counters, by their place in a window (R273). -/
def countingReg (off : Nat) : Bool := off == 0x1AE0 || off == 0x1B08 || (decide (0x1E00 ≤ off) && decide (off < 0x2000))

/-- Outside the issuing gang nothing has changed but what counts issues: every byte of memory and scratch, every other gang, group,
launch, core, token and table reads as before. -/
structure Apart (c : Cur) (s t : State) : Prop where
  rest : t = { s with groups := t.groups, mmio := t.mmio, msix := t.msix, stalled := t.stalled, serial := t.serial }
  groups : ∀ k, (aget k t.groups).map Group.shell = (aget k s.groups).map Group.shell
  gangs : ∀ r, r ≠ gangRefOf c.r → (gangOf r t).map Gang.quiet = (gangOf r s).map Gang.quiet
  regs : ∀ k, countingReg (k % 65536) = false → sget k t.mmio = sget k s.mmio

/-- The same but for the scheduler: the issuing gang may have given its place to another gang of its core (R386). -/
structure ApartButSeats (c : Cur) (s t : State) : Prop where
  rest : t = { s with groups := t.groups, mmio := t.mmio, msix := t.msix, stalled := t.stalled, serial := t.serial }
  groups : ∀ k, (aget k t.groups).map Group.shell = (aget k s.groups).map Group.shell
  gangs : ∀ r, r ≠ gangRefOf c.r → (gangOf r t).map Gang.unseated = (gangOf r s).map Gang.unseated
  regs : ∀ k, countingReg (k % 65536) = false → sget k t.mmio = sget k s.mmio

/-- The instruction is one the selected fragment can issue: it is well formed, and `c` is that fragment with all it belongs to. -/
structure Issues (i : Instr) (c : Cur) (s : State) : Prop where
  sel : cur s = some c
  wf : i.wf = true

/-! Vector instructions. -/

/-- A register by specifier 0-119 that a vector instruction writes: its destination, and the next one for a pair. -/
def VOp.hits (o : VOp) (spec : Nat) : Bool := spec == o.dst.toNat || (o.wide && spec == o.dst.toNat + 1)

/-- What it writes there of a 64-bit value. -/
def VOp.part (o : VOp) (spec v : Nat) : Word := BitVec.ofNat 32 (if spec = o.dst.toNat then v else v / 2 ^ 32)

/-- A register that a dead source of it names (R98). -/
def VOp.kills (o : VOp) (spec : Nat) : Bool :=
  o.srcs.any (fun a => a.dead && (spec == a.spec || (a.wide && decide (a.spec < 120) && spec == a.spec + 1)))

/-- The lanes it acts on (R114). -/
def VOp.acts (o : VOp) (c : Cur) (l : Nat) : Bool := (c.act (pfxGuard o.x)).getLsbD l

/-- What a vector instruction leaves in its gang, register by register: an acting lane holds the result `val` in the destination
and 0 in every killed register, every other register and every other lane reads as before, `push` says whether the latch pair of the
destination's pipe takes the result, `mark` what the fragment's pending counts take; the rest of the gang is as issue leaves it. -/
structure VectorEffect (o : VOp) (push : Bool) (c : Cur) (val : Nat → Nat) (mark : Frag → Frag) (g : Gang) : Prop where
  rest : g = { c.gang.issue o.i c with
    vregs := g.vregs, killed := g.killed, vpois := g.vpois, oc := g.oc, latch := g.latch, frags := g.frags }
  frags : ∀ k, aget k g.frags = if k = c.r.frag then (aget k (c.gang.issue o.i c).frags).map mark else aget k (c.gang.issue o.i c).frags
  reg : ∀ r l, r < 112 → l < 32 → g.v r l =
    if o.acts c l then (if o.hits r then o.part r (val l) else if o.kills r then 0#32 else c.gang.v r l) else c.gang.v r l
  slot : ∀ k l, k < 8 → l < 32 → g.ocv k l =
    if o.acts c l then
      (if o.hits (112 + k) then o.part (112 + k) (val l) else if o.kills (112 + k) then 0#32 else c.gang.ocv k l)
    else c.gang.ocv k l
  pois : ∀ r l, r < 112 → l < 32 → g.vpoisoned r l =
    if o.acts c l then
      (if o.hits r then o.kept != 0 && r == o.dst.toNat && !o.kills r && c.gang.vpoisoned r l
       else if o.kills r then false else c.gang.vpoisoned r l)
    else c.gang.vpoisoned r l
  latch : ∀ j l, j < 4 → l < 32 → g.lat j l =
    if push && o.acts c l then
      (if j = (if pipeB o.dst then 2 else 0) then BitVec.ofNat 64 (if o.wide then val l else val l % 2 ^ 32)
       else if j = (if pipeB o.dst then 3 else 1) then c.gang.lat (if pipeB o.dst then 2 else 0) l
       else c.gang.lat j l)
    else c.gang.lat j l

/-- A vector instruction can run: its operands lie within their limits (R87, R94) and nothing it reads is poisoned (R261). -/
structure VectorReady (o : VOp) (c : Cur) (s : State) : Prop extends Issues o.i c s where
  srcs : ∀ a ∈ o.srcs, a.ok c.regs = true
  dst : dstOk c.regs o.dst o.wide = true
  clean : c.poison o.fp (pfxGuard o.x) o.srcs = false

/-- A fragment's pending saturation flags take bits (R75). -/
def withSat (bits : Nat) (f : Frag) : Frag := { f with pendSatf := f.pendSatf ||| BitVec.ofNat 7 bits }

/-- How many events of a kind a fragment counts: none where NITCFG ignores the kind (R54, R55). -/
def countedHits (c : Cur) (kind : Nat) (hits : List NitHit) : Nat :=
  if nitAction c.gang.nitcfg kind = 0 then 0 else hits.length

/-- An instruction that acts on its gang alone has completed: `out` is its next state, with its park bit obeyed, its gang is one that
`G` describes, and nothing apart from it has changed. -/
def GangDone (p : Bool) (c : Cur) (s : State) (G : Gang → Prop) (out : Out) : Prop :=
  ∃ t g, out = .next (parked p c t) ∧ gangOf (gangRefOf c.r) t = some g ∧ G g ∧ Apart c s t

/-- A vector instruction has completed. -/
def VectorDone (o : VOp) (push : Bool) (c : Cur) (s : State) (val : Nat → Nat) (mark : Frag → Frag) (out : Out) : Prop :=
  GangDone o.p c s (VectorEffect o push c val mark) out

/-- What an instruction that counts on a path leaves in its gang: its dead sources are killed, and an operation stands last among the
gang's, naming the words it will write when it completes (R159, R161); the rest of the gang is as issue leaves it. -/
structure LaterEffect (o : VOp) (path : Path) (words : List RegWrite) (c : Cur) (mark : Frag → Frag) (g : Gang) : Prop where
  rest : g = { c.gang.issue o.i c with killed := g.killed, vpois := g.vpois, oc := g.oc, frags := g.frags, ops := g.ops }
  frags : ∀ k, aget k g.frags = if k = c.r.frag then (aget k (c.gang.issue o.i c).frags).map mark else aget k (c.gang.issue o.i c).frags
  op : ∃ id, g.ops = c.gang.ops ++ [{ PendOp.blank id path c.r.frag with writes := words }]
  reg : ∀ r l, r < 112 → l < 32 → g.v r l = if o.acts c l && o.kills r then 0#32 else c.gang.v r l
  slot : ∀ k l, k < 8 → l < 32 → g.ocv k l = if o.acts c l && o.kills (112 + k) then 0#32 else c.gang.ocv k l
  pois : ∀ r l, r < 112 → l < 32 → g.vpoisoned r l = if o.acts c l && o.kills r then false else c.gang.vpoisoned r l

/-! Compares, predicates and scalars. -/

/-- What a compare leaves in its gang: the acting lanes' bits of its predicate and the latch pair of pipe A take the outcome `m`;
killed registers read 0; the rest of the gang is as issue leaves it. -/
structure CompareEffect (o : VCmp) (c : Cur) (m : Nat → Bool) (mark : Frag → Frag) (g : Gang) : Prop where
  rest : g = { c.gang.issue o.i c with
    vregs := g.vregs, killed := g.killed, vpois := g.vpois, oc := g.oc, latch := g.latch, frags := g.frags, pregs := g.pregs,
    ppois := g.ppois }
  frags : ∀ k, aget k g.frags = if k = c.r.frag then (aget k (c.gang.issue o.i c).frags).map mark else aget k (c.gang.issue o.i c).frags
  pred : ∀ n l, l < 32 → (g.pr n).getLsbD l =
    if n = o.pd ∧ (c.act (pfxGuard o.x)).getLsbD l then m l else (c.gang.pr n).getLsbD l
  reg : ∀ r l, r < 112 → l < 32 → g.v r l =
    if (c.act (pfxGuard o.x)).getLsbD l && o.srcs.any (fun a => a.dead && (r == a.spec || (a.wide && decide (a.spec < 120) && r == a.spec + 1)))
    then 0#32 else c.gang.v r l
  pois : ∀ r l, r < 112 → l < 32 → g.vpoisoned r l =
    if (c.act (pfxGuard o.x)).getLsbD l && o.srcs.any (fun a => a.dead && (r == a.spec || (a.wide && decide (a.spec < 120) && r == a.spec + 1)))
    then false else c.gang.vpoisoned r l
  ppois : ∀ n, g.ppoisoned n = if n = o.pd ∧ c.act (pfxGuard o.x) = 0xFFFFFFFF#32 then false else c.gang.ppoisoned n
  slot : ∀ k l, k < 8 → l < 32 → g.ocv k l =
    if (c.act (pfxGuard o.x)).getLsbD l
      && o.srcs.any (fun a => a.dead && (112 + k == a.spec || (a.wide && decide (a.spec < 120) && 112 + k == a.spec + 1)))
    then 0#32 else c.gang.ocv k l
  latch : ∀ j l, j < 4 → l < 32 → g.lat j l =
    if (c.act (pfxGuard o.x)).getLsbD l then
      (if j = 0 then (if m l then 1#64 else 0#64) else if j = 1 then c.gang.lat 0 l else c.gang.lat j l)
    else c.gang.lat j l

/-- What a scalar instruction leaves in its gang: its destination holds the result, unpoisoned, and every other scalar is as it was. -/
structure ScalarEffect (i : Instr) (c : Cur) (sd : BitVec 6) (v : DWord) (g : Gang) : Prop where
  rest : g = { c.gang.issue i c with sregs := g.sregs, spois := g.spois, book := { (c.gang.issue i c).book with swrote := g.book.swrote } }
  val : ∀ n, g.s n = if n = sd then v else c.gang.s n
  pois : ∀ n, g.spoisoned n = if n = sd then false else c.gang.spoisoned n

/-- What a predicate instruction leaves in its gang: the bits `m` selects of its destination take those of `v`, every other bit of
every predicate is as it was. -/
structure PredicateEffect (i : Instr) (c : Cur) (pd : BitVec 3) (m : Mask) (v : Nat → Bool) (g : Gang) : Prop where
  rest : g = { c.gang.issue i c with pregs := g.pregs, ppois := g.ppois }
  val : ∀ n l, l < 32 → (g.pr n).getLsbD l = if n = pd ∧ m.getLsbD l then v l else (c.gang.pr n).getLsbD l
  pois : ∀ n, g.ppoisoned n = if n = pd ∧ m = 0xFFFFFFFF#32 then false else c.gang.ppoisoned n

/-! Accesses to memory. -/

/-- Outside the issuing gang an access changes what every issue changes, the caches and TLBs on its way, what its operation is noted to have
counted, and what waits to be done next; no byte of memory or scratch, no register of another gang and no other table changes. -/
structure MemApart (c : Cur) (s t : State) : Prop where
  rest : t = { s with
    groups := t.groups, mmio := t.mmio, msix := t.msix, stalled := t.stalled, serial := t.serial, cores := t.cores, l2 := t.l2,
    mirror := t.mirror, hbmFlips := t.hbmFlips, tlb := t.tlb, agenda := t.agenda, caused := t.caused }
  groups : ∀ k, (aget k t.groups).map Group.shell = (aget k s.groups).map Group.shell
  gangs : ∀ r, r ≠ gangRefOf c.r → (gangOf r t).map Gang.quiet = (gangOf r s).map Gang.quiet
  regs : ∀ k, countingReg (k % 65536) = false → sget k t.mmio = sget k s.mmio

/-- A gang that differs alone in what its lease and footprint count (R215, R216), in which loads may read again (R342), and in what it
has heard of (R175). -/
def CountsAside (g0 g : Gang) : Prop :=
  g = { g0 with leaseE := g.leaseE, footprint := g.footprint, window := g.window, reads := g.reads, hist := g.hist }

/-- An access has issued: `out` is its next state, with its park bit obeyed, its gang is one that `G` describes, `T` holds of the
state, and nothing apart from it has changed. -/
def MemDone (p : Bool) (c : Cur) (s : State) (G : Gang → Prop) (T : State → Prop) (out : Out) : Prop :=
  ∃ t g, out = .next (parked p c t) ∧ gangOf (gangRefOf c.r) t = some g ∧ G g ∧ T t ∧ MemApart c s t

/-! Faults and regions. -/

/-- A vector D fault has been taken by a gang that stood as `g0` (R239, R240): TCAUSE holds the cause, the fragment is held for a token,
to go on at `retry`, and the token is live and names the fragment; with no key it is a new one that carries the fault's record. Nothing
else changes but what every issue changes. -/
structure FaultHeld (c : Cur) (pc retry : DWord) (f : FReq) (g0 : Gang) (s t : State) : Prop where
  token : ∃ k x, aget k t.tokens = some x ∧ x.live = true ∧ c.r ∈ x.frags ∧ x.key = f.key c
    ∧ (f.key c = none → x = { fn := ownerFn c.ctx s, debug := false, vectorC := false, kind := .frags, frags := [c.r], key := none,
                              record := recOf c pc f, written := false, live := true })
    ∧ (∀ j, j ≠ k → aget j t.tokens = aget j s.tokens)
    ∧ gangOf (gangRefOf c.r) t = some { g0 with
        tcause := f.tcause, frags := amod c.r.frag (fun y => { y with hold := .fault k retry }) g0.frags }
  rest : t = { s with groups := t.groups, mmio := t.mmio, msix := t.msix, stalled := t.stalled, serial := t.serial, tokens := t.tokens }
  groups : ∀ k, (aget k t.groups).map Group.shell = (aget k s.groups).map Group.shell
  gangs : ∀ r, r ≠ gangRefOf c.r → (gangOf r t).map Gang.quiet = (gangOf r s).map Gang.quiet
  regs : ∀ k, countingReg (k % 65536) = false → sget k t.mmio = sget k s.mmio

/-- A vector C fault has been taken by a gang that stood as `g0` (R239, R240, R263): its record stands under a token, which no action of the
driver revives, and the gang, unless its group has gone with it, has halted with every register as it was; what peers have refused of it is
gone (R147), and when it went inactive is noted. -/
structure GangHalts (c : Cur) (f : FReq) (g0 : Gang) (s t : State) : Prop where
  token : ∃ k, aget k t.tokens = some { fn := ownerFn c.ctx s, debug := false, vectorC := true, kind := .frags, frags := [c.r], key := none,
                                        record := recOf c c.frag.pc f, written := false, live := true }
  gang : ∀ g, gangOf (gangRefOf c.r) t = some g → g = { g0.dropRefused with
    tcause := f.tcause, halted := true, active := false, exempt := false, starved := none, parked := false, changedAt := g.changedAt }

/-- The sum of two 16-bit counts, held at its largest value (R55). -/
def sat16 (a b : Nat) : Nat := min (a + b) 0xFFFF

/-- A region of a fragment has begun in a gang that stood as `g` (R34, R55, R75, R98): the fragment's snapshot is its present state, its
pending counts and flags are folded into the gang's, its quads' snapshots are taken, and nothing else but the marks of killed registers
and delivered drains changes. -/
structure RegionStart (k : Nat) (f : Frag) (g g' : Gang) : Prop where
  rest : g' = { g with
    frags := g'.frags, nitcnt := g'.nitcnt, satf := g'.satf, joints := g'.joints, dead := g'.dead, quads := g'.quads,
    swap := g.swap.atRegion, book := g'.book }
  frags : ∀ j, aget j g'.frags = if j = k then some { f with
      rpc := f.pc, rexec := f.exec, rsig := f.sig, rhand := f.inHandler, pendCancel := 0#16, pendCmp := 0#16, pendDivz := 0#16,
      pendSatf := 0#7 } else aget j g.frags
  counts : g'.nitcnt.toNat = sat16 (g.nitcnt.toNat % 65536) f.pendCancel.toNat
    + 65536 * sat16 (g.nitcnt.toNat / 65536 % 65536) f.pendCmp.toNat
    + 2 ^ 32 * sat16 (g.nitcnt.toNat / 2 ^ 32 % 65536) f.pendDivz.toNat
  flags : ∀ i, i < 32 → g'.satf.getLsbD i = (g.satf.getLsbD i || f.pendSatf.getLsbD i)
  joints : g'.joints = g.joints.filter (fun j => j.2.2 != 2 + k)
  wrote : g'.book.swrote = g.book.swrote.map (SWrite.fold f)
  dead : ∀ r l, r < 112 → l < 32 → (sget r g'.dead).getLsbD l =
    if f.mask.getLsbD l then (sget r g.killed).getLsbD l else (sget r g.dead).getLsbD l
  quads : ∀ q, q < 8 → q < g.quads.length → g'.quad q =
    if quadBits f.mask q = 0#4 then g.quad q else { g.quad q with ricount := (g.quad q).icount, rmode := (g.quad q).mode }

end Sys2Proof.Machine
end

