-- ==== Sys2Proof/Certificates/Slice0/Obligations.lean ====
section
/-!
DEFINITION. The statements about the model, and the tables of rows they range over, written from the rules of the specification.
-/
namespace Sys2Proof.Claims
open Sys2Proof.Machine

/-! Rows of the vector pipes. -/

/-- A row of two integer sources and the exact value of an element. -/
structure IntRow where
  b : Bin
  t : Ity
  f : Int → Int → Int

/-- The wrapping integer rows (R332, R337). -/
def intRow : Instr → Option IntRow
  | .iadd o => some ⟨intBin (.iadd o) o, ityOf o.x, fun a b => a + b⟩
  | .isub o => some ⟨intBin (.isub o) o, ityOf o.x, fun a b => a - b⟩
  | .imul o => some ⟨intBin (.imul o) o, ityOf o.x, fun a b => a * b⟩
  | .imulh o => some ⟨intBin (.imulh o) o, ityOf o.x, fun a b => a * b / 2 ^ (ityOf o.x).e⟩
  | .imin o => some ⟨intBin (.imin o) o, ityOf o.x, fun a b => if a ≤ b then a else b⟩
  | .imax o => some ⟨intBin (.imax o) o, ityOf o.x, fun a b => if a ≤ b then b else a⟩
  | .iaddI o => some ⟨intBinI (.iaddI o) o, ityOf o.x, fun a b => a + b⟩
  | .imulI o => some ⟨intBinI (.imulI o) o, ityOf o.x, fun a b => a * b⟩
  | .iadd16 s d => some ⟨halfBin (.iadd16 s d) s d, ityS32, fun a b => a + b⟩
  | .isub16 s d => some ⟨halfBin (.isub16 s d) s d, ityS32, fun a b => a - b⟩
  | .imul16 s d => some ⟨halfBin (.imul16 s d) s d, ityS32, fun a b => a * b⟩
  | .imin16 s d => some ⟨halfBin (.imin16 s d) s d, ityS32, fun a b => if a ≤ b then a else b⟩
  | .imax16 s d => some ⟨halfBin (.imax16 s d) s d, ityS32, fun a b => if a ≤ b then b else a⟩
  | _ => none

/-- An integer clamped to an element. -/
def clamped (t : Ity) (v : Int) : Int := max t.lo (min t.hi v)

/-- RoundShift before its clamp (R74): a right shift adds half of what it drops; a negative count shifts left. -/
def roundShifted (a n : Int) : Int := if 0 < n then (a + 2 ^ (n.toNat - 1)) / 2 ^ n.toNat else a * 2 ^ (-n).toNat

/-- A saturating row: its exact value before the clamp and its SATF bit (R75). -/
structure SatRow where
  b : Bin
  t : Ity
  f : Int → Int → Int
  flag : Nat

/-- The saturating integer rows of two sources (R333, R338). -/
def satRow : Instr → Option SatRow
  | .iadds o => some ⟨intBin (.iadds o) o, ityOf o.x, fun a b => a + b, 1⟩
  | .isubs o => some ⟨intBin (.isubs o) o, ityOf o.x, fun a b => a - b, 1⟩
  | .ishrr o => some ⟨intBin (.ishrr o) o, ityOf o.x,
      fun a b => roundShifted a (sint (wrapTo 32 b) (if (ityOf o.x).e = 32 then 6 else 5)), 8⟩
  | _ => none

/-- A bitwise row of two sources. -/
structure BitRow where
  b : Bin
  wide : Bool
  f : Bool → Bool → Bool

/-- AND, OR and XOR in their three forms (R305, R352, R110). -/
def bitRow : Instr → Option BitRow
  | .and o => some ⟨bitBin (.and o) o, bitsWide (pfxTy o.x), fun a b => a && b⟩
  | .or o => some ⟨bitBin (.or o) o, bitsWide (pfxTy o.x), fun a b => a || b⟩
  | .xor o => some ⟨bitBin (.xor o) o, bitsWide (pfxTy o.x), fun a b => a != b⟩
  | .andI o => some ⟨bitBinI (.andI o) o, bitsWide (pfxTy o.x), fun a b => a && b⟩
  | .orI o => some ⟨bitBinI (.orI o) o, bitsWide (pfxTy o.x), fun a b => a || b⟩
  | .xorI o => some ⟨bitBinI (.xorI o) o, bitsWide (pfxTy o.x), fun a b => a != b⟩
  | .and16 s d => some ⟨halfBin (.and16 s d) s d, false, fun a b => a && b⟩
  | .or16 s d => some ⟨halfBin (.or16 s d) s d, false, fun a b => a || b⟩
  | .xor16 s d => some ⟨halfBin (.xor16 s d) s d, false, fun a b => a != b⟩
  | _ => none

/-- A shift row. -/
structure ShiftRow where
  b : Bin
  wide : Bool
  k : Shift

/-- SHL, SHR and SAR in their three forms (R369, R110). -/
def shiftRow : Instr → Option ShiftRow
  | .shl o => some ⟨shiftBin (.shl o) o, bitsWide (pfxTy o.x), .left⟩
  | .shr o => some ⟨shiftBin (.shr o) o, bitsWide (pfxTy o.x), .right⟩
  | .sar o => some ⟨shiftBin (.sar o) o, bitsWide (pfxTy o.x), .arith⟩
  | .shlI o => some ⟨bitBinI (.shlI o) o, bitsWide (pfxTy o.x), .left⟩
  | .shrI o => some ⟨bitBinI (.shrI o) o, bitsWide (pfxTy o.x), .right⟩
  | .sarI o => some ⟨bitBinI (.sarI o) o, bitsWide (pfxTy o.x), .arith⟩
  | .shl16 s d => some ⟨halfBin (.shl16 s d) s d, false, .left⟩
  | .shr16 s d => some ⟨halfBin (.shr16 s d) s d, false, .right⟩
  | .sar16 s d => some ⟨halfBin (.sar16 s d) s d, false, .arith⟩
  | _ => none

/-- The bits of a shift of `w` bits whose count acts modulo `w` (R369). -/
def shiftedBit (k : Shift) (w a n i : Nat) : Bool :=
  match k with
  | .left => decide (n % w ≤ i) && a.testBit (i - n % w)
  | .right => decide (i + n % w < w) && a.testBit (i + n % w)
  | .arith => if i + n % w < w then a.testBit (i + n % w) else a.testBit (w - 1)

/-! Rows of one source, and rows that read a third one. -/

/-- A row of one source and what its value is of it. -/
structure OneRow where
  o : VOp
  rel : Nat → Nat → Prop

/-- The width in bits of a row of 32 or 64 bits. -/
def widthOf (ty : BitVec 3) : Nat := if ty = 2#3 then 64 else 32

/-- A row of one source of 32 or 64 bits. -/
def iunOp (i : Instr) (ty : BitVec 3) (o : AF) : VOp := afOp i o .int (bitsWide ty.toNat) (bitsWide ty.toNat) false

/-- The bit rows of one source and IABS (R312, R330, R350, R352, R355, R110). -/
def oneRow : Instr → Option OneRow
  | .mov ty o => some ⟨iunOp (.mov ty o) ty o, fun a v => v = a⟩
  | .mov16 s d => some ⟨{ (halfBin (.mov16 s d) s d).vop false false with srcs := [halfSrc s] }, fun a v => v = a⟩
  | .not ty o => some ⟨iunOp (.not ty o) ty o, fun a v => ∀ k, v.testBit k = (decide (k < widthOf ty) && !a.testBit k)⟩
  | .popc ty o => some ⟨iunOp (.popc ty o) ty o, fun a v => v = ((List.range (widthOf ty)).filter a.testBit).length⟩
  | .clz ty o => some ⟨iunOp (.clz ty o) ty o, fun a v => v ≤ widthOf ty
      ∧ (∀ k, k < v → a.testBit (widthOf ty - 1 - k) = false) ∧ (v < widthOf ty → a.testBit (widthOf ty - 1 - v) = true)⟩
  | .brev ty o => some ⟨iunOp (.brev ty o) ty o,
      fun a v => ∀ k, v.testBit k = (decide (k < widthOf ty) && a.testBit (widthOf ty - 1 - k))⟩
  | .iabs ty o => some ⟨afOp (.iabs ty o) o (Ity.of ty.toNat).ix (Ity.of ty.toNat).wide (Ity.of ty.toNat).wide false,
      fun a v => ∀ j ∈ (Ity.of ty.toNat).elems, v / 2 ^ ((Ity.of ty.toNat).e * j) % 2 ^ (Ity.of ty.toNat).e
        = ((Ity.of ty.toNat).el a j).natAbs % 2 ^ (Ity.of ty.toNat).e⟩
  | _ => none

/-- A row of several sources: its value as a relation, where it clamps, and its SATF bit. -/
structure ManyRow where
  o : VOp
  legal : Bool
  rel : Cur → Nat → Nat → Prop
  clamps : Cur → Nat → Bool
  flag : Nat

/-- The sources of an A3 row whose third source has the width of the others. -/
def threeOp (i : Instr) (o : A3) (k : IxKind) (wide : Bool) : VOp :=
  { i := i, p := o.p, x := o.x,
    srcs := [operand o.x .srcC k o.a wide o.da, operand o.x .srcC k o.b wide o.db, operandC o.x o.d wide], dst := o.d, wide := wide }

/-- A source of an instruction in a lane. -/
def srcAt (o : VOp) (n : Nat) (c : Cur) (l : Nat) : Nat := match o.srcs[n]? with | some a => a.val c l | none => 0

/-- IDOT2's exact sum. -/
def dotSum (sg : Bool) (o : VOp) (c : Cur) (l : Nat) : Int :=
  let t : Ity := { e := 16, signed := sg }
  let d : Ity := { e := 32, signed := sg }
  d.el (srcAt o 2 c l) 0 + t.el (srcAt o 0 c l) 0 * t.el (srcAt o 1 c l) 0 + t.el (srcAt o 0 c l) 1 * t.el (srcAt o 1 c l) 1

/-- A clamp changes some element of a source of PKS. -/
def packClamps (t d : Ity) (x : Nat) : Bool := t.elems.any (fun j => clamped d (t.el x j) != t.el x j)

/-- BFI's sources: the second is one 32-bit operand. -/
def bfiOp (o : A3) : VOp :=
  { i := .bfi o, p := o.p, x := o.x,
    srcs := [operand o.x .srcC .int o.a (ityOf o.x).wide o.da, operand o.x .srcC .int o.b false o.db, operandC o.x o.d (ityOf o.x).wide],
    dst := o.d, wide := (ityOf o.x).wide }

/-- BFX's sources: the second is one 32-bit operand. -/
def bfxOp (o : A3) : VOp :=
  { i := .bfx o, p := o.p, x := o.x, srcs := [operand o.x .sx .int o.a (ityOf o.x).wide o.da, operand o.x .sx .int o.b false o.db],
    dst := o.d, wide := (ityOf o.x).wide }

/-- One bit of BFX: of the field of `len` bits at `pos`, or of its extension. -/
def fieldBit (signed : Bool) (w a pos len k : Nat) : Bool :=
  let at_ := fun i => if pos + i < w then a.testBit (pos + i) else signed && a.testBit (w - 1)
  if len = 0 then false else if k < len then at_ k else signed && at_ (len - 1)

/-- One byte of PRMT. -/
def permutedByte (a b sel : Nat) : Nat :=
  let x := if sel % 8 < 4 then a / 256 ^ (sel % 8) % 256 else b / 256 ^ (sel % 8 - 4) % 256
  if sel < 8 then x else if x < 128 then 0 else 255

/-- Multiply-add, dot product, packing, bit fields and permutation (R337, R336, R353, R308, R357). -/
def manyRow : Instr → Option ManyRow
  | .imad o =>
    let v := threeOp (.imad o) o (ityOf o.x).ix (ityOf o.x).wide
    some ⟨v, true, fun c l x => x = wrapTo (ityOf o.x).e
      ((ityOf o.x).el (srcAt v 0 c l) 0 * (ityOf o.x).el (srcAt v 1 c l) 0 + (ityOf o.x).el (srcAt v 2 c l) 0), fun _ _ => false, 0⟩
  | .idot2 o =>
    let v : VOp := threeOp (.idot2 o) o .s16x2 false
    let d : Ity := { e := 32, signed := pfxTy o.x == 0 }
    some ⟨v, true, fun c l x => x = wrapTo 32 (clamped d (dotSum (pfxTy o.x == 0) v c l)),
      fun c l => clamped d (dotSum (pfxTy o.x == 0) v c l) != dotSum (pfxTy o.x == 0) v c l, 4⟩
  | .pks o =>
    let t := ityOf o.x
    let d : Ity := { e := t.e / 2, signed := t.signed }
    let v := (intBin (.pks o) o).vop false false
    some ⟨v, true, fun c l x => ∀ j ∈ t.elems,
        x / 2 ^ (d.e * j) % 2 ^ d.e = wrapTo d.e (clamped d (t.el (srcAt v 0 c l) j))
        ∧ x / 2 ^ (16 + d.e * j) % 2 ^ d.e = wrapTo d.e (clamped d (t.el (srcAt v 1 c l) j)),
      fun c l => packClamps t d (srcAt v 0 c l) || packClamps t d (srcAt v 1 c l), 2⟩
  | .bfx o =>
    some ⟨bfxOp o, true, fun c l x => ∀ k, k < (ityOf o.x).e → x.testBit k = fieldBit (ityOf o.x).signed (ityOf o.x).e
      (srcAt (bfxOp o) 0 c l) (srcAt (bfxOp o) 1 c l % 256) (min (srcAt (bfxOp o) 1 c l / 256 % 256) (ityOf o.x).e) k,
      fun _ _ => false, 0⟩
  | .bfi o =>
    some ⟨bfiOp o, true, fun c l x => ∀ k, k < (ityOf o.x).e → x.testBit k =
      (let pos := srcAt (bfiOp o) 1 c l % 256
       let len := min (srcAt (bfiOp o) 1 c l / 256 % 256) (ityOf o.x).e
       if pos ≤ k ∧ k < pos + len then (srcAt (bfiOp o) 0 c l).testBit (k - pos) else (srcAt (bfiOp o) 2 c l).testBit k),
      fun _ _ => false, 0⟩
  | .prmt o =>
    let v := threeOp (.prmt o) o .int false
    some ⟨v, o.x != Pfx.none, fun c l x => ∀ k, k < 4 →
      x / 256 ^ k % 256 = permutedByte (srcAt v 0 c l) (srcAt v 1 c l) (srcAt v 2 c l / 16 ^ k % 16), fun _ _ => false, 0⟩
  | _ => none

/-- The sources of SEL, whose guard fields name the selector. -/
def selOp (o : A3) : VOp := { (a3Bin (.sel o) o .int (bitsWide (pfxTy o.x))).vop (bitsWide (pfxTy o.x)) false with x := Pfx.none }

/-! Float rows. -/

/-- A float row: its operands, its element type, what an element is, and the CANCEL events it raises. -/
structure FloatRow where
  o : VOp
  t : Fty
  el : Cur → Nat → Nat → Nat
  hits : Cur → List NitHit

/-- An element of a source as a float row reads it: its sign modified, then flushed (R113, R301). -/
def srcEl (t : Fty) (o : VOp) (n smod : Nat) (c : Cur) (l j : Nat) : Fv :=
  t.fmt.dec (t.fmt.flush (c.ftz l) (t.fmt.smod smod (t.el (srcAt o n c l) j)))

/-- An exact value rounded once in the lane's mode and flushed (R67, R301). -/
def rounded (t : Fty) (x : Pfx) (c : Cur) (l j : Nat) (v : Xr) : Nat := t.fmt.flush (c.ftz l) (t.fmt.round (c.roundMode x l j) v)

/-- A sum, whose zero takes its sign from the rounding mode (R67). -/
def sumRow (neg : Bool) (t : Fty) (b : Bin) : FloatRow :=
  let o := b.vop t.wide true
  let w := fun c l j => if neg then (srcEl t o 1 0 c l j).neg else srcEl t o 1 0 c l j
  let el := fun c l j => rounded t b.x c l j (fvAdd (c.roundMode b.x l j) (srcEl t o 0 (smodA b.x) c l j) (w c l j))
  ⟨o, t, el, cancelHits t (pfxGuard b.x) (fun c l j => (srcEl t o 0 (smodA b.x) c l j, w c l j)) (fun c l => (t.pack (el c l), 0))⟩

/-- A product. -/
def productRow (t : Fty) (b : Bin) : FloatRow :=
  let o := b.vop t.wide true
  ⟨o, t, fun c l j => rounded t b.x c l j (fvMul (srcEl t o 0 (smodA b.x) c l j) (srcEl t o 1 0 c l j)).xr, noHits⟩

/-- A fused multiply-add: the product is exact. -/
def fusedRow (t : Fty) (i : Instr) (x : A3) : FloatRow :=
  let o : VOp := { threeOp i x t.ix t.wide with fp := true }
  let pr := fun c l j => fvMul (srcEl t o 0 (smodA x.x) c l j) (srcEl t o 1 0 c l j)
  let ad := fun c l j => srcEl t o 2 (smodC x.x) c l j
  let el := fun c l j => rounded t x.x c l j (fvAdd (c.roundMode x.x l j) (pr c l j) (ad c l j))
  ⟨o, t, el, cancelHits t (pfxGuard x.x) (fun c l j => (pr c l j, ad c l j)) (fun c l => (t.pack (el c l), 0))⟩

/-- The lesser or greater element, as FMIN and FMAX choose (R326). -/
def extremeRow (mx : Bool) (t : Fty) (b : Bin) : FloatRow :=
  let o := b.vop t.wide true
  ⟨o, t, fun c l j => t.fmt.minMax mx (t.fmt.flush (c.ftz l) (t.fmt.smod (smodA b.x) (t.el (srcAt o 0 c l) j)))
    (t.fmt.flush (c.ftz l) (t.el (srcAt o 1 c l) j)), noHits⟩

/-- A value times a power of two; the exponent is an integer of 16 bits for packed types, else of 32. -/
def scaledRow (t : Fty) (i : Instr) (x : A3) : FloatRow :=
  let b : Bin := { a3Bin i x t.ix t.wide with b := operand x.x .sx (if t.packed then .s16x2 else .int) x.b false x.db }
  let o := b.vop t.wide true
  ⟨o, t, fun c l j => rounded t x.x c l j (fvScale (srcEl t o 0 (smodA x.x) c l j)
    (if t.packed then sint (srcAt o 1 c l / 2 ^ (16 * j)) 16 else sint (srcAt o 1 c l) 32)), noHits⟩

/-- The float arithmetic rows (R319, R326, R110). -/
def floatRow : Instr → Option FloatRow
  | .fadd o => some (sumRow false (ftyA3 o) (fBin (.fadd o) o (ftyA3 o)))
  | .fsub o => some (sumRow true (ftyA3 o) (fBin (.fsub o) o (ftyA3 o)))
  | .fmul o => some (productRow (ftyA3 o) (fBin (.fmul o) o (ftyA3 o)))
  | .ffma o => some (fusedRow (ftyA3 o) (.ffma o) o)
  | .fmin o => some (extremeRow false (ftyA3 o) (fBin (.fmin o) o (ftyA3 o)))
  | .fmax o => some (extremeRow true (ftyA3 o) (fBin (.fmax o) o (ftyA3 o)))
  | .fscale o => some (scaledRow (ftyA3 o) (.fscale o) o)
  | .faddF64 o => some (sumRow false .f64 (fBin (.faddF64 o) o .f64))
  | .fsubF64 o => some (sumRow true .f64 (fBin (.fsubF64 o) o .f64))
  | .fmulF64 o => some (productRow .f64 (fBin (.fmulF64 o) o .f64))
  | .ffmaF64 o => some (fusedRow .f64 (.ffmaF64 o) o)
  | .fadd16 s d => some (sumRow false .f32 (halfBin (.fadd16 s d) s d))
  | .fsub16 s d => some (sumRow true .f32 (halfBin (.fsub16 s d) s d))
  | .fmul16 s d => some (productRow .f32 (halfBin (.fmul16 s d) s d))
  | .fmax16 s d => some (extremeRow true .f32 (halfBin (.fmax16 s d) s d))
  | _ => none

/-- A row that converts or inspects one value: its value and its SATF bits in a lane. -/
structure ConvRow where
  o : VOp
  f : LaneFn

/-- FRND, FCLASS, FTOI, ITOF and FCVT (R320, R322-R324, R327, R328, R340). -/
def convRow : Instr → Option ConvRow
  | .frnd ft rc o =>
    let t := Fty.of ft.toNat
    let v := afOp (.frnd ft rc o) o t.ix t.wide t.wide true
    some ⟨v, fun c l => (t.pack (fun j => t.fmt.frnd (Rm.of rc) (t.fmt.flush (c.ftz l) (t.fmt.smod (smodA o.x) (t.el (srcAt v 0 c l) j)))), 0)⟩
  | .fclass ft o =>
    let t := Fty.of ft.toNat
    let v := afOp (.fclass ft o) o t.ix t.wide false true
    some ⟨v, fun c l => (t.pack (fun j => t.fmt.fclass (t.el (srcAt v 0 c l) j)), 0)⟩
  | .ftoi it f64 rc o =>
    let t : Fty := if f64 then .f64 else .f32
    let v := afOp (.ftoi it f64 rc o) o t.ix f64 (intWide it) true
    some ⟨v, fun c l =>
      let r := fvToInt (Rm.of rc) (IntFmtRange it).1 (IntFmtRange it).2 (t.fmt.dec (t.fmt.flush (c.ftz l) (t.fmt.smod (smodA o.x) (srcAt v 0 c l))))
      (wrapTo 64 r.1, if r.2 then 64 else 0)⟩
  | .itof it ft o =>
    let t := Fty.of ft.toNat
    let v := afOp (.itof it ft o) o .int (it == 2#3 || it == 3#3) t.wide true
    some ⟨v, fun c l => (t.pack (fun j =>
      let x := srcAt v 0 c l
      t.fmt.round (c.roundMode o.x l j) (intXr (
        if it = 0#3 then sint x 32 else if it = 2#3 then sint x 64 else if it = 4#3 then sint (x / 2 ^ (16 * j)) 16
        else if it = 1#3 ∨ it = 3#3 then (x : Int) else ((x / 2 ^ (16 * j) % 65536 : Nat) : Int)) 0)), 0)⟩
  | .fcvt dst src h o =>
    let v : VOp := { afOp (.fcvt dst src h o) o .int (src == 1#3 || (fcvtClass dst == 2 && fcvtClass src == 0))
      (dst == 1#3 || (fcvtClass dst == 0 && fcvtClass src == 2)) true with kept := fcvtKept dst src h }
    some ⟨v, fun c l =>
      let sh := fcvtShape dst src h
      (List.range sh.1).foldl (fun acc i =>
        let pos := sh.2.2 + (fcvtFmt dst).w * i
        let r := fcvtElem (fcvtFmt src) (fcvtFmt dst) (pfxSat o.x) (c.ftz l) (c.roundMode o.x l (pos / (fcvtFmt dst).w))
          (srcAt v 0 c l / 2 ^ (sh.2.1 + (fcvtFmt src).w * i) % 2 ^ (fcvtFmt src).w)
        (acc.1 + r.1 * 2 ^ pos, if r.2 then acc.2 ||| 32 else acc.2)) (0, 0)⟩
  | .fcvtToXs src o =>
    let v := { afOp (.fcvtToXs src o) o .int (src == 1#3) true true with srcs := [operand o.x .unused .int o.a (src == 1#3) o.da, expScalar o.x] }
    some ⟨v, fun c l =>
      let r := toXs ((fcvtFmt src).dec (srcAt v 0 c l)) (sint (srcAt v 1 c l) 16)
      (wrapTo 64 r.1, if r.2 then 16 else 0)⟩
  | .fcvtFromXs dst o =>
    let v := { afOp (.fcvtFromXs dst o) o .int true (dst == 1#3) true with srcs := [operand o.x .unused .int o.a true o.da, expScalar o.x] }
    some ⟨v, fun c l => ((fcvtFmt dst).round (c.roundMode o.x l 0) (intXr (sint (srcAt v 0 c l) 64) (sint (srcAt v 1 c l) 16)), 0)⟩
  | _ => none

/-- A byte of a little-endian number (R9). -/
def byteOf (v i : Nat) : Byte := BitVec.ofNat 8 (v / 256 ^ i)

/-! What the operations on numbers compute, said of exact integers. -/

/-- A finite value as an integer in units of `2 ^ d`, `d` at most its exponent. -/
def inUnits (s : Bool) (m : Nat) (e d : Int) : Int := (if s then -1 else 1) * m * 2 ^ (e - d).toNat

/-- One value lies below another: −∞ below every finite one, +∞ above, −0 below +0 (R68). -/
def Below : Fv → Fv → Prop
  | .inf s, .inf t => s = true ∧ t = false
  | .inf s, .fin .. => s = true
  | .fin .., .inf t => t = false
  | .fin s m e, .fin t n f => inUnits s m e (min e f) < inUnits t n f (min e f) ∨ (m = 0 ∧ n = 0 ∧ s = true ∧ t = false)
  | _, _ => False

/-- An integer is what the magnitude `num * 2 ^ e` of a sign rounds to in a mode (R67). -/
def IntRounds (m : Rm) (neg : Bool) (num : Nat) (e : Int) (i : Nat) : Prop :=
  let a := num * 2 ^ e.toNat
  let b := 2 ^ (-e).toNat
  let down := i * b ≤ a ∧ a < (i + 1) * b
  let up := a ≤ i * b ∧ i * b < a + b
  match m with
  | .rn => 2 * a ≤ (2 * i + 1) * b ∧ 2 * i * b ≤ 2 * a + b ∧ (2 * a = (2 * i + 1) * b ∨ 2 * i * b = 2 * a + b → i % 2 = 0)
  | .rz => down
  | .ru => if neg then down else up
  | .rd => if neg then up else down

/-- FMIN and FMAX of two patterns (R68). -/
def MinMaxes (f : Fmt) (mx : Bool) (x y r : Nat) : Prop :=
  (f.dec x = .nan → f.dec y = .nan → r = f.nan)
  ∧ (f.dec x = .nan → f.dec y ≠ .nan → r = y)
  ∧ (f.dec x ≠ .nan → f.dec y = .nan → r = x)
  ∧ (f.dec x ≠ .nan → f.dec y ≠ .nan → (r = x ∨ r = y) ∧ ∀ z, z = x ∨ z = y →
      if mx then ¬Below (f.dec r) (f.dec z) else ¬Below (f.dec z) (f.dec r))

/-- FRND of a pattern (R327): integral values stay, others round to an integer and keep their sign. -/
def RoundsToIntegral (f : Fmt) (m : Rm) (x r : Nat) : Prop :=
  (f.dec x = .nan → r = f.nan)
  ∧ (∀ s, f.dec x = .inf s → r = x)
  ∧ ∀ s n e, f.dec x = .fin s n e → (2 ^ (-e).toNat ∣ n → r = x)
    ∧ ∃ n' e' i, f.dec r = .fin s n' e' ∧ IntRounds m s n e i ∧ n' * 2 ^ e'.toNat = i * 2 ^ (-e').toNat

/-- The class bit of a pattern (R320). -/
def classBit (f : Fmt) (x : Nat) : Nat :=
  let s := x.testBit (f.w - 1)
  let ex := x / 2 ^ f.fb % 2 ^ f.eb
  let fr := x % 2 ^ f.fb
  if ex = 2 ^ f.eb - 1 then (if fr = 0 then (if s then 0 else 7) else if fr.testBit (f.fb - 1) then 9 else 8)
  else if ex = 0 then (if fr = 0 then (if s then 3 else 4) else if s then 2 else 5)
  else if s then 1 else 6

/-- FCVT of a pattern between float formats, and whether .SAT clamps it (R69, R323). -/
def Converts (fs fd : Fmt) (sat ftz : Bool) (m : Rm) (x : Nat) (r : Nat × Bool) : Prop :=
  let v := fs.dec (fs.flush ftz x)
  let y := fd.round m v.xr
  (v = .nan → r = (fd.nan, false))
  ∧ (sat = false → r = (fd.flush ftz y, false))
  ∧ (∀ s, sat = true → v = .inf s → r = (fd.sign s fd.maxFin, true))
  ∧ ∀ s n e, sat = true → v = .fin s n e →
    r = if (fd.dec y).finite then (fd.flush ftz y, false) else (fd.sign s fd.maxFin, true)

/-- A value that enters an XS element of exponent `be`, and whether SATF.XS is set (R81). -/
def EntersXs (v : Fv) (be : Int) (r : Int × Bool) : Prop :=
  (v = .nan → r = (0, true))
  ∧ (∀ s, v = .inf s → r = ((if s then -1 else 1) * (2 ^ 63 - 1), true))
  ∧ ∀ s n e, v = .fin s n e → ∃ i : Nat, IntRounds .rn s n (e - be) i
    ∧ r = if i ≤ 2 ^ 63 - 1 then ((if s then -1 else 1) * (i : Int), false) else ((if s then -1 else 1) * (2 ^ 63 - 1), true)

/-- Three finite values, as integers in units of the least of their exponents. -/
def Three (u v w : Fv) (e n0 n1 n2 : Int) : Prop :=
  ∃ s0 m0 e0 s1 m1 e1 s2 m2 e2, u = .fin s0 m0 e0 ∧ v = .fin s1 m1 e1 ∧ w = .fin s2 m2 e2 ∧ e = min (min e0 e1) e2
    ∧ n0 = inUnits s0 m0 e0 e ∧ n1 = inUnits s1 m1 e1 e ∧ n2 = inUnits s2 m2 e2 e

/-- A third of a number of units, as an exact result. -/
def third (zero : Bool) (n : Int) (e : Int) : Xr := if n = 0 then .zero zero else .rat (decide (n < 0)) n.natAbs 3 e

/-- The digit count of three siblings (R46). -/
def IsDigits (f : Fmt) (x0 x1 x2 k : Nat) : Prop :=
  (((f.dec x0).finite && (f.dec x1).finite && (f.dec x2).finite) = false → k = 0)
  ∧ ∀ e n0 n1 n2 sm mm em, Three (f.dec x0) (f.dec x1) (f.dec x2) e n0 n1 n2 →
    Fmt.f64.dec (Fmt.f64.round .rn (third false (n0 + n1 + n2) e)) = .fin sm mm em →
    let d := min e em
    let m := inUnits sm mm em d
    let far := fun n : Int => (n * 2 ^ (e - d).toNat - m).natAbs
    let s := max (far n0) (max (far n1) (far n2))
    k = if s = 0 then f.p else if m = 0 then 0
      else (min (max ((Nat.log2 m.natAbs : Int) - Nat.log2 s - 1) 0) f.p).toNat

/-- What a MEAN store puts in plane 0 (R60). -/
def IsMean (f : Fmt) (x0 x1 x2 r : Nat) : Prop :=
  let l := [f.dec x0, f.dec x1, f.dec x2]
  (.nan ∈ l ∨ (.inf true ∈ l ∧ .inf false ∈ l) → r = f.nan)
  ∧ (∀ s, .inf s ∈ l → .inf (!s) ∉ l → .nan ∉ l → r = f.sign s f.infPat)
  ∧ ∀ e n0 n1 n2, Three (f.dec x0) (f.dec x1) (f.dec x2) e n0 n1 n2 →
    r = f.round .rn (third (l.all (fun v => match v with | .fin s m _ => s && m == 0 | _ => false)) (n0 + n1 + n2) e)

/-- What sibling `k` reads of a MEAN element whose plane 0 is `m` and whose digit byte is `d` (R60). -/
def IsMeanRead (f : Fmt) (m d k r : Nat) : Prop :=
  ((f.dec m).finite = false ∨ f.p ≤ d → r = m)
  ∧ ∀ s n e, f.dec m = .fin s n e → (n = 0 → r = m)
    ∧ (n ≠ 0 → d < f.p →
      let u := (Nat.log2 n : Int) + e - d - 1
      let t := inUnits s n e (min e u) + ((k : Int) - 1) * 2 ^ (u - min e u).toNat
      r = f.round .rn (if t = 0 then .zero s else .rat (decide (t < 0)) t.natAbs 1 (min e u)))

/-- A chunk of products promoted into an accumulator (R78). -/
def Promotes (acc : Nat) (ps : List Fv) (sa sw : Fv) (mode : Rm) (r : Nat) : Prop :=
  let av := Fmt.f32.dec acc
  let bad := av = .nan ∨ sa = .nan ∨ sw = .nan ∨ .nan ∈ ps ∨ (.inf true ∈ ps ∧ .inf false ∈ ps)
  (bad → r = Fmt.f32.nan)
  ∧ (¬bad → ∀ s, .inf s ∈ ps → r = Fmt.f32.round mode (fvAdd mode av (fvMul (fvMul (.inf s) sa) sw)))
  ∧ (¬bad → (∀ v ∈ ps, ∃ s e, v = .fin s 0 e) → r = acc)
  ∧ (¬bad → (∀ v ∈ ps, v.finite = true) → ∀ top : Int,
    (∃ s m e, Fv.fin s m e ∈ ps ∧ m ≠ 0 ∧ top = (Nat.log2 m : Int) + e) →
    (∀ s m e, Fv.fin s m e ∈ ps → m ≠ 0 → (Nat.log2 m : Int) + e ≤ top) →
    let u := top - 71
    let units : Fv → Int := fun v => match v with
      | .fin s m e => (if s then -1 else 1) * ((m * 2 ^ (e - u).toNat / 2 ^ (u - e).toNat : Nat) : Int)
      | _ => 0
    let n : Int := (ps.map units).foldr (· + ·) 0
    let sum := fvMul (fvMul (.fin (decide (n < 0)) n.natAbs u) sa) sw
    r = if sum.isZero then acc else Fmt.f32.round mode (fvAdd mode av sum))

/-- The lanes whose source DIGITS reads: the siblings alone in a TRIPLE quad under MODE.SIB = 1, every lane that computes elsewhere
(R316). -/
def digitsReads (o : VOp) (c : Cur) (l : Nat) : Bool :=
  o.acts c l && (if c.triple && (c.gang.quad (l / 4)).sib then l % 4 != 3 else c.computes true l)

/-- FDIV and the special functions: operands, element type, element, and the elements whose divisor a DIVZ event looks at. -/
structure SlowRow where
  o : VOp
  t : Fty
  el : Cur → Nat → Nat → Nat
  divisor : Option (Cur → Nat → Nat → Nat)

/-- A special function of one source (R325). -/
def functionRow (i : Instr) (ft : BitVec 2) (x : AF) (f : Fv → Xr) (divz : Bool) : SlowRow :=
  let t := Fty.of ft.toNat
  let o : VOp := { i := i, p := x.p, x := x.x, srcs := [operand x.x .sx t.ix x.a t.wide x.da], dst := x.d, wide := t.wide, fp := true }
  ⟨o, t, fun c l j => rounded t x.x c l j (f (srcEl t o 0 (smodA x.x) c l j)),
    if divz then some (fun c l j => t.fmt.flush (c.ftz l) (t.fmt.smod (smodA x.x) (t.el (srcAt o 0 c l) j))) else none⟩

/-- The rows of path X (R325). -/
def slowRow : Instr → Option SlowRow
  | .fdiv x =>
    let t := ftyA3 x
    let o := (fBin (.fdiv x) x t).vop t.wide true
    some ⟨o, t, fun c l j => rounded t x.x c l j (fvDiv (srcEl t o 0 (smodA x.x) c l j) (srcEl t o 1 0 c l j)),
      some (fun c l j => t.fmt.flush (c.ftz l) (t.el (srcAt o 1 c l) j))⟩
  | .frcp ft x => some (functionRow (.frcp ft x) ft x (fvDiv (.fin false 1 0)) true)
  | .frsq ft x => some (functionRow (.frsq ft x) ft x fvRsqrt true)
  | .fsqrt ft x => some (functionRow (.fsqrt ft x) ft x fvSqrt false)
  | .fexp2 ft x => some (functionRow (.fexp2 ft x) ft x fvExp2 false)
  | .flog2 ft x => some (functionRow (.flog2 ft x) ft x fvLog2 false)
  | .fsinpi ft x => some (functionRow (.fsinpi ft x) ft x fvSinpi false)
  | .fcospi ft x => some (functionRow (.fcospi ft x) ft x fvCospi false)
  | _ => none

/-- The DIVZ events of a row (R53): in a TRIPLE quad under MODE.SIB = 1, an element whose divisor siblings count no digit or of which
one is a zero. -/
def divzOf (r : SlowRow) (c : Cur) : List NitHit :=
  match r.divisor with
  | none => []
  | some d => divzHits r.t (pfxGuard r.o.x) d c

/-! Compares. -/

/-- A compare and the outcome it computes in a lane. -/
structure CmpRow where
  o : VCmp
  f : Cur → Nat → Bool

/-- ICMP's conditions (R121): EQ, NE, LT, LE, GT, GE. -/
def intHolds (k : BitVec 4) (a b : Int) : Bool :=
  if k = 0#4 then decide (a = b) else if k = 1#4 then decide (a ≠ b) else if k = 2#4 then decide (a < b)
  else if k = 3#4 then decide (a ≤ b) else if k = 4#4 then decide (a > b) else decide (a ≥ b)

/-- The compare rows (R321, R335). -/
def cmpRow : Instr → Option CmpRow
  | .icmp k pd o =>
    let t := ityOf o.x
    let a := operand o.x .sx t.ix o.a t.wide o.da
    let b := operand o.x .sx t.ix o.b t.wide o.db
    some ⟨⟨.icmp k pd o, o.p, o.x, [a, b], pd⟩, fun c l => intHolds k (t.el (a.val c l) 0) (t.el (b.val c l) 0)⟩
  | .icmpI k pd o =>
    let t := ityOf o.x
    let a := operand o.x .unused t.ix o.a t.wide false
    some ⟨⟨.icmpI k pd o, o.p, o.x, [a], pd⟩, fun c l => intHolds k (t.el (a.val c l) 0) (t.el (immOf o.imm o.x) 0)⟩
  | .fcmp k pd o =>
    let t := Fty.of (pfxTy o.x)
    let a := operand o.x .sx t.ix o.a t.wide o.da
    let b := operand o.x .sx t.ix o.b t.wide o.db
    some ⟨⟨.fcmp k pd o, o.p, o.x, [a, b], pd⟩, fun c l => fcond k.toNat
      (t.fmt.dec (t.fmt.flush (c.ftz l) (t.fmt.smod (smodA o.x) (t.el (a.val c l) 0))))
      (t.fmt.dec (t.fmt.flush (c.ftz l) (t.el (b.val c l) 0)))⟩
  | _ => none

/-! Exchanges between lanes. -/

/-- An exchange: its operands, its own limits, the words that reach a lane, and the value and SATF bits of a lane. -/
structure ExchRow where
  o : VOp
  ok : Cur → Bool
  reads : Cur → Nat → List (Operand × Nat)
  f : LaneFn

/-- An exchange of one source: the lane `src` is read. -/
def takeRow (i : Instr) (x : AF) (w : Bool) (src : Nat → Nat) : ExchRow :=
  let a := operand x.x .sx .int x.a w x.da
  ⟨{ i := i, p := x.p, x := x.x, srcs := [a], dst := x.d, wide := w }, fun _ => true, fun _ l => [(a, src l)], fun c l => (a.val c (src l), 0)⟩

/-- A position whose value every lane of a REDUX takes (R76): position 0 in SINGLE; in TRIPLE its own sibling position, or position 3
for a float operation under MODE.SIB = 0. -/
def reduxPlace (op : Nat) (c : Cur) (l : Nat) : Nat :=
  if !c.triple then 0 else if decide (7 ≤ op) && !(c.gang.quad c.leadQuad).sib then 3 else l % 4

/-- REDUX (R76, R362, R363): the tree over the acting lanes' values, lanes a stride apart, empty lanes passed over. -/
def reduxRow (op : BitVec 4) (ty : BitVec 3) (x : AF) : ExchRow :=
  let fl := decide (7 ≤ op.toNat)
  let wide := if fl then (Fty.of ty.toNat).wide else (Ity.of ty.toNat).wide
  let a := operand x.x .unused .int x.a wide x.da
  let step := fun (c : Cur) l u w => if fl then reduxFloat op.toNat (Fty.of ty.toNat) x.x c (if c.triple then l else 3) u w
    else reduxInt op.toNat (Ity.of ty.toNat) u w
  let out := fun (c : Cur) l => (reduxTree (step c) (if c.triple then [16, 8, 4] else [16, 8, 4, 2, 1])
    (lanes.map (fun l => if (c.act (pfxGuard x.x)).getLsbD l then some (a.val c l, false) else none))).getD (reduxPlace op.toNat c l) none
  ⟨{ i := .redux op ty x, p := x.p, x := x.x, srcs := [a], dst := x.d, wide := wide }, fun _ => true,
    fun c l => if fl && c.triple && !(c.gang.quad c.leadQuad).sib then [(a, l / 4 * 4 + 3)] else [(a, l)],
    fun c l => ((out c l).elim 0 Prod.fst, if (out c l).elim false Prod.snd then 1 else 0)⟩

/-- The exchanges that complete at once (R360, R363). -/
def quickExch : Instr → Option ExchRow
  | .qswap w k x => some (takeRow (.qswap w k x) x w (fun l => l / 4 * 4 + (l % 4 ^^^ k.toNat)))
  | .qbcast w k x => some (takeRow (.qbcast w k x) x w (fun l => l / 4 * 4 + k.toNat))
  | .redux op ty x => some (reduxRow op ty x)
  | _ => none

/-- The lanes a slide moves by: itself in SINGLE, whole quads in TRIPLE (R376). -/
def slideBy (dist : Nat) (c : Cur) : Nat := if c.triple then 4 * dist else dist

/-- SLIDE (R376): lanes come from the first source, and past its end from the fill. -/
def slideRow (i : Instr) (up : Bool) (dist : Nat) (x : SlideF) (a f : Operand) (srcs : List Operand) (fits : Bool) : ExchRow :=
  let src := fun c l =>
    let n := slideBy dist c
    if up then (if l < n then (f, (l + 32 - n) % 32) else (a, (l + 32 - n) % 32))
    else (if l + n < 32 then (a, (l + n) % 32) else (f, (l + n) % 32))
  ⟨{ i := i, p := x.p, x := x.x, srcs := srcs, dst := x.d, wide := false }, fun c => fits && (!c.triple || decide (dist ≤ 8)),
    fun c l => [src c l], fun c l => ((src c l).1.val c (src c l).2, 0)⟩

/-- SLIDE filled from the next register. -/
def slideNext (i : Instr) (up : Bool) (dist : Nat) (x : SlideF) : ExchRow :=
  let a := operand x.x .unused .int x.a false false
  let f : Operand := { a with spec := x.a.toNat + 1 }
  slideRow i up dist x a f [a, f] (decide (x.a.toNat < 119) && x.a.toNat != 111)

/-- The exchanges that count on path S (R346, R371, R376). -/
def slowExch : Instr → Option ExchRow
  | .shfl x =>
    let a := operand x.x .sx .int x.a false x.da
    let b := operand x.x .sx .int x.b false x.db
    let src := fun (c : Cur) l => if c.triple then 4 * (b.val c (l / 4 * 4 + 3) % 8) + l % 4 else b.val c l % 32
    some ⟨{ i := .shfl x, p := x.p, x := x.x, srcs := [a, b], dst := x.d, wide := false }, fun _ => true,
      fun c l => [(b, c.ref l), (a, src c l)], fun c l => (a.val c (src c l), 0)⟩
  | .slideDown dist x => some (slideNext (.slideDown dist x) false dist.toNat x)
  | .slideUp dist x => some (slideNext (.slideUp dist x) true dist.toNat x)
  | .slideFill up dist fill x =>
    let a := operand x.x .unused .int x.a false false
    some (slideRow (.slideFill up dist fill x) up dist.toNat x a { spec := 126, wide := false, dead := false, sx := some fill, ix := none }
      [a] (decide (x.a.toNat < 126)))
  | .match w x =>
    let a := operand x.x .sx .int x.a w x.da
    some ⟨{ i := .match w x, p := x.p, x := x.x, srcs := [a], dst := x.d, wide := false }, fun _ => true, fun c l => [(a, c.ref l)],
      fun c l => (bitsOf (fun m => (c.act (pfxGuard x.x)).getLsbD m && a.val c (c.ref m) == a.val c (c.ref l)) 32, 0)⟩
  | _ => none

/-- What an exchange needs: operands within their limits, and no poison in its guard or in a word that reaches an acting lane. -/
structure ExchReady (r : ExchRow) (c : Cur) (s : State) : Prop extends Issues r.o.i c s where
  srcs : ∀ a ∈ r.o.srcs, a.ok c.regs = true
  dst : regOk c.regs r.o.dst.toNat r.o.wide = true
  ok : r.ok c = true
  guard : c.guardPoisoned (pfxGuard r.o.x) = false
  clean : ∀ l, r.o.acts c l = true → ∀ x ∈ r.reads c l, x.1.poisoned c x.2 = false

/-! Votes, lane reads and writes, scalars, predicates. -/

/-- The lane, or in TRIPLE the quad, that ELECT chooses: the lowest of EXEC that carries a thread (R317). -/
def isElected (c : Cur) (l : Nat) : Bool :=
  let ok := fun m => c.frag.exec.getLsbD m && !c.helper m
  lanes.any (fun m => ok m && lanes.all (fun k => !(decide (k < m) && ok k)) && (if c.triple then m / 4 == l / 4 else m == l))

/-- The predicate rows of EXEC: the predicate read, the one written, and each lane's new bit (R317, R383). -/
def voteRow : Instr → Option (Option (BitVec 3) × BitVec 3 × Bool × (Cur → Nat → Bool))
  | .voteAny ps pd p => some (some ps, pd, p, fun c _ => lanes.any (fun l => c.frag.exec.getLsbD l && (c.gang.pr ps).getLsbD l))
  | .voteAll ps pd p => some (some ps, pd, p, fun c _ => lanes.all (fun l => !c.frag.exec.getLsbD l || (c.gang.pr ps).getLsbD l))
  | .elect pd p => some (none, pd, p, isElected)
  | _ => none

/-- READLN: the source, the destination, the park bit, the prefix, the scalar that names the lane, and the lane. -/
structure ReadlnRow where
  o : VOp
  sd : BitVec 6
  sl : Option (BitVec 6)
  lane : Cur → Nat

/-- READLN's source, as the one source of an instruction that writes no register. -/
def readlnOp (i : Instr) (x : Pfx) (a : BitVec 7) (da p : Bool) : VOp :=
  { i := i, p := p, x := x, srcs := [operand x .sx .int a false da], dst := 124#7, wide := false }

/-- The READLN rows (R361). -/
def readlnRow : Instr → Option ReadlnRow
  | .readlnImm lane a sd da p x => some ⟨readlnOp (.readlnImm lane a sd da p x) x a da p, sd, none, fun _ => lane.toNat⟩
  | .readlnScalar sl a sd da p x => some ⟨readlnOp (.readlnScalar sl a sd da p x) x a da p, sd, some sl, fun c => (c.s sl).toNat % 32⟩
  | _ => none

/-- What READLN leaves where some lane acts: the destination holds the word of the lane, or of its quad's reference lane in TRIPLE, and a
dead source is killed in the acting lanes. -/
structure ReadlnEffect (r : ReadlnRow) (c : Cur) (g : Gang) : Prop where
  rest : g = { c.gang.issue r.o.i c with
    sregs := g.sregs, spois := g.spois, killed := g.killed, oc := g.oc, book := { (c.gang.issue r.o.i c).book with swrote := g.book.swrote } }
  val : ∀ n, g.s n = if n = r.sd then BitVec.ofNat 64 (srcAt r.o 0 c (if c.triple then r.lane c / 4 * 4 + 3 else r.lane c)) else c.gang.s n
  pois : ∀ n, g.spoisoned n = if n = r.sd then false else c.gang.spoisoned n
  reg : ∀ q l, q < 112 → l < 32 → g.v q l = if r.o.acts c l && r.o.kills q then 0#32 else c.gang.v q l
  slot : ∀ k l, k < 8 → l < 32 → g.ocv k l = if r.o.acts c l && r.o.kills (112 + k) then 0#32 else c.gang.ocv k l

/-- WRITELN: prefix, destination, park bit, source scalar, lane scalar, lane. -/
structure WritelnRow where
  x : Pfx
  d : BitVec 7
  p : Bool
  sa : BitVec 6
  sl : Option (BitVec 6)
  lane : Cur → Nat

/-- The WRITELN rows (R361). -/
def writelnRow : Instr → Option WritelnRow
  | .writelnImm lane sa d p x => some ⟨x, d, p, sa, none, fun _ => lane.toNat⟩
  | .writelnScalar sl sa d p x => some ⟨x, d, p, sa, some sl, fun c => (c.s sl).toNat % 32⟩
  | _ => none

/-- An acting lane that WRITELN writes: the lane named, or in TRIPLE every lane of its quad. -/
def WritelnRow.hits (r : WritelnRow) (c : Cur) (l : Nat) : Bool :=
  (c.act (pfxGuard r.x)).getLsbD l && (if c.triple then l / 4 == r.lane c / 4 else l == r.lane c)

/-- What WRITELN leaves: the lanes it writes hold the low half of the scalar, nothing else changes. -/
structure WritelnEffect (i : Instr) (r : WritelnRow) (c : Cur) (g : Gang) : Prop where
  rest : g = { c.gang.issue i c with vregs := g.vregs, killed := g.killed, vpois := g.vpois, oc := g.oc }
  reg : ∀ q l, q < 112 → l < 32 → g.v q l =
    if q = r.d.toNat ∧ r.hits c l = true then BitVec.ofNat 32 (c.s r.sa).toNat else c.gang.v q l
  slot : ∀ k l, k < 8 → l < 32 → g.ocv k l =
    if 112 + k = r.d.toNat ∧ r.hits c l = true then BitVec.ofNat 32 (c.s r.sa).toNat else c.gang.ocv k l
  pois : ∀ q l, q < 112 → l < 32 → g.vpoisoned q l = if q = r.d.toNat ∧ r.hits c l = true then false else c.gang.vpoisoned q l

/-- A scalar row: its park bit, the scalars it reads, the one it writes, and its value. -/
structure ScalarRow where
  p : Bool
  reads : List (BitVec 6)
  sd : BitVec 6
  val : Cur → DWord

/-- SCMP's conditions (R368): signed but for LTU and LEU. -/
def scalarHolds (k : ScmpCond) (a b : DWord) : Bool :=
  match k with
  | .eq => decide (a.toNat = b.toNat)
  | .ne => decide (a.toNat ≠ b.toNat)
  | .lt => decide (a.toInt < b.toInt)
  | .le => decide (a.toInt ≤ b.toInt)
  | .ltu => decide (a.toNat < b.toNat)
  | .leu => decide (a.toNat ≤ b.toNat)

/-- The scalar rows (R368, R374). -/
def scalarRow : Instr → Option ScalarRow
  | .sadd sb sa sd p => some ⟨p, [sa, sb], sd, fun c => BitVec.ofNat 64 ((c.s sa).toNat + (c.s sb).toNat)⟩
  | .ssub sb sa sd p => some ⟨p, [sa, sb], sd, fun c => BitVec.ofInt 64 ((c.s sa).toInt - (c.s sb).toInt)⟩
  | .smul sb sa sd p => some ⟨p, [sa, sb], sd, fun c => BitVec.ofNat 64 ((c.s sa).toNat * (c.s sb).toNat)⟩
  | .sand sb sa sd p => some ⟨p, [sa, sb], sd, fun c => BitVec.ofNat 64 (bitsOf (fun k => (c.s sa).getLsbD k && (c.s sb).getLsbD k) 64)⟩
  | .sor sb sa sd p => some ⟨p, [sa, sb], sd, fun c => BitVec.ofNat 64 (bitsOf (fun k => (c.s sa).getLsbD k || (c.s sb).getLsbD k) 64)⟩
  | .sxor sb sa sd p => some ⟨p, [sa, sb], sd, fun c => BitVec.ofNat 64 (bitsOf (fun k => (c.s sa).getLsbD k != (c.s sb).getLsbD k) 64)⟩
  | .sshl sb sa sd p => some ⟨p, [sa, sb], sd, fun c => BitVec.ofNat 64 ((c.s sa).toNat * 2 ^ ((c.s sb).toNat % 64))⟩
  | .sshr sb sa sd p => some ⟨p, [sa, sb], sd, fun c => BitVec.ofNat 64 ((c.s sa).toNat / 2 ^ ((c.s sb).toNat % 64))⟩
  | .ssar sb sa sd p => some ⟨p, [sa, sb], sd, fun c => BitVec.ofInt 64 ((c.s sa).toInt / 2 ^ ((c.s sb).toNat % 64))⟩
  | .smov sa sd p => some ⟨p, [sa], sd, fun c => c.s sa⟩
  | .ssel sb sa sd p => some ⟨p, [sa, sb, sd], sd, fun c => if c.s sd = 0#64 then c.s sb else c.s sa⟩
  | .scmp k sb sa sd p => some ⟨p, [sa, sb], sd, fun c => if scalarHolds k (c.s sa) (c.s sb) then 1#64 else 0#64⟩
  | .sli imm sd p => some ⟨p, [], sd, fun _ => BitVec.ofInt 64 imm.toInt⟩
  | .sliSh imm sd p => some ⟨p, [sd], sd, fun c => BitVec.ofNat 64 ((c.s sd).toNat * 65536 + imm.toNat)⟩
  | .plopTos pa sd p => some ⟨p, [], sd, fun c => BitVec.ofNat 64 (c.gang.pr pa).toNat⟩
  | _ => none

/-- One bit of PLOP (R354). -/
def plopBit (op : PlopOp) (a b : Bool) : Bool :=
  match op with
  | .and => a && b
  | .or => a || b
  | .xor => a != b
  | .andn => a && !b
  | .orn => a || !b
  | .not => !a
  | .mov => a

/-- The predicate rows that write every bit of the fragment mask: what must be clean, the destination, the park bit, the new bits
before TRIPLE spreads the reference lanes' (R354). -/
def plopRow : Instr → Option ((Cur → Bool) × BitVec 3 × Bool × (Cur → Nat → Bool))
  | .plop op pb pa pd p => some (fun c => !c.gang.ppoisoned pa && (op == .not || op == .mov || !c.gang.ppoisoned pb), pd, p,
      fun c l => plopBit op ((c.gang.pr pa).getLsbD l) ((c.gang.pr pb).getLsbD l))
  | .plopFroms sa pd p => some (fun c => !c.spoisoned sa, pd, p, fun c l => (c.s sa).getLsbD l)
  | _ => none

/-! Special registers. -/

/-- What an SREAD of a register other than ICOUNT may read (R55, R75, R89-R93): NITCNT is exact while the gang is one fragment;
LEASECFG, which a program may not see, reads zero. -/
def mayRead (sel : BitVec 6) (c : Cur) (s : State) (v : DWord) : Prop :=
  match sel.toNat with
  | 0x00 => v = BitVec.ofNat 64 c.frag.exec.toNat
  | 0x01 => v = BitVec.ofNat 64 (c.gang.quad c.lowQuad).mode.toNat
  | 0x02 => v = BitVec.ofNat 64 c.gang.nitcfg.toNat
  | 0x03 => c.gang.frags.length ≤ 1 ∨ c.gang.book.nit = none → v = c.gang.nitcnt
  | 0x04 => v = BitVec.ofNat 64 (c.gang.satf ||| c.frag.pendSatf.setWidth 32).toNat
  | 0x06 => v = c.lau.r.seed
  | 0x07 => v = BitVec.ofNat 64 (c.grp.g % 2 ^ 32 * 2 ^ 32 + (if c.triple then 2 ^ 31 else 0) + c.grp.g % max c.lau.r.cluster 1 * 2 ^ 29
      + c.lau.r.cluster * 2 ^ 26 + c.r.gang * 2 ^ 21 + c.lau.r.gangs * 2 ^ 15 + c.lau.r.threads)
  | 0x08 => v = BitVec.ofNat 64 c.gang.gset.toNat
  | 0x09 => v = BitVec.ofNat 64 (min 65535 (c.gang.leaseBase + c.gang.leaseE) * 65536 + c.gang.leaseDecl.toNat)
  | 0x0A => v = 0#64
  | 0x0B => v = BitVec.ofNat 64 c.frag.sig.toNat
  | 0x0C => v = c.gang.tcause
  | 0x0D => v = c.gang.epc
  | 0x0E => v = cycleAt c.grp.core s
  | _ => False

/-- What an SREAD of ICOUNT leaves: each lane of EXEC holds its quad's count in the register pair (R93). -/
structure IcountEffect (i : Instr) (sd : BitVec 6) (c : Cur) (g : Gang) : Prop where
  rest : g = { c.gang.issue i c with vregs := g.vregs, killed := g.killed, vpois := g.vpois }
  reg : ∀ q l, q < 112 → l < 32 → g.v q l =
    if c.frag.exec.getLsbD l then
      (if q = sd.toNat then BitVec.ofNat 32 (c.gang.quad (l / 4)).icount.toNat
       else if q = sd.toNat + 1 then BitVec.ofNat 32 ((c.gang.quad (l / 4)).icount.toNat / 2 ^ 32) else c.gang.v q l)
    else c.gang.v q l
  pois : ∀ q l, q < 112 → l < 32 → g.vpoisoned q l =
    if c.frag.exec.getLsbD l && (q == sd.toNat || q == sd.toNat + 1) then false else c.gang.vpoisoned q l

/-- A fragment of the gang changed. -/
def withFrag (g : Gang) (k : Nat) (f : Frag → Frag) : Gang := { g with frags := amod k f g.frags }

/-- What an SWRITE makes of the gang that issue leaves (R21, R31, R54, R55, R75, R90, R91, R93, R268). -/
def swritten (sel : BitVec 6) (c : Cur) (v : DWord) (g : Gang) : Option Gang :=
  let w : Word := BitVec.ofNat 32 v.toNat
  match sel.toNat with
  | 0x00 => some (withFrag g c.r.frag (fun f =>
      { f with exec := maskOf (fun l => w.getLsbD (if c.triple then l / 4 * 4 + 3 else l)) &&& f.mask }))
  | 0x01 => some (g.modQuads c.frag.mask (fun q => { q with mode := w &&& 0x1F#32 }))
  | 0x02 => some { g with nitcfg := w &&& 0x3F3F3F#32 }
  | 0x03 => some { g with nitcnt := v &&& 0xFFFFFFFFFFFF#64, book := { g.book with nit := none } }
  | 0x04 => some { withFrag g c.r.frag (fun f => { f with pendSatf := 0#7 }) with satf := w &&& 0x7F#32 }
  | 0x08 => some { g with gset := w }
  | 0x09 => some { g with leaseDecl := BitVec.ofNat 16 v.toNat }
  | 0x0B => some (withFrag g c.r.frag (fun f => { f with sig := w }))
  | 0x0D => some { g with epc := v &&& 0x01FFFFFFFFFFFFFE#64 }
  | _ => none

/-! Control flow. -/

/-- The target of a branch with a displacement in halfwords: an address has bits 56 to 1 alone (R22, R310). -/
def target (c : Cur) (disp : BitVec 19) : DWord := BitVec.ofInt 64 ((c.frag.pc.toNat : Int) + 2 * disp.toInt) &&& 0x01FFFFFFFFFFFFFE#64

/-- The address after a 4-byte instruction. -/
def after4 (c : Cur) : DWord := BitVec.ofNat 64 (c.frag.pc.toNat + 4) &&& 0x01FFFFFFFFFFFFFE#64

/-- The gang after issue, its fragment at an address. -/
def goneTo (i : Instr) (c : Cur) (pc : DWord) : Gang := withFrag (c.gang.issue i c) c.r.frag (fun f => { f with pc := pc })

/-- The gang after a call: s63 holds the return address, and the fragment's upper levels are empty (R99, R311). -/
def calledTo (i : Instr) (c : Cur) (pc : DWord) : Gang :=
  (withFrag ((c.gang.issue i c).setSBy c.r.frag 63#6 (after4 c)) c.r.frag (fun f => { f with pc := pc })).invalidate c.frag.mask

/-- The lane whose pair names the target of a branch to a register: the lowest of EXEC, or of the fragment where EXEC is zero, and in
TRIPLE the reference lane of its quad (R311). -/
def targetLane (c : Cur) : Nat :=
  let l := (lowLane (if c.frag.exec = 0#32 then c.frag.mask else c.frag.exec)).getD 0
  if c.triple then l / 4 * 4 + 3 else l

/-- The pair's value. -/
def pairAt (c : Cur) (vn : BitVec 6) : DWord :=
  BitVec.ofNat 64 ((c.v vn.toNat (targetLane c)).toNat + 2 ^ 32 * (c.v (vn.toNat + 1) (targetLane c)).toNat)

/-- A branch to a register can run: a pair of the declared registers, not poisoned, holding an even address. -/
structure RegBranch (i : Instr) (vn : BitVec 6) (c : Cur) (s : State) : Prop extends Issues i c s where
  pair : vn.toNat % 2 = 0 ∧ vn.toNat + 1 < c.regs
  clean : c.frag.exec ≠ 0#32 → c.vpoisoned vn.toNat (targetLane c) = false ∧ c.vpoisoned (vn.toNat + 1) (targetLane c) = false
  even : (pairAt c vn).getLsbD 0 = false

/-- The lanes that take a branch on a predicate (R24, R311). -/
def takes (c : Cur) (n : Bool) (pr : BitVec 3) (l : Nat) : Bool := c.frag.exec.getLsbD l && ((c.gang.pr pr).getLsbD l != n)

/-- Some lane takes the branch. -/
def someTake (c : Cur) (n : Bool) (pr : BitVec 3) : Bool := lanes.any (takes c n pr)

/-- A quad of the fragment some of whose lanes take a BRV and some do not. -/
def quadMixed (c : Cur) (t : Mask) (q : Nat) : Bool := quadBits t q != 0#4 && quadBits t q != quadBits c.frag.mask q

/-- The lanes of the fragment in quads none of whose lanes takes a BRV. -/
def elsewhere (c : Cur) (t : Mask) : Mask := maskOf (fun l => c.frag.mask.getLsbD l && quadBits t (l / 4) == 0#4)

/-- A BRV splits its fragment (R24): a quad is mixed, or quads fall on both sides. -/
def parts (c : Cur) (t : Mask) : Bool :=
  (List.range 8).any (fun q => quadBits c.frag.mask q != 0#4 && quadMixed c t q) || (elsewhere c t != 0#32 && t &&& c.frag.mask != 0#32)

/-- What a splitting BRV leaves (R24, R25): a new record holds the fragment's lanes and its split; the fragment's entry goes on with the
taken lanes at the target; lanes of quads that do not take go on at the next instruction in an entry that was free; a mixed quad keeps
its other lanes on its stack. -/
structure SplitEffect (i : Instr) (c : Cur) (t : Mask) (disp : BitVec 19) (k : Nat) (g : Gang) : Prop where
  free : aget k c.gang.recs = none
  record : ∀ j, aget j g.recs = if j = k then some { origin := c.frag.mask, parent := c.frag.split, jpc := 0#64 } else aget j c.gang.recs
  taken : ∃ f, aget c.r.frag g.frags = some f ∧ f.pc = target c disp ∧ f.mask = t ∧ f.exec = c.frag.exec &&& t ∧ f.split = some k
    ∧ f.rpc = target c disp
  others : ∀ j, j ≠ c.r.frag → (aget j c.gang.frags).isSome = true → aget j g.frags = aget j c.gang.frags
  apart : if elsewhere c t = 0#32 then ∀ j, j ≠ c.r.frag → aget j g.frags = aget j c.gang.frags
    else ∃ j f, j ≠ c.r.frag ∧ aget j c.gang.frags = none ∧ aget j g.frags = some f ∧ f.pc = after4 c ∧ f.mask = elsewhere c t
      ∧ f.exec = c.frag.exec &&& elsewhere c t ∧ f.split = some k ∧ f.rpc = after4 c
  stackOf : ∀ q, q < 8 → q < c.gang.quads.length → (g.quad q).stack =
    if quadBits c.frag.mask q != 0#4 && quadMixed c t q then
      { split := k, second := false, pc := after4 c, notTaken := quadBits c.frag.mask q &&& ~~~ quadBits t q,
        lanes := quadBits c.frag.mask q, xl := quadBits c.frag.exec q } :: (c.gang.quad q).stack
    else (c.gang.quad q).stack
  rest : g = { c.gang.issue i c with
    frags := g.frags, recs := g.recs, quads := g.quads, oc := g.oc, latch := g.latch, nitcnt := g.nitcnt, satf := g.satf,
    joints := g.joints, dead := g.dead, swap := c.gang.swap.atRegion, book := g.book }

/-- No fragment of a gang waits to enter the handler. -/
def noEntrant (g : Gang) : Bool := g.frags.all (fun e => match e.2.hold with | .trapEntry _ => false | _ => true)

/-- A gang whose fragment has entered its trap handler (R56): EPC is the next instruction, TCAUSE the cause. -/
def trapped (g : Gang) (c : Cur) (handler tcause : DWord) : Gang :=
  { withFrag (g.invalidate c.frag.mask) c.r.frag (fun f => { f with pc := handler, inHandler := true, hold := .run }) with
    epc := ((aget c.r.frag g.frags).map (fun f => f.pc)).getD 0#64, tcause := tcause }

/-- TCAUSE of a software trap: the code in bits 39 to 32, CLASS 0x10 (R56, R382). -/
def trapCause (code : BitVec 6) : DWord := BitVec.ofNat 64 (code.toNat * 2 ^ 32 + 0x10)

/-- A word that is no instruction, with its kind of ILLOP: 1 illegal, 2 reserved, 3 operand (R131). -/
def badWord : Instr → Option Nat
  | .illegalHalfword => some 1
  | .illegal _ _ => some 1
  | .xpPrefix _ => some 1
  | .reservedMajorOpcode _ => some 2
  | _ => none

/-- What a row checks of its operands and its poison (R87, R94, R120, R132, R261). -/
structure LimitRow where
  ok : Cur → Bool
  poison : Cur → Bool

/-- The checks of a row of the vector pipes. -/
def vopLimits (o : VOp) (legal : Bool) : LimitRow :=
  ⟨fun c => o.srcs.all (fun a => a.ok c.regs) && dstOk c.regs o.dst o.wide && legal, fun c => c.poison o.fp (pfxGuard o.x) o.srcs⟩

/-- The checks of a compare, which writes no register. -/
def cmpLimits (r : CmpRow) : LimitRow :=
  ⟨fun c => r.o.srcs.all (fun a => a.ok c.regs), fun c => c.poison true (pfxGuard r.o.x) r.o.srcs⟩

/-- The checks of an exchange: the poison of the words that reach an acting lane. -/
def exchLimits (r : ExchRow) : LimitRow :=
  ⟨fun c => r.o.srcs.all (fun a => a.ok c.regs) && regOk c.regs r.o.dst.toNat r.o.wide && r.ok c,
   fun c => c.guardPoisoned (pfxGuard r.o.x)
     || lanes.any (fun l => r.o.acts c l && (r.reads c l).any (fun x => x.1.poisoned c x.2))⟩

/-- The checks of SEL, which needs its prefix, and reads its selector where no guard would. -/
def selLimits (o : A3) : LimitRow :=
  ⟨fun c => (selOp o).srcs.all (fun a => a.ok c.regs) && dstOk c.regs o.d (bitsWide (pfxTy o.x)) && o.x != Pfx.none,
   fun c => c.guardPoisoned (pfxGuard o.x) || c.poison false (pfxGuard Pfx.none) (selOp o).srcs⟩

/-- The checks of DIGITS, which reads the siblings alone (R316). -/
def digitsLimits (ft : BitVec 2) (x : AF) : LimitRow :=
  let o := afOp (.digits ft x) x (Fty.of ft.toNat).ix (Fty.of ft.toNat).wide false true
  ⟨fun c => o.srcs.all (fun a => a.ok c.regs) && dstOk c.regs o.dst false,
   fun c => c.guardPoisoned (pfxGuard x.x) || lanes.any (fun l => digitsReads o c l && o.srcs.any (fun a => a.poisoned c l))⟩

/-- Every row of the vector pipes with the checks of its operands. -/
def limitRow (i : Instr) : Option LimitRow :=
  match i with
  | .sel o => some (selLimits o)
  | .digits ft x => some (digitsLimits ft x)
  | i =>
    (((intRow i).map (fun r => vopLimits (r.b.vop r.t.wide false) true)).or
      ((satRow i).map (fun r => vopLimits (r.b.vop r.t.wide false) true))).or
    ((((bitRow i).map (fun r => vopLimits (r.b.vop r.wide false) true)).or
      ((shiftRow i).map (fun r => vopLimits (r.b.vop r.wide false) true))).or
    ((((oneRow i).map (fun r => vopLimits r.o true)).or ((manyRow i).map (fun r => vopLimits r.o r.legal))).or
    ((((floatRow i).map (fun r => vopLimits r.o true)).or ((convRow i).map (fun r => vopLimits r.o true))).or
    ((((slowRow i).map (fun r => vopLimits r.o true)).or ((cmpRow i).map cmpLimits)).or
      (((quickExch i).map exchLimits).or ((slowExch i).map exchLimits))))))

/-- TCAUSE of a numerical event (R56). -/
def nitCause (kind : Nat) (hits : List NitHit) : DWord := BitVec.ofNat 64 ((nitDetail kind hits).toNat * 256 + 5)

/-- What becomes of an instruction with numerical events whose action is TRAP, where `E` describes its gang once it has completed and
counted them (R56, R57). -/
def NitOutcome (p : Bool) (kind : Nat) (hits : List NitHit) (c : Cur) (s : State) (E : Gang → Prop) (out : Out) : Prop :=
  nitAction c.gang.nitcfg kind = 2 →
    (∀ h, c.handler = some h → c.gang.frags.all (fun e => !e.2.inHandler) = true → ∃ w, E w
      ∧ GangDone p c s (fun g => g = trapped w c h (nitCause kind hits)) out)
    ∧ (c.handler.isSome = true → c.frag.inHandler = false → (∃ e ∈ c.gang.frags, e.2.inHandler = true) → ∃ w, E w
      ∧ GangDone p c s (fun g => g = withFrag w c.r.frag (fun f => { f with hold := .trapEntry (nitCause kind hits) })) out)
    ∧ (c.handler = none ∨ c.frag.inHandler = true → GangDone p c s E out)

/-- Words that are no instruction: a field that must be zero (R109), codes that are not listed (R121, R125), a prefix of a layout the row
does not take, and a required prefix that is missing (R120). -/
def badFrames : List (Frame × Illop) := [
  (.word 0b00000000000000000000001110001001, .reserved),
  (.word 0b10001000000000000000000101000001, .reserved),
  (.word 0b00000001000001000000110011110001, .reserved),
  (.pair 0b10000000000000000000000111111101 0b00001010000100000001101001111001, .reserved),
  (.word 0b11000010000010010001011100011101, .operand),
  (.word 0b01100001000001000000110011110001, .operand)]

/-! Encodings, the step and the start. -/

/-- What the decoder answers for the words of the specification's encodings (R108-R130), each word written out bit by bit. -/
def specWords : List (Frame × Instr) := [
  (.word 0b00001010000100000001101001000001, .iadd ⟨5#7, 4#7, 3#7, false, true, false, .none⟩),
  (.pair 0b00101101101101000001001111111101 0b00001110000110000010110000000011, .fadd ⟨7#7, 6#7, 5#7, true, false, true, .xo ⟨2#3, true, 5#3, true, 1#2, true, 1#2, false, false, 9#7⟩⟩),
  (.word 0b00000100000001001111000000011101, .fcmp 3#4 6#3 ⟨2#7, 1#7, false, false, false, .none⟩),
  (.pair 0b00000000000000010001100111111101 0b00000100000001000000000001010001, .imad ⟨2#7, 1#7, 0#7, false, false, false, .xo ⟨0#3, false, 0#3, false, 0#2, false, 0#2, false, true, 12#7⟩⟩),
  (.word 0b00001110001000000101000000110001, .frnd 1#2 3#2 ⟨8#7, 10#7, false, false, .none⟩),
  (.word 0b10001010001000000101000000111001, .fcvt 4#3 2#3 true ⟨8#7, 10#7, false, false, .none⟩),
  (.word 0b01000100001000000101001000111101, .clz 2#3 ⟨8#7, 10#7, true, false, .none⟩),
  (.pair 0b10000000010101001011011111111101 0b11111111100010010001011010100001, .iaddI ⟨511#9, 9#7, 11#7, false, .xi ⟨0#3, false, 0#3, false, 0x2A5B#14⟩⟩),
  (.word 0b00000010100010010100010010011101, .icmpI 4#4 2#3 ⟨5#9, 9#7, false, .none⟩),
  (.half 0b1110110000100100, .isub16 29#5 33#6),
  (.pair 0b01011111010011111111110111111101 0b01100011100010000010100011000001, .ldG ⟨3#3, 7#6, 8#7, 20#7, false, some ⟨1#2, 3#3, 3#2, true, 2#3, false, true, 0x3FE#10⟩⟩),
  (.word 0b10000000111111000011000011011111, .stS ⟨4#3, 1#6, 124#7, 24#7, true, none⟩),
  (.pair 0b11100000000001101011111111111101 0b01100001000001000000110011110001, .xsadd .g ⟨3#3, 2#6, 4#7, 6#7, false, 3#2, 4#3, 0#2, false, 0#3, false, false, false, 31#5⟩),
  (.pair 0b00000000000000001100011111111101 0b01000001000001000000110011110101, .atomMin .s ⟨2#3, 2#6, 4#7, 6#7, false, 0#2, 0#3, 0#2, false, 0#3, false, false, true, 3#5⟩),
  (.word 0b00000001100001010001001100001101, .cmo 2#2 1#2 ⟨3#6, 5#7, false, none⟩),
  (.word 0b10011000000000000000000100010001, .fence 2#2 3#3 false),
  (.word 0b00100100001110001000000100010101, .qswap true 2#2 ⟨14#7, 16#7, false, false, .none⟩),
  (.pair 0b10000000000000000010101111111101 0b11000010000010010001011100011101, .slideFill true 4#5 21#6 ⟨9#7, 11#7, false, .xi ⟨0#3, false, 0#3, false, 21#14⟩⟩),
  (.word 0b00010000000000101101000100101001, .voteBal 5#3 40#6 false),
  (.word 0b00100010000110010000110100101101, .readlnImm 17#5 6#7 33#6 false false .none),
  (.word 0b01101001001001000000111101000001, .scmp .lt 9#6 8#6 7#6 false),
  (.word 0b10111110111011111001100101000101, .sliSh 0xBEEF#16 12#6 false),
  (.word 0b11010000011000100000101101001001, .sld 6#3 2#2 3#6 4#6 5#6 false),
  (.word 0b00011000110000101000111101011001, .plop .andn 6#3 5#3 7#3 false),
  (.word 0b10001000000011000001000101100001, .flog2 1#2 ⟨3#7, 2#7, false, false, .none⟩),
  (.word 0b11111111111111111011110101101101, .brv 0x7FFFD#19 true 6#3 false),
  (.word 0b00001000000111110000000101110101, .callReg 62#6 false),
  (.word 0b00001000000001011000100110001101, .wait true 0#6 11#6 4#3 false),
  (.word 0b10010000011000010000001110011001, .copy 2#2 1#2 3#6 2#6 1#6 false),
  (.word 0b10000000010000001000111110101111, .mma 4#3 2#6 1#6 7#3 true),
  (.word 0b00000000000000000001000110110101, .mwait true 0#3 false),
  (.word 0b01001000110000101000000111100101, .cmoRange 2#2 1#2 6#6 5#6 false),
  (.word 0b11110000000001001000000111001101, .trace 30#5 9#6 false)]

/-- The halfword `k` of the fetch at a fragment's pc: it can be executed, a link or a cache serves it, it can be read, and it is not
poisoned. -/
structure HalfAt (c : Cur) (k v : Nat) (s : State) : Prop where
  spot : ∃ a, resolveVa c.ctx (c.frag.pc.toNat + 2 * k) .ex k s = .at (.phys a) ∧ badLine a 2 s = none
    ∧ fetchWaits (.phys a) s = false ∧ poisonedAt (.phys a) 2 s = false ∧ v = (sget a s.mem).toNat + 256 * (sget (a + 1) s.mem).toNat

/-- The halfwords that the fetch at a fragment's pc calls for: one, two, three before a 16-bit form, or four (R106, R112). -/
structure FetchAt (c : Cur) (h0 h1 h2 h3 : Nat) (s : State) : Prop where
  first : HalfAt c 0 h0 s
  second : h0 % 2 = 1 → HalfAt c 1 h1 s
  third : h0 % 2 = 1 → majorOf h0 = 0x7F → HalfAt c 2 h2 s
  fourth : h0 % 2 = 1 → majorOf h0 = 0x7F → h2 % 2 = 1 → HalfAt c 3 h3 s

/-- The state in which the turn that falls comes: it waits no more, and the clocks have gone on. -/
def atTurn (s : State) : State := tick (s.given (nextTurn s))

/-- A fragment is picked to issue: no input waits, and the turn falls on it (R219). -/
structure Picked (r : FragRef) (c : Cur) (s : State) : Prop where
  quiet : s.agenda = []
  turn : nextTurn s = some (.frag r)
  here : curOf r (atTurn s) = some c
  runs : mustStop c (atTurn s) = false

/-- No line that is held carries a flipped bit. -/
def noFlips (s : State) : Bool := s.l2.all (fun e => e.2.flips == 0) && s.mirror.all (fun e => e.2.flips == 0) && s.hbmFlips.isEmpty

/-- What issue leaves in a fragment: the pc past the instruction, and SIG with the instruction taken in (R33, R267). -/
def issuedFrag (i : Instr) (f : Frag) : Frag :=
  { f with pc := (f.pc + BitVec.ofNat 64 i.len) &&& 0x01FFFFFFFFFFFFFE#64, bpSkip := false, waitSkip := false,
           sig := if f.inHandler || sigExempt i then f.sig else f.sig.rotateLeft 5 ^^^ i.hash }

/-! Loads and stores. -/

/-- The rows of LD, with their space (R342). -/
def loadRow : Instr → Option (Space × MF)
  | .ldG o => some (.g, o)
  | .ldS o => some (.s, o)
  | .ldC o => some (.c, o)
  | .ldP o => some (.p, o)
  | .ldH o => some (.h, o)
  | .ldF o => some (.f, o)
  | _ => none

/-- The rows of ST, with their space (R379). -/
def storeRow : Instr → Option (Space × MF)
  | .stG o => some (.g, o)
  | .stS o => some (.s, o)
  | .stC o => some (.c, o)
  | .stP o => some (.p, o)
  | .stH o => some (.h, o)
  | .stF o => some (.f, o)
  | _ => none

/-- A line can be read: it holds no error that nothing mends, or L1 serves it. -/
def lineReads (c : Cur) (sp : Space) (ln : Nat) (s : State) : Prop :=
  fatalLevel ln s = 0 ∨ ∃ x, l1Space sp c.ctx = some x ∧ l1Hit c.grp.core x ln s = true

/-- The lanes of a load with the elements they read. -/
def loadElems (o : MF) (sp : Space) (c : Cur) (s : State) : List (Nat × List Elem) :=
  goodLooks ((mfAccess o sp .rd).looks (loadPlanes c) true c s)

/-- A load can issue: its operands are within their limits and clean, each lane's address is aligned and can be reached, its lines can be
read, nothing it must wait for stands before it, and its counter is below 63 (R132, R159, R342, R343). -/
structure LoadReady (i : Instr) (sp : Space) (o : MF) (c : Cur) (s : State) : Prop extends Issues i c s where
  off : (mfAccess o sp .rd).offOk c.regs = true
  data : o.data.toNat < 120 ∧ groupOk c.regs o.data.toNat (regsOf o.w) = true
  clean : (mfAccess o sp .rd).poisoned c = false
  aligned : ∀ l ∈ (mfAccess o sp .rd).threads c, (mfAccess o sp .rd).ea c l % (mfAccess o sp .rd).size = 0
  found : ∀ e ∈ (mfAccess o sp .rd).looks (loadPlanes c) true c s, ∃ es, e.2 = .ok es
  lines : ∀ ln ∈ linesOf (loadPlaces (loadElems o sp c s)), lineReads c sp ln s
  ordered : c.gang.behindLog (loadPlaces (loadElems o sp c s)) = false ∧ (ordOf o.x = 1 → c.gang.logWaits = false
    ∧ ∀ p ∈ loadPlaces (loadElems o sp c s), canRead c.ctx c.grp.core (l1Space sp c.ctx) p s = true)
  room : c.gang.counter (pathFor sp) < 63

/-- The same of an SLD: scratch and global space are looked up, the pool is the launch's own (R373). -/
structure SldReady (sz : BitVec 3) (sp : BitVec 2) (imm sa sd : BitVec 6) (p : Bool) (c : Cur) (s : State) : Prop
    extends Issues (.sld sz sp imm sa sd p) c s where
  clean : c.spoisoned sa = false
  aligned : scalarEa sz imm sa c % scalarSize sz = 0
  found : if sp = 1#2 then scalarEa sz imm sa c + scalarSize sz ≤ c.lau.poolSize else ∃ es, scalarLook .rd sz sp imm sa c s = .ok es
  lines : ∀ ln ∈ linesOf (sldPlaces sz sp imm sa c s), lineReads c (scalarSpace sp) ln s
  ordered : c.gang.behindLog (sldPlaces sz sp imm sa c s) = false
  room : c.gang.counter .k < 63

/-- The byte a gang's own buffered stores hold of a place: that of its newest store there (R150, R170). -/
def ownByte (sbuf : List SbEntry) (p : Place) : Option Byte :=
  sbuf.reverse.findSome? (fun e =>
    match e.line, p with
    | .phys _, .phys _ => aget p.key e.cells
    | .scr k _, .scr k' _ => if k = k' then aget p.key e.cells else none
    | _, _ => none)

/-- A byte that a load may see at a place (R150, R170): its gang's own buffered store, else the scratch byte, or the home's byte, or the
byte of a line that its core's L1 holds for the context. -/
def SeenByte (c : Cur) (ctx : Option (BitVec 6)) (p : Place) (s : State) (b : Byte) : Prop :=
  match ownByte c.gang.sbuf p with
  | some x => b = x
  | none =>
    match p with
    | .scr k o => ∀ g, aget k s.groups = some g → b = sget o g.scratch
    | .phys a => b = sget a s.mem
        ∨ ∃ e, aget (a / 128) (coreOf c.grp.core s).l1 = some e ∧ ctx = some e.ctx ∧ b = e.data.getD (a % 128) 0#8

/-! Layout windows (R58-R60). -/

/-- An address lies in plane 0 of a QUAD or MEAN window. -/
def InWindow (w : Window) (a : Nat) : Prop := (w.layout = 1 ∨ w.layout = 2) ∧ w.base ≤ a ∧ a < w.base + w.size

/-- One element of an access of `size` bytes at `x` in a space, looked up in some windows (R59): outside them it is PLAIN; in a window, it
has the window's element size, which the access must fit, and lies with its other planes and its digit byte where the window puts them. -/
structure LookedUp (ctx : BitVec 6) (ns : NSpace) (n : Need) (slot : Nat) (pl : Planes) (ws : List Window) (x size : Nat) (s : State)
    (e : Elem) : Prop where
  within : e.off < size ∧ 0 < e.len
  planes : ∀ q ∈ e.planes, resolve ctx ns q.2 n slot s = .at q.1
  digit : ∀ q, e.digit = some q → resolve ctx ns q.2 n slot s = .at q.1
  plain : e.win = none → (∀ k, k < e.len → ∀ w ∈ ws, ¬InWindow w (x + e.off + k)) ∧ e.planes.map Prod.snd = [x + e.off] ∧ e.digit = none
  window : ∀ w, e.win = some w → w ∈ ws ∧ InWindow w (x + e.off) ∧ e.len = 2 ^ w.esize ∧ size ∈ [e.len, 2 * e.len, 4 * e.len]
    ∧ x % e.len = 0
    ∧ e.planes.map Prod.snd = (if w.layout = 1 ∧ pl = .all then [0, 1, 2, 3] else [0]).map (fun p => w.base + p * w.stride + (x + e.off - w.base))
    ∧ e.digit.map Prod.snd = if w.layout = 2 ∧ pl = .all then some (w.base + w.stride + (x + e.off - w.base) / e.len) else none

/-- The elements that a look-up of an access gives: each as its window has it, one after another, and every byte of the access in one. -/
structure ElementsOf (c : Cur) (sp : Space) (n : Need) (size : Nat) (pl : Planes) (ea lane : Nat) (s : State) (es : List Elem) : Prop where
  each : ∃ ns x, normalise c sp ea lane n s = .ok (ns, x) ∧ ∀ e ∈ es,
    LookedUp c.ctx ns n (64 * lane) pl (if pl = .raw then [] else windowsOf c sp ns s) x size s e
  apart : es.Pairwise (fun a b => a.off + a.len ≤ b.off)
  covered : ∀ k, k < size → ∃ e ∈ es, e.off ≤ k ∧ k < e.off + e.len

/-- The value that lane `k` of a quad reads of an element (R60), `read` giving the bytes at a place as a number, and whether it is poisoned. -/
def ElemRead (e : Elem) (read : Reading) (triple : Bool) (k : Nat) (r : Nat × Bool) : Prop :=
  ∀ p ps, e.planes = p :: ps →
    (e.win = none ∨ triple = false ∨ k = 3 → r = read p.1 e.len)
    ∧ (∀ w q, e.win = some w → triple = true → k < 3 → w.layout = 1 → ps[k]? = some q → r = read q.1 e.len)
    ∧ ∀ w d f, e.win = some w → triple = true → k < 3 → w.layout = 2 → e.digit = some d → winFmt w = some f →
        IsMeanRead f (read p.1 e.len).1 (read d.1 1).1 k r.1 ∧ r.2 = ((read p.1 e.len).2 || (read d.1 1).2)

/-- A lane writes the low bytes of a number at a place, little-endian (R9). -/
def Puts (items : List WItem) (lane : Nat) (p : Place) (n v : Nat) : Prop :=
  ∃ w ∈ items, w.lane = lane ∧ w.dest = p ∧ w.bytes = (List.range n).map (byteOf v)

/-- What a store writes of an element (R60), `data k` the value that lane `k` of the quad stores, and `data 3` the lane's own in SINGLE. -/
def ElemStored (items : List WItem) (e : Elem) (triple : Bool) (lane : Nat) (data : Nat → Nat) : Prop :=
  let v := fun k => data k / 2 ^ (8 * e.off) % 2 ^ (8 * e.len)
  ∀ p ps, e.planes = p :: ps →
    (e.win = none → Puts items lane p.1 e.len (v 3))
    ∧ (∀ w, e.win = some w → w.layout = 1 → Puts items lane p.1 e.len (v 3)
        ∧ ∀ k q, ps[k]? = some q → Puts items lane q.1 e.len (v (if triple then k else 3)))
    ∧ ∀ w d f, e.win = some w → w.layout = 2 → e.digit = some d → winFmt w = some f → ∃ m g,
        Puts items lane p.1 e.len m ∧ Puts items lane d.1 1 g
        ∧ (triple = true → IsMean f (v 0) (v 1) (v 2) m ∧ IsDigits f (v 0) (v 1) (v 2) g)
        ∧ (triple = false → m = v 3 ∧ g = f.p)

/-- The places of an element. -/
def IsPlaceOf (e : Elem) (p : Place) : Prop := p ∈ e.planes.map Prod.fst ∨ ∃ d, e.digit = some d ∧ p = d.1

/-- What a store's lanes write. -/
def storeItems (o : MF) (sp : Space) (c : Cur) (s : State) : List WItem := stItems (mfAccess o sp .wr) o c s

/-- A store can issue: as a load, with the data clean too; its lines have room in the store buffer, and a release that no lane takes part
in has nothing before it that is not yet acknowledged (R132, R151, R159, R379, R380). -/
structure StoreReady (i : Instr) (sp : Space) (o : MF) (c : Cur) (s : State) : Prop extends Issues i c s where
  off : (mfAccess o sp .wr).offOk c.regs = true
  data : stDataOk o c.regs = true
  clean : (mfAccess o sp .wr).poisoned c = false ∧ stPoisoned (mfAccess o sp .wr) o c s = false
  aligned : ∀ l ∈ (mfAccess o sp .wr).threads c, (mfAccess o sp .wr).ea c l % (mfAccess o sp .wr).size = 0
  found : ∀ e ∈ (mfAccess o sp .wr).looks .all false c s, ∃ es, e.2 = .ok es
  ordered : c.gang.behindLog (itemPlaces (storeItems o sp c s)) = false
  buffer : c.room (storeItems o sp c s) = true
  release : ordOf o.x = 2 → storeItems o sp c s = [] → c.gang.counter .w = 0 ∧ c.gang.logWaits = false
  count : c.gang.counter .w < 63

/-- The same of an SST (R373). -/
structure SstReady (sz : BitVec 3) (sp : BitVec 2) (imm sa sd : BitVec 6) (p : Bool) (c : Cur) (s : State) : Prop
    extends Issues (.sst sz sp imm sa sd p) c s where
  clean : c.spoisoned sa = false ∧ c.spoisoned sd = false
  aligned : scalarEa sz imm sa c % scalarSize sz = 0
  found : ∃ es, scalarLook .wr sz sp imm sa c s = .ok es
  ordered : c.gang.behindLog (itemPlaces (sstItems sz sp imm sa sd c s)) = false
  buffer : c.room (sstItems sz sp imm sa sd c s) = true
  count : c.gang.counter .w < 63

/-- Places without repeats, in the order in which they first come. -/
def firstSeen (l : List Place) : List Place := l.foldl (fun r p => if r.contains p then r else r ++ [p]) []

/-- The byte that some items leave at a place of a line: that of the last of them to write it. -/
def lastWrite (items : List WItem) (ln : Place) (k : Nat) : Option Byte :=
  (items.filter (fun w => w.dest.line == ln)).foldl (fun r w => match aget k w.cells with | some b => some b | none => r) none

/-- The entries a store adds to its gang's buffer: one for each line, in the order of the lowest lane that writes it, each with the bytes
the lanes write there, a later logical thread's over an earlier one's (R151, R169). -/
structure Buffered (c : Cur) (items : List WItem) (id : Nat) (sp : Space) (rel : Option (BitVec 3)) (new : List SbEntry) : Prop where
  same : ∀ e ∈ new, e.op = id ∧ e.space = sp ∧ e.rel = rel ∧ e.frag = c.r.frag ∧ e.pc = c.frag.pc ∧ e.mask = c.frag.mask
  lines : new.map (fun e => e.line) = firstSeen (items.map (fun w => w.dest.line))
  cells : ∀ e ∈ new, ∀ k, aget k e.cells = lastWrite (c.byThread items) e.line k

/-- A gang after a store has issued: it counts on path W, complete at once where it writes nothing, and its bytes wait in the buffer. -/
def stored (i : Instr) (c : Cur) (id : Nat) (done : Bool) (new : List SbEntry) : Gang :=
  { c.gang.issue i c with
    ops := retire (c.gang.ops ++ [{ PendOp.blank id .w c.r.frag with done := done }]) [], sbuf := c.gang.sbuf ++ new }

/-! Completions. -/

/-- The cell that the last of some cells leaves at an address. -/
def lastCell (x : Nat) (cells : List Host.Cell) : Option Byte := ((cells.filter (fun c => c.1 == x)).getLast?).map (fun c => c.2)

/-- The word that the last of some register words gives a register in a lane. -/
def lastWord (r l : Nat) (ws : List RegWrite) : Option RegWrite := (ws.filter (fun w => w.reg == r && w.lane == l)).getLast?

/-- The operations of a gang once one of them is done: those leave that no older one of their path precedes (R159). -/
def opsDone (op : Nat) (ops : List PendOp) : List PendOp := retire (ops.map (fun o => if o.id = op then { o with done := true } else o)) []

/-- An operation of a gang is the one of its number, and what completes it can happen: it is not done, a live port leads to every peer it
names and a host link is up where it needs one (R286, R293), its fragment is not held for a peer's refusal of it (R147), and a load has
read all its bytes. -/
structure Completes (r : GangRef) (op : Nat) (gg : Gang) (o : PendOp) (s : State) : Prop where
  here : gangOf r s = some gg
  named : gg.ops.find? (fun x => x.id == op) = some o
  path : o.path ≠ .w
  waits : o.done = false ∧ o.log = none
  ports : ∀ m ∈ o.ports, m &&& s.ports ≠ 0#16
  link : o.hostLink = true → s.links ≠ 0#2
  words : ∀ w ∈ o.writes, w.reg < 120 ∧ w.lane < 32
  asked : gg.refuses op = false
  read : ∀ x ∈ gg.reads, x.op = op → x.unread = false

/-- A gang whose operation has delivered its result: in every lane of every register the last word it writes there, unkilled, in its
scalar its value; an operand-cache slot takes nothing in the lanes of a fragment that has parked the gang; the rest stands, but for what
notes scalars written inside splits, loads that may read again, releases that were read, and registers that are dead at a restart. -/
structure Delivered (o : PendOp) (gg g : Gang) : Prop where
  rest : g = { gg with
    vregs := g.vregs, killed := g.killed, vpois := g.vpois, oc := g.oc, sregs := g.sregs, spois := g.spois, ops := g.ops,
    book := { gg.book with swrote := g.book.swrote }, reads := g.reads, hist := { gg.hist with seen := g.hist.seen }, dead := g.dead }
  ops : g.ops = opsDone o.id gg.ops
  reg : ∀ k l, k < 112 → l < 32 → g.v k l = match lastWord k l o.writes with | some w => w.val | none => gg.v k l
  pois : ∀ k l, k < 112 → l < 32 → g.vpoisoned k l = match lastWord k l o.writes with | some w => w.pois | none => gg.vpoisoned k l
  slot : ∀ k l, k < 8 → l < 32 → g.ocv k l = match lastWord (112 + k) l o.writes with
    | some w => if gg.parked && gg.parkMask.getLsbD l then gg.ocv k l else w.val
    | none => gg.ocv k l
  slotPois : ∀ k l, k < 8 → l < 32 → g.ocPois k l = match lastWord (112 + k) l o.writes with
    | some w => if gg.parked && gg.parkMask.getLsbD l then gg.ocPois k l else w.pois
    | none => gg.ocPois k l
  scalar : ∀ n, g.s n = if o.sdst = some n then o.sval else gg.s n
  spois : ∀ n, g.spoisoned n = if o.sdst = some n then o.spois else gg.spoisoned n

/-- The oldest entry of a gang's store buffer can be performed: a port or link leads to it, no peer's refusal of it holds its fragment, a
release has no waiting atomic and no load without its bytes before it, its line holds no error that nothing mends, and it writes in no watched range. -/
structure Performs (r : GangRef) (grp : Group) (gg : Gang) (l : Launch) (e : SbEntry) (rest : List SbEntry) (s : State) : Prop where
  inGroup : aget r.grp s.groups = some grp
  inGang : aget r.gang grp.gangs = some gg
  ofLaunch : aget grp.launch s.launches = some l
  oldest : gg.sbuf = e :: rest
  ports : ∀ m, e.ports = some m → m &&& s.ports ≠ 0#16
  link : e.hostLink = true → s.links ≠ 0#2
  asked : gg.refuses e.op = false
  release : e.rel ≠ none → e.rel ≠ some 0#3 → (∀ o ∈ gg.ops, o.log = none ∨ e.op < o.id) ∧ ∀ x ∈ gg.reads, x.unread = false ∨ e.op < x.op
  line : ∀ a, e.line = .phys a → a < peerBase → fatalLevel (a / 128) s = 0
  plain : e.spots = []

/-! Atomics. -/

/-- The rows of ATOM, ACAS and XSADD: operation, space, operands (R125). -/
def atomRow : Instr → Option (Nat × Space × AMO)
  | .atomAdd sp o => some (0, sp, o)
  | .atomMin sp o => some (1, sp, o)
  | .atomMinu sp o => some (2, sp, o)
  | .atomMax sp o => some (3, sp, o)
  | .atomMaxu sp o => some (4, sp, o)
  | .atomMaxe sp o => some (5, sp, o)
  | .atomAnd sp o => some (6, sp, o)
  | .atomOr sp o => some (7, sp, o)
  | .atomXor sp o => some (8, sp, o)
  | .atomXchg sp o => some (9, sp, o)
  | .atomFadd sp o => some (10, sp, o)
  | .atomFmax sp o => some (11, sp, o)
  | .acas sp o => some (12, sp, o)
  | .xsadd sp o => some (13, sp, o)
  | _ => none

/-- An atomic lane is recorded for replay: LOG in global or host space, at a physical address, under RECORD (R223). -/
def recorded (sp : Space) (o : AMO) (c : Cur) (l : AmoLane) : Bool :=
  o.log && (sp == .g || sp == .h) && (match l.dest with | .phys _ => true | .scr .. => false) && c.lau.r.order == 3

/-- The operation an atomic is: its gang's next, with what it publishes where it is a release (R175). -/
def atomTag (o : AMO) (c : Cur) (s : State) : Tag :=
  { by' := .gang c.r.grp c.r.gang, op := s.serial,
    marks := c.gang.marks (gangRefOf c.r) (if o.ord.getLsbD 1 then some o.scope.toNat else none) (s.serial + 1) }

/-- The lanes of an atomic, one after another, each at its place: the state after them, and what each gives back. -/
def atomRun (aop : Nat) (sp : Space) (o : AMO) (c : Cur) (tag : Tag) : List AmoLane → State → State × List (Nat × AmoRes)
  | [], s => (s, [])
  | l :: ls, s =>
    let r := amoAt { c.writer s with lane := l.lane } tag aop (amoSize o) (if vaSpace sp then some l.va else none) l.dest
      (c.regNum o.data.toNat (amoRegs o) l.lane) (if aop = 12 then c.regNum (o.data.toNat + amoRegs o) (amoRegs o) l.lane else 0) s
    let s1 := if recorded sp o c l then
        logGrant c.grp.launch { lane := l.lane, t := c.bigT l.lane, icount := (c.gang.quad (l.lane / 4)).icount.toNat, va := l.va,
                                place := l.dest } r.1
      else r.1
    let t := atomRun aop sp o c tag ls s1
    (t.1, (l.lane, r.2) :: t.2)

/-- The state in which the lanes of an atomic act: it has issued, and its reads of the banks are counted. -/
def atomStart (i : Instr) (aop : Nat) (sp : Space) (o : AMO) (c : Cur) (s : State) : State :=
  banked c ((amoAccess o sp).banks o.data.toNat (amoGroup aop o)) (begun i c s)

/-- The first lanes of an atomic have acted. -/
def atomAfter (i : Instr) (aop : Nat) (sp : Space) (o : AMO) (c : Cur) (n : Nat) (s : State) : State :=
  (atomRun aop sp o c (atomTag o c (atomStart i aop sp o c s))
    ((amoLanes (amoAccess o sp) c (atomStart i aop sp o c s)).take n) (atomStart i aop sp o c s)).1

/-- An atomic can issue: as a load, with its operand registers clean; its own buffered stores to the same bytes and every release are
acknowledged, and for a release of its own every store it orders is, or, with no lane, every W operation (R132, R170, R176-R179, R303). -/
structure AtomMay (i : Instr) (aop : Nat) (sp : Space) (o : AMO) (c : Cur) (s : State) : Prop extends Issues i c s where
  off : (amoAccess o sp).offOk c.regs = true
  data : o.data.toNat < 112 ∧ groupOk c.regs o.data.toNat (amoGroup aop o) = true
  clean : (amoAccess o sp).poisoned c = false
  operands : ∀ l ∈ (amoAccess o sp).threads c, ∀ k, k < amoGroup aop o → c.vpoisoned (o.data.toNat + k) l = false
  aligned : ∀ l ∈ (amoAccess o sp).threads c, (amoAccess o sp).ea c l % amoSize o = 0
  found : ∀ e ∈ (amoAccess o sp).looks .raw false c s, ∃ es, e.2 = .ok es
  lines : ∀ ln ∈ linesOf (amoPlaces (amoAccess o sp) (amoLanes (amoAccess o sp) c s)), fatalLevel ln s = 0
  own : ∀ l ∈ amoLanes (amoAccess o sp) c s, overlapsOwn c.gang.sbuf l.dest (amoSize o) = false
  releases : ∀ e ∈ c.gang.sbuf, e.rel = none
  release : o.ord.getLsbD 1 = true → (∀ e ∈ c.gang.sbuf, e.acts c.r.grp o.scope.toNat = false)
    ∧ (amoLanes (amoAccess o sp) c s = [] → c.gang.counter .w = 0)
  logged : o.ord ≠ 0#2 → o.scope ≠ 0#3 → c.gang.logWaits = false
  ordered : c.gang.behindLog (amoPlaces (amoAccess o sp) (amoLanes (amoAccess o sp) c s)) = false
  room : c.gang.counter (pathFor sp) < 63

/-- The same, and each lane acts at once: its place is on this device or in host memory, and can be reached when the lane comes to it
(R286). -/
structure AtomReady (i : Instr) (aop : Nat) (sp : Space) (o : AMO) (c : Cur) (s : State) : Prop extends AtomMay i aop sp o c s where
  here : ∀ l ∈ amoLanes (amoAccess o sp) c (atomStart i aop sp o c s), l.dest.atPeer = none
  reached : ∀ n l, (amoLanes (amoAccess o sp) c (atomStart i aop sp o c s))[n]? = some l →
    placeReached c.ctx l.dest (atomAfter i aop sp o c n s) = true

/-- The operands of an atomic's lane: of its first group of registers, and of an ACAS's second. -/
def atomOperands (aop : Nat) (o : AMO) (c : Cur) (l : AmoLane) : Nat × Nat :=
  (c.regNum o.data.toNat (amoRegs o) l.lane, if aop = 12 then c.regNum (o.data.toNat + amoRegs o) (amoRegs o) l.lane else 0)

/-- The new value that an atomic gives its place, of `8 * size` bits, from the old one and its operands, if it writes one, and whether a
clamp changed an XS sum (R80, R82, R302, R385). -/
def AtomicValue (aop size old x y : Nat) (r : Option Nat × Bool) : Prop :=
  let w := 8 * size
  let f : Fmt := if size = 8 then .f64 else .f32
  match aop with
  | 0 => r = (some ((old + x) % 2 ^ w), false)
  | 1 => ∃ v, r = (some v, false) ∧ (v = old ∨ v = x) ∧ sint v w = min (sint old w) (sint x w)
  | 2 => r = (some (min old x), false)
  | 3 => ∃ v, r = (some v, false) ∧ (v = old ∨ v = x) ∧ sint v w = max (sint old w) (sint x w)
  | 4 => r = (some (max old x), false)
  | 5 => ∃ v, r = (some v, false) ∧ v < 2 ^ 16 ∧ sint v 16 = max (sint old 16) (sint x 16)
  | 6 => ∃ v, r = (some v, false) ∧ ∀ k, v.testBit k = (old.testBit k && x.testBit k)
  | 7 => ∃ v, r = (some v, false) ∧ ∀ k, v.testBit k = (old.testBit k || x.testBit k)
  | 8 => ∃ v, r = (some v, false) ∧ ∀ k, v.testBit k = (old.testBit k != x.testBit k)
  | 9 => r = (some x, false)
  | 10 => r = (some (f.round .rn (fvAdd .rn (f.dec old) (f.dec x))), false)
  | 11 => r = (some (f.minMax true old x), false)
  | 12 => r = (if old = x then some y else none, false)
  | 13 =>
    let t := sint old 64 + sint x 64
    r = (some (wrapTo 64 (max (-(2 ^ 63 - 1)) (min (2 ^ 63 - 1) t))), decide (t < -(2 ^ 63 - 1) ∨ 2 ^ 63 - 1 < t))
  | _ => True

/-- The byte at an address once an atomic has acted on `size` bytes from another, where it writes `new`. -/
def atomByte (new : Option Nat) (size a k : Nat) (old : Byte) : Byte :=
  match new with
  | some v => if a ≤ k ∧ k < a + size then byteOf v (k - a) else old
  | none => old

/-- The register words an atomic will write: zero in helper lanes, the old value in every lane that a lane serves. -/
def atomWords (sp : Space) (o : AMO) (c : Cur) (rs : List (Nat × AmoRes)) : List RegWrite :=
  ((c.memLanes (c.act (amoAccess o sp).g)).filter (fun l => c.helper l)).flatMap (fun l =>
      amoWords o (c.act (amoAccess o sp).g) c l { old := 0, pois := false, sat := false })
    ++ rs.flatMap (fun r => amoWords o (c.act (amoAccess o sp).g) c r.1 r.2)

/-! Cache rows, barriers, copies. -/

/-- The physical ranges that a CMO of lanes names, helper lanes among them: the lines of their addresses that are mapped (R18, R313). -/
def cmoRanges (o : AddrF) (c : Cur) (s : State) : List (Nat × Nat) :=
  (c.memLanes (c.act (addrAccess o .rd).g)).filterMap (fun l => cmoRangeOf c ((addrAccess o .rd).ea c l) l s)

/-- A gang after a CMO has issued: it counts on path W with the ranges it names. -/
def cmoIssued (i : Instr) (c : Cur) (id : Nat) (level op : BitVec 2) (rs : List (Nat × Nat)) : Gang :=
  { c.gang.issue i c with ops := c.gang.ops ++ [{ PendOp.blank id .w c.r.frag with
      isCmo := true, cmoLevel := level.toNat, cmoOp := op.toNat, ranges := rs }] }

/-- A core's L1 holds no line of a context. -/
def noL1Of (core : Nat) (ctx : BitVec 6) (t : State) : Prop := ∀ k x, aget k (coreOf core t).l1 = some x → x.ctx ≠ ctx

/-- BAR or CBAR. -/
def barInstr (cbar : Bool) (id : BitVec 4) (sd : BitVec 6) (p : Bool) : Instr := if cbar then .cbar id sd p else .bar id sd p

/-- The groups whose gangs a barrier waits for: its own, or its cluster's (R307). -/
def barGroups (cbar : Bool) (c : Cur) (s : State) : List Nat := if cbar then clusterOf c.r.grp s else [c.r.grp]

/-- The gangs of a group that have arrived, this one included. -/
def arrivedWith (c : Cur) (id : BitVec 4) (k : Nat) (g : Group) : Mask :=
  (g.bar id.toNat).arrived ||| (if k = c.r.grp then laneBit c.r.gang else 0#32)

/-- BAR and CBAR can issue: the id is declared, the gang is one fragment, no barrier of the other kind is open there, and its stores that
act at the barrier's scope are performed (R176, R307). -/
structure BarReady (cbar : Bool) (id : BitVec 4) (sd : BitVec 6) (p : Bool) (c : Cur) (s : State) : Prop
    extends Issues (barInstr cbar id sd p) c s where
  declared : id.toNat < c.lau.r.barriers
  single : c.gang.frags.length ≤ 1
  kind : otherKind cbar id.toNat c s = false
  stores : (∀ e ∈ c.gang.sbuf, e.acts c.r.grp (if cbar then 2 else 1) = false) ∧ c.gang.logWaits = false
  gang : c.r.gang < 32
  canon : (akeys s.groups).Pairwise (· < ·)
  ids : ∀ k ∈ barGroups cbar c s, ∀ g, aget k s.groups = some g → g.barriers.length = 16

/-- A fragment of a gang waits at a barrier id. -/
def waitsAt (id : BitVec 4) (gg : Gang) : Bool :=
  gg.frags.any (fun e => match e.2.hold with | .bar b _ _ => b == id.toNat | _ => false)

/-- A gang that stood as `gg` has left a barrier where its fragment `m`, which is `f`, waited (R181, R307): the scalar it named holds the
status, the fragment runs, and no other register, fragment or operation of it changes; it has heard of what came before, and its loads
are performed. -/
structure BarReleased (m : Nat) (f : Frag) (sd : BitVec 6) (st : DWord) (gg g : Gang) : Prop where
  rest : g = { gg with
    sregs := g.sregs, spois := g.spois, frags := g.frags, reads := []
    hist := { gg.hist with heard := g.hist.heard }
    book := { gg.book with swrote := g.book.swrote }
    lantern := g.lantern, yielded := g.yielded }
  val : ∀ n, g.s n = if n = sd then st else gg.s n
  pois : ∀ n, g.spoisoned n = if n = sd then false else gg.spoisoned n
  frags : ∀ j, aget j g.frags = if j = m then some { f with hold := .run } else aget j gg.frags

/-- What a barrier leaves outside the gangs it releases: groups that do not take part keep their scratch, barriers and engine, and those
that do keep all but this barrier; no byte of memory, no register of a gang that does not wait at it and no other table changes. -/
structure BarApart (cbar : Bool) (id : BitVec 4) (c : Cur) (s t : State) : Prop where
  rest : t = { s with groups := t.groups, mmio := t.mmio, msix := t.msix, stalled := t.stalled, serial := t.serial, cores := t.cores }
  regs : ∀ k, countingReg (k % 65536) = false → sget k t.mmio = sget k s.mmio
  cores : cbar = false → t.cores = s.cores
  outside : ∀ k, k ∉ barGroups cbar c s → (aget k t.groups).map Group.shell = (aget k s.groups).map Group.shell
  inside : ∀ k ∈ barGroups cbar c s, ∀ g, aget k s.groups = some g → ∃ g', aget k t.groups = some g'
    ∧ g'.shell = { g.shell with barriers := g'.barriers } ∧ ∀ b, b ≠ id.toNat → g'.bar b = g.bar b
  gangs : ∀ r gg, r ≠ gangRefOf c.r → gangOf r s = some gg → (r.grp ∉ barGroups cbar c s ∨ gg.halted = true ∨ waitsAt id gg = false) →
    (gangOf r t).map Gang.quiet = some gg.quiet

/-- A COPY can issue (R32, R166, R314). -/
structure CopyReady (dir op : BitVec 2) (sb sa sk : BitVec 6) (p : Bool) (c : Cur) (s : State) : Prop
    extends Issues (.copy dir op sb sa sk p) c s where
  scalars : sk.toNat ≤ 58
  whole : c.whole = true
  clean : c.spoisoned sa = false ∧ c.spoisoned sb = false ∧ ∀ k, k < 6 → c.spoisoned (sk + BitVec.ofNat 6 k) = false
  object : c.objAt sb % 16 = 0 ∧ c.objAt sb + 16 ≤ c.grp.scrSize
  record : (c.s sk).toNat % 64 = 0 ∧ (c.s sk).toNat < c.lau.poolSize
  shape : c.lau.kinds.getD ((c.s sk).toNat / 64) 0 = 1
  queue : (coreOf c.grp.core s).copies.length < 32
  logged : c.gang.logWaits = false

/-- A BINIT can issue (R164, R309). -/
structure BinitReady (sb sa : BitVec 6) (p : Bool) (c : Cur) (s : State) : Prop extends Issues (.binit sb sa p) c s where
  clean : c.spoisoned sa = false ∧ c.spoisoned sb = false
  object : c.objAt sa % 16 = 0 ∧ c.objAt sa + 16 ≤ c.grp.scrSize
  buffer : c.room [binitItem sa sb c s] = true
  ordered : c.gang.behindLog [(.scr c.r.grp (c.objAt sa), 12)] = false
  count : c.gang.counter .w < 63

/-- The address of a visit's element in the tensor of a copy. -/
def nearAt (cp : CopyOp) (n : Nat) : Nat := cp.shape.addr ((cp.coords n).map Int.toNat) (n / max cp.boxCount 1)

/-- The address of its element at the far end. -/
def farAt (cp : CopyOp) (n : Nat) : Nat := cp.farAddr (n / max cp.boxCount 1) (n % max cp.boxCount 1)

/-- A copy of a core is due: it may go on, its record has no FORMAT condition, and some gang of its group runs. -/
structure CopyTurn (core : Nat) (cp : CopyOp) (g : Group) (s : State) : Prop where
  here : (coreOf core s).copies.find? (fun x => x.id == cp.id) = some cp
  ready : copyReady core cp.id s = true
  format : cp.format = false
  grp : aget cp.grp s.groups = some g
  stays : ∃ e ∈ g.gangs, (e.2.ended || e.2.halted) = false

/-- A number that a copy may read of an element at a place (R182): each byte is the one that stands there, or one that stood there when it
was overwritten after the copy issued. -/
def MaySee (cp : CopyOp) (p : Place) (s : State) (v : Nat) : Prop :=
  v < 256 ^ cp.shape.e ∧ ∀ i, i < cp.shape.e → bytesAt (p.plus i) 1 s = [byteOf v i]
    ∨ ∃ x ∈ cp.olds, x.place = p.plus i ∧ x.val = byteOf v i

/-- The value `v` that a copy reads in a visit (R163): the element of the group's scratch that it moves to the tensor, the tensor's, or,
outside the tensor, zero. -/
def CopyReads (cp : CopyOp) (n : Nat) (g : Group) (s : State) (v : Nat) : Prop :=
  if cp.toNear then farAt cp n + cp.shape.e ≤ g.scrSize ∧ v = (cp.sees n (.scr cp.grp (farAt cp n)) s).1
  else if cp.inside n then ∃ a, engineAt cp.ctx (nearAt cp n) .rd s = .ok (.phys a) ∧ readable cp.ctx [.phys a] s = none
    ∧ v = (cp.sees n (.phys a) s).1
  else v = 0

/-- The state in which a copy writes what it has read in some visits: the translations it used are held, and so are the lines. -/
def copyRead (core : Nat) (cp : CopyOp) (ns : List Nat) (s : State) : State :=
  homeReads (dieOf core) (cp.readLines ns s) (touchVas cp.ctx (cp.vas ns) s)

/-- A core but for the bytes that its copies may still read of what has been overwritten (R182). -/
def Core.atRest (k : Core) : Core := { k with copies := k.copies.map (fun x => { x with olds := [] }) }

/-- What a copy needs of the place it writes. -/
def copyNeed (cp : CopyOp) : Need := if cp.op = 0#2 then .wr else .at

/-- The place `q` that a copy writes in a visit (R147, R163): the tensor's element, or that of the group's scratch, of global space or of a
peer that answers it. -/
def CopyWrites (cp : CopyOp) (n : Nat) (g : Group) (s : State) (q : Place) : Prop :=
  if cp.toNear then engineAt cp.ctx (nearAt cp n) (copyNeed cp) s = .ok q
  else if cp.dir = 0#2 then q = .scr cp.grp (farAt cp n) ∧ farAt cp n + cp.shape.e ≤ g.scrSize
  else if cp.dir = 2#2 then engineAt cp.ctx (farAt cp n) (copyNeed cp) s = .ok q
  else q = .phys (peerBase + farAt cp n) ∧ fabricPorts cp.ctx (farAt cp n / 2 ^ 57) s ≠ 0#16

/-- The byte at a place is one of `n` bytes from another. -/
def holdsByte (q : Place) (n : Nat) (p : Place) : Bool :=
  match q, p with
  | .phys a, .phys b => decide (a ≤ b) && decide (b < a + n)
  | .scr k a, .scr j b => k == j && decide (a ≤ b) && decide (b < a + n)
  | _, _ => false

/-- The header that a copy's step reads or writes: that of the chunk its elements belong to (R253). -/
def headerAt (cp : CopyOp) (chunk : Option Nat) (ns : List Nat) : Nat :=
  cp.shape.ckaddr + 32 * (if cp.toNear then (match ns with | n :: _ => cp.shape.chunkOf (cp.linOf n) | [] => 0) else chunk.getD 0)

/-- A copy comes to a visit in which it moves the visits `ns`, one or those of the whole chunk: the values `vs` to the places `qs`. Sources
and places can be reached, no two places overlap each other, the header or the barrier object, Spotlight watches none of them, and the
function keeps no error queues. -/
structure MovesElements (core : Nat) (cp : CopyOp) (g : Group) (chunk : Option Nat) (ns vs : List Nat) (qs : List Place) (s : State) : Prop
    extends CopyTurn core cp g s where
  due : cp.writes cp.next = true
  which : chunk = if cp.inside cp.next then cp.wholeChunk cp.next else none
  fresh : ∀ k, chunk = some k → cp.checked.contains k = false
  visits : ns = match chunk with | some k => (cp.shape.members k).filterMap cp.visitOf | none => [cp.next]
  lengths : vs.length = ns.length ∧ qs.length = ns.length
  reads : ∀ i, i < ns.length → CopyReads cp (ns.getD i 0) g s (vs.getD i 0)
  places : ∀ i, i < ns.length → CopyWrites cp (ns.getD i 0) g (copyRead core cp ns s) (qs.getD i (.phys 0))
  reached : (if cp.op = 0#2 then fillable cp.ctx cp.shape.e qs (copyRead core cp ns s)
    else addable cp.ctx qs (copyRead core cp ns s)) = none
  clean : cp.op ≠ 0#2 → s.poison = [] ∧ (∀ k x, aget k s.groups = some x → x.scrPois = []) ∧ ∀ x ∈ cp.olds, x.pois = false
  apart : ∀ i j p, i < qs.length → j < qs.length → i ≠ j → holdsByte (qs.getD i (.phys 0)) cp.shape.e p = true →
    holdsByte (qs.getD j (.phys 0)) cp.shape.e p = false
  object : ∀ q ∈ qs, ∀ x, cp.obj ≤ x → x < cp.obj + 12 → holdsByte q cp.shape.e (.scr cp.grp x) = false
  header : cp.shape.chunk ≠ 0 → cp.toNear = true ∨ chunk ≠ none → ∃ h,
    engineAt cp.ctx (headerAt cp chunk ns) (if cp.toNear then .at else .rd) (copyRead core cp ns s) = .ok (.phys h)
    ∧ readable cp.ctx [.phys h] (copyRead core cp ns s) = none
    ∧ ∀ q ∈ qs, ∀ x, h ≤ x → x < h + 32 → holdsByte q cp.shape.e (.phys x) = false
  unwatched : ∀ n ∈ ns, ∀ i, i < cp.shape.e →
    (cp.dir = 1#2 → watched cp.ctx (nearAt cp n + i) s = false) ∧ (cp.dir = 2#2 → watched cp.ctx (farAt cp n + i) s = false)
  quiet : mreg (ownerFn cp.ctx s) 0x1860 s = 0#64

/-- What the step writes at a place: the value, or its sum with what stands there (R155), and whether the sum saturated or wrapped. -/
def copyResult (cp : CopyOp) (q : Place) (v : Nat) (s : State) : Nat × Bool :=
  if cp.op = 0#2 then (v, false) else addElem cp.shape.format (numAt q cp.shape.e s) v

/-- What the step writes at all its places. -/
def copyResults (cp : CopyOp) (vs : List Nat) (qs : List Place) (s : State) : List Nat :=
  (List.zip vs qs).map (fun x => (copyResult cp x.2 x.1 s).1)

/-- An XADD of the step saturated (R82). -/
def copySaturates (cp : CopyOp) (vs : List Nat) (qs : List Place) (s : State) : Bool :=
  cp.shape.format == 7 && (List.zip vs qs).any (fun x => (copyResult cp x.2 x.1 s).2)

/-- The STATUS bits of a step: CKSUM where a source chunk read whole, not STALE, differs from its header (R166, R256), SAT of an XADD. -/
def copyStatus (cp : CopyOp) (chunk : Option Nat) (hdr : Hdr) (vs : List Nat) (qs : List Place) (s : State) : Nat :=
  (if !cp.toNear && chunk.isSome && !hdr.stale && ((hdr.s1, hdr.s2) != sums (cp.shape.words vs)) then 4 else 0)
    + (if copySaturates cp vs qs s then 16 else 0)

/-- COUNT of a barrier object has fallen by `n`, and STATUS has taken bits, UNDER where COUNT is below zero (R164). -/
def Counted (obj n bits' : Nat) (g g' : Group) : Prop :=
  getNum g'.scratch obj 8 = wrapTo 64 (sint (getNum g.scratch obj 8) 64 - n)
  ∧ getNum g'.scratch (obj + 8) 4 = getNum g.scratch (obj + 8) 4 ||| bits'
      ||| (if sint (getNum g.scratch obj 8) 64 - n < 0 then 8 else 0)

/-- The copies of a core once one of them has gone past a visit: over after its last. -/
def pastVisit (cp : CopyOp) (n : Nat) (chunk : Option Nat) (l : List CopyOp) : List CopyOp :=
  if cp.visits ≤ cp.next + 1 then l.filter (fun x => x.id != cp.id)
  else l.map (fun x => if x.id = cp.id then
    { x with next := x.next + 1, written := x.written + n, checked := x.checked ++ chunk.toList } else x)

/-- The header of a whole chunk that a copy wrote to its tensor (R253-R257). -/
structure HeaderIssued (cp : CopyOp) (core : Nat) (ns vs : List Nat) (qs : List Place) (h : Nat) (s t : State) : Prop where
  tag : getNum t.mem h 2 = cp.shape.tag.toNat
  kind : getNum t.mem (h + 2) 1 = if cp.shape.exact then 1 else 0
  hops : getNum t.mem (h + 3) 1 = min (getNum s.mem (h + 3) 1 + 1) 255
  index : getNum t.mem (h + 4) 4 = (match ns with | n :: _ => cp.shape.chunkOf (cp.linOf n) | [] => 0) % 2 ^ 32
  last : getNum t.mem (h + 8) 2 = hopId cp.ctx
    (if cp.op = 0#2 then core else 0xA0 + (match qs with | .phys a :: _ => (homeOf a).1 | _ => 0)) s % 2 ^ 16
  role : getNum t.mem (h + 10) 1 = if cp.op = 0#2 then 1 else 3
  current : getNum t.mem (h + 11) 1 = 0
  bytes : getNum t.mem (h + 12) 2 = ns.length * cp.shape.e % 2 ^ 16
  s1 : getNum t.mem (h + 16) 8 = (sums (cp.shape.words (copyResults cp vs qs s))).1 % 2 ^ 64
  s2 : getNum t.mem (h + 24) 8 = (sums (cp.shape.words (copyResults cp vs qs s))).2 % 2 ^ 64

/-- The step has been made: every place holds its result, every other byte of memory and scratch what it held, the header and the barrier
object apart; of the group's gangs the issuing one alone may owe a BWAIT a saturation; other groups and every copy but this one stand. -/
structure CopyMoved (core : Nat) (cp : CopyOp) (chunk : Option Nat) (ns vs : List Nat) (qs : List Place) (h bits' : Nat) (g g' : Group)
    (s t : State) : Prop where
  written : ∀ i p, i < qs.length → holdsByte (qs.getD i (.phys 0)) cp.shape.e p = true →
    bytesAt p 1 t = [byteOf ((copyResults cp vs qs s).getD i 0) (p.key - (qs.getD i (.phys 0)).key)]
  memory : ∀ a, (∀ q ∈ qs, holdsByte q cp.shape.e (.phys a) = false) → ¬(cp.toNear = true ∧ cp.shape.chunk ≠ 0 ∧ h ≤ a ∧ a < h + 32) →
    sget a t.mem = sget a s.mem
  scratch : ∀ x, (∀ q ∈ qs, holdsByte q cp.shape.e (.scr cp.grp x) = false) → ¬(cp.obj ≤ x ∧ x < cp.obj + 12) →
    sget x g'.scratch = sget x g.scratch
  count : Counted cp.obj (ns.length * cp.shape.e) bits' g g'
  stale : cp.toNear = true → cp.shape.chunk ≠ 0 → chunk = none →
    sget (h + 11) t.mem = 1#8 ∧ ∀ i, i < 32 → i ∉ [11, 14, 15] → sget (h + i) t.mem = sget (h + i) s.mem
  header : cp.toNear = true → chunk ≠ none → HeaderIssued cp core ns vs qs h s t
  group : g' = { g with gangs := g'.gangs, scratch := g'.scratch, scrPois := g'.scrPois, scrBy := g'.scrBy, matrix := g'.matrix }
  engine : g.matrix.used = [] → g'.matrix = g.matrix
  gangs : ∀ k, aget k g'.gangs = if k = cp.gang then
    (aget k g.gangs).map (fun y => if bits'.testBit 4 then { y with copySat := y.copySat ++ [cp.obj] } else y) else aget k g.gangs
  groups : ∀ k, k ≠ cp.grp → aget k t.groups = aget k s.groups
  copies : (Core.atRest (coreOf core t)).copies = pastVisit cp (ns.length * cp.shape.e) chunk (Core.atRest (coreOf core s)).copies
  cores : ∀ k, k ≠ core → Core.atRest (coreOf k t) = Core.atRest (coreOf k s)

/-- The fault that stops a copy in a visit of one element (R147, R163, R244): a translation or a permission of its source or of its
destination, a place outside the group's scratch, a peer that is no member. -/
def CopyFaults (core : Nat) (cp : CopyOp) (g : Group) (f : FReq) (s : State) : Prop :=
  let n := cp.next
  (cp.toNear = false ∧ cp.inside n = true ∧ engineAt cp.ctx (nearAt cp n) .rd s = .error (.stall f))
  ∨ (cp.toNear = true ∧ cp.shape.chunk = 0 ∧ farAt cp n + cp.shape.e ≤ g.scrSize
      ∧ engineAt cp.ctx (nearAt cp n) (copyNeed cp) s = .error (.stall f))
  ∨ (cp.toNear = true ∧ g.scrSize < farAt cp n + cp.shape.e ∧ f = { permAt .rd (farAt cp n) with access := engineAccess .rd })
  ∨ (cp.toNear = false ∧ (∃ v, CopyReads cp n g s v) ∧
      ((cp.dir = 0#2 ∧ g.scrSize < farAt cp n + cp.shape.e ∧ f = { permAt (copyNeed cp) (farAt cp n) with access := engineAccess (copyNeed cp) })
      ∨ (cp.dir = 2#2 ∧ engineAt cp.ctx (farAt cp n) (copyNeed cp) (copyRead core cp [n] s) = .error (.stall f))
      ∨ (cp.dir = 3#2 ∧ fabricPorts cp.ctx (farAt cp n / 2 ^ 57) (copyRead core cp [n] s) = 0#16
          ∧ f = { permAt (copyNeed cp) (farAt cp n) with access := engineAccess (copyNeed cp) })))

/-- No byte of memory or of scratch has changed, nor any gang or other copy of the core. -/
structure CopyApart (core : Nat) (cp : CopyOp) (s t : State) : Prop where
  mem : t.mem = s.mem
  groups : t.groups = s.groups
  others : (coreOf core t).copies.filter (fun x => x.id != cp.id) = (coreOf core s).copies.filter (fun x => x.id != cp.id)

/-! The matrix engine. -/

/-- A joint row: park bit, whether its operands are within their limits, the scalars it reads, and what it asks of the engine. -/
structure JointRow where
  p : Bool
  ok : Cur → Bool
  scalars : List (BitVec 6)
  joint : Cur → Joint

/-- MLDW, MSWAP, MMA, MDRAIN and MZERO (R194-R200). -/
def jointRow : Instr → Option JointRow
  | .mldw fmt sb sa p => some ⟨p, fun _ => true, [sa, sb], fun c => .mldw fmt (c.s sa) (c.s sb)⟩
  | .mswap p => some ⟨p, fun _ => true, [], fun _ => .mswap⟩
  | .mma fmt sb sa tile p => some ⟨p,
      fun c => tileOk tile c && decide (1 ≤ (c.s sb).toNat % 256) && decide ((c.s sb).toNat % 256 ≤ 128), [sa, sb],
      fun c => .mma fmt tile (c.s sa) (c.s sb)⟩
  | .mdrain mode sb sa tile p => some ⟨p, tileOk tile, [sa, sb], fun c => .mdrain mode tile (c.s sa) (c.s sb)⟩
  | .mzero tile p => some ⟨p, tileOk tile, [], fun _ => .mzero tile⟩
  | _ => none

/-- A joint row can come to its rendezvous: the group has the engine, its operands are within their limits and clean, the gang is whole,
and GSET names gangs of the group, itself among them (R32, R185, R189). -/
structure JointMay (i : Instr) (r : JointRow) (c : Cur) (s : State) : Prop extends Issues i c s where
  engine : c.lau.r.tiles ≠ 0
  ok : r.ok c = true
  whole : c.whole = true
  clean : ∀ n ∈ r.scalars, c.spoisoned n = false
  gset : gsetOk c = true
  runs : c.frag.hold = .run
  gang : c.r.gang < 32

/-- The same, and the latch is empty. -/
structure JointReady (i : Instr) (r : JointRow) (c : Cur) (s : State) : Prop extends JointMay i r c s where
  alone : c.grp.matrix.latch = []

/-- What a gang puts in the latch. -/
def waiterOf (i : Instr) (r : JointRow) (c : Cur) : Waiter :=
  { gang := c.r.gang, frag := c.r.frag, i := i, park := r.p, gset := c.gang.gset, joint := r.joint c }

/-- The last listed gang of a rendezvous comes: every other one waits in the latch, and nobody else does; they agree with it (R189, R190). -/
structure LastArrives (i : Instr) (r : JointRow) (c : Cur) (s : State) : Prop extends JointMay i r c s where
  listed : ∀ n, n < 32 → (c.gang.gset.getLsbD n = true ↔ n = c.r.gang ∨ n ∈ c.grp.matrix.latch.map (fun w => w.gang))
  once : (c.r.gang :: c.grp.matrix.latch.map (fun w => w.gang)).Nodup
  agree : ∀ w ∈ c.grp.matrix.latch, w.joint = r.joint c ∧ w.gset = c.gang.gset ∧ w.park = r.p ∧ w.gang < 32
  wait : ∀ w ∈ c.grp.matrix.latch, ∃ gg f, aget w.gang c.grp.gangs = some gg ∧ aget w.frag gg.frags = some f ∧ f.hold = .rendezvous

/-- A waiting gang as it stands when its joint instruction issues. -/
def mateOf (c : Cur) (w : Waiter) (gg : Gang) (f : Frag) (s : State) : Cur :=
  { c with
    r := { grp := c.r.grp, gang := w.gang, frag := w.frag }
    gang := withFrag gg w.frag (fun f => { f with hold := .run })
    frag := { f with hold := .run }
    early := gg.early s.clock
    earlyS := gg.earlyS s.clock }

/-- A joint instruction has issued in one gang (R33, R35, R189, R192): what issue leaves, with the instruction among the gang's joint ones,
a region begun where the instruction commits, and the park bit obeyed. -/
def JointIssued (w : Waiter) (cw : Cur) (id tiles : Nat) (g : Gang) : Prop :=
  let g0 := { cw.gang.issue w.i cw with joints := cw.gang.joints ++ [(id, tiles, 0)], swap := w.joint.swapMark cw.gang.swap }
  ∃ g1, (w.joint.commits = true → RegionStart cw.r.frag (issuedFrag w.i cw.frag) g0 g1) ∧ (w.joint.commits = false → g1 = g0)
    ∧ g.quiet = (if w.park then Gang.park cw g1 else g1).quiet

/-- The next step of a group's matrix engine is the joint instruction `op`, which has not begun and which nothing spoils: its operands are fenced and clean, no
ABFT error stands, no gang waits in the latch, and some gang of the group runs. -/
structure EngineTurn (k : Nat) (g : Group) (l : Launch) (op : JointOp) (s : State) : Prop where
  grp : aget k s.groups = some g
  launch : aget g.launch s.launches = some l
  next : nextJoint k s = some op
  begins : op.started = false
  good : op.bad = false ∧ g.matrix.mabft = false ∧ g.matrix.loose = false ∧ unfenced g op l.kern.triple = false
  latch : g.matrix.latch = []
  stays : ∃ e ∈ g.gangs, (e.2.ended || e.2.halted) = false

/-- A matrix engine once a joint instruction has left its queue. -/
def Matrix.without (m : Matrix) (op : JointOp) : Matrix := { m with queue := m.queue.filter (fun o => o.id != op.id) }

/-! Queues, launches and groups. -/

/-- An event has happened: its next state, of which `T` holds. -/
def Happens (out : Out) (T : State → Prop) : Prop := ∃ t, out = .next t ∧ T t

/-- An event that finds nothing to do changes nothing: fragments that waited may look again. -/
def NothingHappens (out : Out) (s : State) : Prop := out = .next { s with stalled := [] }

/-- HEAD of a queue (R205). -/
def headOf (fn q : Nat) (s : State) : Nat := (mreg fn (0x1000 + 32 * q + 16) s).toNat

/-- A queue has a record to take, at a place that can be read, which nothing has overwritten; its fields are `r` (R205-R207). -/
structure TakesRecord (fn q : Nat) (bytes : List Byte) (r : LRec) (s : State) : Prop where
  takes : queueTakes fn q s = true
  lines : badLine (drv ((mreg fn (0x1000 + 32 * q) s).toNat + 128 * (headOf fn q s % queueSize fn q s))) 128 s = none
  read : bytes = seenBytes (drv ((mreg fn (0x1000 + 32 * q) s).toNat + 128 * (headOf fn q s % queueSize fn q s))) 128 s
  record : r = parseRecord bytes
  runs : s.endedQueues.contains (fn, q) = false
  whole : s.overwritten.contains (fn, q, headOf fn q s) = false

/-- The context of a queue (R205). -/
def queueCtx (fn q : Nat) (s : State) : BitVec 6 := (mreg fn (0x1000 + 32 * q + 8) s).extractLsb' 8 6

/-- The bytes of a completion record (R206) stand at a place, and no other byte has changed. -/
def Completed (a : Nat) (val : DWord) (status : Nat) (s t : State) : Prop :=
  getNum t.mem a 8 = val.toNat ∧ getNum t.mem (a + 8) 2 = status % 65536 ∧ getNum t.mem (a + 10) 2 = 0 ∧ getNum t.mem (a + 12) 4 = 0
    ∧ ∀ x, ¬(a ≤ x ∧ x < a + 16) → sget x t.mem = sget x s.mem

/-- A group once its gangs have taken gang slots of their core: nothing else of it changes (R217). -/
structure Seated (g0 g : Group) : Prop where
  rest : g = { g0 with gangs := g.gangs }
  gangs : ∀ n, (aget n g.gangs).map (fun x => { x with slot := 0 }) = (aget n g0.gangs).map (fun x => { x with slot := 0 })

/-- The state a launch leaves behind: its groups and dispatch entries are gone with it. -/
def launchGone (k : Nat) (s : State) : State :=
  { s with serial := s.serial + 1, launches := aerase k s.launches, groups := s.groups.filter (fun e => e.2.launch != k),
           entries := s.entries.filter (fun e => e.2.launch != k) }

/-- A suspension can begin and finish at once (R229-R231, R234): the group stands alone in its cluster, the save pool has room for it, and what it
has issued has come to its end. -/
structure Suspends (k : Nat) (g : Group) (l : Launch) (x : Susp) (b : Nat) (s : State) : Prop where
  canon : (akeys s.groups).Pairwise (· < ·)
  grp : aget k s.groups = some g
  launch : aget g.launch s.launches = some l
  alone : clusterOf k s = [k]
  first : g.susp = none ∧ x.base = none ∧ x.debug = none
  room : findArea l.fn (areaSize l.r) (modGroup k (fun g => { g with susp := some x }) s) = some b
  quiet : quiesced k (beginSusp k b (modGroup k (fun g => { g with susp := some x }) s)) = true

/-- A suspension has happened: the group has left its core with its state in its save area, and its entry stands at the head, or after a
quantum at the tail, of its core's dispatch queue (R209, R222, R230, R231). -/
def Suspended (k : Nat) (g : Group) (l : Launch) (x : Susp) (b : Nat) (s t : State) : Prop :=
  aget k t.groups = none
    ∧ (∃ sv, aget k t.saved = some sv ∧ sv.base = b ∧ sv.size = areaSize l.r ∧ sv.hold = x.hold ∧ sv.token = none
      ∧ sv.group.scratch = g.scratch ∧ sv.group.gangs = g.gangs.map (fun e => (e.1, e.2.halting x.hold))
      ∧ t.mem = putCells (place (drv b) (areaImage x.hold l (rankOf l s) sv.group)) s.mem)
    ∧ ∃ id, aget id t.entries = some { launch := g.launch, groups := [g.g], refusals := 0, restore := true, stops := [] }
      ∧ (coreOf g.core t).dispatchQ = if x.tail then (coreOf g.core s).dispatchQ ++ [id] else id :: (coreOf g.core s).dispatchQ

/-- Every gang but some is as it was. -/
def OtherGangs (r : GangRef) (s t : State) : Prop := ∀ j, j ≠ r → gangOf j t = gangOf j s

/-- A group of a launch is resident and runs, and a stop request names it (R275). -/
structure StopsGroup (fn : Nat) (val : BitVec 64) (key : Nat) (g : Group) (s : State) : Prop where
  go : val.getLsbD 31 = true ∧ val.getLsbD 30 = false
  found : ∃ k l, runningLaunch fn (bits val.toNat 21 16) s = some (k, l)
    ∧ s.groups.find? (fun e => e.2.launch == k && e.2.g == bits val.toNat 63 32) = some (key, g)
  grp : aget key s.groups = some g
  launch : ∃ l, aget g.launch s.launches = some l
  live : g.ended = false
  stays : g.suspended = false

/-- A register of the physical function's window once a value is written there. -/
def vfWritten (n : Nat) (v : DWord) (s : State) : State := { s with stalled := [], mmio := sput (0x2000 + 32 * n) v s.mmio }

/-- No group of another function runs on the core clusters that a function serves alone (R291). -/
def servedAlone (n : Nat) (s : State) : Bool :=
  !partitioned n s || s.groups.all (fun e => e.2.ended || fnOf e.2.launch s == n || !coreServes n e.2.core s)

/-! Fault records, the driver's actions and translation caches. -/

/-- A fault ring takes a record (R241): the oldest pending one of its function, and there is room; the debug ring has none to take. -/
structure TakesFault (fn k : Nat) (x : Token) (s : State) : Prop where
  record : pendingRecord fn false s = some (k, x)
  other : pendingRecord fn true s = none
  enabled : (mreg fn 0x1808 s).getLsbD 31 = true
  room : (mreg fn 0x1818 s - mreg fn 0x1810 s).toNat < 2 ^ min ((mreg fn 0x1808 s).toNat % 32) 16

/-- Where the next record of a fault ring goes (R241). -/
def faultSlot (fn : Nat) (s : State) : Nat :=
  drv ((mreg fn 0x1800 s).toNat + 64 * ((mreg fn 0x1818 s).toNat % 2 ^ min ((mreg fn 0x1808 s).toNat % 32) 16))

/-- The fields of a fault record: offset, size, value (R242). -/
def recordFields (token : Nat) (r : FRec) : List (Nat × Nat × Nat) :=
  [(0, 1, r.cls.toNat), (1, 1, r.kind.toNat), (2, 1, r.ctx.toNat), (3, 1, r.access.toNat), (8, 8, token), (16, 8, r.launch.toNat),
   (24, 4, r.grp), (28, 1, r.gang), (29, 1, r.split), (30, 1, r.qdepth), (31, 1, 0), (32, 8, r.pc.toNat), (40, 4, r.mask.toNat),
   (44, 4, r.detail.toNat), (48, 8, r.addr.toNat), (56, 8, 0)]

/-- A resident fragment is held for a live token of a fragment's fault, which FTOKEN names. -/
structure HeldFor (fn k : Nat) (x : Token) (r : FragRef) (gg : Gang) (f : Frag) (p : DWord) (s : State) : Prop where
  token : liveToken fn s = some (k, x)
  kind : x.kind = .frags ∧ x.vectorC = false
  canon : (akeys s.groups).Pairwise (· < ·) ∧ (akeys s.tokens).Pairwise (· < ·) ∧ ∀ j ∈ akeys s.tokens, j ≤ s.serial
  names : r ∈ x.frags
  gang : gangOf (gangRefOf r) s = some gg
  frag : aget r.frag gg.frags = some f
  held : f.hold = .fault k p

/-- FACT has acted on a token: STALE is clear, and the token is live no more (R243). -/
def ActedOn (fn k : Nat) (t : State) : Prop := mreg fn 0x1828 t = 0#64 ∧ ∀ x, aget k t.tokens = some x → x.live = false

/-- FACT has named no live token: STALE is set, and nothing else happens (R243). -/
def Stale (fn : Nat) (out : Out) (s : State) : Prop :=
  out = .next { s with stalled := [], mmio := sput (65536 * fn + 0x1828) 4#64 s.mmio }

/-- A lane of an atomic waits at its home, logged for its turn, for a link that is up again, or for a peer's answer, which no refusal of it
that holds its fragment has anticipated, and its line can be read (R147, R227, R286). -/
structure LaneWaits (r : GangRef) (op lane : Nat) (grp : Group) (gg : Gang) (l : Launch) (o : PendOp) (w : LogWait) (x : LogLane) (s : State) :
    Prop where
  group : aget r.grp s.groups = some grp
  gang : aget r.gang grp.gangs = some gg
  launch : aget grp.launch s.launches = some l
  counted : gg.ops.find? (fun o => o.id == op) = some o
  waits : o.log = some w
  waiting : w.lanes.find? (fun x => x.lane == lane) = some x
  link : o.reachable s = true
  asked : gg.refuses op = false
  line : ∀ ln ∈ linesOf [(x.place, w.size)], fatalLevel ln s = 0

/-- The lane's atomic, performed at its home after its record, if it has one, is consumed. -/
def laneGrant (r : GangRef) (rec : Option Nat) (grp : Group) (l : Launch) (o : PendOp) (w : LogWait) (x : LogLane) (s : State) : State × AmoRes :=
  let v := (w.operands.find? (fun e => e.1 == x.lane)).getD (0, 0, 0)
  amoAt (w.writer grp r.gang x.lane l) { by' := .gang r.grp r.gang, op := o.id, marks := w.pub } w.aop w.size
    (if w.virt then some x.va else none) x.place v.2.1 v.2.2 (match rec with | some i => logConsume grp.launch i s | none => s)

/-- The gang of a lane once it is granted: its operation holds what the lane brings back and one waiting lane less, and no other part of the
gang changes but what it has heard of and which loads may read again. -/
def LaneGranted (r : GangRef) (gg : Gang) (l : Launch) (o : PendOp) (w : LogWait) (x : LogLane) (res : AmoRes) (s t : State) : Prop :=
  ∃ g, gangOf r t = some g ∧ g = { gg with
    reads := g.reads, hist := g.hist
    ops := gg.ops.map (fun (y : PendOp) =>
      if y.id = o.id then { o.granted w l.kern.triple x.lane res with marks := o.marks ++ marksOf x.place w.size s } else y) }

/-! Debug sessions, registers, tests and the platform. -/

/-- The registers of a function's window that store what is written, with the bits that store (R241, R273). -/
def plainRegs : List (Nat × DWord) :=
  [(0x1800, 0xFFFFFFFFFFFFFFFF#64), (0x1808, 0x8000001F#64), (0x1810, 0xFFFFFFFFFFFFFFFF#64), (0x1820, 0xFFFFFFFFFFFFFFFF#64),
   (0x1838, 0xFFFFFFFFFFFFFFFF#64), (0x1840, 0xFFFFFFFFFFFFFFFF#64), (0x1850, 0xFFFFFFFFFFFFFFFF#64), (0x1858, 0xFFFFFFFFFFFFFFFF#64),
   (0x1900, 0xFFFFFFFFFFFFFFFF#64), (0x1908, 0x8000001F#64), (0x1910, 0xFFFFFFFFFFFFFFFF#64), (0x1940, 0xFFFFFFFFFFFFFFFF#64),
   (0x1978, 0xFFFFFFFFFFFFFFFF#64), (0x1A00, 0xFFFFFFFFFFFFFFFF#64), (0x1A10, 0xFFFFFFFFFFFFFFFF#64), (0x1A28, 0xFFFFFFFFFFFFFFFF#64),
   (0x1A40, 0x01FFFFFFFFFFFFFF#64), (0x1A48, 0xFFFFFFFFFFFFFFFF#64), (0x1AC8, 0xFFFFFFFFFFFFFFFF#64), (0x1AD0, 0xFFFFFFFFFFFFFFFF#64),
   (0x1B00, 0x80003F00#64), (0x1C00, 0x1FFFF#64), (0x1DF8, 0x1FFFF#64), (0x1E00, 0xFFFFFFFFFFFF#64), (0x1FF8, 0xFFFFFFFFFFFF#64)]

/-- Registers that a write leaves as they were: read-only ones, and offsets that no register occupies (R12, R241). -/
def fixedRegs : List Nat := [0x1818, 0x1918, 0x1A18, 0x1A20, 0x1AD8, 0x1AE0, 0x1B40, 0x1870, 0x1AE8, 0x2400 - 8, 0x0800]

/-- No register but one has changed. -/
def OtherRegs (fn off : Nat) (s t : State) : Prop := ∀ k, k ≠ 65536 * fn + off → sget k t.mmio = sget k s.mmio

/-- Where the next record of a trace ring goes (R283). -/
def traceSlot (fn : Nat) (s : State) : Nat :=
  drv ((mreg fn 0x1A00 s).toNat + 64 * ((mreg fn 0x1A18 s).toNat % 2 ^ min ((mreg fn 0x1A08 s).toNat % 32) 16))

/-- The records a trace ring holds (R283). -/
def traceUse (fn : Nat) (s : State) : Nat := (mreg fn 0x1A18 s - mreg fn 0x1A28 s).toNat

/-- What a bank's bits become when SCR is written (R149): `old` and `new` are its SCR bit and the one written. -/
structure BankWritten (k k' : Core) (b : Nat) (new used : Bool) : Prop where
  stays : (new = k.scr.getLsbD b ∨ k.busy.getLsbD b = true) →
    k'.scr.getLsbD b = k.scr.getLsbD b ∧ k'.busy.getLsbD b = k.busy.getLsbD b ∧ k'.refused.getLsbD b = k.refused.getLsbD b
  toScratch : k.busy.getLsbD b = false → k.scr.getLsbD b = false → new = true →
    k'.scr.getLsbD b = true ∧ k'.busy.getLsbD b = true ∧ k'.refused.getLsbD b = k.refused.getLsbD b
  toCache : k.busy.getLsbD b = false → k.scr.getLsbD b = true → new = false → used = false →
    k'.scr.getLsbD b = false ∧ k'.busy.getLsbD b = true ∧ k'.refused.getLsbD b = k.refused.getLsbD b
  refused : k.busy.getLsbD b = false → k.scr.getLsbD b = true → new = false → used = true →
    k'.scr.getLsbD b = true ∧ k'.busy.getLsbD b = false ∧ k'.refused.getLsbD b = true

/-- The device's own memory is zero, and the rest is as it was. -/
def DeviceZero (s t : State) : Prop := ∀ a, sget a t.mem = if a < 2 ^ 39 then 0#8 else sget a s.mem

/-- The device is as at reset but for its tables of retired frames and quarantined segments, which the flash keeps (R297). -/
def FreshDevice (s t : State) : Prop :=
  DeviceZero s t ∧ t.groups = [] ∧ t.launches = [] ∧ t.saved = [] ∧ t.tokens = [] ∧ t.objects = [] ∧ t.tlb = []
    ∧ t.mmio = State.reset.mmio ∧ t.retired = s.retired ∧ t.quarantined = s.quarantined

/-- A flit has come to a port in its order: the next sequence number is expected (R292). -/
def flitArrived (port : BitVec 4) (f : Flit) (s : State) : State :=
  { countFabric 0x31 s with
    rxSeq := sput (4 * port.toNat + f.vc.toNat) (f.seq + 1) s.rxSeq }

/-- A request flit has been answered: its port sends a response on its virtual channel, with the next number of that channel, from this
device's node to its sender, and no other flit. -/
def Answers (port : BitVec 4) (f : Flit) (op : FlitOp) (s t : State) : Prop :=
  let ch := 4 * port.toNat + f.vc.toNat
  let seq := sget ch s.txSeq
  t.sent = s.sent ++ [{ port := port, flit := { crcOk := true, type := 2#8, vc := f.vc, seq := seq, dst := f.src,
                                                src := selfNode f.ctx t, ctx := f.ctx, op := op } }]
  ∧ t.txSeq = sput ch (seq + 1) s.txSeq ∧ ∃ x, t.sent = s.sent ++ [x] ∧ t.replay = s.replay ++ [x]

/-- A port takes a flit: it and the device are up, the CRC holds and the number is the next one (R292). -/
structure TakesFlit (port : BitVec 4) (f : Flit) (s : State) : Prop where
  up : s.ports.getLsbD port.toNat = true ∧ s.power = .d0
  good : f.crcOk = true
  next : f.seq = sget (4 * port.toNat + f.vc.toNat) s.rxSeq

/-- The lines of some bytes of device memory can be read: none is retired, poisoned or beyond correction (R264, R288). -/
def LinesGood (pa n : Nat) (s : State) : Prop :=
  ∀ ln, pa / 128 ≤ ln → 128 * ln < pa + n → fatalLevel ln s = 0 ∧ isRetired (128 * ln) s = false ∧ poisonedAt (.phys (128 * ln)) 128 s = false

end Sys2Proof.Claims

open Sys2Proof Sys2Proof.Machine Sys2Proof.Claims

/-- The wrapping integer rows: every element of the destination is the exact value modulo the element's width, in every acting
lane, and nothing else of the machine changes but what every issue changes. -/
def Obligations.IntegerRowsWrap : Prop :=
  ∀ (i : Instr) (r : IntRow) (c : Cur) (s : State), intRow i = some r → VectorReady (r.b.vop r.t.wide false) c s →
    ∃ val : Nat → Nat,
      (∀ l, (r.b.vop r.t.wide false).acts c l = true → ∀ j ∈ r.t.elems,
        val l / 2 ^ (r.t.e * j) % 2 ^ r.t.e = wrapTo r.t.e (r.f (r.t.el (r.b.a.val c l) j) (r.t.el (r.b.b.val c l) j)))
      ∧ VectorDone (r.b.vop r.t.wide false) true c s val id (exec i s)

/-- The saturating integer rows of two sources: every element is the exact value clamped to its range, and the fragment's pending
saturation flags take the row's bit exactly where a clamp changed an element of an acting lane. -/
def Obligations.SaturatingRowsClamp : Prop :=
  ∀ (i : Instr) (r : SatRow) (c : Cur) (s : State), satRow i = some r → VectorReady (r.b.vop r.t.wide false) c s →
    ∃ (val : Nat → Nat) (bits : Nat),
      (∀ l, (r.b.vop r.t.wide false).acts c l = true → ∀ j ∈ r.t.elems,
        val l / 2 ^ (r.t.e * j) % 2 ^ r.t.e
          = wrapTo r.t.e (clamped r.t (r.f (r.t.el (r.b.a.val c l) j) (r.t.el (r.b.b.val c l) j))))
      ∧ bits = (if lanes.any (fun l => (r.b.vop r.t.wide false).acts c l && r.t.elems.any (fun j =>
          clamped r.t (r.f (r.t.el (r.b.a.val c l) j) (r.t.el (r.b.b.val c l) j))
            != r.f (r.t.el (r.b.a.val c l) j) (r.t.el (r.b.b.val c l) j))) then r.flag else 0)
      ∧ VectorDone (r.b.vop r.t.wide false) true c s val (withSat bits) (exec i s)

/-- AND, OR and XOR: bit by bit. The shifts: the count acts modulo the width, SAR fills with the sign bit, and every other bit moves. -/
def Obligations.LogicAndShiftRows : Prop :=
  (∀ (i : Instr) (r : BitRow) (c : Cur) (s : State), bitRow i = some r → VectorReady (r.b.vop r.wide false) c s →
      ∃ val : Nat → Nat,
        (∀ l, (r.b.vop r.wide false).acts c l = true → ∀ k,
          (val l).testBit k = r.f ((r.b.a.val c l).testBit k) ((r.b.b.val c l).testBit k))
        ∧ VectorDone (r.b.vop r.wide false) true c s val id (exec i s))
  ∧ ∀ (i : Instr) (r : ShiftRow) (c : Cur) (s : State), shiftRow i = some r → VectorReady (r.b.vop r.wide false) c s →
      ∃ val : Nat → Nat,
        (∀ l, (r.b.vop r.wide false).acts c l = true → ∀ k, k < (if r.wide then 64 else 32) →
          (val l).testBit k = shiftedBit r.k (if r.wide then 64 else 32) (r.b.a.val c l) (r.b.b.val c l) k)
        ∧ VectorDone (r.b.vop r.wide false) true c s val id (exec i s)

/-- Moves, NOT, POPC, CLZ, BREV and IABS. -/
def Obligations.OneSourceRows : Prop :=
  ∀ (i : Instr) (r : OneRow) (c : Cur) (s : State), oneRow i = some r → VectorReady r.o c s →
    ∃ val : Nat → Nat, (∀ l, r.o.acts c l = true → r.rel (srcAt r.o 0 c l) (val l)) ∧ VectorDone r.o true c s val id (exec i s)

/-- IMAD, IDOT2, PKS, BFX, BFI and PRMT: their values, and the saturation flag exactly where a clamp changed something. -/
def Obligations.ManySourceRows : Prop :=
  ∀ (i : Instr) (r : ManyRow) (c : Cur) (s : State), manyRow i = some r → r.legal = true → VectorReady r.o c s →
    ∃ val : Nat → Nat, (∀ l, r.o.acts c l = true → r.rel c l (val l))
      ∧ VectorDone r.o true c s val (withSat (if lanes.any (fun l => r.o.acts c l && r.clamps c l) then r.flag else 0)) (exec i s)

/-- SEL takes its first source where the selector bit says so, its second elsewhere, in every lane of EXEC. -/
def Obligations.SelPicksBySelector : Prop :=
  ∀ (o : A3) (c : Cur) (s : State), o.x ≠ Pfx.none → VectorReady (selOp o) c s → c.guardPoisoned (pfxGuard o.x) = false →
    VectorDone (selOp o) true c s
      (fun l => if (c.gang.pr (pfxGuard o.x).pg).getLsbD l = (pfxGuard o.x).pn then srcAt (selOp o) 1 c l else srcAt (selOp o) 0 c l)
      id (exec (.sel o) s)

/-- The float arithmetic rows: every element is the exact result rounded once, taken from the lane whose computation the lane
receives, and CANCEL events are counted. Where NITCFG asks for a trap or a halt, no event occurs. -/
def Obligations.FloatRowsRoundOnce : Prop :=
  ∀ (i : Instr) (r : FloatRow) (c : Cur) (s : State), floatRow i = some r → VectorReady r.o c s →
    (r.hits c = [] ∨ nitAction c.gang.nitcfg 1 < 2) →
    VectorDone r.o true c s (fun l => r.t.pack (r.el c (c.lane true l))) (countNit 1 (countedHits c 1 (r.hits c))) (exec i s)

/-- The conversions, FRND and FCLASS: the destination takes the converted value, the bits an FCVT keeps stay, and the saturation flags of
the acting lanes join the fragment's pending ones. The half an FCVT keeps is log entry 16's reading. -/
def Obligations.ConversionRows : Prop :=
  ∀ (i : Instr) (r : ConvRow) (c : Cur) (s : State), convRow i = some r → VectorReady r.o c s →
    ∃ bits : Nat,
      (∀ k, bits.testBit k = lanes.any (fun l => r.o.acts c l && (r.f c (c.lane true l)).2.testBit k))
      ∧ VectorDone r.o true c s (fun l => r.o.merge c l (r.f c (c.lane true l)).1) (withSat bits) (exec i s)

/-- DIGITS counts the digits on which the siblings agree, or the digits one value can carry. That a TRIPLE quad under MODE.SIB = 0 takes the
count of its reference lane is log entry 56, the model's choice. -/
def Obligations.DigitsCountsAgreement : Prop :=
  ∀ (ft : BitVec 2) (x : AF) (c : Cur) (s : State),
    let t := Fty.of ft.toNat
    let o := afOp (.digits ft x) x t.ix t.wide false true
    let el := fun l j => t.fmt.smod (smodA x.x) (t.el (srcAt o 0 c l) j)
    Issues o.i c s → (∀ a ∈ o.srcs, a.ok c.regs = true) → dstOk c.regs o.dst false = true →
    c.guardPoisoned (pfxGuard x.x) = false →
    (∀ l, l < 32 → digitsReads o c l = true → ∀ a ∈ o.srcs, a.poisoned c l = false) →
    VectorDone o true c s (fun l =>
      t.pack (fun j =>
        if c.triple && (c.gang.quad (l / 4)).sib then digitsOf t.fmt (el (l / 4 * 4) j) (el (l / 4 * 4 + 1) j) (el (l / 4 * 4 + 2) j)
        else digitsOne t.fmt (el (c.lane true l) j))) id (exec (.digits ft x) s)

/-- DIGITS in TRIPLE: every lane of a quad under MODE.SIB = 1 receives, for each element, the digit count of the quad's three siblings, which
is R46's: zero where one is not finite, else from the farthest of them from their mean. -/
def Obligations.DigitsOfSiblings : Prop :=
  ∀ (ft : BitVec 2) (x : AF) (c : Cur) (s : State),
    let t := Fty.of ft.toNat
    let o := afOp (.digits ft x) x t.ix t.wide false true
    let el := fun l j => t.fmt.smod (smodA x.x) (t.el (srcAt o 0 c l) j)
    Issues o.i c s → (∀ a ∈ o.srcs, a.ok c.regs = true) → dstOk c.regs o.dst false = true →
    c.guardPoisoned (pfxGuard x.x) = false → c.triple = true →
    (∀ l, l < 32 → digitsReads o c l = true → ∀ a ∈ o.srcs, a.poisoned c l = false) →
    ∃ val : Nat → Nat → Nat,
      (∀ l j, l < 32 → o.acts c l = true → (c.gang.quad (l / 4)).sib = true → j ∈ t.elems →
        IsDigits t.fmt (el (l / 4 * 4) j) (el (l / 4 * 4 + 1) j) (el (l / 4 * 4 + 2) j) (val l j))
      ∧ VectorDone o true c s (fun l => t.pack (val l)) id (exec (.digits ft x) s)

/-- What the operations on numbers compute. FMIN and FMAX choose one of their operands; FRND rounds to an integral value; FCLASS names the
class; FCVT rounds once and clamps under .SAT; a value enters an XS element to the nearest; the count of one value is that of three copies
of it; the steps of REDUX and its tree. -/
def Obligations.NumberOperations : Prop :=
  (∀ (f : Fmt) (mx : Bool) (x y : Nat), x < 2 ^ f.w → y < 2 ^ f.w → MinMaxes f mx x y (f.minMax mx x y))
  ∧ (∀ (f : Fmt) (m : Rm) (x : Nat), f ∈ [Fmt.f64, .f32, .f16, .bf16] → x < 2 ^ f.w →
      RoundsToIntegral f m x (f.frnd m x) ∧ f.fclass x = 2 ^ classBit f x)
  ∧ (∀ (fs fd : Fmt) (sat ftz : Bool) (m : Rm) (x : Nat), Converts fs fd sat ftz m x (fcvtElem fs fd sat ftz m x))
  ∧ (∀ (v : Fv) (be : Int), EntersXs v be (toXs v be))
  ∧ (∀ (f : Fmt) (x : Nat), digitsOne f x = (if (f.dec x).finite then f.p else 0) ∧ IsDigits f x x x (digitsOne f x))
  ∧ (∀ (ty a b : Nat), ty < 4 →
      let t := Ity.of ty
      let x := t.el a 0
      let y := t.el b 0
      reduxInt 0 t a b = (wrapTo t.e (x + y), false)
      ∧ (∃ v, reduxInt 1 t a b = (v, false) ∧ v < 2 ^ t.e ∧ t.el v 0 = min x y)
      ∧ (∃ v, reduxInt 2 t a b = (v, false) ∧ v < 2 ^ t.e ∧ t.el v 0 = max x y)
      ∧ (∀ k, (reduxInt 3 t a b).1.testBit k = (a.testBit k && b.testBit k))
      ∧ (∀ k, (reduxInt 4 t a b).1.testBit k = (a.testBit k || b.testBit k))
      ∧ (∀ k, (reduxInt 5 t a b).1.testBit k = (a.testBit k != b.testBit k))
      ∧ (reduxInt 3 t a b).2 = false ∧ (reduxInt 4 t a b).2 = false ∧ (reduxInt 5 t a b).2 = false
      ∧ reduxInt 6 t a b = (wrapTo t.e (clamped t (x + y)), clamped t (x + y) != x + y))
  ∧ (∀ (t : Fty) (x : Pfx) (c : Cur) (l q a b : Nat), q < 8 → quadBits c.frag.exec q ≠ 0#4 → (∀ k, k < q → quadBits c.frag.exec k = 0#4) →
      let lead := 4 * q + l % 4
      let el := fun v j => t.fmt.flush (c.ftz lead) (t.el v j)
      reduxFloat 7 t x c l a b
        = (t.pack (fun j => rounded t x c lead j (fvAdd (c.roundMode x lead j) (t.fmt.dec (el a j)) (t.fmt.dec (el b j)))), false)
      ∧ ∀ mx : Bool, ∃ v : Nat → Nat, reduxFloat (if mx then 9 else 8) t x c l a b = (t.pack v, false)
          ∧ (a < 2 ^ 64 → b < 2 ^ 64 → (t.wide = false → a < 2 ^ 32 ∧ b < 2 ^ 32) → ∀ j ∈ t.elems, MinMaxes t.fmt mx (el a j) (el b j) (v j)))
  ∧ ∀ (f : Nat → Nat → Nat → Nat × Bool) (d : Nat) (ds : List Nat) (v : List (Option (Nat × Bool))), reduxTree f [] v = v
      ∧ ∃ w : List (Option (Nat × Bool)), w.length = d ∧ reduxTree f (d :: ds) v = reduxTree f ds w
        ∧ ∀ l, l < d → w.getD l none = match v.getD l none, v.getD (l + d) none with
          | none, y => y
          | x, none => x
          | some x, some y => some ((f l x.1 y.1).1, x.2 || y.2 || (f l x.1 y.1).2)

/-- FDIV and the special functions: the result is fixed at issue and stands as an operation of path X, the destination keeps its value in that
step, and DIVZ events are counted. That the result is bound at issue and reaches the destination in a later step is log entry 7, and that the bounds of FEXP2, FLOG2, FSINPI and FCOSPI settle their rounding is log entry 55: both are the model's choice. -/
def Obligations.SpecialFunctionsCountOnX : Prop :=
  ∀ (i : Instr) (r : SlowRow) (c : Cur) (s : State), slowRow i = some r → VectorReady r.o c s → c.gang.counter .x < 63 →
    (divzOf r c = [] ∨ nitAction c.gang.nitcfg 3 < 2) →
    GangDone r.o.p c s (LaterEffect r.o .x (r.o.words c (fun c l => (r.t.pack (r.el c l), 0))) c
      (countNit 3 (countedHits c 3 (divzOf r c)))) (exec i s)

/-- The compares: the acting bits of the predicate take the outcome, by majority of the siblings in TRIPLE, CMP events are counted,
and no other bit of any predicate changes. A CMP event fires for each acting quad whose three siblings do not agree, and no other. -/
def Obligations.ComparesWritePredicates : Prop :=
  (∀ (i : Instr) (r : CmpRow) (c : Cur) (s : State), cmpRow i = some r → Issues r.o.i c s →
    (∀ a ∈ r.o.srcs, a.ok c.regs = true) → c.poison true (pfxGuard r.o.x) r.o.srcs = false →
    (c.split (r.f c) (c.act (pfxGuard r.o.x)) = [] ∨ nitAction c.gang.nitcfg 2 < 2) →
    GangDone r.o.p c s (CompareEffect r.o c (c.vote (r.f c))
      (countNit 2 (countedHits c 2 (c.split (r.f c) (c.act (pfxGuard r.o.x)))))) (exec i s))
  ∧ ∀ (c : Cur) (f : Nat → Bool) (a : Mask) (q : Nat),
    q ∈ (c.split f a).map (fun h => h.quad) ↔ c.triple = true ∧ q < 8 ∧ quadBits a q ≠ 0#4 ∧ (c.gang.quad q).sib = true
      ∧ ¬(f (4 * q) = f (4 * q + 1) ∧ f (4 * q) = f (4 * q + 2))

/-- QSWAP, QBCAST and REDUX: every acting lane takes its word at once, and no latch is pushed. -/
def Obligations.QuickExchanges : Prop :=
  ∀ (i : Instr) (r : ExchRow) (c : Cur) (s : State), quickExch i = some r → ExchReady r c s →
    ∃ bits : Nat,
      (∀ k, bits.testBit k = lanes.any (fun l => r.o.acts c l && (r.f c l).2.testBit k))
      ∧ VectorDone r.o false c s (fun l => (r.f c l).1) (withSat bits) (exec i s)

/-- SHFL, SLIDE and MATCH: the words are fixed at issue and stand as an operation of path S; the destination keeps its value in that step. That
the words are bound at issue and reach the destination in a later step is log entry 7, the model's choice. -/
def Obligations.SlowExchangesCountOnS : Prop :=
  ∀ (i : Instr) (r : ExchRow) (c : Cur) (s : State), slowExch i = some r → ExchReady r c s → c.gang.counter .s < 63 →
    GangDone r.o.p c s (LaterEffect r.o .s (r.o.words c r.f) c id) (exec i s)

/-- VOTE.ANY, VOTE.ALL and ELECT write the bits of EXEC in their predicate. VOTE.BAL puts the predicate's bits of EXEC in a scalar; with
EXEC zero it writes nothing. -/
def Obligations.VotesAndBallots : Prop :=
  (∀ (i : Instr) (ps : Option (BitVec 3)) (pd : BitVec 3) (p : Bool) (v : Cur → Nat → Bool) (c : Cur) (s : State),
    voteRow i = some (ps, pd, p, v) → Issues i c s → (∀ n, ps = some n → c.frag.exec ≠ 0#32 → c.gang.ppoisoned n = false) →
    GangDone p c s (PredicateEffect i c pd c.frag.exec (v c)) (exec i s))
  ∧ ∀ (ps : BitVec 3) (sd : BitVec 6) (p : Bool) (c : Cur) (s : State), Issues (.voteBal ps sd p) c s → c.gang.ppoisoned ps = false →
    GangDone p c s (fun g =>
      if c.frag.exec = 0#32 then g = c.gang.issue (.voteBal ps sd p) c
      else ScalarEffect (.voteBal ps sd p) c sd (BitVec.ofNat 64 (bitsOf (fun l => (c.gang.pr ps).getLsbD l && c.frag.exec.getLsbD l) 32)) g)
      (exec (.voteBal ps sd p) s)

/-- READLN: with no acting lane it writes nothing; else the scalar takes the lane's word. WRITELN: the acting lane it names, or in TRIPLE
the acting lanes of its quad, take the scalar. -/
def Obligations.LaneScalarMoves : Prop :=
  (∀ (i : Instr) (r : ReadlnRow) (c : Cur) (s : State), readlnRow i = some r → Issues r.o.i c s →
    (∀ a ∈ r.o.srcs, a.ok c.regs = true) → c.guardPoisoned (pfxGuard r.o.x) = false →
    (c.act (pfxGuard r.o.x) ≠ 0#32 →
      (∀ a ∈ r.o.srcs, a.poisoned c (if c.triple then r.lane c / 4 * 4 + 3 else r.lane c) = false)
      ∧ ∀ n, r.sl = some n → c.spoisoned n = false) →
    GangDone r.o.p c s (fun g => if c.act (pfxGuard r.o.x) = 0#32 then g = c.gang.issue i c else ReadlnEffect r c g) (exec i s))
  ∧ ∀ (i : Instr) (r : WritelnRow) (c : Cur) (s : State), writelnRow i = some r → Issues i c s → regOk c.regs r.d.toNat false = true →
    c.guardPoisoned (pfxGuard r.x) = false →
    (c.act (pfxGuard r.x) ≠ 0#32 → ∀ n, r.sl = some n → c.spoisoned n = false) →
    ((∃ l, r.hits c l = true) → c.spoisoned r.sa = false) →
    GangDone r.p c s (WritelnEffect i r c) (exec i s)

/-- The scalar rows, SLI and PLOP.TOS. -/
def Obligations.ScalarRowsCompute : Prop :=
  ∀ (i : Instr) (r : ScalarRow) (c : Cur) (s : State), scalarRow i = some r → Issues i c s →
    (∀ n ∈ r.reads, c.spoisoned n = false) → (∀ pa sd p, i = .plopTos pa sd p → c.gang.ppoisoned pa = false) →
    GangDone r.p c s (ScalarEffect i c r.sd (r.val c)) (exec i s)

/-- PLOP and PLOP.FROMS write every bit of the fragment mask, whatever EXEC holds; in TRIPLE a quad takes its reference lane's bit. -/
def Obligations.PredicateLogic : Prop :=
  ∀ (i : Instr) (ok : Cur → Bool) (pd : BitVec 3) (p : Bool) (v : Cur → Nat → Bool) (c : Cur) (s : State),
    plopRow i = some (ok, pd, p, v) → Issues i c s → ok c = true →
    GangDone p c s (PredicateEffect i c pd c.frag.mask (fun l => v c (if c.triple then l / 4 * 4 + 3 else l))) (exec i s)

/-- SREAD: the scalar takes the special register; ICOUNT goes into a register pair of the lanes of EXEC. Which counts of a gang's other
fragments NITCNT may miss is log entry 19's reading. -/
def Obligations.SpecialReads : Prop :=
  ∀ (sel sd : BitVec 6) (p : Bool) (c : Cur) (s : State), Issues (.sread sel sd p) c s →
    (sel = 5#6 → sd.toNat % 2 = 0 ∧ sd.toNat + 1 < c.regs) →
    if sel = 5#6 then GangDone p c s (IcountEffect (.sread sel sd p) sd c) (exec (.sread sel sd p) s)
    else ∃ v, mayRead sel c s v ∧ GangDone p c s (ScalarEffect (.sread sel sd p) c sd v) (exec (.sread sel sd p) s)

/-- SWRITE of a register a program may write, and LEASE, which declares a lease. A program that writes a register it may not write takes
PERM, and one that names no register that exists takes RESERVED: neither completes nor writes anything. An SREAD of LEASECFG gives zero.
That SWRITE writes SIG in a handler too is log entry 18's reading. -/
def Obligations.SpecialWrites : Prop :=
  ((∀ (sa sel : BitVec 6) (p : Bool) (c : Cur) (s : State) (h : Gang), Issues (.swrite sa sel p) c s → c.spoisoned sa = false →
    swritten sel c (c.s sa) (c.gang.issue (.swrite sa sel p) c) = some h →
    GangDone p c s (fun g => g = { h with book := { h.book with swrote := g.book.swrote } }) (exec (.swrite sa sel p) s))
  ∧ ∀ (sa : BitVec 6) (p : Bool) (c : Cur) (s : State), Issues (.lease sa p) c s → c.spoisoned sa = false →
    GangDone p c s (fun g => g = { c.gang.issue (.lease sa p) c with
        leaseDecl := BitVec.ofNat 16 (c.s sa).toNat, book := { c.gang.book with swrote := g.book.swrote } })
      (exec (.lease sa p) s))
  ∧ ∀ (sa sel : BitVec 6) (p : Bool) (c : Cur) (s : State), cur s = some c →
    (sel.toNat ∈ [0x05, 0x06, 0x07, 0x0A, 0x0C, 0x0E] → ∃ t, exec (.swrite sa sel p) s = .next t
      ∧ FaultHeld c c.frag.pc c.frag.pc { cls := 0x04 } c.gang s t)
    ∧ (14 < sel.toNat → ∃ t, exec (.swrite sa sel p) s = .next t
      ∧ FaultHeld c c.frag.pc c.frag.pc { cls := 0x01, kind := 2 } c.gang s t)
    ∧ ∀ sd : BitVec 6, Issues (.sread 0x0A#6 sd p) c s →
      GangDone p c s (ScalarEffect (.sread 0x0A#6 sd p) c sd 0#64) (exec (.sread 0x0A#6 sd p) s)

/-- BRA and BRA on a predicate: the whole fragment moves, where some lane of EXEC takes the branch, and never splits. CALL puts the address
of the next instruction in s63, RET goes where s63 says; both empty the upper levels. BRA and CALL to a register take their target from the
pair of one lane. A misaligned target: a branch or a call to a register, or a RET, whose address is odd takes MISALIGN and does not move. That a target
loses the bits above 56 is log entry 14's reading. -/
def Obligations.BranchesCallsAndReturns : Prop :=
  ((∀ (disp : BitVec 19) (p : Bool) (c : Cur) (s : State), Issues (.bra disp p) c s →
      GangDone p c s (fun g => g = goneTo (.bra disp p) c (target c disp)) (exec (.bra disp p) s))
    ∧ ∀ (disp : BitVec 19) (n : Bool) (pr : BitVec 3) (p : Bool) (c : Cur) (s : State), Issues (.braCond disp n pr p) c s →
      (c.frag.exec ≠ 0#32 → c.gang.ppoisoned pr = false) →
      GangDone p c s (fun g => g = if someTake c n pr then goneTo (.braCond disp n pr p) c (target c disp) else c.gang.issue (.braCond disp n pr p) c)
        (exec (.braCond disp n pr p) s))
  ∧ ((∀ (disp : BitVec 19) (p : Bool) (c : Cur) (s : State), Issues (.call disp p) c s →
      GangDone p c s (fun g => g = calledTo (.call disp p) c (target c disp)) (exec (.call disp p) s))
    ∧ ∀ (p : Bool) (c : Cur) (s : State), Issues (.ret p) c s → c.spoisoned 63#6 = false → (c.s 63#6).getLsbD 0 = false →
      GangDone p c s (fun g => g = (goneTo (.ret p) c (c.s 63#6 &&& 0x01FFFFFFFFFFFFFE#64)).invalidate c.frag.mask) (exec (.ret p) s))
  ∧ ((∀ (vn : BitVec 6) (p : Bool) (c : Cur) (s : State), RegBranch (.braReg vn p) vn c s →
      GangDone p c s (fun g => g = goneTo (.braReg vn p) c (pairAt c vn &&& 0x01FFFFFFFFFFFFFE#64)) (exec (.braReg vn p) s))
    ∧ ∀ (vn : BitVec 6) (p : Bool) (c : Cur) (s : State), RegBranch (.callReg vn p) vn c s →
      GangDone p c s (fun g => g = calledTo (.callReg vn p) c (pairAt c vn &&& 0x01FFFFFFFFFFFFFE#64)) (exec (.callReg vn p) s))
    ∧ (∀ (i : Instr) (vn : BitVec 6) (p : Bool) (c : Cur) (s : State), (i = .braReg vn p ∨ i = .callReg vn p) → Issues i c s →
      vn.toNat % 2 = 0 → vn.toNat + 1 < c.regs →
      (c.frag.exec ≠ 0#32 → c.vpoisoned vn.toNat (targetLane c) = false ∧ c.vpoisoned (vn.toNat + 1) (targetLane c) = false) →
      (pairAt c vn).getLsbD 0 = true →
      ∃ t, exec i s = .next t ∧ FaultHeld c c.frag.pc c.frag.pc { cls := 0x02, addr := pairAt c vn } c.gang s t)
    ∧ ∀ (p : Bool) (c : Cur) (s : State), Issues (.ret p) c s → c.spoisoned 63#6 = false → (c.s 63#6).getLsbD 0 = true →
      ∃ t, exec (.ret p) s = .next t ∧ FaultHeld c c.frag.pc c.frag.pc { cls := 0x02, addr := c.s 63#6 } c.gang s t

/-- BRV: with no quad mixed and no quads on both sides the fragment moves or stays; else it splits, if a record and room on every mixed
quad's stack are free, and raises QSTACK if not. That a target loses the bits above 56 is log entry 14's reading. -/
def Obligations.DivergentBranchSplits : Prop :=
  ∀ (disp : BitVec 19) (n : Bool) (pr : BitVec 3) (p : Bool) (c : Cur) (s : State), Issues (.brv disp n pr p) c s →
    (c.frag.exec ≠ 0#32 → c.gang.ppoisoned pr = false) →
    let t := maskOf (takes c n pr)
    let room := (List.range 8).all (fun q => !(quadBits c.frag.mask q != 0#4 && quadMixed c t q) || decide ((c.gang.quad q).stack.length < 8))
    (parts c t = false → GangDone p c s (fun g => g =
      (if t = 0#32 then c.gang.issue (.brv disp n pr p) c else goneTo (.brv disp n pr p) c (target c disp)).invalidate c.frag.mask)
      (exec (.brv disp n pr p) s))
    ∧ (parts c t = true → (List.range 8).any (fun k => (aget k c.gang.recs).isNone) = true → room = true →
      (elsewhere c t ≠ 0#32 → (List.range 8).any (fun k => (aget k c.gang.frags).isNone) = true) →
      ∃ k, GangDone p c s (SplitEffect (.brv disp n pr p) c t disp k) (exec (.brv disp n pr p) s))
    ∧ (parts c t = true → ((List.range 8).all (fun k => (aget k c.gang.recs).isSome) = true ∨ room = false) →
      ∃ u, exec (.brv disp n pr p) s = .next u ∧ FaultHeld c c.frag.pc c.frag.pc { cls := 0x06 } c.gang s u)

/-- REGANG outside a split, or in a handler: an invalidation point at which a region begins; SIG is cleared but in a handler. REGANG.WAIT of
the last fragment of a split, no stack entry of its quads naming the split: all the split's fragments become one, with the split's lanes,
at the next instruction, and the record is free. -/
def Obligations.RegangStartsARegionOrFuses : Prop :=
  (∀ (i : Instr) (p : Bool) (c : Cur) (s : State), (i = .regangWait p ∨ i = .regangTry p) → Issues i c s →
    (c.frag.split = none ∨ c.frag.inHandler = true) →
    GangDone p c s (fun g => ∃ f, aget c.r.frag (c.gang.issue i c).frags = some f ∧
      RegionStart c.r.frag (if c.frag.inHandler then f else { f with sig := 0#32 })
        (withFrag ((c.gang.issue i c).invalidate c.frag.mask) c.r.frag (fun f => if c.frag.inHandler then f else { f with sig := 0#32 })) g)
      (exec i s))
  ∧ ∀ (p : Bool) (c : Cur) (s : State) (k : Nat) (x : SplitRec), Issues (.regangWait p) c s → c.frag.inHandler = false →
    c.frag.split = some k → aget k c.gang.recs = some x → (x.jpc = 0#64 ∨ x.jpc = c.frag.pc) →
    (∀ q, c.gang.topFor q k = none) → (c.gang.frags.map Prod.fst).Pairwise (· < ·) →
    (∀ e ∈ c.gang.frags, e.1 ≠ c.r.frag → c.gang.descends e.2 k = true → e.2.waiting = true ∧ e.2.split = some k) →
    x.origin = (c.gang.frags.filter (fun e => e.1 == c.r.frag || c.gang.descends e.2 k)).foldl (fun m e => m ||| e.2.mask) 0#32 →
    GangDone p c s (fun g => aget k g.recs = none ∧ ∃ j f, aget j g.frags = some f ∧ f.mask = x.origin ∧ f.pc = after4 c
      ∧ f.split = x.parent ∧ f.sig = 0#32 ∧ f.waiting = false
      ∧ f.exec = (c.gang.frags.filter (fun e => e.1 == c.r.frag || c.gang.descends e.2 k)).foldl (fun m e => m ||| e.2.exec) 0#32
      ∧ ∀ e ∈ c.gang.frags, e.1 ≠ j → (e.1 = c.r.frag ∨ c.gang.descends e.2 k = true) → aget e.1 g.frags = none)
      (exec (.regangWait p) s)

/-- The other fragments of a split (R26). -/
def kin (c : Cur) (k : Nat) : List (Nat × Frag) := c.gang.frags.filter (fun e => e.1 != c.r.frag && c.gang.descends e.2 k)

/-- Those of them that stand at the instruction that `c` executes, and that a REGANG.TRY there fuses. -/
def standing (c : Cur) (k : Nat) : List (Nat × Frag) :=
  c.gang.frags.filter (fun e => e.1 != c.r.frag && e.2.split == some k && e.2.pc == c.frag.pc && e.2.hold == .run && !e.2.waiting && !e.2.inHandler)

/-- The lanes of some fragments, and those of them in EXEC. -/
def unionMask (l : List (Nat × Frag)) : Mask := l.foldl (fun m e => m ||| e.2.mask) 0#32
def unionExec (l : List (Nat × Frag)) : Mask := l.foldl (fun m e => m ||| e.2.exec) 0#32

/-- A fragment of a split comes to a REGANG (R26). -/
structure AtRegang (i : Instr) (p : Bool) (k : Nat) (x : SplitRec) (c : Cur) (s : State) : Prop extends Issues i c s where
  regang : i = .regangWait p ∨ i = .regangTry p
  plain : c.frag.inHandler = false
  split : c.frag.split = some k
  record : aget k c.gang.recs = some x
  order : (c.gang.frags.map Prod.fst).Pairwise (· < ·)

/-- A fused fragment, at the instruction after the REGANG, of the split `sp`: the split's lanes come together in it, and the fragments it
took in are gone (R26, R27). -/
def FusedAs (j : Nat) (gone : List (Nat × Frag)) (mask exec : Mask) (pc : DWord) (sp : Option Nat) (g : Gang) : Prop :=
  (∃ f, aget j g.frags = some f ∧ f.mask = mask ∧ f.exec = exec ∧ f.pc = pc ∧ f.split = sp ∧ f.sig = 0#32 ∧ f.waiting = false)
  ∧ ∀ e ∈ gone, e.1 ≠ j → aget e.1 g.frags = none

/-- REGANG in a split. A WAIT parks its fragment while another of the split runs. A TRY fuses it with those that stand there, and ends the
split if that is all of it; alone, it goes on. A quad that comes with its first side goes on with its second, from the fall-through, and
one that comes with its second takes back its lanes. A WAIT at another address than the split's earlier one, and a last WAIT at which
lanes are missing, raise SIGFAIL: the gang halts and nothing fuses. That a fragment formed for a second side is in no handler is log entry
63, the model's choice. -/
def Obligations.RegangParksTurnsAndFails : Prop :=
  (∀ (p : Bool) (k : Nat) (x : SplitRec) (c : Cur) (s : State), AtRegang (.regangWait p) p k x c s → (∀ q, c.gang.topFor q k = none) →
    (x.jpc = 0#64 ∨ x.jpc = c.frag.pc) → (∃ e ∈ kin c k, e.2.waiting = false ∨ e.2.split ≠ some k) →
    GangDone p c s (fun g =>
      let f0 : Frag := { issuedFrag (.regangWait p) c.frag with waiting := true, sig := 0#32 }
      RegionStart c.r.frag f0 { (c.gang.issue (.regangWait p) c).invalidate c.frag.mask with
        recs := amod k (fun y => { y with jpc := c.frag.pc }) c.gang.recs
        frags := amod c.r.frag (fun f => { f with waiting := true, sig := 0#32 }) (c.gang.issue (.regangWait p) c).frags } g)
      (exec (.regangWait p) s))
  ∧ (∀ (p : Bool) (k : Nat) (x : SplitRec) (c : Cur) (s : State), AtRegang (.regangTry p) p k x c s → (∀ q, c.gang.topFor q k = none) →
    (standing c k = [] → GangDone p c s (fun g =>
      RegionStart c.r.frag { issuedFrag (.regangTry p) c.frag with sig := 0#32 }
        (withFrag ((c.gang.issue (.regangTry p) c).invalidate c.frag.mask) c.r.frag (fun f => { f with sig := 0#32 })) g)
      (exec (.regangTry p) s))
    ∧ (standing c k ≠ [] →
      let all := (c.r.frag, c.frag) :: standing c k
      let whole := unionMask all = x.origin ∧ ∀ e ∈ kin c k, e ∈ standing c k
      GangDone p c s (fun g =>
        (whole → aget k g.recs = none ∧ FusedAs c.r.frag all (unionMask all) (unionExec all) (after4 c) x.parent g)
        ∧ (¬whole → aget k g.recs = some x ∧ FusedAs c.r.frag all (unionMask all) (unionExec all) (after4 c) (some k) g)
        ∧ (∀ e ∈ c.gang.frags, e.1 ≠ c.r.frag → e ∉ standing c k → aget e.1 g.frags = some e.2)
        ∧ ∀ q, q < c.gang.quads.length → (g.quad q).icount = (c.gang.quad q).icount
            + BitVec.ofNat 48 ((all.filter (fun e => quadBits e.2.exec q != 0#4)).length))
        (exec (.regangTry p) s)))
  ∧ (∀ (i : Instr) (p : Bool) (k : Nat) (x : SplitRec) (pc : DWord) (c : Cur) (s : State), AtRegang i p k x c s → c.frag.mask ≠ 0#32 →
    (∀ q, q < 8 → quadBits c.frag.mask q ≠ 0#4 → ∃ e, c.gang.topFor q k = some e ∧ e.second = false ∧ e.pc = pc) →
    GangDone p c s (fun g => aget k g.recs = some x
      ∧ (∃ f, aget c.r.frag g.frags = some f ∧ f.pc = pc ∧ f.split = some k ∧ f.sig = 0#32 ∧ f.waiting = false ∧ f.inHandler = false
        ∧ ∀ q, q < 8 → (quadBits c.frag.mask q = 0#4 → quadBits f.mask q = 0#4 ∧ (g.quad q).stack = (c.gang.quad q).stack)
          ∧ ∀ e rest, quadBits c.frag.mask q ≠ 0#4 → (c.gang.quad q).stack = e :: rest → quadBits f.mask q = e.notTaken
            ∧ quadBits f.exec q = e.notTaken &&& e.xl
            ∧ (g.quad q).stack = { e with second := true, pc := c.frag.pc, xl := quadBits c.frag.exec q } :: rest)
      ∧ ∀ e ∈ c.gang.frags, e.1 ≠ c.r.frag → aget e.1 g.frags = some e.2) (exec i s))
  ∧ (∀ (p : Bool) (k : Nat) (x : SplitRec) (m m' : Mask) (c : Cur) (s : State), AtRegang (.regangWait p) p k x c s → kin c k = [] →
    (x.jpc = 0#64 ∨ x.jpc = c.frag.pc) → (∀ q e, q < 8 → quadBits c.frag.mask q ≠ 0#4 → c.gang.topFor q k = some e → e.second = true) →
    (∀ q, q < 8 → (quadBits m q, quadBits m' q) =
      match quadBits c.frag.mask q != 0#4, c.gang.topFor q k with
      | true, some e => (e.lanes, (quadBits c.frag.exec q ||| e.xl) &&& e.lanes)
      | _, _ => (quadBits c.frag.mask q, quadBits c.frag.exec q)) →
    x.origin = m →
    GangDone p c s (fun g => aget k g.recs = none ∧ FusedAs c.r.frag [] m m' (after4 c) x.parent g
      ∧ ∀ q e, q < 8 → quadBits c.frag.mask q ≠ 0#4 → c.gang.topFor q k = some e → (g.quad q).stack = (c.gang.quad q).stack.tail)
      (exec (.regangWait p) s))
  ∧ (∀ (p : Bool) (k : Nat) (x : SplitRec) (c : Cur) (s : State), AtRegang (.regangWait p) p k x c s → (∀ q, c.gang.topFor q k = none) →
    x.jpc ≠ 0#64 → x.jpc ≠ c.frag.pc → ∃ t, exec (.regangWait p) s = .next (parked p c t)
      ∧ GangHalts c { cls := 0x0A } ((c.gang.issue (.regangWait p) c).invalidate c.frag.mask) s t)
  ∧ ∀ (p : Bool) (k : Nat) (x : SplitRec) (c : Cur) (s : State), AtRegang (.regangWait p) p k x c s → (∀ q, c.gang.topFor q k = none) →
    (x.jpc = 0#64 ∨ x.jpc = c.frag.pc) → (∀ e ∈ kin c k, e.2.waiting = true ∧ e.2.split = some k) →
    unionMask ((c.r.frag, c.frag) :: kin c k) ≠ x.origin →
    ∃ t, exec (.regangWait p) s = .next (parked p c t)
      ∧ (∃ n y, aget n t.tokens = some y ∧ y.vectorC = true ∧ y.live = true ∧ y.record.cls = 0x0A#8 ∧ y.record.pc = c.frag.pc
          ∧ y.record.gang = c.r.gang)
      ∧ ∀ g, gangOf (gangRefOf c.r) t = some g → g.halted = true ∧ g.active = false
          ∧ aget k g.recs = some { x with jpc := c.frag.pc } ∧ ∀ e ∈ c.gang.frags, ∃ f, aget e.1 g.frags = some f ∧ f.mask = e.2.mask

/-- The fragment that `c` names has gone and its lanes have ended, with its part of every split it descended from (R28). -/
structure LanesEnd (c : Cur) (g : Gang) : Prop where
  exited : ∀ l, l < 32 → g.exited.getLsbD l = (c.gang.exited.getLsbD l || c.frag.mask.getLsbD l)
  goes : g.ended = c.gang.ended

/-- EXIT. Where the gang goes on, a quad with another side to run goes on with it, in a fragment at its address. In a split, the lanes leave
the records: one with a fragment left stays, and its fragments fuse if they all wait; one with none is free. Of a gang's only fragment, no
quad of it with another side to run: the gang ends, or is gone with its group, and a gang that stays has no fragment and only its stores
and atomics in flight. -/
def Obligations.ExitLeavesTheOthersOrEndsTheGang : Prop :=
  (∀ (p : Bool) (pc : DWord) (c : Cur) (s : State), Issues (.exit p) c s → c.frag.inHandler = false → c.frag.mask ≠ 0#32 → c.r.frag < 8 →
    (c.gang.frags.map Prod.fst).Pairwise (· < ·) →
    (∀ q, q < 8 → quadBits c.frag.mask q ≠ 0#4 → ∃ e rest, (c.gang.quad q).stack = e :: rest ∧ e.pc = pc
      ∧ (if e.second then e.lanes else e.notTaken) &&& ~~~ quadBits c.frag.mask q ≠ 0#4) →
    GangDone p c s (fun g => LanesEnd c g
      ∧ (∃ j f, aget j g.frags = some f ∧ (j = c.r.frag ∨ (aget j c.gang.frags = none ∧ aget c.r.frag g.frags = none))
        ∧ f.pc = pc ∧ f.split = c.frag.split ∧ f.sig = 0#32 ∧ f.waiting = false
        ∧ ∀ q, q < 8 → (quadBits c.frag.mask q = 0#4 → quadBits f.mask q = 0#4)
          ∧ ∀ e rest, quadBits c.frag.mask q ≠ 0#4 → (c.gang.quad q).stack = e :: rest →
            quadBits f.mask q = (if e.second then e.lanes else e.notTaken) &&& ~~~ quadBits c.frag.mask q
            ∧ quadBits f.exec q = quadBits f.mask q &&& e.xl
            ∧ ∃ e' rest', (g.quad q).stack = e' :: rest' ∧ rest'.length = rest.length ∧ e'.second = true ∧ e'.split = e.split
              ∧ e'.lanes = e.lanes &&& ~~~ quadBits c.frag.mask q
              ∧ (e.second = true → e'.pc = e.pc ∧ e'.xl = e.xl) ∧ (e.second = false → e'.pc = 0#64 ∧ e'.xl = 0#4))
      ∧ ∀ e ∈ c.gang.frags, e.1 ≠ c.r.frag → aget e.1 g.frags = some e.2) (exec (.exit p) s))
  ∧ (∀ (p : Bool) (k : Nat) (x : SplitRec) (c : Cur) (s : State), Issues (.exit p) c s → c.frag.inHandler = false →
    c.frag.split = some k → aget k c.gang.recs = some x → (c.gang.frags.map Prod.fst).Pairwise (· < ·) →
    (∀ q, quadBits c.frag.mask q ≠ 0#4 → (c.gang.quad q).stack = []) →
    ((∃ e ∈ kin c k, e.2.waiting = false ∨ e.2.split ≠ some k) → GangDone p c s (fun g => LanesEnd c g ∧ aget c.r.frag g.frags = none
      ∧ (∀ e ∈ c.gang.frags, e.1 ≠ c.r.frag → aget e.1 g.frags = some e.2)
      ∧ ∀ j, aget j g.recs = (aget j c.gang.recs).map (fun y =>
          if c.gang.descends c.frag j then { y with origin := y.origin &&& ~~~ c.frag.mask } else y)) (exec (.exit p) s))
    ∧ (kin c k ≠ [] → (∀ e ∈ kin c k, e.2.waiting = true ∧ e.2.split = some k) → unionMask (kin c k) = x.origin &&& ~~~ c.frag.mask →
      GangDone p c s (fun g => LanesEnd c g ∧ aget c.r.frag g.frags = none ∧ aget k g.recs = none
        ∧ ∃ j, j ∈ (kin c k).map Prod.fst ∧ FusedAs j (kin c k) (unionMask (kin c k)) (unionExec (kin c k))
            ((x.jpc + 4#64) &&& 0x01FFFFFFFFFFFFFE#64) x.parent g) (exec (.exit p) s))
    ∧ (kin c k = [] → x.parent = none → (∃ e ∈ c.gang.frags, e.1 ≠ c.r.frag) → GangDone p c s (fun g => LanesEnd c g
      ∧ aget c.r.frag g.frags = none ∧ aget k g.recs = none ∧ (∀ j, j ≠ k → aget j g.recs = aget j c.gang.recs)
      ∧ ∀ e ∈ c.gang.frags, e.1 ≠ c.r.frag → aget e.1 g.frags = some e.2) (exec (.exit p) s)))
  ∧ ∀ (p : Bool) (c : Cur) (s : State), Issues (.exit p) c s → c.gang.frags = [(c.r.frag, c.frag)] → c.frag.split = none →
    (∀ q, (c.gang.quad q).stack = []) →
    ∃ t, exec (.exit p) s = .next t ∧
      ∀ g, gangOf (gangRefOf c.r) t = some g → g.ended = true ∧ g.active = false ∧ g.frags = []
        ∧ (∀ l, l < 32 → g.exited.getLsbD l = (c.gang.exited.getLsbD l || c.frag.mask.getLsbD l))
        ∧ ∀ o ∈ g.ops, o.path = .w ∨ o.log.isSome = true

/-- Groups and gangs stand in the order of their keys. -/
def keysRise (s : State) : Prop :=
  (akeys s.groups).Pairwise (· < ·) ∧ ∀ e ∈ s.groups, (akeys e.2.gangs).Pairwise (· < ·)

/-- NOP changes nothing but what issue changes; REGION begins a region at an invalidation point. YIELD marks its gang, and may give the
gang's place to one other, inactive gang of its partition; no register of any gang and no byte of memory or scratch changes. The mark
of a gang goes when another gang of its partition issues, and then alone. How long YIELD gives way is free: log entry 23. -/
def Obligations.NopRegionAndYield : Prop :=
  ((∀ (p : Bool) (c : Cur) (s : State), Issues (.nop p) c s →
    GangDone p c s (fun g => g = c.gang.issue (.nop p) c) (exec (.nop p) s))
  ∧ ∀ (p : Bool) (c : Cur) (s : State), Issues (.region p) c s →
    GangDone p c s (fun g => ∃ f, aget c.r.frag (c.gang.issue (.region p) c).frags = some f ∧
      RegionStart c.r.frag f ((c.gang.issue (.region p) c).invalidate c.frag.mask) g) (exec (.region p) s))
  ∧ ∀ (p : Bool) (c : Cur) (s : State), Issues (.yield p) c s →
    (∃ t g, exec (.yield p) s = .next (parked p c t) ∧ gangOf (gangRefOf c.r) t = some g ∧ ApartButSeats c s t
      ∧ ((g = { c.gang.issue (.yield p) c with yielded := some (cycleAt c.grp.core s).toNat }
          ∧ ∀ r, r ≠ gangRefOf c.r → (gangOf r t).map Gang.quiet = (gangOf r s).map Gang.quiet)
        ∨ (g = { c.gang.issue (.yield p) c with
              yielded := some (cycleAt c.grp.core s).toNat, active := false, exempt := false, starved := none, changedAt := g.changedAt }
          ∧ ∃ o go go', o ≠ gangRefOf c.r ∧ gangOf o s = some go ∧ gangOf o t = some go' ∧ go'.active = true
            ∧ (keysRise s → go.active = false ∧ go.partition = c.gang.partition)
            ∧ ∀ r, r ≠ gangRefOf c.r → r ≠ o → (gangOf r t).map Gang.quiet = (gangOf r s).map Gang.quiet)))
    ∧ ∀ (i : Instr) (r : GangRef) (grp : Group) (gg : Gang), r ≠ gangRefOf c.r → aget r.grp s.groups = some grp →
      aget r.gang grp.gangs = some gg → ∃ gg', gangOf r (begun i c s) = some gg'
        ∧ gg'.yielded = if grp.core = c.grp.core ∧ gg.partition = c.gang.partition then none else gg.yielded

/-- WAIT: it is an invalidation point once its path's counter is at most the threshold, and until then the fragment waits. -/
def Obligations.WaitComparesTheCounter : Prop :=
  ∀ (fromS : Bool) (imm sa : BitVec 6) (path : BitVec 3) (p : Bool) (c : Cur) (s : State), Issues (.wait fromS imm sa path p) c s →
    (fromS = true → c.spoisoned sa = false) →
    let limit := if fromS then min 63 (c.s sa).toNat else imm.toNat
    let path' : Path := if path = 0#3 then .g else if path = 1#3 then .s else if path = 2#3 then .k else if path = 3#3 then .x else .w
    (c.gang.counter path' ≤ limit → GangDone p c s (fun g => g = (c.gang.issue (.wait fromS imm sa path p) c).invalidate c.frag.mask)
      (exec (.wait fromS imm sa path p) s))
    ∧ (limit < c.gang.counter path' → exec (.wait fromS imm sa path p) s = .next { s with stalled := c.r :: s.stalled })

/-- PROGRESS and TRACE begin a region; on a launch under trial PROGRESS adds to its counter, and a session that takes the launch's queue
gets TRACE's record. -/
def Obligations.ProgressAndTrace : Prop :=
  (∀ (k : BitVec 3) (p : Bool) (c : Cur) (s : State), Issues (.progress k p) c s →
    ∃ t g f, aget c.r.frag (c.gang.issue (.progress k p) c).frags = some f ∧ gangOf (gangRefOf c.r) t = some g ∧ Apart c s t
      ∧ RegionStart c.r.frag f (c.gang.issue (.progress k p) c) g
      ∧ exec (.progress k p) s = .next (parked p c (if onTrial c.lau.fn s = some c.grp.launch then
          setMreg c.lau.fn (0x1B40 + 8 * k.toNat) (BitVec.ofNat 64 (((mreg c.lau.fn (0x1B40 + 8 * k.toNat) s).toNat + 1) % 2 ^ 48)) t else t)))
  ∧ ∀ (tag : BitVec 5) (sa : BitVec 6) (p : Bool) (c : Cur) (s : State), Issues (.trace tag sa p) c s → c.spoisoned sa = false →
    ∃ t g f, aget c.r.frag (c.gang.issue (.trace tag sa p) c).frags = some f ∧ gangOf (gangRefOf c.r) t = some g ∧ Apart c s t
      ∧ RegionStart c.r.frag f (c.gang.issue (.trace tag sa p) c) g
      ∧ exec (.trace tag sa p) s = .next (parked p c (if (mreg c.lau.fn 0x1A10 s).getLsbD c.lau.queue then
          traceRecord c.lau.fn (traceBytes c tag.toNat (c.s sa) s) t else t))

/-- SIGCHK outside a handler clears SIG; where SIG is not the scalar's low half the gang halts. In a handler it does nothing. -/
def Obligations.SigchkChecksTheSignature : Prop :=
  ∀ (sa : BitVec 6) (p : Bool) (c : Cur) (s : State), Issues (.sigchk sa p) c s → c.spoisoned sa = false →
    (c.frag.inHandler = true → GangDone p c s (fun g => g = c.gang.issue (.sigchk sa p) c) (exec (.sigchk sa p) s))
    ∧ (c.frag.inHandler = false → c.frag.sig.toNat = (c.s sa).toNat % 2 ^ 32 →
      GangDone p c s (fun g => g = withFrag (c.gang.issue (.sigchk sa p) c) c.r.frag (fun f => { f with sig := 0#32 }))
        (exec (.sigchk sa p) s))
    ∧ (c.frag.inHandler = false → c.frag.sig.toNat ≠ (c.s sa).toNat % 2 ^ 32 →
      ∃ t, exec (.sigchk sa p) s = .next t ∧ (∃ k x, aget k t.tokens = some x ∧ x.vectorC = true ∧ x.live = true
          ∧ x.record = recOf c c.frag.pc { cls := 0x0A })
        ∧ ∀ g, gangOf (gangRefOf c.r) t = some g → g.halted = true ∧ g.active = false)

/-- CTRRD: another context's session reads 0, as does a counter of fabric events in a virtual function; else the counter's register, less
some of what the gang's own instructions in flight have added to it, and more by some of what they may still add: exactly the register
where they add nothing. Which instructions those are, and how much they may still add, is log entry 19's reading, the model's choice. -/
def Obligations.CounterReads : Prop :=
  ∀ (n sd : BitVec 6) (p : Bool) (c : Cur) (s : State), Issues (.ctrrd n sd p) c s →
    let fn := ownerFn c.ctx s
    let ctl := (mreg fn 0x1B00 s).toNat
    let code := (mreg fn (0x1C00 + 8 * n.toNat) s).toNat % 65536
    let u := begun (.ctrrd n sd p) c s
    ∃ v, GangDone p c s (ScalarEffect (.ctrrd n sd p) c sd v) (exec (.ctrrd n sd p) s)
      ∧ (¬(ctl / 2 ^ 31 % 2 = 1 ∧ ctl / 256 % 64 = c.ctx.toNat) → v = 0#64)
      ∧ (ctl / 2 ^ 31 % 2 = 1 → ctl / 256 % 64 = c.ctx.toNat → (fn = 0 ∨ code ≠ 0x0030 ∧ code ≠ 0x0031) →
        (∃ a b, a ≤ c.counted n.toNat u ∧ b ≤ c.toCome code u
          ∧ v.toNat = ((mreg fn (0x1E00 + 8 * n.toNat) u).toNat + 2 ^ 48 - a + b) % 2 ^ 48)
        ∧ (code ≠ 0x0001 → mreg fn (0x1E00 + 8 * n.toNat) u = mreg fn (0x1E00 + 8 * n.toNat) s))
      ∧ (ctl / 2 ^ 31 % 2 = 1 → ctl / 256 % 64 = c.ctx.toNat → fn ≠ 0 → code = 0x0030 ∨ code = 0x0031 → v = 0#64)

/-- TRAP: in a handler it does nothing; with a handler that no fragment runs the fragment enters it; with none it is a fault that holds the
fragment, to go on after the instruction. BKPT is such a fault. RETT leaves the handler for the address in EPC; outside one it is an ILLOP
of kind OPERAND. That EPC loses the bits above 56 is log entry 14's reading, the model's choice. -/
def Obligations.SoftwareTrapsAndReturn : Prop :=
  (∀ (code : BitVec 6) (p : Bool) (c : Cur) (s : State), Issues (.trap code p) c s →
    (c.frag.inHandler = true → GangDone p c s (fun g => g = c.gang.issue (.trap code p) c) (exec (.trap code p) s))
    ∧ (∀ h, c.handler = some h → c.gang.frags.all (fun e => !e.2.inHandler) = true →
      GangDone p c s (fun g => g = trapped (c.gang.issue (.trap code p) c) c h (trapCause code)) (exec (.trap code p) s))
    ∧ (c.handler = none → c.frag.inHandler = false → ∃ t, exec (.trap code p) s = .next (parked p c t)
      ∧ FaultHeld c c.frag.pc (after4 c) { cls := 0x10, detail := BitVec.ofNat 32 (code.toNat * 2 ^ 24) } (c.gang.issue (.trap code p) c) s t))
  ∧ (∀ (code : BitVec 6) (p : Bool) (c : Cur) (s : State), Issues (.bkpt code p) c s →
    ∃ t, exec (.bkpt code p) s = .next (parked p c t)
      ∧ FaultHeld c c.frag.pc (after4 c) { cls := 0x11, detail := BitVec.ofNat 32 (code.toNat * 2 ^ 24) } (c.gang.issue (.bkpt code p) c) s t)
  ∧ ∀ (p : Bool) (c : Cur) (s : State), Issues (.rett p) c s →
    (c.frag.inHandler = true → noEntrant c.gang = true →
      GangDone p c s (fun g => g = withFrag (c.gang.issue (.rett p) c) c.r.frag (fun f =>
        { f with pc := c.gang.epc &&& 0x01FFFFFFFFFFFFFE#64, inHandler := false })) (exec (.rett p) s))
    ∧ (c.frag.inHandler = false → ∃ t, exec (.rett p) s = .next t
      ∧ FaultHeld c c.frag.pc c.frag.pc { cls := 0x01, kind := 3 } c.gang s t)

/-- A word that is no instruction raises ILLOP before it issues: the fragment is held at it, and nothing of issue has happened. The halfword
of zeros and the words of major opcode 0x7E are such words, of kind ILLEGAL; a code that is not listed, a field that must be zero or a
prefix of the wrong layout makes one of kind RESERVED, a required prefix that is missing one of kind OPERAND; the step that fetches one
raises it. What a step is, is log entry 2, the model's choice. -/
def Obligations.BadWordsTakeIllop : Prop :=
  (∀ (i : Instr) (k : Nat) (c : Cur) (s : State), badWord i = some k → cur s = some c →
    ∃ t, exec i s = .next t ∧ FaultHeld c c.frag.pc c.frag.pc { cls := 0x01, kind := k } c.gang s t)
  ∧ decode (.half 0) = .ok .illegalHalfword
  ∧ ∀ w : Nat, w < 2 ^ 32 → w % 2 = 1 → majorOf w = 0x7E →
      decode (.word w) = .ok (.illegal (BitVec.ofNat 23 (w / 512)) (w / 2 % 2 == 1))
  ∧ (∀ e ∈ badFrames, decode e.1 = .bad e.2)
  ∧ ∀ (r : FragRef) (c : Cur) (h0 h1 h2 h3 : Nat) (k : Illop) (s : State), Picked r c s → FetchAt c h0 h1 h2 h3 (atTurn s) →
    decode (frame h0 h1 h2 h3) = .bad k →
    ∃ t u, step s = .next t ∧ FaultHeld c c.frag.pc c.frag.pc { cls := 0x01, kind := k.code } c.gang u t
      ∧ u = { atTurn s with sel := some r, tlb := u.tlb, l2 := u.l2, mirror := u.mirror, hbmFlips := u.hbmFlips }

/-- An instruction of a vector row, arithmetic, logic, shift, conversion, function, compare or exchange, whose operand is beyond its limits
takes ILLOP of kind OPERAND; one within them that would consume poison halts its gang. Either way nothing of the gang's registers, flags
or pending counts changes but TCAUSE. -/
def Obligations.OperandLimitsAndPoison : Prop :=
  ∀ (i : Instr) (r : LimitRow) (c : Cur) (s : State), limitRow i = some r → Issues i c s →
    (r.ok c = false → ∃ t, exec i s = .next t ∧ FaultHeld c c.frag.pc c.frag.pc { cls := 0x01, kind := 3 } c.gang s t)
    ∧ (r.ok c = true → r.poison c = true → ∃ t, exec i s = .next t ∧ GangHalts c { cls := 0x0B } c.gang s t)

/-- A numerical event, CANCEL, CMP or DIVZ, is counted. With the action TRAP it sends the fragment to the kernel's handler, after the result
is written or, for the rows of path X, after the issue; where another fragment is in the handler it waits for it; with no handler, or in
it, it only counts. With the action HALT it holds the fragment, to go on after the instruction, for the rows of path X once the result is
written. -/
def Obligations.NumericalEventsTrapOrHalt : Prop :=
  (∀ (i : Instr) (r : FloatRow) (c : Cur) (s : State), floatRow i = some r → VectorReady r.o c s → r.hits c ≠ [] →
    NitOutcome r.o.p 1 (r.hits c) c s
      (VectorEffect r.o true c (fun l => r.t.pack (r.el c (c.lane true l))) (countNit 1 (r.hits c).length)) (exec i s)
    ∧ (nitAction c.gang.nitcfg 1 = 3 →
      ∃ w t, VectorEffect r.o true c (fun l => r.t.pack (r.el c (c.lane true l))) (countNit 1 (r.hits c).length) w
        ∧ exec i s = .next (parked r.o.p c t)
        ∧ FaultHeld c c.frag.pc (c.frag.pc + BitVec.ofNat 64 i.len) { cls := 0x05, detail := nitDetail 1 (r.hits c) } w s t))
  ∧ (∀ (i : Instr) (r : CmpRow) (c : Cur) (s : State), cmpRow i = some r → Issues r.o.i c s → (∀ a ∈ r.o.srcs, a.ok c.regs = true) →
    c.poison true (pfxGuard r.o.x) r.o.srcs = false →
    let hits := c.split (r.f c) (c.act (pfxGuard r.o.x))
    hits ≠ [] →
    NitOutcome r.o.p 2 hits c s (CompareEffect r.o c (c.vote (r.f c)) (countNit 2 hits.length)) (exec i s)
    ∧ (nitAction c.gang.nitcfg 2 = 3 →
      ∃ w t, CompareEffect r.o c (c.vote (r.f c)) (countNit 2 hits.length) w ∧ exec i s = .next (parked r.o.p c t)
        ∧ FaultHeld c c.frag.pc (c.frag.pc + BitVec.ofNat 64 i.len) { cls := 0x05, detail := nitDetail 2 hits } w s t))
  ∧ (∀ (i : Instr) (r : SlowRow) (c : Cur) (s : State), slowRow i = some r → VectorReady r.o c s → c.gang.counter .x < 63 → divzOf r c ≠ [] →
    let later := LaterEffect r.o .x (r.o.words c (fun c l => (r.t.pack (r.el c l), 0))) c (countNit 3 (divzOf r c).length)
    NitOutcome r.o.p 3 (divzOf r c) c s later (exec i s)
    ∧ (nitAction c.gang.nitcfg 3 = 3 → GangDone r.o.p c s (fun g => ∃ w op, later w ∧ w.ops.getLast?.map PendOp.id = some op
        ∧ g = withFrag w c.r.frag (fun f => { f with hold := .nitHalt op c.frag.pc (nitDetail 3 (divzOf r c)) })) (exec i s)))
  ∧ ∀ (r : GangRef) (op k : Nat) (gg : Gang) (o : PendOp) (f : Frag) (pc : DWord) (d : Word) (grp : Group) (s : State),
    Completes r op gg o s → o.satXs = false → (gg.ended || gg.halted) = false → gg.frags = [(k, f)] → f.hold = .nitHalt op pc d →
    aget r.grp s.groups = some grp → (aget grp.launch s.launches).isSome = true →
    ∃ t g n x, exec (.loadComplete r op) s = .next t ∧ t.mem = s.mem ∧ gangOf r t = some g
      ∧ Delivered o gg { g with frags := gg.frags, tcause := gg.tcause }
      ∧ g.frags = [(k, { f with hold := .fault n f.pc })] ∧ g.tcause = ({ cls := 0x05, detail := d } : FReq).tcause
      ∧ aget n t.tokens = some x ∧ x.live = true ∧ x.frags = [{ grp := r.grp, gang := r.gang, frag := k }]
      ∧ x.record.cls = 0x05#8 ∧ x.record.detail = d ∧ x.record.pc = pc

/-! Statements of encodings, the step and the start. -/

/-- The encoding of every well-formed instruction decodes to that instruction, with every operand at every value. -/
def Obligations.EncodingRoundTrips : Prop :=
  ∀ (i : Instr) (f : Frame), i.wf = true → encode i = some f → decode f = .ok i

/-- What decodes is well formed, and no two words but misused prefixes decode to one instruction: the encoder gives the word back.
A word after a prefix with a reserved major opcode is refused. -/
def Obligations.DecodedInstructionsAreWellFormed : Prop :=
  (∀ (h0 h1 h2 h3 : Nat) (i : Instr), h0 < 65536 → h1 < 65536 → h2 < 65536 → h3 < 65536 → decode (frame h0 h1 h2 h3) = .ok i →
    i.wf = true ∧ ((∀ w, i ≠ .xpPrefix w) → encode i = some (frame h0 h1 h2 h3)))
  ∧ ∀ x w : Nat, x / 2 % 2 = 0 → w % 2 = 1 → majorOf w ∈ [0x4D, 0x4E, 0x4F, 0x7A, 0x7B, 0x7C, 0x7D] →
      decode (.pair x w) = .bad .reserved

/-- Words written out from the encoding tables, one of each family and format, decode to the instructions they stand for, and are what
the encoder gives. -/
def Obligations.SpecWordsDecode : Prop :=
  ∀ e ∈ specWords, decode e.1 = .ok e.2 ∧ encode e.2 = some e.1

/-- A step runs the instruction whose words stand at the picked fragment's pc: it is exec of that instruction at that state, with the
clock advanced, the fragment selected, the translations of the fetch held, and the flipped bits of the tables it read corrected. An
input that waits is run instead, oldest first; with nothing to do the clock alone advances. That inputs wait in an agenda, and what a
step is, is the model's choice: log entry 2. -/
def Obligations.StepRunsTheDecodedInstruction : Prop :=
  (∀ (r : FragRef) (c : Cur) (h0 h1 h2 h3 : Nat) (i : Instr) (s : State), Picked r c s → FetchAt c h0 h1 h2 h3 (atTurn s) →
    decode (frame h0 h1 h2 h3) = .ok i →
    ∃ u, step s = exec i u ∧ (∀ t ∈ s.tlb, t ∈ u.tlb)
      ∧ u = { atTurn s with sel := some r, tlb := u.tlb, l2 := u.l2, mirror := u.mirror, hbmFlips := u.hbmFlips }
      ∧ (noFlips s = true → u.l2 = s.l2 ∧ u.mirror = s.mirror ∧ u.hbmFlips = s.hbmFlips))
  ∧ (∀ (i : Instr) (rest : List Instr) (s : State), s.agenda = i :: rest → i.isInstruction = false →
    step s = exec i (tick { s with agenda := rest, sel := none }))
  ∧ ∀ s : State, s.agenda = [] → turns s = [] → step s = .next (tick (s.given none))

/-- Whatever a step does, the device's memory keeps its canonical form: addresses strictly rise, and no zero byte is listed. The form is
the model's own, and what an unlisted byte reads as is log entry 4. -/
def Obligations.MemoryStaysCanonical : Prop :=
  ∀ s t : State, s.mem.wf = true → step s = .next t → t.mem.wf = true

/-- Whatever a step does, the resident groups stay in the order of their keys, each with its 16 barriers, and each gang with its eight
quads: what some statements ask of a state holds in every state that a run reaches. The order is the model's own: log
entry 54. -/
def Obligations.TablesStayInOrder : Prop :=
  ∀ s t : State, s.InOrder → step s = .next t → t.InOrder

/-- After reset memory has its canonical form and reads zero, the tables are in order, no group is resident, no token lives, every core has BANKCFG with its upper
eight banks scratch and CYCLE at zero, and every management register reads zero but PFSLICE, which is 1. That no launch, token or saved
group stands at reset, and that copy queues and caches are empty (`cores`), is log entry 3, and that host and peer memory read zero is log
entry 4: the model's choices. -/
def Obligations.ResetState : Prop :=
  Memory.wf State.reset.mem = true ∧ State.reset.InOrder ∧ (∀ a, sget a State.reset.mem = 0#8) ∧ State.reset.groups = [] ∧ State.reset.launches = []
  ∧ State.reset.tokens = [] ∧ State.reset.saved = [] ∧ State.reset.cores = []
  ∧ (∀ k, (coreOf k State.reset).scr = 0xFF00#16 ∧ (coreOf k State.reset).busy = 0#16 ∧ cycleAt k State.reset = 0#64)
  ∧ ∀ fn off : Nat, off < 65536 → mreg fn off State.reset = if fn = 0 ∧ off = 0x2018 then 1#64 else 0#64

/-- What every issue does before the instruction's own effect: the pc passes it, SIG takes it in, ICOUNT of every quad with an active
lane rises by one, every register stands, and nothing outside the gang changes but what counts issues. The park bit empties the latches
and operand-cache slots of the fragment's lanes and leaves the gang waiting for its counters. -/
def Obligations.IssueAdvances : Prop :=
  (∀ (i : Instr) (c : Cur) (s : State), cur s = some c → c.gang.quads.length = 8 →
    Apart c s (begun i c s) ∧ ∃ g, gangOf (gangRefOf c.r) (begun i c s) = some g
      ∧ g = { c.gang with parked := false, fragPtr := (c.r.frag + 1) % 8, starved := none, frags := g.frags, quads := g.quads,
                          reads := c.readsAfter i }
      ∧ (∀ k, aget k g.frags = if k = c.r.frag then some (issuedFrag i c.frag) else aget k c.gang.frags)
      ∧ ∀ q, q < 8 → g.quad q = if quadBits c.frag.exec q = 0#4 then c.gang.quad q
          else { c.gang.quad q with icount := (c.gang.quad q).icount + 1 })
  ∧ ∀ (c : Cur) (s : State) (g : Gang), gangOf (gangRefOf c.r) s = some g →
      parked false c s = s ∧ Apart c s (parked true c s) ∧ ∃ g', gangOf (gangRefOf c.r) (parked true c s) = some g'
        ∧ g' = { g with parked := true, parkMask := c.frag.mask, oc := g'.oc, latch := g'.latch }
        ∧ (∀ k l, k < 8 → l < 32 → g'.ocv k l = if c.frag.mask.getLsbD l then 0#32 else g.ocv k l)
        ∧ (∀ j l, j < 4 → l < 32 → g'.lat j l = if c.frag.mask.getLsbD l then 0#64 else g.lat j l)

/-! Statements of loads and stores. -/

/-- LD and SLD: the value of each lane is bound at issue, and waits on the path of its space for its completion; no register is written yet,
no byte of memory changes. An acquire from scope CLUSTER on drops its context's lines from the core's L1. A load may read its bytes again
until it completes, so the value bound at issue is the first it may return: log entry 7's reading. -/
def Obligations.LoadsBindTheirValues : Prop :=
  (∀ (i : Instr) (sp : Space) (o : MF) (c : Cur) (s : State), loadRow i = some (sp, o) → LoadReady i sp o c s →
    ∃ id ports link ranges marks, MemDone o.p c s
      (CountsAside { c.gang.issue i c with ops := c.gang.ops ++ [{ PendOp.blank id (pathFor sp) c.r.frag with
        writes := ldWrites (mfAccess o sp .rd) o (loadElems o sp c (begun i c s)) c (begun i c s), ports := ports, hostLink := link,
        ranges := ranges, marks := marks }] })
      (fun t => ordOf o.x = 1 → 2 ≤ scopeOf o.x → ∀ k x, aget k (coreOf c.grp.core t).l1 = some x → x.ctx ≠ c.ctx) (exec i s))
  ∧ ∀ (sz : BitVec 3) (sp : BitVec 2) (imm sa sd : BitVec 6) (p : Bool) (c : Cur) (s : State), SldReady sz sp imm sa sd p c s →
    ∃ id link marks, MemDone p c s
      (CountsAside { c.gang.issue (.sld sz sp imm sa sd p) c with ops := c.gang.ops ++ [{ PendOp.blank id .k c.r.frag with
        sdst := some sd, sval := BitVec.ofNat 64 (sldValue sz sp imm sa c (begun (.sld sz sp imm sa sd p) c s)).1,
        spois := (sldValue sz sp imm sa c (begun (.sld sz sp imm sa sd p) c s)).2, hostLink := link,
        marks := marks }] })
      (fun _ => True) (exec (.sld sz sp imm sa sd p) s)

/-- A lane of a load whose bytes lie in no window receives, little-endian and extended as W says, the bytes it sees at its place: those
of its gang's own buffered stores first, else the scratch's or memory's, or those its core's L1 still holds. Under TRIPLE every acting
lane of the quad receives them. These are the words bound at issue; bytes that wait for a link or a peer are read in a later step. That a
load first sees the bytes of its issue, and that a held line of the L1 may or may not be there, are log entries 7 and 10: the model's
choices. -/
def Obligations.LoadedWordsAreTheBytesSeen : Prop :=
  ∀ (o : MF) (sp : Space) (c : Cur) (s : State) (l : Nat) (p : Place) (x : Nat),
    (l, [{ off := 0, len := (mfAccess o sp .rd).size, win := none, planes := [(p, x)], digit := none }]) ∈ loadElems o sp c s →
    l ∈ c.memLanes (c.act (mfAccess o sp .rd).g) →
    ∃ v, v < 2 ^ (8 * (mfAccess o sp .rd).size)
      ∧ (∀ k, k < (mfAccess o sp .rd).size → SeenByte c (l1Space sp c.ctx) (p.plus k) s (BitVec.ofNat 8 (v / 2 ^ (8 * k))))
      ∧ ∀ m ∈ (if c.triple then [l - 3, l - 2, l - 1, l].filter (fun m => (c.act (mfAccess o sp .rd).g).getLsbD m) else [l]),
          ∀ k, k < regsOf o.w →
          { reg := o.data.toNat + k, lane := m, val := BitVec.ofNat 32 (extended o.w v / 2 ^ (32 * k)),
            pois := poisonedAt p (mfAccess o sp .rd).size s }
            ∈ ldWrites (mfAccess o sp .rd) o (loadElems o sp c s) c s

/-- The layout windows. An access is cut into elements, each PLAIN or as its window has it, with the planes and the digit byte it calls for.
A lane of a load receives of each element what R60's table says, and a store's lane puts the low bytes of its DATA, little-endian, into
the planes, and the count into the digit byte; nothing else is written. An SST stores as a SINGLE store does. The bytes at a place are
those that a load may see there. -/
def Obligations.WindowElements : Prop :=
  (∀ (c : Cur) (sp : Space) (n : Need) (size : Nat) (pl : Planes) (ea lane : Nat) (s : State) (es : List Elem),
    lookAt c sp n size pl ea lane s = .ok es → ElementsOf c sp n size pl ea lane s es)
  ∧ (∀ (a : Access) (pl : Planes) (helpers : Bool) (c : Cur) (s : State) (l : Nat) (es : List Elem), (l, es) ∈ goodLooks (a.looks pl helpers c s) →
      l ∈ c.memLanes (c.act a.g) ∧ lookAt c a.sp a.need a.size pl (a.ea c l) l s = .ok es)
  ∧ (∀ (core : Nat) (c : Cur) (ctx : Option (BitVec 6)) (p : Place) (n : Nat) (s : State), core = c.grp.core →
      let r := readNow core c.gang.sbuf ctx s p n
      r.1 < 256 ^ n ∧ (∀ k, k < n → SeenByte c ctx (p.plus k) s (byteOf r.1 k)) ∧ r.2 = poisonedAt p n s)
  ∧ (∀ (es : List Elem) (read : Reading) (triple : Bool) (k : Nat), k < 4 → ∃ v : Elem → Nat × Bool,
      (∀ e ∈ es, e.planes ≠ [] → ElemRead e read triple k (v e))
      ∧ loadLane es read triple k
        = ((es.map (fun e => (v e).1 * 2 ^ (8 * e.off))).foldr (· + ·) 0, es.any (fun e => (v e).2)))
  ∧ (∀ (o : MF) (sp : Space) (c : Cur) (s : State) (l : Nat) (es : List Elem), (l, es) ∈ loadElems o sp c s →
      ∀ m ∈ (if c.triple then [l - 3, l - 2, l - 1, l].filter (fun m => (c.act (mfAccess o sp .rd).g).getLsbD m) else [l]),
      let r := loadLane es (readNow c.grp.core c.gang.sbuf (l1Space sp c.ctx) s) c.triple (m % 4)
      ∀ k, k < regsOf o.w → { reg := o.data.toNat + k, lane := m, val := BitVec.ofNat 32 (extended o.w r.1 / 2 ^ (32 * k)), pois := r.2 }
        ∈ ldWrites (mfAccess o sp .rd) o (loadElems o sp c s) c s)
  ∧ (∀ (o : MF) (sp : Space) (c : Cur) (s : State),
      (∀ l es, (l, es) ∈ goodLooks ((mfAccess o sp .wr).looks .all false c s) → ∀ e ∈ es, ElemStored (storeItems o sp c s) e c.triple l
        (fun k => storeData c o.data.toNat o.w.toNat (if c.triple then l - 3 + k else l) s))
      ∧ (∀ w ∈ storeItems o sp c s, ∃ l es, (l, es) ∈ goodLooks ((mfAccess o sp .wr).looks .all false c s) ∧ w.lane = l
          ∧ ∃ e ∈ es, IsPlaceOf e w.dest)
      ∧ ∀ l i, i < (mfAccess o sp .wr).size →
          (o.data.toNat < 112 → byteOf (storeData c o.data.toNat o.w.toNat l s) i = byteOf (c.v (o.data.toNat + i / 4) l).toNat (i % 4))
          ∧ (112 ≤ o.data.toNat → o.data.toNat < 120 →
              byteOf (storeData c o.data.toNat o.w.toNat l s) i = byteOf (c.ocv (o.data.toNat - 112 + i / 4) l).toNat (i % 4))
          ∧ (120 ≤ o.data.toNat → o.data.toNat < 124 → i < 8 →
              byteOf (storeData c o.data.toNat o.w.toNat l s) i = byteOf (c.gang.lat (o.data.toNat - 120) l).toNat i))
  ∧ ∀ (sz : BitVec 3) (sp : BitVec 2) (imm sa sd : BitVec 6) (c : Cur) (s : State) (es : List Elem),
      scalarLook .wr sz sp imm sa c s = .ok es →
      (∀ e ∈ es, ElemStored (sstItems sz sp imm sa sd c s) e false 0 (fun _ => (c.s sd).toNat))
      ∧ ∀ w ∈ sstItems sz sp imm sa sd c s, ∃ e ∈ es, IsPlaceOf e w.dest

/-- ST and SST: the bytes enter the gang's store buffer, line by line, and the store counts on path W; memory does not change yet. ST.REL
begins a region. What each lane puts where is the statement of the layout windows. One entry for each line is log entry 9, the model's
choice. -/
def Obligations.StoresEnterTheBuffer : Prop :=
  (∀ (i : Instr) (sp : Space) (o : MF) (c : Cur) (s : State), storeRow i = some (sp, o) → StoreReady i sp o c s →
    MemDone o.p c s
      (fun g => ∃ id new g0,
        Buffered c (storeItems o sp c (begun i c s)) id sp (if ordOf o.x = 2 then some (BitVec.ofNat 3 (scopeOf o.x)) else none) new
        ∧ CountsAside (stored i c id (storeItems o sp c (begun i c s)).isEmpty new) g0
        ∧ (ordOf o.x ≠ 2 → g = g0) ∧ (ordOf o.x = 2 → RegionStart c.r.frag (issuedFrag i c.frag) g0 g))
      (fun t => t.mem = s.mem) (exec i s))
  ∧ ∀ (sz : BitVec 3) (sp : BitVec 2) (imm sa sd : BitVec 6) (p : Bool) (c : Cur) (s : State), SstReady sz sp imm sa sd p c s →
    MemDone p c s
      (fun g => ∃ id new,
        Buffered c (sstItems sz sp imm sa sd c (begun (.sst sz sp imm sa sd p) c s)) id (scalarSpace sp) none new
        ∧ CountsAside (stored (.sst sz sp imm sa sd p) c id (sstItems sz sp imm sa sd c (begun (.sst sz sp imm sa sd p) c s)).isEmpty new) g)
      (fun t => t.mem = s.mem) (exec (.sst sz sp imm sa sd p) s)

/-- LOAD_COMPLETE writes the result bound last in every lane and retires the operation in its order; STORE_ACK performs the oldest entry of
the gang's buffer: each byte it names takes the entry's value, every other byte stands. No register of another gang changes. When results
are written and stores performed is log entries 7 and 9: the model's choices. -/
def Obligations.CompletionsPerform : Prop :=
  (∀ (r : GangRef) (op : Nat) (gg : Gang) (o : PendOp) (s : State), (akeys s.groups).Pairwise (· < ·) → Completes r op gg o s → o.satXs = false →
    (∀ e ∈ gg.frags, ∀ pc d, e.2.hold ≠ .nitHalt op pc d) →
    ∃ t, exec (.loadComplete r op) s = .next t ∧ t.mem = s.mem
      ∧ (∀ q, q ≠ r → gangOf q t = gangOf q s ∨ gangOf q t = none)
      ∧ ((gg.ended || gg.halted) = false → ∃ g, gangOf r t = some g ∧ Delivered o gg g))
  ∧ ∀ (r : GangRef) (grp : Group) (gg : Gang) (l : Launch) (e : SbEntry) (rest : List SbEntry) (s : State), (akeys s.groups).Pairwise (· < ·) →
    Performs r grp gg l e rest s →
    ∃ t, exec (.storeAck r) s = .next t
      ∧ (∀ a, e.line = .phys a → ∀ x, sget x t.mem = (lastCell x e.cells).getD (sget x s.mem))
      ∧ (∀ k a, e.line = .scr k a → t.mem = s.mem ∧ ∀ gk gk', aget k s.groups = some gk → aget k t.groups = some gk' →
          ∀ x, sget x gk'.scratch = (lastCell x e.cells).getD (sget x gk.scratch))
      ∧ (∀ k gk gk', (∀ a, e.line ≠ .scr k a) → aget k s.groups = some gk → aget k t.groups = some gk' → gk'.scratch = gk.scratch)
      ∧ (∀ q, q ≠ r → gangOf q t = gangOf q s ∨ gangOf q t = none)
      ∧ ((gg.ended || gg.halted) = false → ∃ g, gangOf r t = some g ∧ g = { gg with
          sbuf := rest, ops := if rest.any (fun x => x.op == e.op) then gg.ops else opsDone e.op gg.ops, reads := g.reads })

/-! Statements of atomics, the cache rows, barriers, copies and the matrix engine. -/

/-- ATOM, ACAS and XSADD: every lane performs its operation at its place at issue, one after another; the old values wait for their
completion, and a region begins but in private space. A lane reads what its place holds, in memory or in scratch, gives it the value of its
operation, and changes no other byte; an ACAS that finds another value writes nothing. Lanes whose places a peer holds wait for its answer
with nothing done. That an atomic is performed at its issue is log entry 8's reading, and that one at a peer waits for its answer log entry
48's: the model's choices. -/
def Obligations.AtomicsPerformAtTheirPlace : Prop :=
  (∀ (i : Instr) (aop : Nat) (sp : Space) (o : AMO) (c : Cur) (s : State), atomRow i = some (aop, sp, o) → AtomReady i aop sp o c s →
    ¬(o.log = true ∧ c.lau.r.order = 4) →
    let b := atomStart i aop sp o c s
    let run := atomRun aop sp o c (atomTag o c b) (amoLanes (amoAccess o sp) c b) b
    ∃ t g g0 id ports link marks, exec i s = .next (parked o.p c t) ∧ gangOf (gangRefOf c.r) t = some g
      ∧ CountsAside { c.gang.issue i c with ops := c.gang.ops ++ [{ PendOp.blank id (pathFor sp) c.r.frag with
          writes := atomWords sp o c run.2, satXs := run.2.any (fun r => r.2.sat), atomic := true, commit := sp != .p, ports := ports,
          hostLink := link, marks := marks }] } g0
      ∧ (sp = .p → g = g0) ∧ (sp ≠ .p → RegionStart c.r.frag (issuedFrag i c.frag) g0 g)
      ∧ t.mem = run.1.mem ∧ (∀ k, (aget k t.groups).map Group.shell = (aget k run.1.groups).map Group.shell)
      ∧ ∀ r, r ≠ gangRefOf c.r → (gangOf r t).map Gang.quiet = (gangOf r s).map Gang.quiet)
  ∧ (∀ (i : Instr) (aop : Nat) (sp : Space) (o : AMO) (c : Cur) (s : State), atomRow i = some (aop, sp, o) → AtomMay i aop sp o c s →
    let ls := amoLanes (amoAccess o sp) c (atomStart i aop sp o c s)
    ls ≠ [] → (∀ l ∈ ls, l.dest.atPeer.isSome = true) →
    MemDone o.p c s (fun g => ∃ g0 id w ports link,
        w.aop = aop ∧ w.size = amoSize o ∧ w.lanes.map (fun x => (x.lane, x.place)) = ls.map (fun l => (l.lane, l.dest))
        ∧ w.operands = ls.map (fun l => (l.lane, atomOperands aop o c l))
        ∧ CountsAside { c.gang.issue i c with ops := c.gang.ops ++ [{ PendOp.blank id (pathFor sp) c.r.frag with
            writes := atomWords sp o c [], atomic := true, commit := sp != .p, log := some w, ports := ports, hostLink := link }] } g0
        ∧ (sp = .p → g = g0) ∧ (sp ≠ .p → RegionStart c.r.frag (issuedFrag i c.frag) g0 g))
      (fun t => t.mem = s.mem) (exec i s))
  ∧ (∀ (w : Writer) (tag : Tag) (aop size a x y : Nat) (va : Option Nat) (s : State), poisonedAt (.phys a) size s = false →
    (∀ v, va = some v → ∀ i, i < size → watched w.ctx (v + i) s = false) →
    let r := amoAt w tag aop size va (.phys a) x y s
    r.2.old = getNum s.mem a size ∧ r.2.pois = false
    ∧ (∀ k, sget k r.1.mem = atomByte (amoNew aop size (getNum s.mem a size) x y).1 size a k (sget k s.mem))
    ∧ r.2.sat = (amoNew aop size (getNum s.mem a size) x y).2
    ∧ ∀ k, (aget k r.1.groups) = aget k s.groups)
  ∧ (∀ (w : Writer) (tag : Tag) (aop size k a x y : Nat) (va : Option Nat) (g : Group) (s : State), poisonedAt (.scr k a) size s = false →
    aget k s.groups = some g →
    let r := amoAt w tag aop size va (.scr k a) x y s
    r.2.old = getNum g.scratch a size ∧ r.2.pois = false ∧ r.1.mem = s.mem
    ∧ r.2.sat = (amoNew aop size (getNum g.scratch a size) x y).2
    ∧ (∃ g', aget k r.1.groups = some g'
      ∧ g' = { g with scratch := g'.scratch, scrPois := g'.scrPois, scrBy := g'.scrBy, matrix := g'.matrix }
      ∧ ∀ j, sget j g'.scratch = atomByte (amoNew aop size (getNum g.scratch a size) x y).1 size a j (sget j g.scratch))
    ∧ ∀ j, j ≠ k → aget j r.1.groups = aget j s.groups)
  ∧ ∀ aop size old x y : Nat, (size = 4 ∨ size = 8) → old < 2 ^ (8 * size) → x < 2 ^ (8 * size) → (aop = 13 → size = 8) →
      (aop = 5 → size = 4) → AtomicValue aop size old x y (amoNew aop size old x y)

/-- PREF writes no register and no memory. CMO and the CMO of a range count on path W with the lines they name. FENCE does not issue, and
changes nothing, while an atomic of its gang waits at the home or, as a release, while counter W is not zero; else it completes, and as an
acquire from CLUSTER on drops its context's lines from the core's L1. CMO_COMPLETE treats the lines: no byte of
memory changes, a cleaned line is clean and any other treatment leaves the level without it. When a release fence goes on is log entry
24's reading. -/
def Obligations.CacheRows : Prop :=
  (∀ (level : BitVec 2) (o : AddrF) (c : Cur) (s : State), Issues (.pref level o) c s → (addrAccess o .rd).offOk c.regs = true →
    (∀ ln ∈ prefReads level.toNat o c s, fatalLevel ln s = 0) →
    MemDone o.p c s (CountsAside (c.gang.issue (.pref level o) c)) (fun t => t.mem = s.mem) (exec (.pref level o) s))
  ∧ (∀ (level op : BitVec 2) (o : AddrF) (c : Cur) (s : State), Issues (.cmo level op o) c s → (addrAccess o .rd).offOk c.regs = true →
    (addrAccess o .rd).poisoned c = false → (∀ l ∈ (addrAccess o .rd).threads c, (addrAccess o .rd).ea c l < 2 ^ 57) →
    c.gang.counter .w < 63 →
    ∃ id, MemDone o.p c s (fun g => g = cmoIssued (.cmo level op o) c id level op (cmoRanges o c (begun (.cmo level op o) c s)))
      (fun t => t.mem = s.mem) (exec (.cmo level op o) s))
  ∧ (∀ (level op : BitVec 2) (sb sa : BitVec 6) (p : Bool) (c : Cur) (s : State), Issues (.cmoRange level op sb sa p) c s →
    c.spoisoned sa = false → c.spoisoned sb = false →
    ((c.s sb).toNat = 0 ∨ (c.s sa).toNat + (c.s sb).toNat ≤ 2 ^ 57) → c.gang.counter .w < 63 →
    ∃ id, MemDone p c s (fun g => g = cmoIssued (.cmoRange level op sb sa p) c id level op
      (mappedRanges c.ctx (c.s sa).toNat ((c.s sa).toNat + (c.s sb).toNat) (begun (.cmoRange level op sb sa p) c s)))
      (fun t => t.mem = s.mem) (exec (.cmoRange level op sb sa p) s))
  ∧ (∀ (kind : BitVec 2) (scope : BitVec 3) (p : Bool) (c : Cur) (s : State), Issues (.fence kind scope p) c s →
    c.gang.logWaits = false → (kind.getLsbD 1 = true → c.gang.counter .w = 0) →
    MemDone p c s (fun g => g = { c.gang.issue (.fence kind scope p) c with hist := g.hist, reads := g.reads })
      (fun t => t.mem = s.mem ∧ (kind.getLsbD 0 = true → 2 ≤ scope.toNat → noL1Of c.grp.core c.ctx t)) (exec (.fence kind scope p) s))
  ∧ (∀ (kind : BitVec 2) (scope : BitVec 3) (p : Bool) (c : Cur) (s : State), Issues (.fence kind scope p) c s →
    (kind.getLsbD 1 = true ∧ c.gang.counter .w ≠ 0) ∨ c.gang.logWaits = true →
    exec (.fence kind scope p) s = .next { s with stalled := c.r :: s.stalled })
  ∧ ∀ (r : GangRef) (op : Nat) (grp : Group) (gg : Gang) (o : PendOp) (s : State), (akeys s.groups).Pairwise (· < ·) →
    aget r.grp s.groups = some grp → aget r.gang grp.gangs = some gg → gg.ops.find? (fun x => x.id == op) = some o → o.isCmo = true →
    o.done = false → (∀ e ∈ gg.sbuf, e.op < o.id → ∀ a, e.line = .phys a → inRanges o.ranges (a / 128) = false) →
    (∀ ln, inRanges o.ranges ln = true → badDirty ln s.l2 = false ∧ badDirty ln s.mirror = false) →
    (o.cmoLevel = 0 ∨ ∀ ln, inRanges o.ranges ln = true → backCutOff ln s = false) →
    ∃ t, exec (.cmoComplete r op) s = .next t ∧ t.mem = s.mem
      ∧ (1 ≤ o.cmoLevel → ∀ ln, inRanges o.ranges ln = true →
          (o.cmoOp = 0 → ∀ x, aget ln t.l2 = some x → x.dirty = false) ∧ (o.cmoOp ≠ 0 → aget ln t.l2 = none))
      ∧ (2 ≤ o.cmoLevel → ∀ ln, inRanges o.ranges ln = true →
          (o.cmoOp = 0 → ∀ x, aget ln t.mirror = some x → x.dirty = false) ∧ (o.cmoOp ≠ 0 → aget ln t.mirror = none))
      ∧ ((gg.ended || gg.halted) = false → gangOf r t = some { gg with ops := opsDone op gg.ops })

/-- BAR and CBAR: a gang that is not the last begins a region, is noted as arrived and held there, and no other gang changes; when the
last participant arrives the phase flips, nobody is held there any more, the status of its group goes to the scalar that each waiting
gang named, and every other register, every byte of scratch and memory and every other barrier stands. CBAR then drops its context's
lines from the L1 of each core of the cluster. -/
def Obligations.BarriersHoldAndRelease : Prop :=
  ∀ (cbar : Bool) (id : BitVec 4) (sd : BitVec 6) (p : Bool) (c : Cur) (s : State), BarReady cbar id sd p c s →
    let i := barInstr cbar id sd p
    ((∃ k ∈ barGroups cbar c s, ∃ g, aget k s.groups = some g ∧ g.participants &&& ~~~ arrivedWith c id k g ≠ 0#32) →
      ∃ t g g0, exec i s = .next (parked p c t) ∧ BarApart cbar id c s t ∧ t.cores = s.cores ∧ gangOf (gangRefOf c.r) t = some g
        ∧ RegionStart c.r.frag (issuedFrag i c.frag) ((c.gang.issue i c).invalidate c.frag.mask) g0
        ∧ g = { g0 with frags := amod c.r.frag (fun f => { f with hold := .bar id.toNat cbar sd }) g0.frags }
        ∧ (∀ r, r ≠ gangRefOf c.r → (gangOf r t).map Gang.quiet = (gangOf r s).map Gang.quiet)
        ∧ ∀ k ∈ barGroups cbar c s, ∀ g, aget k s.groups = some g → ∃ g', aget k t.groups = some g'
          ∧ g'.bar id.toNat = { arrived := arrivedWith c id k g, phase := (g.bar id.toNat).phase, cbar := cbar })
    ∧ ((∀ k ∈ barGroups cbar c s, ∀ g, aget k s.groups = some g → g.participants &&& ~~~ arrivedWith c id k g = 0#32) →
      ∃ t, exec i s = .next (parked p c t) ∧ BarApart cbar id c s t
        ∧ (c.gang.halted = false → ∃ g g0 f0, gangOf (gangRefOf c.r) t = some g ∧ aget c.r.frag g0.frags = some f0
          ∧ RegionStart c.r.frag (issuedFrag i c.frag) ((c.gang.issue i c).invalidate c.frag.mask) g0
          ∧ BarReleased c.r.frag f0 sd c.grp.barStatus g0 g)
        ∧ ∀ k ∈ barGroups cbar c s, ∀ g, aget k s.groups = some g → ∃ g', aget k t.groups = some g'
          ∧ g'.bar id.toNat = { arrived := 0#32, phase := !(g.bar id.toNat).phase, cbar := false }
          ∧ (∀ n gg m f, aget n g'.gangs = some gg → gg.halted = false → aget m gg.frags = some f → ∀ cb sd', f.hold ≠ .bar id.toNat cb sd')
          ∧ (cbar = true → noL1Of g.core c.ctx t)
          ∧ ∀ n gg m f cb sd', (k, n) ≠ (c.r.grp, c.r.gang) → aget n g.gangs = some gg → gg.halted = false → gg.frags = [(m, f)] →
              f.hold = .bar id.toNat cb sd' → ∃ gg', aget n g'.gangs = some gg' ∧ BarReleased m f sd' g.barStatus gg gg')

/-- COPY hands its transfer to the core's copy engine and begins a region. BINIT stores COUNT and a zero STATUS through the store buffer.
BWAIT goes on once COUNT is not above zero, as an invalidation point after which the core's L1 holds what its engines wrote, and waits
before. The bytes BINIT stores and when BWAIT issues are log entry 26, and that every line of the L1 then holds what the engines wrote past
it is log entry 10: the model's choices. -/
def Obligations.CopiesAndTheirBarrierObjects : Prop :=
  (∀ (dir op : BitVec 2) (sb sa sk : BitVec 6) (p : Bool) (c : Cur) (s : State), CopyReady dir op sb sa sk p c s →
    ∃ id, MemDone p c s
      (RegionStart c.r.frag (issuedFrag (.copy dir op sb sa sk p) c.frag) (c.gang.issue (.copy dir op sb sa sk p) c))
      (fun t => (coreOf c.grp.core t).copies = (coreOf c.grp.core s).copies ++ [copyOp id dir op sb sa sk c s])
      (exec (.copy dir op sb sa sk p) s))
  ∧ (∀ (sb sa : BitVec 6) (p : Bool) (c : Cur) (s : State), BinitReady sb sa p c s →
    GangDone p c s (fun g => ∃ id new, Buffered c [binitItem sa sb c s] id .s none new
      ∧ g = { stored (.binit sb sa p) c id false new with
          copySat := c.gang.copySat.filter (fun x => x != c.objAt sa), reads := g.reads })
      (exec (.binit sb sa p) s))
  ∧ ∀ (sa : BitVec 6) (p : Bool) (c : Cur) (s : State), Issues (.bwait sa p) c s → c.spoisoned sa = false →
    c.objAt sa % 16 = 0 → c.objAt sa + 16 ≤ c.grp.scrSize →
    (countAt (c.objAt sa) c s ≤ 0 → c.gang.logWaits = false → MemDone p c s
      (fun g => g = { withFrag ((c.gang.issue (.bwait sa p) c).invalidate c.frag.mask) c.r.frag
        (withSat (if c.gang.copySat.contains (c.objAt sa) then satXs else 0)) with reads := g.reads, hist := g.hist })
      (fun t => (∀ k, k ≠ c.grp.core → coreOf k t = coreOf k s) ∧ ∀ k x, aget k (coreOf c.grp.core t).l1 = some x → x.late = [])
      (exec (.bwait sa p) s))
    ∧ (0 < countAt (c.objAt sa) c s ∨ c.gang.logWaits = true → exec (.bwait sa p) s = .next (stallCur c s))

/-- The copy engine makes one step at a time, one element or a whole chunk. Every place takes its value or its sum, inside the tensor or
zero-filled, in scratch, global space or a peer, which a request flit asks; a header follows or goes STALE; COUNT falls by the bytes and
STATUS takes its bits; and the copy goes past the visit, over after its last. A visit outside the tensor that fills nothing, or of a chunk
moved before, moves nothing. A FORMAT condition counts the rest off unwritten. A fault stalls the copy with a token, with nothing moved. One
that may not go on stays. What it reads of a byte overwritten since the copy issued is freely that byte or the old one. The size of a step and
that only the first old byte is kept are log entry 27, the flits and their port log entry 48, and a peer's memory log entry 4: the model's
choices. -/
def Obligations.CopyEngineMovesItsElements : Prop :=
  (∀ (core : Nat) (cp : CopyOp) (g : Group) (chunk : Option Nat) (ns vs : List Nat) (qs : List Place) (s : State),
    MovesElements core cp g chunk ns vs qs s → ∃ t g' h, exec (.copyElementWrite core cp.id) s = .next t ∧ aget cp.grp t.groups = some g'
      ∧ (cp.shape.chunk ≠ 0 → cp.toNear = true ∨ chunk ≠ none →
          engineAt cp.ctx (headerAt cp chunk ns) (if cp.toNear then .at else .rd) (copyRead core cp ns s) = .ok (.phys h))
      ∧ CopyMoved core cp chunk ns vs qs h (copyStatus cp chunk (Hdr.parse (getBytes s.mem h 32)) vs qs s) g g' s t
      ∧ (cp.dir = 3#2 → chunk = none → ∃ port f, t.sent = s.sent ++ [{ port := port, flit := f }] ∧ f.type = 1#8 ∧ f.ctx = cp.ctx
          ∧ f.op = (if cp.op = 0#2 then .write (farAt cp cp.next % 2 ^ 57) (toBytes cp.shape.e (vs.getD 0 0))
            else .add (BitVec.ofNat 4 cp.shape.format) (farAt cp cp.next % 2 ^ 57) (vs.getD 0 0)))
      ∧ (cp.dir = 3#2 → chunk ≠ none → fabricPorts cp.ctx (cp.far / 2 ^ 57) s ≠ 0#16 → ∃ port f, t.sent.getLast? = some { port := port, flit := f } ∧ f.type = 4#8 ∧ f.ctx = cp.ctx))
  ∧ (∀ (core : Nat) (cp : CopyOp) (g : Group) (s : State), CopyTurn core cp g s →
    (cp.writes cp.next = false ∨ ∃ k, cp.inside cp.next = true ∧ cp.wholeChunk cp.next = some k ∧ cp.checked.contains k = true) →
    ∃ t, exec (.copyElementWrite core cp.id) s = .next t ∧ CopyApart core cp s t
      ∧ (coreOf core t).copies = pastVisit cp 0 none (coreOf core s).copies)
  ∧ (∀ (core : Nat) (cp : CopyOp) (g : Group) (s : State), (coreOf core s).copies.find? (fun x => x.id == cp.id) = some cp →
    copyReady core cp.id s = true → cp.format = true → aget cp.grp s.groups = some g → (∃ e ∈ g.gangs, (e.2.ended || e.2.halted) = false) →
    ∃ t g', exec (.copyElementWrite core cp.id) s = .next t ∧ t.mem = s.mem ∧ aget cp.grp t.groups = some g'
      ∧ Counted cp.obj (cp.total - cp.written) 1 g g' ∧ (∀ x, ¬(cp.obj ≤ x ∧ x < cp.obj + 12) → sget x g'.scratch = sget x g.scratch)
      ∧ g'.gangs = g.gangs ∧ (∀ k, k ≠ cp.grp → aget k t.groups = aget k s.groups)
      ∧ (coreOf core t).copies = (coreOf core s).copies.filter (fun x => x.id != cp.id))
  ∧ (∀ (core : Nat) (cp : CopyOp) (g : Group) (l : Launch) (f : FReq) (s : State), CopyTurn core cp g s →
    aget g.launch s.launches = some l → cp.writes cp.next = true → (cp.inside cp.next = true → cp.wholeChunk cp.next = none) →
    CopyFaults core cp g f s →
    ∃ t k x, exec (.copyElementWrite core cp.id) s = .next t ∧ CopyApart core cp s t
      ∧ aget k t.tokens = some x ∧ x.live = true ∧ x.kind = .engine core cp.id
      ∧ x.record = { cls := BitVec.ofNat 8 f.cls, kind := BitVec.ofNat 8 f.kind, ctx := cp.ctx, access := BitVec.ofNat 8 f.access,
                     launch := l.name, grp := g.g, gang := cp.gang, split := cp.frag, qdepth := cp.depth, pc := cp.pc, mask := cp.mask,
                     detail := 0#32, addr := f.addr }
      ∧ (coreOf core t).copies = (coreOf core s).copies.map (fun y => if y.id = cp.id then { y with token := some k } else y))
  ∧ (∀ (cp : CopyOp) (n : Nat) (p : Place) (s : State), MaySee cp p s (cp.sees n p s).1)
  ∧ ∀ (core : Nat) (cp : CopyOp) (s : State), (coreOf core s).copies.find? (fun x => x.id == cp.id) = some cp →
    copyReady core cp.id s = false → NothingHappens (exec (.copyElementWrite core cp.id) s) s

/-- A joint row holds its gang in the latch while a listed gang is missing. Once all are there and the engine has room it issues in each of
them, one gang or several, once for them all: one instruction joins the engine's queue, and MMA and MDRAIN begin a region in each.
MFENCE notes what happens before it. MWAIT goes on when no joint instruction it covers is queued, delivering once what they saturated, or
takes the first fault they left. That MWAIT takes a deferred fault before it issues, and when the pairing is checked, are log entries 22
and 51, and that MFENCE notes all that the gang has heard of is log entry 28: the model's choices. -/
def Obligations.MatrixRowsMeetInTheLatch : Prop :=
  (∀ (i : Instr) (r : JointRow) (c : Cur) (s : State), jointRow i = some r → JointReady i r c s →
    ((∃ n, n < 32 ∧ n ≠ c.r.gang ∧ c.gang.gset.getLsbD n = true) →
      ∃ t g', exec i s = .next t ∧ t.mem = s.mem ∧ aget c.r.grp t.groups = some g'
        ∧ g'.matrix = { c.grp.matrix with latch := [waiterOf i r c] }
        ∧ aget c.r.gang g'.gangs = some (withFrag c.gang c.r.frag (fun f => { f with hold := .rendezvous })))
    ∧ (c.gang.gset = laneBit c.r.gang → (r.joint c).check c.grp c.lau = none → c.grp.matrix.queue.length < 16 →
      ∃ t g' id g0 g1 op, exec i s = .next t ∧ t.mem = s.mem ∧ aget c.r.grp t.groups = some g'
        ∧ g0 = { c.gang.issue i c with
            joints := c.gang.joints ++ [(id, (r.joint c).tiles c.triple, 0)], swap := (r.joint c).swapMark c.gang.swap }
        ∧ ((r.joint c).commits = true → RegionStart c.r.frag (issuedFrag i c.frag) g0 g1) ∧ ((r.joint c).commits = false → g1 = g0)
        ∧ aget c.r.gang g'.gangs = some (if r.p then Gang.park c g1 else g1)
        ∧ g'.matrix = { c.grp.matrix with queue := c.grp.matrix.queue ++ [op] }
        ∧ op.id = id ∧ op.joint = r.joint c ∧ op.gset = c.gang.gset ∧ op.started = false ∧ op.token = none))
  ∧ (∀ (i : Instr) (r : JointRow) (c : Cur) (s : State), jointRow i = some r → LastArrives i r c s →
    (r.joint c).check c.grp c.lau = none → c.grp.matrix.queue.length < 16 →
    ∃ t g' id op, exec i s = .next t ∧ t.mem = s.mem ∧ aget c.r.grp t.groups = some g' ∧ g'.scratch = c.grp.scratch
      ∧ g'.matrix = { c.grp.matrix with latch := [], queue := c.grp.matrix.queue ++ [op] }
      ∧ op.id = id ∧ op.joint = r.joint c ∧ op.gset = c.gang.gset ∧ op.started = false ∧ op.token = none
      ∧ c.gang.gset.getLsbD op.gang = true ∧ (∀ n, n < op.gang → c.gang.gset.getLsbD n = false)
      ∧ (∃ g, aget c.r.gang g'.gangs = some g ∧ JointIssued (waiterOf i r c) c id ((r.joint c).tiles c.triple) g)
      ∧ (∀ w ∈ c.grp.matrix.latch, ∀ gg f, aget w.gang c.grp.gangs = some gg → aget w.frag gg.frags = some f →
          ∃ g, aget w.gang g'.gangs = some g ∧ JointIssued w (mateOf c w gg f s) id ((r.joint c).tiles c.triple) g)
      ∧ ∀ q, (q.grp = c.r.grp → c.gang.gset.getLsbD q.gang = false) → (gangOf q t).map Gang.quiet = (gangOf q s).map Gang.quiet)
  ∧ (∀ (p : Bool) (c : Cur) (s : State), Issues (.mfence p) c s → c.whole = true → (∀ e ∈ c.gang.sbuf, ∃ a, e.line = .phys a) →
    GangDone p c s (fun g => g = { c.gang.issue (.mfence p) c with
      hist := { c.gang.hist with fenced := joinKnow c.gang.hist.fenced (c.gang.known (gangRefOf c.r) s.serial) } }) (exec (.mfence p) s))
  ∧ ∀ (all : Bool) (tile : BitVec 3) (p : Bool) (c : Cur) (s : State), Issues (.mwait all tile p) c s →
    (all = true ∨ tileOk tile c = true) → (∀ o ∈ c.grp.matrix.queue, o.id ∉ covered all tile c) →
    ((∀ d ∈ c.gang.deferred, d.joint ∉ covered all tile c) →
      MemDone p c (modMatrix c.r.grp (fun m => { m with used := m.used.filter (fun u => decide (u.op ∉ covered all tile c)) }) s)
        (fun g => ∃ heard, g = withFrag ({ c.gang.issue (.mwait all tile p) c with
          joints := c.gang.joints.filterMap (fun (j : Nat × Nat × Nat) => if j.1 ∉ covered all tile c then some j
            else if j.2.2 = 0 then none else if j.2.2 = 1 then some (j.1, j.2.1, 2 + c.r.frag) else some j)
          hist := { c.gang.hist with heard := heard } }.invalidate c.frag.mask) c.r.frag
        (withSat (if c.gang.joints.any (fun (j : Nat × Nat × Nat) => decide (j.1 ∈ covered all tile c) && j.2.2 == 1) then satXs else 0)))
        (fun t => t.mem = s.mem ∧ (∀ k, k ≠ c.grp.core → coreOf k t = coreOf k s)
          ∧ ∀ k x, aget k (coreOf c.grp.core t).l1 = some x → x.late = []) (exec (.mwait all tile p) s))
    ∧ ∀ d, c.gang.deferred.find? (fun d => decide (d.joint ∈ covered all tile c)) = some d →
      let f : FReq := { cls := d.cls.toNat, kind := d.kind.toNat, access := d.access.toNat, addr := BitVec.ofNat 64 d.addr }
      let g0 := { c.gang with deferred := c.gang.deferred.erase d }
      ∃ t, exec (.mwait all tile p) s = .next t
        ∧ (d.cls ≠ 0x0A#8 → d.cls ≠ 0x0B#8 → FaultHeld c c.frag.pc c.frag.pc f g0 s t)
        ∧ (d.cls = 0x0A#8 ∨ d.cls = 0x0B#8 → GangHalts c f g0 s t)

/-- JOINT_COMPLETE runs the next joint instruction of a group in its order: MSWAP exchanges the planes, MLDW fills the shadow plane from
scratch, MMA adds its chunk to every element of the rows it streams and counts it, MZERO empties its tiles, and MDRAIN first keeps a copy
of its tiles. Each but a drain leaves the queue; no byte of memory changes. What an MMA computes of an element is R78's promotion of its
128 products, and what MLDW loads are the bytes of its block. That a joint instruction is performed in one step is log entry 27, and that
MLDW sets the column scales of a plane of FP16 or BF16 to 1.0 is log entry 62: both are the model's choice. -/
def Obligations.MatrixEngineCompletes : Prop :=
  (∀ (acc : Nat) (ps : List Fv) (sa sw : Fv) (mode : Rm), Promotes acc ps sa sw mode (chunkPromote acc ps sa sw mode))
  ∧ (∀ (g : Group) (f : BitVec 3) (tile p i n : Nat) (sa sb : DWord) (stride : Nat) (seed : DWord), i < sb.toNat % 256 → n < 96 →
      let e := if f.toNat < 3 then 1 else 2
      let w := g.matrix.active
      let one := Fmt.f32.dec 0x3F800000
      let el := 96 * i + n
      let a := fun k => matElem f.toNat (getNum g.scratch (sa.toNat % 2 ^ 32 + p * stride + (128 * i + k) * e) e)
      let b := fun k => matElem w.fmt.toNat (sget (96 * k + n) w.elems).toNat
      ∃ v, (12288 * (tile + p) + el, v) ∈ mmaPlane g f tile p sa sb stride seed
        ∧ (∀ x, (12288 * (tile + p) + el, x) ∈ mmaPlane g f tile p sa sb stride seed → x = v)
        ∧ Promotes (sget (12288 * (tile + p) + el) g.matrix.tiles).toNat ((List.range 128).map (fun k => fvMul (a k) (b k)))
          (if f.toNat < 3 then Fmt.f32.dec (getNum g.scratch (sa.toNat / 2 ^ 32 + p * stride + 4 * i) 4) else one)
          (if f.toNat < 3 then Fmt.f32.dec (w.scale n).toNat else one)
          (if p = 0 then .rn else if (carousel (2 ^ 31 + g.g % 2 ^ 14 * 2 ^ 17 + (tile + p) * 2 ^ 14 + el)
            (g.matrix.chunks.getD (tile + p) 0#48).toNat seed.toNat).testBit (p - 1) then .ru else .rd) v)
  ∧ (∀ (k : Nat) (f : BitVec 3) (sa sb : DWord) (g : Group) (s : State), let w := loadPlane k f sa sb false g s
      w.fmt = f
      ∧ (∀ i, i < 128 * 96 → (sget i w.elems).toNat
          = getNum g.scratch (sa.toNat % 2 ^ 32 + (if f.toNat < 3 then 1 else 2) * i) (if f.toNat < 3 then 1 else 2))
      ∧ ∀ n, n < 96 → (w.scale n).toNat = if f.toNat < 3 then getNum g.scratch (sb.toNat % 2 ^ 32 + 4 * n) 4 else 0x3F800000)
  ∧ ∀ (k : Nat) (g : Group) (l : Launch) (op : JointOp) (s : State), EngineTurn k g l op s →
    ∃ t g', exec (.jointComplete k 0#2) s = .next t ∧ t.mem = s.mem ∧ aget k t.groups = some g' ∧ g'.scratch = g.scratch
      ∧ (op.joint = .mswap → g'.matrix = Matrix.without { g.matrix with selB := !g.matrix.selB } op)
      ∧ (∀ f sa sb, op.joint = .mldw f sa sb →
          g'.matrix = Matrix.without { g.matrix.setShadow (loadPlane k f sa sb false g s) with used := g'.matrix.used } op)
      ∧ (∀ f tile sa sb, op.joint = .mma f tile sa sb → (sb.toNat % 256) ≤ 128 →
          g'.matrix = Matrix.without { g.matrix with
              snapB := g.matrix.selB, tiles := g'.matrix.tiles, chunks := g'.matrix.chunks, used := g'.matrix.used } op
          ∧ (∀ p, p < planesFor l.kern.triple → ∀ e ∈ mmaPlane g f tile.toNat p sa sb (mmaStride l.kern.triple sb) l.r.seed,
              sget e.1 g'.matrix.tiles = BitVec.ofNat 32 e.2)
          ∧ (∀ x, ¬(12288 * tile.toNat ≤ x ∧ x < 12288 * (tile.toNat + planesFor l.kern.triple)) →
              sget x g'.matrix.tiles = sget x g.matrix.tiles)
          ∧ ∀ n, n < g.matrix.chunks.length → g'.matrix.chunks[n]? = (g.matrix.chunks[n]?).map (fun v =>
              if tile.toNat ≤ n ∧ n < tile.toNat + planesFor l.kern.triple then v + 1 else v))
      ∧ (∀ tile, op.joint = .mzero tile →
          g'.matrix = Matrix.without { g.matrix with tiles := g'.matrix.tiles, chunks := g'.matrix.chunks, used := g'.matrix.used } op
          ∧ (∀ x, sget x g'.matrix.tiles = if 12288 * tile.toNat ≤ x ∧ x < 12288 * (tile.toNat + planesFor l.kern.triple) then 0#32
              else sget x g.matrix.tiles)
          ∧ ∀ n, n < g.matrix.chunks.length → g'.matrix.chunks[n]? = (g.matrix.chunks[n]?).map (fun v =>
              if tile.toNat ≤ n ∧ n < tile.toNat + planesFor l.kern.triple then 0#48 else v))
      ∧ (∀ mode tile sa sb, op.joint = .mdrain mode tile sa sb →
          ∃ o ∈ g'.matrix.queue, o.id = op.id ∧ o.started = true
            ∧ ∀ x, sget x o.drained = if 12288 * tile.toNat ≤ x ∧ x < 12288 * (tile.toNat + planesFor l.kern.triple)
              then sget x g.matrix.tiles else 0#32)

/-! Statements of queues, launches, scheduling and stops. -/

/-- QTAIL_DOORBELL writes TAIL, which disables the queue where it is out of range. TAKE_LAUNCH_RECORD takes the record at HEAD: a good one
starts a launch, one that names no object of the context or fails a check starts none. DISPATCH_GROUP puts a group in a core's dispatch
queue, ADMIT_GROUP makes it resident, LAUNCH_COMPLETION removes the launch and writes its record. QPRE discards the resident groups of a
queue's launch, queue reset abandons its records and disables it. That rings, records and completions lie where they do, the choice of core,
the completion of refused records and the queue registers are log entries 12 and 32 to 34; which save area and what image a suspension
takes, and when a group is stopped, are log entries 29 and 30, and that its entry starts with no refusals is log entry 75: the model's
choices. -/
def Obligations.LaunchesFromDoorbellToCompletion : Prop :=
  (∀ (fn q : Nat) (val : BitVec 64) (s : State), fn ≤ 16 → q < 64 →
    (deviceReady s = true → Happens (exec (.qtailDoorbell fn q val) s) (fun t => mreg fn (0x1000 + 32 * q + 24) t = val ∧ t.mem = s.mem
      ∧ (headOf fn q s ≤ val.toNat → val.toNat ≤ headOf fn q s + queueSize fn q s →
          ∀ k, k ≠ 65536 * fn + (0x1000 + 32 * q + 24) → sget k t.mmio = sget k s.mmio)
      ∧ (val.toNat < headOf fn q s ∨ headOf fn q s + queueSize fn q s < val.toNat →
          (mreg fn (0x1000 + 32 * q + 8) t).getLsbD 31 = false)))
    ∧ (deviceReady s = false → NothingHappens (exec (.qtailDoorbell fn q val) s) s))
  ∧ (∀ (fn q : Nat) (bytes : List Byte) (r : LRec) (s : State), TakesRecord fn q bytes r s →
    (∀ o k, aget r.object s.objects = some o → o.ctx = queueCtx fn q s → o.kernels[r.kernel]? = some k → recordFaults bytes r (some k) = [] →
      r.order ≤ 2 → Happens (exec (.takeLaunchRecord fn q) s) (fun t => headOf fn q t = (headOf fn q s + 1) % 2 ^ 64 ∧ t.mem = s.mem
        ∧ ∃ key l, aget key t.launches = some l ∧ (∀ j, j ≠ key → aget j t.launches = aget j s.launches)
          ∧ (l = launchOf fn q (headOf fn q s) (queueCtx fn q s) r o k
            ∨ l = { launchOf fn q (headOf fn q s) (queueCtx fn q s) r o k with status := 2, stopped := true })))
    ∧ ((aget r.object s.objects = none ∨ (∃ o, aget r.object s.objects = some o ∧ o.kernels[r.kernel]? = none) ∨ ∃ o k d, aget r.object s.objects = some o ∧ o.kernels[r.kernel]? = some k
          ∧ d ∈ recordFaults bytes r (some k)) → r.completion = 0 →
      Happens (exec (.takeLaunchRecord fn q) s) (fun t => headOf fn q t = (headOf fn q s + 1) % 2 ^ 64 ∧ t.mem = s.mem
        ∧ t.launches = s.launches)))
  ∧ (∀ (k : Nat) (l : Launch) (s : State), aget k s.launches = some l → launchOver k s = true → completing s = true →
    onTrial l.fn s ≠ some k →
    (l.r.completion = 0 → Happens (exec (.launchCompletion k) s) (fun t => aget k t.launches = none ∧ t.mem = s.mem
      ∧ ∀ e ∈ t.groups, e.2.launch ≠ k))
    ∧ (∀ a, l.r.completion ≠ 0 → l.r.completion < 2 ^ 57 → resolveVa l.ctx l.r.completion .wr 0 (launchGone k s) = .at (.phys a) →
      Happens (exec (.launchCompletion k) s) (fun t => aget k t.launches = none ∧ (∀ e ∈ t.groups, e.2.launch ≠ k)
        ∧ Completed a l.r.compval (endStatus l s) s t)))
  ∧ (∀ (k core u : Nat) (l : Launch) (s : State), aget k s.launches = some l → dispatching l s = true → l.r.coop = false →
    l.r.cluster ≤ 1 → l.r.order ≠ 3 → nextFor l core s = some u → coreServes l.fn core s = true → entriesOn core s < 4 →
    Happens (exec (.dispatchGroup k core) s) (fun t => t.mem = s.mem ∧ t.groups = s.groups
      ∧ aget k t.launches = some { l with dispatched := l.dispatched ++ [u] }
      ∧ ∃ id, (coreOf core t).dispatchQ = (coreOf core s).dispatchQ ++ [id]
        ∧ aget id t.entries = some { launch := k, groups := [u], refusals := 0, restore := false, stops := [] }))
  ∧ (∀ (core id u : Nat) (qs : List Nat) (e : DEntry) (l : Launch) (places : List (Nat × Nat)) (granules : List Nat) (s : State),
    (coreOf core s).dispatchQ = id :: qs → aget id s.entries = some e → e.restore = false → e.groups = [u] → e.stops = [] →
    aget e.launch s.launches = some l → l.r.cluster ≤ 1 → bankFirst e core s = false →
    fitEntry e core s = some [(u, core, places, granules)] →
    Happens (exec (.admitGroup core) s) (fun t => t.mem = s.mem ∧ aget id t.entries = none
      ∧ (coreOf core t).dispatchQ = (id :: qs).filter (fun x => x != id)
      ∧ aget e.launch t.launches = some { l with admitted := l.admitted ++ [u] }
      ∧ ∃ key g, aget key t.groups = some g
        ∧ Seated (Group.start l e.launch u core key (cycleAt core s).toNat places granules) g
        ∧ ∀ j, j ≠ key → aget j t.groups = aget j s.groups))
  ∧ (∀ (fn : Nat) (q : BitVec 6) (s : State), runningLaunch fn q.toNat s = none → NothingHappens (exec (.qpre fn q) s) s)
  ∧ (∀ (fn : Nat) (q : BitVec 6) (key k b : Nat) (l0 : Launch) (g : Group) (l : Launch) (s : State),
    runningLaunch fn q.toNat s = some (key, l0) → residentOf key s = [k] →
    Suspends k g l { hold := false, tail := false, debug := none, base := none } b s →
    Happens (exec (.qpre fn q) s) (Suspended k g l { hold := false, tail := false, debug := none, base := none } b s))
  ∧ ∀ (fn : Nat) (q : BitVec 6) (s : State), (mreg fn 0x1A10 s).getLsbD q.toNat = false →
    Happens (exec (.queueReset fn q) s) (fun t => t.mem = s.mem
      ∧ (resetOver fn q.toNat t = true → mreg fn (0x1000 + 32 * q.toNat + 16) t = mreg fn (0x1000 + 32 * q.toNat + 24) s
        ∧ (mreg fn (0x1000 + 32 * q.toNat + 8) t).getLsbD 31 = false)
      ∧ (resetOver fn q.toNat t = false → (fn, q.toNat) ∈ t.resetting
        ∧ mreg fn (0x1000 + 32 * q.toNat + 16) t = mreg fn (0x1000 + 32 * q.toNat + 16) s
        ∧ mreg fn (0x1000 + 32 * q.toNat + 8) t = mreg fn (0x1000 + 32 * q.toNat + 8) s)
      ∧ (runningLaunch fn q.toNat s = none → resetOver fn q.toNat t = true ∧ t.launches = s.launches)
      ∧ (s.resetting.contains (fn, q.toNat) = false → ∀ key l l0, runningLaunch fn q.toNat s = some (key, l0) → aget key s.launches = some l →
          ∃ l', aget key t.launches = some l' ∧ l'.stopped = true ∧ l'.status = 3 ∧ l'.r.completion = 0))

/-- The activation rule, rotation, footprint windows and starvation change one gang's standing, and no register of it. A DISCARD, a group
HOLD and a quantum's end put a group's state in its save area and its entry in the dispatch queue. A stop request marks the fragments of its
gang, a breakpoint holds its fragment with a debug record. A world switch begins the next function's turn, and a virtual function is enabled
where nothing of its is taken. That the save pool and the debug ring are physical, the times, the save areas, the stops and a refused enable
are log entries 12, 25, 29 to 31, 38, 46 and 75: the model's choices. -/
def Obligations.SchedulingStopsAndSwitches : Prop :=
  (∀ (core : Nat) (a : Seat) (gg : Gang) (g : Group) (l : Launch) (s : State), overflowGang core s = some a → gangOf a.r s = some gg →
    aget a.r.grp s.groups = some g → aget g.launch s.launches = some l →
    Happens (exec (.gangDeactivate core) s) (fun t => t.mem = s.mem ∧ OtherGangs a.r s t
      ∧ gangOf a.r t = some { gg with active := false, exempt := false, starved := none, changedAt := nowOf a.r s }))
  ∧ (∀ (core : Nat) (a : Seat) (gg : Gang) (s : State), roomGang core s = some a → gangOf a.r s = some gg →
    Happens (exec (.gangActivate core) s) (fun t => t.mem = s.mem ∧ OtherGangs a.r s t
      ∧ gangOf a.r t = some { gg with active := true, exempt := false, changedAt := nowOf a.r s }))
  ∧ (∀ (r : GangRef) (gg : Gang) (s : State), rotationDue r s = true → gangOf r s = some gg →
    Happens (exec (.gangRotation r) s) (fun t => t.mem = s.mem
      ∧ gangOf r t = some { gg with active := true, exempt := true, changedAt := nowOf r s }
      ∧ (OtherGangs r s t ∨ ∃ o go, o ≠ r ∧ gangOf o s = some go
          ∧ gangOf o t = some { go with active := false, exempt := false, starved := none, changedAt := nowOf o s }
          ∧ ∀ j, j ≠ r → j ≠ o → gangOf j t = gangOf j s)))
  ∧ (∀ (r : GangRef) (gg : Gang) (s : State), gangOf r s = some gg → 2048 ≤ gg.window →
    let k := ((List.range 512).filter (fun i => gg.footprint.getLsbD i)).length
    Happens (exec (.footprintWindowEnd r) s) (fun t => t.mem = s.mem ∧ OtherGangs r s t
      ∧ ∃ e, gangOf r t = some { gg with leaseBase := e, leaseE := 0, footprint := 0#512, window := 0 }
        ∧ (k = 0 → e = 0) ∧ (512 ≤ k → e = 4096) ∧ (0 < k → k < 512 → e = lnEstimate (512 - k))))
  ∧ (∀ (r : GangRef) (gg : Gang) (s : State), mayStarve r s = true → gangOf r s = some gg →
    Happens (exec (.gangStarved r) s) (fun t => t.mem = s.mem ∧ OtherGangs r s t
      ∧ gangOf r t = some { gg with starved := some s.clock }))
  ∧ (∀ (k b : Nat) (g : Group) (l : Launch) (s : State),
    (Suspends k g l { hold := false, tail := false, debug := none, base := none } b s →
      Happens (exec (.discard k) s) (Suspended k g l { hold := false, tail := false, debug := none, base := none } b s))
    ∧ (Suspends k g l { hold := true, tail := false, debug := none, base := none } b s →
      Happens (exec (.groupHold k) s) (Suspended k g l { hold := true, tail := false, debug := none, base := none } b s))
    ∧ (Suspends k g l { hold := false, tail := true, debug := none, base := none } b s → quantumOver k s = true →
      Happens (exec (.quantumExpiry k) s) (Suspended k g l { hold := false, tail := true, debug := none, base := none } b s)))
  ∧ (∀ (fn : Nat) (val : BitVec 64) (s : State),
    (val.getLsbD 31 = false → Happens (exec (.stopRequest fn val) s) (fun t =>
      t = { s with stalled := [], mmio := sput (65536 * fn + 0x1920) (val &&& 0xFFFFFFFF403F001F#64) s.mmio }))
    ∧ ∀ key g gg, StopsGroup fn val key g s → aget (bits val.toNat 4 0) g.gangs = some gg →
      Happens (exec (.stopRequest fn val) s) (fun t => t.mem = s.mem ∧ OtherGangs { grp := key, gang := bits val.toNat 4 0 } s t
        ∧ ∃ gg', gangOf { grp := key, gang := bits val.toNat 4 0 } t = some gg' ∧ ∀ i f, aget i gg.frags = some f →
          ∃ f', aget i gg'.frags = some f'
            ∧ ((∀ k p, f.hold ≠ .fault k p) → f' = { f with stopReq := true, waitSkip := f'.waitSkip })
            ∧ ((∃ k p, f.hold = .fault k p) → f' = f)))
  ∧ (∀ (r : FragRef) (c : Cur) (n : Nat) (s : State), curOf r s = some c → c.frag.ready = true → bpHit c s = some n →
    (mreg (ownerFn c.ctx s) (0x1940 + 8 * n) s).getLsbD 0 = false →
    Happens (exec (.breakpointStop r) s) (fun t => t.mem = s.mem ∧ OtherGangs (gangRefOf r) s t
      ∧ ∃ k, gangOf (gangRefOf r) t = some { c.gang with
          frags := amod r.frag (fun f => { f with stopReq := false, hold := .fault k c.frag.pc }) c.gang.frags }
        ∧ aget k t.tokens = some { fn := ownerFn c.ctx s, debug := true, vectorC := false, kind := .frags, frags := [c.r], key := none,
                                   record := recOf c c.frag.pc { cls := 0x20, kind := 1, detail := BitVec.ofNat 32 n }, written := false, live := true }))
  ∧ (∀ (s : State), sliceOver s = true → residentGroups s.sliceFn s = [] →
    Happens (exec .worldSwitch s) (fun t => ∃ fn, nextSlice s = some fn
      ∧ t = { s with stalled := [], switching := false, sliceFn := fn, sliceStart := (cycleAt 0 s).toNat }))
  ∧ (∀ (n : Nat) (val : BitVec 64) (s : State), 1 ≤ n → n ≤ 16 →
    (vfOn n s = false → vfRefused n val s = false →
      let u := vfWritten n ((val &&& 0x400000000000FFFF#64) ||| 0x8000000000000000#64) s
      Happens (exec (.vfEnable n val) s) (fun t => vfOn n t = true ∧ (servedAlone n u = true → t = u)))
    ∧ (vfRefused n val s = true → NothingHappens (exec (.vfEnable n val) s) s)
    ∧ (vfOn n s = true → Happens (exec (.vfDisable n val) s) (fun t => vfOn n t = false))
    ∧ (vfOn n s = false → Happens (exec (.vfDisable n val) s) (fun t => t = vfWritten n (val &&& 0x400000000000FFFF#64) s)))

/-! Statements of faults, actions and translation caches. -/

/-- A fault record is written at TAIL, which advances, and raises its interrupt where HEAD was TAIL. RETRY lets a held fragment go on at its
retry point, ABANDON halts its gang, TERMINATE ends the launches of its context, and an action that names no live token sets STALE. TLB
invalidations remove the translations they name, and ATS and PRI answers add them or lead to faults. A logged lane is granted in its turn,
and one with no turn or no end of waiting ends its launch as DIVERGED. When a logged lane is performed, where the ring and the log lie,
which tokens an action makes stale, what an invalidation waits for, and that an atomic at a peer waits as a logged lane does, are log entries
8, 12, 39, 41 and 48: the model's choices. -/
def Obligations.FaultsActionsAndTranslations : Prop :=
  (∀ (fn k : Nat) (x : Token) (s : State), TakesFault fn k x s → let a := faultSlot fn s
    Happens (exec (.faultRecordWrite fn) s) (fun t =>
      (∀ f ∈ recordFields k x.record, getNum t.mem (a + f.1) f.2.1 = f.2.2 % 256 ^ f.2.1)
      ∧ (x.kind = .frags → getNum t.mem (a + 4) 4 = max x.frags.length 1 % 2 ^ 32)
      ∧ (∀ g, x.kind = .group g → getNum t.mem (a + 4) 4 = 1)
      ∧ (∀ core copy, x.kind = .engine core copy → getNum t.mem (a + 4) 4 = 0)
      ∧ (∀ b, ¬(a ≤ b ∧ b < a + 64) → sget b t.mem = sget b s.mem)
      ∧ mreg fn 0x1818 t = mreg fn 0x1818 s + 1#64 ∧ aget k t.tokens = some { x with written := true }
      ∧ ∃ wraps, (∀ e ∈ wraps, e.2 = 3)
        ∧ t.msix = s.msix ++ wraps ++ (if mreg fn 0x1810 s = mreg fn 0x1818 s then [(fn, 1)] else [])))
  ∧ (∀ (fn k : Nat) (x : Token) (r : FragRef) (gg : Gang) (f : Frag) (p : DWord) (s : State), HeldFor fn k x r gg f p s →
    Happens (exec (.factRetry fn) s) (fun t => ActedOn fn k t ∧ ∃ gg', gangOf (gangRefOf r) t = some gg'
      ∧ aget r.frag gg'.frags = some { f with hold := .run, pc := p, bpSkip := f.bpSkip || (x.debug && x.record.kind == 1#8) })
    ∧ Happens (exec (.factAbandon fn) s) (fun t => ActedOn fn k t ∧ ∀ gg', gangOf (gangRefOf r) t = some gg' → gg'.halted = true))
  ∧ (∀ (fn k : Nat) (x : Token) (s : State), liveToken fn s = some (k, x) →
    Happens (exec (.factTerminate fn) s) (fun t => mreg fn 0x1828 t = 0#64
      ∧ (∀ e ∈ t.tokens, e.2.record.ctx = x.record.ctx → e.2.live = false)
      ∧ ∀ key l l', aget key s.launches = some l → l.ctx = x.record.ctx → aget key t.launches = some l' →
          l'.stopped = true ∧ l'.status = 3))
  ∧ (∀ (fn : Nat) (s : State), Stale fn (exec (.factReserved fn) s) s
    ∧ (liveToken fn s = none → Stale fn (exec (.factRetry fn) s) s ∧ Stale fn (exec (.factAbandon fn) s) s
      ∧ Stale fn (exec (.factTerminate fn) s) s))
  ∧ (∀ (fn : Nat) (val : BitVec 64) (s : State), Happens (exec (.tlbInvalidate fn val) s) (fun t => t.mem = s.mem ∧ t.tlb = s.tlb
      ∧ (val.getLsbD 31 = false → t.tlbi = s.tlbi ∧ (mreg fn 0x1848 t).getLsbD 30 = (mreg fn 0x1848 s).getLsbD 30)
      ∧ (val.getLsbD 31 = true → (mreg fn 0x1848 t).getLsbD 30 = true
        ∧ ∃ i, t.tlbi = s.tlbi ++ [i] ∧ i.fn = fn ∧ i.ctx = val.extractLsb' 8 6
          ∧ (val.getLsbD 6 = true → ∀ va, va < 2 ^ 57 → i.va ≤ va ∧ va < i.va + i.size)
          ∧ (val.getLsbD 6 = false → bits val.toNat 5 0 ≤ 41 →
              i.va = (mreg fn 0x1840 s).toNat / 65536 * 65536 ∧ i.size = 65536 * 2 ^ bits val.toNat 5 0))))
  ∧ (∀ (fn : Nat) (s : State), tlbiReady fn s = true → Happens (exec (.tlbInvalidateDone fn) s) (fun t => t.mem = s.mem
      ∧ (mreg fn 0x1848 t).getLsbD 30 = false ∧ (∀ i ∈ t.tlbi, i.fn ≠ fn)
      ∧ ∀ e, e ∈ t.tlb ↔ e ∈ s.tlb ∧ ∀ i ∈ s.tlbi, i.fn = fn → ¬(e.ctx = i.ctx ∧ e.mem ≠ 2 ∧ i.va < e.va + e.size ∧ e.va < i.va + i.size)))
  ∧ (∀ (ctx : BitVec 6) (va : BitVec 64) (size : Nat) (s : State), Happens (exec (.atsInvalidation ctx va size) s) (fun t => t.mem = s.mem
      ∧ ∀ e, e ∈ t.tlb ↔ e ∈ s.tlb ∧ ¬(e.ctx = ctx ∧ e.mem = 2 ∧ va.toNat < e.va + e.size ∧ e.va < va.toNat + size)))
  ∧ (∀ (ctx : BitVec 6) (va : BitVec 64) (s : State), (ctx, va.toNat / 4096) ∈ s.priReqs →
    (Happens (exec (.priResponse ctx va true) s) (fun t => t =
        { s with stalled := [], priReqs := s.priReqs.filter (fun e => e != (ctx, va.toNat / 4096)),
                 hostWaits := s.hostWaits.filter (fun e => e.1 != (ctx, va.toNat / 4096)) }))
    ∧ Happens (exec (.priResponse ctx va false) s) (fun t => t =
        { s with stalled := [], priReqs := s.priReqs.filter (fun e => e != (ctx, va.toNat / 4096)),
                 hostWaits := s.hostWaits.filter (fun e => e.1 != (ctx, va.toNat / 4096)),
                 priRefused := s.priRefused ++ s.hostWaits.filter (fun e => e.1 == (ctx, va.toNat / 4096)) }))
  ∧ (∀ (ctx : BitVec 6) (va : BitVec 64) (hpa size : Nat) (rd wr : Bool) (s : State), (ctx, va.toNat / 4096) ∈ s.atsReqs →
    (Happens (exec (.atsTranslationResponse ctx va true hpa size rd wr) s) (fun t => t.mem = s.mem
      ∧ t.atsReqs = s.atsReqs.filter (fun e => e != (ctx, va.toNat / 4096))
      ∧ ∃ e, t.tlb = s.tlb ++ [e] ∧ e.ctx = ctx ∧ e.mem = 2 ∧ e.rd = rd ∧ e.wr = wr ∧ e.ex = false
        ∧ e.size = (if size < 65536 then 4096 else size) ∧ e.va = va.toNat / e.size * e.size))
    ∧ Happens (exec (.atsTranslationResponse ctx va false hpa size rd wr) s) (fun t => t.mem = s.mem ∧ t.tlb = s.tlb
      ∧ t.atsReqs = s.atsReqs.filter (fun e => e != (ctx, va.toNat / 4096))
      ∧ (∀ e, e ∈ t.priReqs ↔ e ∈ s.priReqs ∨ e = (ctx, va.toNat / 4096))))
  ∧ (∀ (r : GangRef) (op lane : Nat) (grp : Group) (gg : Gang) (l : Launch) (o : PendOp) (w : LogWait) (x : LogLane) (s : State),
    LaneWaits r op lane grp gg l o w x s →
    (w.order = 4 → ∀ rec, logTurn l x s = .now rec → let a := laneGrant r (some rec) grp l o w x (readLog l s)
      Happens (exec (.loggedAtomicGrant r op lane) s) (fun t => t.mem = a.1.mem
        ∧ aget grp.launch t.launches = some { l with consumed := l.consumed ++ [rec] } ∧ LaneGranted r gg l o w x a.2 s t))
    ∧ (w.order = 4 → logTurn l x s = .later → NothingHappens (exec (.loggedAtomicGrant r op lane) s) s)
    ∧ (w.order = 4 → logTurn l x s = .absent → Happens (exec (.loggedAtomicGrant r op lane) s) (fun t =>
        ∃ l', aget grp.launch t.launches = some l' ∧ l'.stopped = true ∧ l'.status = 4))
    ∧ (w.order ≠ 3 → w.order ≠ 4 → w.lanes.head? = some x → let a := laneGrant r none grp l o w x s
      Happens (exec (.loggedAtomicGrant r op lane) s) (fun t => t.mem = a.1.mem ∧ t.launches = s.launches ∧ LaneGranted r gg l o w x a.2 s t)))
  ∧ ∀ (r : GangRef) (op lane : Nat) (grp : Group) (gg : Gang) (l : Launch) (o : PendOp) (w : LogWait) (x : LogLane) (s : State),
    LaneWaits r op lane grp gg l o w x s →
    (w.order = 4 → 2 ^ 26 < elapsed grp.core w.since s → Happens (exec (.replayWaitTimeout r op) s) (fun t =>
        ∃ l', aget grp.launch t.launches = some l' ∧ l'.stopped = true ∧ l'.status = 4))
    ∧ (w.order ≠ 4 ∨ elapsed grp.core w.since s ≤ 2 ^ 26 → NothingHappens (exec (.replayWaitTimeout r op) s) s)

/-! Statements of debug sessions, registers, tests and the platform. -/

/-- Opening a trace session clears TSDROP, closing it writes a terminator. Opening a Lantern trial clears its counts. A counter that wraps
sets its CSOVF bit. A write of a plain register stores its fields, and of a read-only one nothing; CSOVF loses the bits written. An
injection flips bits of a line that is held, and sets MISS where none is. A write of BANKCFG.SCR switches each bank that changes, or is
refused where it is in use. A register error poisons the word, a self-test frees or quarantines its segment, and the Ringmaster's cores
freeze dispatch until they have booted. Log entries 12, 35 to 37, 42 to 44, 47, 50 and 64, which is that a bank still BUSY stays as it is, name
the model's choices in it. -/
def Obligations.DebugRegistersAndReliability : Prop :=
  (∀ (fn : Nat) (val : BitVec 64) (s : State), (mreg fn 0x1A08 s).getLsbD 31 = false →
    Happens (exec (.traceSessionOpen fn val) s) (fun t => t.mem = s.mem ∧ mreg fn 0x1A20 t = 0#64
      ∧ mreg fn 0x1A08 t = (val &&& 0x40003F1F#64) ||| 0x80000000#64)
    ∧ Happens (exec (.traceSessionClose fn val) s) (fun t => t.mem = s.mem ∧ mreg fn 0x1A08 t = val &&& 0x40003F1F#64
      ∧ OtherRegs fn 0x1A08 s t))
  ∧ (∀ (fn : Nat) (val : BitVec 64) (s : State), (mreg fn 0x1A08 s).getLsbD 31 = true → let a := traceSlot fn s
    Happens (exec (.traceSessionOpen fn val) s) (fun t => t.mem = s.mem ∧ OtherRegs fn 0x1A08 s t
      ∧ mreg fn 0x1A08 t = (val &&& 0x40003F1F#64) ||| 0x80000000#64)
    ∧ Happens (exec (.traceSessionClose fn val) s) (fun t => mreg fn 0x1A08 t = val &&& 0x40003F1F#64
      ∧ mreg fn 0x1A18 t = mreg fn 0x1A18 s + 1#64 ∧ getNum t.mem a 1 = 3 ∧ getNum t.mem (a + 1) 1 = bits (mreg fn 0x1A08 s).toNat 13 8
      ∧ getNum t.mem (a + 2) 1 = 1 ∧ getNum t.mem (a + 3) 1 = 0 ∧ getNum t.mem (a + 4) 2 = 0xFFFF ∧ getNum t.mem (a + 16) 8 = 0
      ∧ (traceUse fn s < 2 ^ min ((mreg fn 0x1A08 s).toNat % 32) 16 → getNum t.mem (a + 48) 8 = (mreg fn 0x1A20 s).toNat)
      ∧ ∀ b, ¬(a ≤ b ∧ b < a + 64) → sget b t.mem = sget b s.mem))
  ∧ (∀ (fn : Nat) (val : BitVec 64) (s : State), (mreg fn 0x1AC0 s).getLsbD 63 = false →
    Happens (exec (.lanternStart fn val) s) (fun t => t.mem = s.mem ∧ mreg fn 0x1AC0 t = (val &&& 0x3F00FF#64) ||| 0x8000000000000000#64
      ∧ mreg fn 0x1AD8 t = 0#64 ∧ mreg fn 0x1AE0 t = 0#64 ∧ ∀ k, k < 8 → mreg fn (0x1B40 + 8 * k) t = 0#64))
  ∧ (∀ (fn : Nat) (n : BitVec 6) (s : State), (mreg fn 0x1B00 s).getLsbD 31 = true → running fn s = true →
    countedCode fn ((mreg fn (0x1C00 + 8 * n.toNat) s).toNat % 65536) = true → mreg fn (0x1E00 + 8 * n.toNat) s = 0xFFFFFFFFFFFF#64 →
    Happens (exec (.counterWrap fn n) s) (fun t => t.mem = s.mem ∧ mreg fn (0x1E00 + 8 * n.toNat) t = 0#64
      ∧ mreg fn 0x1B08 t = mreg fn 0x1B08 s ||| (1#64 <<< n.toNat)
      ∧ t.msix = if (mreg fn (0x1C00 + 8 * n.toNat) s).getLsbD 16 then s.msix ++ [(fn, 3)] else s.msix))
  ∧ (∀ (fn : Nat) (val : BitVec 64) (s : State), fn ≤ 16 →
    (∀ e ∈ plainRegs, Happens (exec (.registerWrite fn (BitVec.ofNat 16 e.1) val) s) (fun t => t.mem = s.mem ∧ OtherRegs fn e.1 s t
      ∧ mreg fn e.1 t &&& e.2 = val &&& e.2))
    ∧ (∀ off ∈ fixedRegs, Happens (exec (.registerWrite fn (BitVec.ofNat 16 off) val) s) (fun t => t.mem = s.mem
      ∧ ∀ k, sget k t.mmio = sget k s.mmio))
    ∧ Happens (exec (.registerWrite fn 0x1B08#16 val) s) (fun t => t.mem = s.mem ∧ OtherRegs fn 0x1B08 s t
      ∧ mreg fn 0x1B08 t = mreg fn 0x1B08 s &&& ~~~ val)
    ∧ exec (.registerWrite fn 0x1920#16 val) s = exec (.stopRequest fn val) s
    ∧ exec (.registerWrite fn 0x1848#16 val) s = exec (.tlbInvalidate fn val) s
    ∧ exec (.registerWrite fn 0x1830#16 val) s = exec (.qpre fn (val.extractLsb' 0 6)) s
    ∧ exec (.registerWrite fn 0x19F0#16 val) s = exec (.queueReset fn (val.extractLsb' 0 6)) s)
  ∧ (∀ (val : BitVec 64) (s : State), val.getLsbD 31 = true → (bits val.toNat 1 0 = 1 ∨ bits val.toNat 1 0 = 2) →
    let ln := bits (mreg 0 0x2608 s).toNat 38 7
    (bits val.toNat 5 4 = 3 → isRetired (128 * ln) s = false → aget ln s.hbmFlips = none →
      Happens (exec (.errorInject val) s) (fun t => t.mem = s.mem ∧ aget ln t.hbmFlips = some (bits val.toNat 1 0) ∧ t.l2 = s.l2
        ∧ t.mirror = s.mirror ∧ (mreg 0 0x2600 t).getLsbD 30 = false))
    ∧ (bits val.toNat 5 4 = 1 → isRetired (128 * ln) s = false → ∀ x, aget ln s.l2 = some x → x.flips = 0 →
      Happens (exec (.errorInject val) s) (fun t => t.mem = s.mem ∧ t.hbmFlips = s.hbmFlips ∧ t.mirror = s.mirror
        ∧ aget ln t.l2 = some { x with flips := bits val.toNat 1 0, stuck := x.stuck || val.getLsbD 28 }
        ∧ (mreg 0 0x2600 t).getLsbD 30 = false ∧ (mreg 0 0x2600 t).getLsbD 29 = x.dirty))
    ∧ (bits val.toNat 5 4 = 1 → aget ln s.l2 = none →
      Happens (exec (.errorInject val) s) (fun t => (mreg 0 0x2600 t).getLsbD 30 = true ∧ t = { s with stalled := [], mmio := t.mmio })))
  ∧ (∀ (core : Nat) (val : BitVec 16) (s : State), core < 160 → Happens (exec (.bankcfgScrWrite core val) s) (fun t => t.mem = s.mem
      ∧ t.groups = s.groups ∧ (∀ j, j ≠ core → aget j t.cores = aget j s.cores)
      ∧ ∀ b, b < 16 → BankWritten (coreOf core s) (coreOf core t) b (val.getLsbD b) (bankInUse core b s)))
  ∧ (∀ (core : Nat) (b : BitVec 4) (s : State), (coreOf core s).busy.getLsbD b.toNat = true →
    ((coreOf core s).scr.getLsbD b.toNat = true → overflowGang core s = none) →
    Happens (exec (.bankSwitchDone core b) s) (fun t =>
      coreOf core t = { coreOf core s with busy := (coreOf core t).busy, l1 := (coreOf core s).l1.filter (fun e => e.2.bank != b.toNat) }
      ∧ (∀ i, i < 16 → (coreOf core t).busy.getLsbD i = ((coreOf core s).busy.getLsbD i && i != b.toNat))
      ∧ t = { s with stalled := [], cores := t.cores } ∧ ∀ j, j ≠ core → aget j t.cores = aget j s.cores))
  ∧ (∀ (r : GangRef) (grp : Group) (gg : Gang) (l : Launch) (s : State), aget r.grp s.groups = some grp → aget r.gang grp.gangs = some gg →
    aget grp.launch s.launches = some l → grp.ended = false → gg.ended = false → gg.halted = false →
    (∀ (v : BitVec 7) (lane : BitVec 5), v.toNat < l.r.regs → v.toNat < 112 →
      Happens (exec (.uncorrectableRegisterError r (.vreg v lane)) s) (fun t => t.mem = s.mem ∧ OtherGangs r s t
        ∧ (∃ g', gangOf r t = some g' ∧ g' = { gg with vregs := g'.vregs, vpois := g'.vpois } ∧ g'.vpoisoned v.toNat lane.toNat = !(sget v.toNat gg.killed).getLsbD lane.toNat
          ∧ ∀ n i, n < 112 → i < 32 → ¬(n = v.toNat ∧ i = lane.toNat) →
              g'.vraw n i = gg.vraw n i ∧ g'.vpoisoned n i = gg.vpoisoned n i)
        ∧ (Segment.regBank grp.core gg.partition (v.toNat % 4) ∈ t.quiescing ∨ Segment.regBank grp.core gg.partition (v.toNat % 4) ∈ t.testing
          ∨ Segment.regBank grp.core gg.partition (v.toNat % 4) ∈ t.quarantined)))
    ∧ (∀ n : BitVec 6, Happens (exec (.uncorrectableRegisterError r (.sreg n)) s) (fun t => t.mem = s.mem ∧ OtherGangs r s t
        ∧ ∃ g', gangOf r t = some g' ∧ g' = { gg with sregs := g'.sregs, spois := g'.spois }
          ∧ ∀ m, g'.spoisoned m = (gg.spoisoned m || m == n) ∧ (m ≠ n → g'.s m = gg.s m)))
    ∧ (∀ n : BitVec 3, Happens (exec (.uncorrectableRegisterError r (.preg n)) s) (fun t => t.mem = s.mem ∧ OtherGangs r s t
        ∧ ∃ g', gangOf r t = some g' ∧ g' = { gg with pregs := g'.pregs, ppois := g'.ppois }
          ∧ ∀ m, g'.ppoisoned m = (gg.ppoisoned m || m == n) ∧ (m ≠ n → g'.pr m = gg.pr m)))
    ∧ ((akeys s.groups).Pairwise (· < ·) → ∀ (i : BitVec 3) (f : Frag), aget i.toNat gg.frags = some f →
      Happens (exec (.uncorrectableRegisterError r (.splitEntry i)) s) (fun t => ∀ g', gangOf r t = some g' → g'.halted = true)))
  ∧ (∀ (c p b : Nat) (s : State), p < 4 → Segment.regBank c p b ∈ s.quiescing → quiesceGroups (.regBank c p b) s = [] →
    Happens (exec (.selfTestStart (.regBank c p b)) s) (fun t => t.mem = s.mem ∧ t.testing = s.testing ++ [.regBank c p b]
      ∧ (∀ x, x ∈ t.quiescing ↔ x ∈ s.quiescing ∧ x ≠ .regBank c p b) ∧ (coreOf c t).partOff.getLsbD p = true))
  ∧ (∀ (seg : Segment) (pass : Bool) (s : State), seg ∈ s.testing → Happens (exec (.selfTestDone seg pass) s) (fun t =>
      (∀ x, x ∈ t.testing ↔ x ∈ s.testing ∧ x ≠ seg)
      ∧ t.quarantined = if pass = true ∧ (∀ e ∈ s.stuck, e.2.2 ≠ seg) then s.quarantined else s.quarantined ++ [seg]))
  ∧ (∀ s : State, Happens (exec .ringmasterLockstepMismatch s) (fun t =>
      t = { s with stalled := [], dispatchFrozen := true, ringmasterBoot := true }))
  ∧ ∀ s : State, s.ringmasterBoot = true →
    (s.restarting = false → Happens (exec (.ringmasterBootDone true) s) (fun t =>
        t = { s with stalled := [], dispatchFrozen := false, ringmasterBoot := false }))
    ∧ (s.restarting = true → s.quiescing = [] → s.testing = [] → Happens (exec (.ringmasterBootDone true) s) (fun t =>
        t.dispatchFrozen = false ∧ t.restarting = false ∧ t.ringmasterBoot = false ∧ t.mem = s.mem ∧ OtherRegs 0 0x2420 s t
        ∧ mreg 0 0x2420 t = mreg 0 0x2420 s ||| 1#64))
    ∧ Happens (exec (.ringmasterBootDone false) s) (fun t => t.dispatchFrozen = s.dispatchFrozen ∧ t.ringmasterBoot = false ∧ t.mem = s.mem
        ∧ OtherRegs 0 0x2420 s t ∧ mreg 0 0x2420 t = mreg 0 0x2420 s ||| 2#64)

/-- Bring-up zeroes the device's memory and shows READY; D3cold, a management reset and a wake from D3cold leave a fresh device; D3hot keeps
its state, and a thermal trip drops its cores. Links and ports go down and come up, the clock moves by a step within its bounds. A host read
returns the bytes, a host write stores them. A flit in order is taken, its sender answered; an acknowledgement empties the replay buffer
of its channel, or has it sent again. A memory error ends the launches of its owner
and retires its frame. A report answers an attestation. Log entries 44 (a failed bring-up), 45, 48, 49 and 68 (what a report holds) name the model's choices in
it. -/
def Obligations.PlatformEvents : Prop :=
  (∀ s : State, mreg 0 0x2420 s = 0#64 → s.power = .d0 → s.restarting = false → s.ringmasterBoot = false →
    Happens (exec (.bringUp true) s) (fun t => DeviceZero s t ∧ t.l2 = [] ∧ t.mirror = [] ∧ t.links = 3#2 ∧ mreg 0 0x2420 t = 1#64
      ∧ OtherRegs 0 0x2420 s t)
    ∧ Happens (exec (.bringUp false) s) (fun t => t.mem = s.mem ∧ mreg 0 0x2420 t = 2#64 ∧ OtherRegs 0 0x2420 s t))
  ∧ (∀ s : State, (s.power ≠ .tripped → Happens (exec .d3coldEntry s) (fun t => FreshDevice s t ∧ t.power = .d3cold))
    ∧ (s.power = .tripped → NothingHappens (exec .d3coldEntry s) s)
    ∧ (s.power = .d3cold ∨ s.power = .tripped → Happens (exec .managementReset s) (fun t => FreshDevice s t ∧ t.power = .d0))
    ∧ (s.links ≠ 0#2 → s.power = .d3cold → Happens (exec .d0Wake s) (fun t => FreshDevice s t ∧ t.power = .d0))
    ∧ (s.links ≠ 0#2 → s.power = .d3hot → Happens (exec .d0Wake s) (fun t => t = { s with stalled := [], power := .d0 }))
    ∧ (s.power = .d0 → s.groups = [] → Happens (exec .d3hotEntry s) (fun t => t.power = .d3hot ∧ t.sleeping = false
        ∧ ((∀ ln, badDirty ln s.l2 = false ∧ badDirty ln s.mirror = false) → t.mem = s.mem)))
    ∧ (s.power = .d0 ∨ s.power = .d3hot → Happens (exec .thermalTrip s) (fun t => t.power = .tripped ∧ t.cores = [])))
  ∧ (∀ (up port : Bool) (s : State), Happens (exec (if up then .hostLinkUp port else .hostLinkDown port) s) (fun t =>
      t = { s with stalled := [], links := t.links }
      ∧ ∀ i, i < 2 → t.links.getLsbD i = if i = (if port then 1 else 0) then up else s.links.getLsbD i))
  ∧ (∀ (up : Bool) (port : BitVec 4) (s : State), Happens (exec (if up then .fabricPortUp port else .fabricPortDown port) s) (fun t =>
      t = { s with stalled := [], ports := t.ports }
      ∧ ∀ i, i < 16 → t.ports.getLsbD i = if i = port.toNat then up else s.ports.getLsbD i))
  ∧ (∀ s : State, 8 ≤ s.clockSteps → s.clockSteps ≤ 32 →
    Happens (exec (.clockStep true) s) (fun t => t = { s with stalled := [], clockSteps := if s.clockSteps = 32 then 32 else s.clockSteps + 1 })
    ∧ Happens (exec (.clockStep false) s) (fun t => t = { s with stalled := [], clockSteps := if s.clockSteps = 8 then 8 else s.clockSteps - 1 }))
  ∧ (∀ (pa n : Nat) (s : State), s.links ≠ 0#2 → s.power = .d0 → 0 < n → pa + n ≤ 2 ^ 39 → LinesGood pa n s →
    Happens (exec (.cxlMemRead pa n) s) (fun t => t.mem = s.mem ∧ t.hostReads = s.hostReads ++ [(getBytes s.mem pa n, false)]))
  ∧ (∀ (pa : Nat) (data : List Byte) (s : State), s.links ≠ 0#2 → s.power = .d0 → data ≠ [] → pa + data.length ≤ 2 ^ 39 →
    LinesGood pa data.length s → Happens (exec (.cxlMemWrite pa data) s) (fun t =>
      ∀ x, sget x t.mem = if pa ≤ x ∧ x < pa + data.length then data.getD (x - pa) 0#8 else sget x s.mem))
  ∧ (∀ (port : BitVec 4) (f : Flit) (s : State), TakesFlit port f s →
    (f.type = 1#8 → isMember f.ctx f.src (flitArrived port f s) = false →
      Happens (exec (.flitReceive port f) s) (fun t => t.mem = s.mem ∧ t.rxSeq = (flitArrived port f s).rxSeq
        ∧ Answers port f (.refusal 4 0 (flitVa f.op)) s t))
    ∧ (∀ (va n : Nat) (as : List Nat), f.type = 1#8 → f.op = .read va n → isMember f.ctx f.src (flitArrived port f s) = true →
      requestPlaces f.ctx va n .rd (flitArrived port f s) = .ok as → (∀ a ∈ as, fatalLevel (a / 128) s = 0) →
      Happens (exec (.flitReceive port f) s) (fun t => t.mem = s.mem ∧ t.rxSeq = (flitArrived port f s).rxSeq
        ∧ ∃ p, Answers port f (.response (as.map (fun a => sget a s.mem)) p) s t))
    ∧ (∀ (va : Nat) (bs : List Byte) (as : List Nat), f.type = 1#8 → f.op = .write va bs → isMember f.ctx f.src (flitArrived port f s) = true →
      requestPlaces f.ctx va bs.length .wr (flitArrived port f s) = .ok as → as.Nodup → (∀ a ∈ as, fatalLevel (a / 128) s = 0) →
      Happens (exec (.flitReceive port f) s) (fun t =>
        (∀ i a : Nat, as[i]? = some a → bs[i]? = some (sget a t.mem)) ∧ (∀ a, a ∉ as → sget a t.mem = sget a s.mem)
        ∧ Answers port f (.response [] false) s t)))
  ∧ (∀ (port : BitVec 4) (f : Flit) (s : State), f.crcOk = false ∨ (f.type ≠ 3#8 ∧ f.seq ≠ sget (4 * port.toNat + f.vc.toNat) s.rxSeq) →
    Happens (exec (.flitReceive port f) s) (fun t => t.mem = s.mem ∧ t.rxSeq = s.rxSeq ∧ t.sent = s.sent ∧ t.txSeq = s.txSeq
      ∧ t.replay = s.replay))
  ∧ (∀ (port : BitVec 4) (f : Flit) (upTo : BitVec 12) (again : Bool) (s : State), s.ports.getLsbD port.toNat = true → s.power = .d0 →
    f.crcOk = true → f.type = 3#8 → f.op = .acknowledge upTo again → let here := fun (x : Sent) => x.port == port && x.flit.vc == f.vc
    Happens (exec (.flitReceive port f) s) (fun t => t.mem = s.mem ∧ t.rxSeq = s.rxSeq ∧ t.txSeq = s.txSeq
      ∧ (again = false → t.sent = s.sent ∧ ∀ x, x ∈ t.replay ↔ x ∈ s.replay ∧ ¬(here x = true ∧ (upTo - x.flit.seq).toNat < 2048))
      ∧ (again = true → t.replay = s.replay
        ∧ t.sent = s.sent ++ s.replay.filter (fun x => here x && decide ((x.flit.seq - upTo).toNat < 2048)))))
  ∧ (∀ (level : BitVec 2) (pa : Nat) (s : State), pa < 2 ^ 39 →
    (level = 3#2 → aget (pa / 128) s.l2 = none → aget (pa / 128) s.mirror = none → let ctx := ownerAt (128 * (pa / 128)) s
      Happens (exec (.memoryUe level pa) s) (fun t => ((∃ e ∈ t.retired, e.1 = pa / 65536) ∨ 8191 ≤ t.retired.length)
        ∧ (ctx ≠ 0#6 → ∀ key l l', aget key s.launches = some l → l.ctx = ctx → aget key t.launches = some l' →
            l'.stopped = true ∧ l'.status = 3)
        ∧ (ctx = 0#6 → t.launches = [] ∧ (mreg 0 0x2420 t).getLsbD 0 = false)))
    ∧ (level = 1#2 → ∀ x, aget (pa / 128) s.l2 = some x → x.dirty = false →
      NothingHappens (exec (.memoryUe level pa) s) s))
  ∧ ∀ (nonce : BitVec 64) (s : State), Happens (exec (.attestationRequest nonce) s) (fun t =>
      t = { s with
        stalled := []
        reports := s.reports ++ [.attestation nonce (measurements s) (Config.attest nonce (measurements s))] })
end

