-- ==== Sys2Proof/Laws/Maps.lean ====
section
/-!
SUPPORT. Laws of the maps: reading after writing, and the canonical form of sparse maps, which every write keeps.
-/
namespace Sys2Proof.Machine

/-! Records by key. -/

@[simp] theorem aget_nil {α : Type} (k : Nat) : aget k ([] : AList α) = none := rfl

theorem aget_cons {α : Type} (k j : Nat) (v : α) (t : AList α) :
    aget k ((j, v) :: t) = if j = k then some v else aget k t := rfl

/-- A read after a write at the same key gives what was written. -/
@[simp] theorem aget_aput_self {α : Type} (k : Nat) (v : α) (l : AList α) : aget k (aput k v l) = some v := by
  induction l with
  | nil => simp [aput, aget]
  | cons e t ih =>
    obtain ⟨j, w⟩ := e
    simp only [aput]
    split
    · simp [aget]
    · split
      · simp [aget]
      · simp [aget, *]

/-- A write leaves every other key alone. -/
theorem aget_aput_ne {α : Type} {k j : Nat} (h : j ≠ k) (v : α) (l : AList α) : aget j (aput k v l) = aget j l := by
  induction l with
  | nil => simp [aput, aget, Ne.symm h]
  | cons e t ih =>
    obtain ⟨i, w⟩ := e
    simp only [aput]
    split
    · next hik => subst hik; simp [aget, Ne.symm h]
    · split
      · simp [aget, Ne.symm h]
      · simp only [aget]
        split
        · rfl
        · exact ih

theorem aget_aput {α : Type} (k j : Nat) (v : α) (l : AList α) :
    aget j (aput k v l) = if j = k then some v else aget j l := by
  split
  · next h => subst h; simp
  · next h => exact aget_aput_ne h v l

@[simp] theorem aget_aerase_self {α : Type} (k : Nat) (l : AList α) : aget k (aerase k l) = none := by
  induction l with
  | nil => rfl
  | cons e t ih =>
    obtain ⟨j, w⟩ := e
    simp only [aerase]
    split
    · exact ih
    · simp [aget, *]

theorem aget_aerase_ne {α : Type} {k j : Nat} (h : j ≠ k) (l : AList α) : aget j (aerase k l) = aget j l := by
  induction l with
  | nil => rfl
  | cons e t ih =>
    obtain ⟨i, w⟩ := e
    simp only [aerase]
    split
    · next hik => subst hik; simp [aget, Ne.symm h, ih]
    · simp only [aget]
      split
      · rfl
      · exact ih

theorem aget_amod {α : Type} (k j : Nat) (f : α → α) (l : AList α) :
    aget j (amod k f l) = if j = k then (aget j l).map f else aget j l := by
  unfold amod
  by_cases h : j = k
  · subst h
    cases hg : aget j l <;> simp [hg]
  · cases hg : aget k l <;> simp [h, aget_aput_ne h]

@[simp] theorem aget_amod_self {α : Type} (k : Nat) (f : α → α) (l : AList α) : aget k (amod k f l) = (aget k l).map f := by
  simp [aget_amod]

theorem aget_amod_ne {α : Type} {k j : Nat} (h : j ≠ k) (f : α → α) (l : AList α) : aget j (amod k f l) = aget j l := by
  simp [aget_amod, h]

/-- Changing values key by key changes what is read key by key. -/
@[simp] theorem aget_amap {α β : Type} (k : Nat) (f : Nat → α → β) (l : AList α) :
    aget k (amap f l) = (aget k l).map (f k) := by
  unfold amap
  induction l with
  | nil => rfl
  | cons e t ih =>
    obtain ⟨j, w⟩ := e
    simp only [List.map_cons, aget]
    split
    · next h => subst h; rfl
    · exact ih

/-! Sparse words. -/

@[simp] theorem sget_nil {w : Nat} (k : Nat) : sget k ([] : Sparse w) = 0#w := rfl

/-- A read after a write at the same key gives the word written. -/
@[simp] theorem sget_sput_self {w : Nat} (k : Nat) (v : BitVec w) (l : Sparse w) : sget k (sput k v l) = v := by
  unfold sput sget
  split
  · next h => subst h; simp
  · simp

/-- A write leaves every other word alone. -/
theorem sget_sput_ne {w : Nat} {k j : Nat} (h : j ≠ k) (v : BitVec w) (l : Sparse w) :
    sget j (sput k v l) = sget j l := by
  unfold sput sget
  split
  · simp [aget_aerase_ne h]
  · simp [aget_aput_ne h]

theorem sget_sput {w : Nat} (k j : Nat) (v : BitVec w) (l : Sparse w) :
    sget j (sput k v l) = if j = k then v else sget j l := by
  split
  · next h => subst h; simp
  · next h => exact sget_sput_ne h v l

/-! The canonical form. -/

theorem sparseFrom_mono {w : Nat} {lo lo' : Nat} (h : lo' ≤ lo) {l : Sparse w} (hl : sparseFrom lo l = true) :
    sparseFrom lo' l = true := by
  cases l with
  | nil => rfl
  | cons e t =>
    obtain ⟨k, v⟩ := e
    simp only [sparseFrom, Bool.and_eq_true, decide_eq_true_eq] at *
    exact ⟨⟨by omega, hl.1.2⟩, hl.2⟩

theorem sparseFrom_aerase {w : Nat} (k : Nat) {lo : Nat} {l : Sparse w} (hl : sparseFrom lo l = true) :
    sparseFrom lo (aerase k l) = true := by
  induction l generalizing lo with
  | nil => rfl
  | cons e t ih =>
    obtain ⟨j, v⟩ := e
    simp only [sparseFrom, Bool.and_eq_true, decide_eq_true_eq] at hl
    simp only [aerase]
    split
    · exact sparseFrom_mono (by omega) (ih hl.2)
    · simp only [sparseFrom, Bool.and_eq_true, decide_eq_true_eq]
      exact ⟨hl.1, ih hl.2⟩

theorem sparseFrom_aput {w : Nat} {k : Nat} {v : BitVec w} (hv : v ≠ 0#w) {lo : Nat} (hk : lo ≤ k) {l : Sparse w}
    (hl : sparseFrom lo l = true) : sparseFrom lo (aput k v l) = true := by
  induction l generalizing lo with
  | nil => simp [aput, sparseFrom, hk, hv]
  | cons e t ih =>
    obtain ⟨j, u⟩ := e
    simp only [sparseFrom, Bool.and_eq_true, decide_eq_true_eq] at hl
    simp only [aput]
    split
    · next h => subst h; simp [sparseFrom, hk, hv, hl.2]
    · split
      · next h1 h2 =>
        simp only [sparseFrom, Bool.and_eq_true, decide_eq_true_eq]
        exact ⟨⟨hk, by simp [hv]⟩, ⟨by omega, hl.1.2⟩, hl.2⟩
      · next h1 h2 =>
        simp only [sparseFrom, Bool.and_eq_true, decide_eq_true_eq]
        exact ⟨hl.1, ih (by omega) hl.2⟩

/-- A write keeps the canonical form. -/
theorem sput_wf {w : Nat} (k : Nat) (v : BitVec w) {l : Sparse w} (hl : sparseWf l = true) : sparseWf (sput k v l) = true := by
  unfold sput sparseWf at *
  split
  · exact sparseFrom_aerase k hl
  · next h => exact sparseFrom_aput h (Nat.zero_le k) hl

/-- Below the least key of a canonical map every word reads zero. -/
theorem sget_below {w : Nat} {lo k : Nat} (h : k < lo) {l : Sparse w} (hl : sparseFrom lo l = true) : sget k l = 0#w := by
  induction l generalizing lo with
  | nil => rfl
  | cons e t ih =>
    obtain ⟨j, v⟩ := e
    simp only [sparseFrom, Bool.and_eq_true, decide_eq_true_eq] at hl
    have hj : j ≠ k := by omega
    have := ih (lo := j + 1) (by omega) hl.2
    simpa [sget, aget, hj] using this

/-- Two canonical maps that read the same are the same. -/
theorem sparse_ext {w : Nat} {l m : Sparse w} (hl : sparseWf l = true) (hm : sparseWf m = true)
    (h : ∀ k, sget k l = sget k m) : l = m := by
  suffices H : ∀ (l m : Sparse w) (a b : Nat), sparseFrom a l = true → sparseFrom b m = true →
      (∀ k, sget k l = sget k m) → l = m from H l m 0 0 hl hm h
  intro l
  induction l with
  | nil =>
    intro m a b _ hm h
    cases m with
    | nil => rfl
    | cons e t =>
      obtain ⟨j, v⟩ := e
      simp only [sparseFrom, Bool.and_eq_true, decide_eq_true_eq] at hm
      have := h j
      simp [sget, aget] at this
      exact absurd this.symm (by simpa using hm.1.2)
  | cons e t ih =>
    obtain ⟨i, u⟩ := e
    intro m a b hl hm h
    simp only [sparseFrom, Bool.and_eq_true, decide_eq_true_eq] at hl
    have hu : u ≠ 0#w := by simpa using hl.1.2
    cases m with
    | nil =>
      have := h i
      simp [sget, aget] at this
      exact absurd this hu
    | cons f t' =>
      obtain ⟨j, v⟩ := f
      simp only [sparseFrom, Bool.and_eq_true, decide_eq_true_eq] at hm
      have hv : v ≠ 0#w := by simpa using hm.1.2
      have hij : i = j := by
        refine Decidable.byContradiction (fun hne => ?_)
        rcases Nat.lt_or_gt_of_ne hne with hlt | hlt
        · have h1 := h i
          have h2 : sget i t' = 0#w := sget_below (lo := j + 1) (by omega) hm.2
          simp [sget, aget, Ne.symm hne] at h1
          simp [sget] at h2
          exact hu (by rw [h1]; exact h2)
        · have h1 := h j
          have h2 : sget j t = 0#w := sget_below (lo := i + 1) (by omega) hl.2
          simp [sget, aget, hne] at h1
          simp [sget] at h2
          exact hv (by rw [← h1]; exact h2)
      subst hij
      have huv : u = v := by simpa [sget, aget] using h i
      subst huv
      have hrest : t = t' := by
        refine ih t' (i + 1) (i + 1) hl.2 hm.2 (fun k => ?_)
        by_cases hk : i = k
        · subst hk
          rw [sget_below (lo := i + 1) (by omega) hl.2, sget_below (lo := i + 1) (by omega) hm.2]
        · simpa [sget, aget, hk] using h k
      rw [hrest]

/-! Memory. -/

/-- Writing cells keeps the canonical form. -/
theorem putCells_wf (cs : List Host.Cell) {m : Memory} (h : m.wf = true) : Memory.wf (putCells cs m) = true := by
  unfold putCells
  induction cs generalizing m with
  | nil => exact h
  | cons c t ih => exact ih (sput_wf c.1 c.2 h)

/-- A byte that no cell names keeps its value. -/
theorem sget_putCells_ne {a : Nat} {cs : List Host.Cell} (h : ∀ c ∈ cs, c.1 ≠ a) (m : Memory) :
    sget a (putCells cs m) = sget a m := by
  unfold putCells
  induction cs generalizing m with
  | nil => rfl
  | cons c t ih =>
    simp only [List.foldl_cons]
    rw [ih (fun d hd => h d (List.mem_cons_of_mem c hd))]
    exact sget_sput_ne (Ne.symm (h c (List.mem_cons_self ..))) c.2 m

theorem place_ge {a b : Nat} {v : Byte} {l : List Byte} (h : (b, v) ∈ place a l) : a ≤ b := by
  induction l generalizing a with
  | nil => simp [place] at h
  | cons x t ih =>
    simp only [place, List.mem_cons, Prod.mk.injEq] at h
    rcases h with ⟨rfl, _⟩ | h
    · exact Nat.le_refl _
    · exact Nat.le_of_succ_le (ih h)

/-- The byte written at an offset of a run of bytes is read there. -/
theorem sget_putCells_place (a i : Nat) (l : List Byte) (m : Memory) (h : i < l.length) :
    sget (a + i) (putCells (place a l) m) = l.getD i 0#8 := by
  unfold putCells
  induction l generalizing a i m with
  | nil => simp at h
  | cons x t ih =>
    simp only [place, List.foldl_cons]
    cases i with
    | zero =>
      have hne : ∀ c ∈ place (a + 1) t, c.1 ≠ a := by
        intro c hc
        have := place_ge (a := a + 1) (b := c.1) (v := c.2) hc
        omega
      have := sget_putCells_ne hne (sput a x m)
      simpa [putCells] using this
    | succ n =>
      have := ih (a + 1) n (sput a x m) (by simpa using h)
      simpa [Nat.add_assoc, Nat.add_comm 1 n] using this

end Sys2Proof.Machine
end

