-- ==== Sys2Proof/Laws/Gang.lean ====
section
/-!
SUPPORT. Laws of a gang's registers, and of changing one gang of the state.
-/
namespace Sys2Proof.Machine

/-! One gang of the state. -/

theorem aget_groups_modGroup (k j : Nat) (f : Group → Group) (s : State) :
    aget j (modGroup k f s).groups = if j = k then (aget j s.groups).map f else aget j s.groups := by
  simp [modGroup, aget_amod]

/-- Changing a gang changes what is read of it. -/
@[simp] theorem gangOf_modGang_self (r : GangRef) (f : Gang → Gang) (s : State) :
    gangOf r (modGang r f s) = (gangOf r s).map f := by
  unfold gangOf modGang
  rw [aget_groups_modGroup]
  cases h : aget r.grp s.groups <;> simp

/-- Changing a gang leaves every other gang alone. -/
theorem gangOf_modGang_ne {r q : GangRef} (h : q ≠ r) (f : Gang → Gang) (s : State) :
    gangOf q (modGang r f s) = gangOf q s := by
  unfold gangOf modGang
  rw [aget_groups_modGroup]
  split
  · next hg =>
    have hne : q.gang ≠ r.gang := by
      intro hh
      apply h
      cases q; cases r; simp_all
    cases aget q.grp s.groups <;> simp [aget_amod_ne hne]
  · rfl

/-- What the selected fragment is read from. -/
theorem curOf_some {r : FragRef} {s : State} {c : Cur} (h : curOf r s = some c) :
    c.r = r ∧ aget r.grp s.groups = some c.grp ∧ aget r.gang c.grp.gangs = some c.gang
      ∧ aget r.frag c.gang.frags = some c.frag ∧ aget c.grp.launch s.launches = some c.lau := by
  unfold curOf at h
  cases h1 : aget r.grp s.groups with
  | none => simp [h1] at h
  | some grp =>
    cases h2 : aget r.gang grp.gangs with
    | none => simp [h1, h2] at h
    | some gang =>
      cases h3 : aget r.frag gang.frags with
      | none => simp [h1, h2, h3] at h
      | some frag =>
        cases h4 : aget grp.launch s.launches with
        | none => simp [h1, h2, h4] at h
        | some lau =>
          simp [h1, h2, h3, h4] at h
          subst h
          simp [h2, h3, h4]

theorem cur_some {s : State} {c : Cur} (h : cur s = some c) : s.sel = some c.r ∧ curOf c.r s = some c := by
  unfold cur at h
  cases hs : s.sel with
  | none => simp [hs] at h
  | some r =>
    simp [hs] at h
    have := (curOf_some h).1
    subst this
    exact ⟨rfl, h⟩

/-- The gang of the selected fragment. -/
theorem gangOf_cur {s : State} {c : Cur} (h : cur s = some c) : gangOf (gangRefOf c.r) s = some c.gang := by
  have h1 := curOf_some (cur_some h).2
  simp [gangOf, gangRefOf, h1.2.1, h1.2.2.1]

/-! Masks. -/

theorem laneBit_self {l : Nat} (h : l < 32) : (laneBit l).getLsbD l = true := by
  unfold laneBit
  simp [h]

theorem laneBit_ne {l m : Nat} (h : m ≠ l) : (laneBit l).getLsbD m = false := by
  unfold laneBit
  simp only [BitVec.getLsbD_shiftLeft, BitVec.getLsbD_one]
  by_cases hm : m < l
  · simp [hm]
  · have : m - l ≠ 0 := by omega
    simp [this]

theorem mem_lanesIn {m : Mask} {l : Nat} : l ∈ lanesIn m ↔ l < 32 ∧ m.getLsbD l = true := by
  simp [lanesIn, lanes, List.mem_filter]

theorem lanesIn_nodup (m : Mask) : (lanesIn m).Nodup := by
  unfold lanesIn lanes
  exact List.Pairwise.filter _ (List.nodup_range)

/-! Scalars and predicates. -/

theorem s_setS (g : Gang) (n m : BitVec 6) (v : DWord) : (g.setS n v).s m = if m = n then v else g.s m := by
  unfold Gang.s Gang.setS
  simp only [sget_sput]
  by_cases h : m = n
  · simp [h]
  · have : m.toNat ≠ n.toNat := fun hh => h (BitVec.eq_of_toNat_eq hh)
    simp [h, this]

theorem spoisoned_setS (g : Gang) (n m : BitVec 6) (v : DWord) :
    (g.setS n v).spoisoned m = if m = n then false else g.spoisoned m := by
  unfold Gang.spoisoned Gang.setS
  have hm := m.isLt
  have hn := n.isLt
  by_cases h : m = n
  · subst h
    simp
  · have hne : m.toNat ≠ n.toNat := fun hh => h (BitVec.eq_of_toNat_eq hh)
    simp only [BitVec.getLsbD_and, BitVec.getLsbD_not, BitVec.getLsbD_shiftLeft, BitVec.getLsbD_one, h, if_false]
    by_cases hlt : m.toNat < n.toNat
    · simp [hlt]
      intro _; exact hm
    · have : m.toNat - n.toNat ≠ 0 := by omega
      simp [hlt, this]
      intro _; exact hm

/-- Noting who wrote a register changes the note alone. -/
theorem noteW_rest (g : Gang) (fi n : Nat) (v : DWord) (p : Bool) :
    g.noteW fi n v p = { g with book := { g.book with swrote := (g.noteW fi n v p).book.swrote } } := by
  unfold Gang.noteW
  split
  · split <;> rfl
  · rfl

theorem s_setSBy (g : Gang) (fi : Nat) (n m : BitVec 6) (v : DWord) :
    (g.setSBy fi n v).s m = if m = n then v else g.s m := by
  unfold Gang.setSBy Gang.noteS
  rw [noteW_rest]
  exact s_setS g n m v

theorem spoisoned_setSBy (g : Gang) (fi : Nat) (n m : BitVec 6) (v : DWord) :
    (g.setSBy fi n v).spoisoned m = if m = n then false else g.spoisoned m := by
  unfold Gang.setSBy Gang.noteS
  rw [noteW_rest]
  exact spoisoned_setS g n m v

theorem pr_setP (g : Gang) (n k : BitVec 3) (m v : Mask) :
    (g.setP n m v).pr k = if k = n then (g.pr n &&& ~~~ m) ||| (v &&& m) else g.pr k := by
  unfold Gang.pr Gang.setP
  simp only [sget_sput]
  by_cases h : k = n
  · subst h; simp [Gang.pr]
  · have : k.toNat ≠ n.toNat := fun hh => h (BitVec.eq_of_toNat_eq hh)
    simp [h, this]

/-! Vector registers. -/

theorem slot_inj {r q l m : Nat} (hl : l < 32) (hm : m < 32) : 32 * r + l = 32 * q + m ↔ r = q ∧ l = m := by omega

theorem vraw_setV (g : Gang) (r q l m : Nat) (w : Word) (p : Bool) (hl : l < 32) (hm : m < 32) :
    (g.setV r l w p).vraw q m = if q = r ∧ m = l then w else g.vraw q m := by
  unfold Gang.vraw Gang.setV
  simp only [sget_sput]
  by_cases h : q = r ∧ m = l
  · simp [h]
  · have : ¬ (32 * q + m = 32 * r + l) := fun hh => h ((slot_inj hm hl).1 hh)
    simp [h, this]

theorem killed_setV (g : Gang) (r q l m : Nat) (w : Word) (p : Bool) (hl : l < 32) (hm : m < 32) :
    (sget q (g.setV r l w p).killed).getLsbD m = if q = r ∧ m = l then false else (sget q g.killed).getLsbD m := by
  unfold Gang.setV
  simp only [sget_sput]
  by_cases hq : q = r
  · subst hq
    simp only [if_true, BitVec.getLsbD_and, BitVec.getLsbD_not]
    by_cases h : m = l
    · subst h; simp [laneBit_self hl]
    · simp only [laneBit_ne h]; simp [h, hm]
  · simp [hq]

/-- A main-file word after a write of one. -/
theorem v_setV (g : Gang) (r q l m : Nat) (w : Word) (p : Bool) (hl : l < 32) (hm : m < 32) :
    (g.setV r l w p).v q m = if q = r ∧ m = l then w else g.v q m := by
  unfold Gang.v
  rw [killed_setV g r q l m w p hl hm, vraw_setV g r q l m w p hl hm]
  by_cases h : q = r ∧ m = l <;> simp [h]

/-- The poison of a main-file word after a write of one. -/
theorem vpoisoned_setV (g : Gang) (r q l m : Nat) (w : Word) (p : Bool) (hl : l < 32) (hm : m < 32) :
    (g.setV r l w p).vpoisoned q m = if q = r ∧ m = l then p else g.vpoisoned q m := by
  have hk := killed_setV g r q l m w p hl hm
  unfold Gang.vpoisoned
  rw [hk]
  simp only [Gang.setV, sget_sput]
  by_cases hq : q = r
  · subst hq
    by_cases h : m = l
    · subst h
      cases p <;> simp [BitVec.getLsbD_or, BitVec.getLsbD_and, BitVec.getLsbD_not, laneBit_self hl]
    · cases p
      · simp only [Bool.false_eq_true, ↓reduceIte, BitVec.getLsbD_and, BitVec.getLsbD_not, laneBit_ne h]; simp [h, hm]
      · simp only [↓reduceIte, BitVec.getLsbD_or, laneBit_ne h]; simp [h]
  · simp [hq]

/-- An operand-cache word after a write of one. -/
theorem ocv_setOc (g : Gang) (r q l m : Nat) (w : Word) (p : Bool) (hl : l < 32) (hm : m < 32) :
    (g.setOc r l w p).ocv q m = if q = r ∧ m = l then w else g.ocv q m := by
  unfold Gang.ocv Gang.setOc
  simp only [sget_sput]
  by_cases h : q = r ∧ m = l
  · have : (BitVec.ofBool p ++ w).setWidth 32 = w := by
      ext i hi
      rw [BitVec.getElem_setWidth, BitVec.getLsbD_append, if_pos hi, BitVec.getLsbD_eq_getElem hi]
    simp only [h, and_self, ↓reduceIte]; exact this
  · have : ¬ (32 * q + m = 32 * r + l) := fun hh => h ((slot_inj hm hl).1 hh)
    simp [h, this]

/-- A latch after a push: the older one takes the newer one's word. -/
theorem lat_push (g : Gang) (b : Bool) (j l m : Nat) (v : DWord) (hl : l < 32) (hm : m < 32) :
    (g.push b l v).lat j m = if m = l ∧ j = (if b then 2 else 0) then v
      else if m = l ∧ j = (if b then 3 else 1) then g.lat (if b then 2 else 0) l else g.lat j m := by
  unfold Gang.lat Gang.push
  cases b
  · simp only [sget_sput]
    by_cases h0 : m = l ∧ j = 0
    · obtain ⟨rfl, rfl⟩ := h0; simp
    · have n0 : ¬ (32 * j + m = 32 * 0 + l) := fun hh => h0 (by have := (slot_inj hm hl).1 hh; exact ⟨this.2, this.1⟩)
      by_cases h1 : m = l ∧ j = 1
      · obtain ⟨rfl, rfl⟩ := h1; simp
      · have n1 : ¬ (32 * j + m = 32 * (0 + 1) + l) := fun hh => h1 (by have := (slot_inj hm hl).1 hh; exact ⟨this.2, by omega⟩)
        simp only [Bool.false_eq_true, if_false, n0, n1, h0, h1]
  · simp only [sget_sput]
    by_cases h0 : m = l ∧ j = 2
    · obtain ⟨rfl, rfl⟩ := h0; simp
    · have n0 : ¬ (32 * j + m = 32 * 2 + l) := fun hh => h0 (by have := (slot_inj hm hl).1 hh; exact ⟨this.2, this.1⟩)
      by_cases h1 : m = l ∧ j = 3
      · obtain ⟨rfl, rfl⟩ := h1; simp
      · have n1 : ¬ (32 * j + m = 32 * (2 + 1) + l) := fun hh => h1 (by have := (slot_inj hm hl).1 hh; exact ⟨this.2, by omega⟩)
        simp only [if_true, n0, n1, h0, h1, if_false]

end Sys2Proof.Machine
end

