-- ==== Sys2Proof/Laws/Vector.lean ====
section
/-!
SUPPORT. What a vector instruction's write does to each lane of its gang: a lane is seen through its registers, their poison, its
operand-cache slots and its latches.
-/
namespace Sys2Proof.Machine

/-- What one lane of a gang holds. -/
structure LaneView where
  v : Nat → Word
  pois : Nat → Bool
  oc : Nat → Word
  lat : Nat → DWord

/-- A lane of a gang. -/
def Gang.view (g : Gang) (l : Nat) : LaneView :=
  { v := fun r => g.v r l, pois := fun r => g.vpoisoned r l, oc := fun r => g.ocv r l, lat := fun j => g.lat j l }

/-- A function with one value replaced. -/
def upd {α : Type} (f : Nat → α) (k : Nat) (x : α) : Nat → α := fun j => if j = k then x else f j

/-- A lane with a register written. -/
def LaneView.setReg (a : LaneView) (spec : Nat) (w : Word) (p : Bool) : LaneView :=
  if spec < 112 then { a with v := upd a.v spec w, pois := upd a.pois spec p } else { a with oc := upd a.oc (spec - 112) w }

/-- A lane with a latch pushed. -/
def LaneView.push (a : LaneView) (b : Bool) (x : DWord) : LaneView :=
  { a with lat := upd (upd a.lat (if b then 3 else 1) (a.lat (if b then 2 else 0))) (if b then 2 else 0) x }

/-- A lane with a register killed. -/
def LaneView.kill (a : LaneView) (spec : Nat) : LaneView :=
  if spec < 112 then { a with v := upd a.v spec 0#32, pois := upd a.pois spec false }
  else if spec < 120 then { a with oc := upd a.oc (spec - 112) 0#32 } else a

theorem view_setReg (g : Gang) (spec l m : Nat) (w : Word) (p : Bool) (hl : l < 32) (hm : m < 32) :
    (g.setReg spec l w p).view m = if m = l then (g.view m).setReg spec w p else g.view m := by
  unfold Gang.setReg LaneView.setReg Gang.view
  split
  · next hs =>
    by_cases h : m = l
    · subst h
      simp only [↓reduceIte, LaneView.mk.injEq]
      refine ⟨funext fun q => ?_, funext fun q => ?_, rfl, rfl⟩
      · rw [v_setV g spec q m m w p hl hl]; simp [upd]
      · rw [vpoisoned_setV g spec q m m w p hl hl]; simp [upd]
    · simp only [h, ↓reduceIte, LaneView.mk.injEq]
      refine ⟨funext fun q => ?_, funext fun q => ?_, rfl, rfl⟩
      · rw [v_setV g spec q l m w p hl hm]; simp [h]
      · rw [vpoisoned_setV g spec q l m w p hl hm]; simp [h]
  · by_cases h : m = l
    · subst h
      simp only [↓reduceIte, LaneView.mk.injEq]
      refine ⟨rfl, rfl, funext fun q => ?_, rfl⟩
      rw [ocv_setOc g (spec - 112) q m m w p hl hl]; simp [upd]
    · simp only [h, ↓reduceIte, LaneView.mk.injEq]
      refine ⟨rfl, rfl, funext fun q => ?_, rfl⟩
      rw [ocv_setOc g (spec - 112) q l m w p hl hm]; simp [h]

theorem view_push (g : Gang) (b : Bool) (l m : Nat) (x : DWord) (hl : l < 32) (hm : m < 32) :
    (g.push b l x).view m = if m = l then (g.view m).push b x else g.view m := by
  unfold LaneView.push Gang.view
  by_cases h : m = l
  · subst h
    simp only [↓reduceIte, LaneView.mk.injEq]
    refine ⟨rfl, rfl, rfl, funext fun q => ?_⟩
    rw [lat_push g b q m m x hl hl]
    cases b <;> simp [upd]
  · simp only [h, ↓reduceIte, LaneView.mk.injEq]
    refine ⟨rfl, rfl, rfl, funext fun q => ?_⟩
    rw [lat_push g b q l m x hl hm]
    simp [h]

/-- A fold over lanes whose step changes its own lane alone changes each lane once. -/
theorem view_foldl (F : Gang → Nat → Gang) (G : Nat → LaneView → LaneView)
    (hF : ∀ g l m, l < 32 → m < 32 → (F g l).view m = if m = l then G l (g.view m) else g.view m)
    (L : List Nat) (hn : L.Nodup) (hL : ∀ l ∈ L, l < 32) (g : Gang) (m : Nat) (hm : m < 32) :
    (L.foldl F g).view m = if m ∈ L then G m (g.view m) else g.view m := by
  induction L generalizing g with
  | nil => simp
  | cons x t ih =>
    have hx := hL x (List.mem_cons_self ..)
    simp only [List.nodup_cons] at hn
    rw [List.foldl_cons, ih hn.2 (fun l hl => hL l (List.mem_cons_of_mem x hl)), hF g x m hx hm]
    by_cases h : m = x
    · subst h; simp [hn.1]
    · simp [h]

theorem view_kill (g : Gang) (spec m : Nat) (a : Mask) (hm : m < 32) :
    (g.kill spec a).view m = if a.getLsbD m then (g.view m).kill spec else g.view m := by
  unfold Gang.kill LaneView.kill
  split
  · next hs =>
    unfold Gang.view
    by_cases ha : a.getLsbD m
    · simp only [ha, ↓reduceIte, LaneView.mk.injEq]
      refine ⟨funext fun q => ?_, funext fun q => ?_, rfl, rfl⟩
      · unfold Gang.v Gang.vraw upd
        simp only [sget_sput]
        by_cases hq : q = spec
        · subst hq
          simp only [↓reduceIte, BitVec.getLsbD_or, ha, Bool.or_true]
        · simp [hq]
      · unfold Gang.vpoisoned upd
        simp only [sget_sput]
        by_cases hq : q = spec
        · subst hq
          simp only [↓reduceIte, BitVec.getLsbD_or, ha, Bool.or_true, Bool.not_true, Bool.and_false]
        · simp [hq]
    · simp only [ha, Bool.false_eq_true, ↓reduceIte, LaneView.mk.injEq]
      refine ⟨funext fun q => ?_, funext fun q => ?_, rfl, rfl⟩
      · unfold Gang.v Gang.vraw
        simp only [sget_sput]
        by_cases hq : q = spec
        · subst hq
          simp only [↓reduceIte, BitVec.getLsbD_or, ha, Bool.or_false]
        · simp [hq]
      · unfold Gang.vpoisoned
        simp only [sget_sput]
        by_cases hq : q = spec
        · subst hq
          simp only [↓reduceIte, BitVec.getLsbD_or, ha, Bool.or_false]
        · simp [hq]
  · split
    · next hs1 hs2 =>
      rw [view_foldl (fun g l => g.setOc (spec - 112) l 0#32) (fun _ a => { a with oc := upd a.oc (spec - 112) 0#32 })
        ?_ (lanesIn a) (lanesIn_nodup a) (fun l hl => (mem_lanesIn.1 hl).1) g m hm]
      · by_cases ha : a.getLsbD m
        · simp [mem_lanesIn, hm, ha]
        · have : ¬ (m ∈ lanesIn a) := fun h => ha (mem_lanesIn.1 h).2
          simp only [this, ↓reduceIte, ha]
          simp
      · intro g l m hl hm
        have := view_setReg g spec l m 0#32 false hl hm
        simpa [Gang.setReg, LaneView.setReg, hs1] using this
    · simp

/-- A lane with a source killed whose dead bit is set. -/
def LaneView.killSrc (a : LaneView) (o : Operand) : LaneView :=
  if o.dead then (if o.wide && decide (o.spec < 120) then (a.kill o.spec).kill (o.spec + 1) else a.kill o.spec) else a

theorem view_killSrc (g : Gang) (o : Operand) (m : Nat) (a : Mask) (hm : m < 32) :
    (g.killSrc o a).view m = if a.getLsbD m then (g.view m).killSrc o else g.view m := by
  unfold Gang.killSrc LaneView.killSrc
  cases hd : o.dead
  · simp
  · simp only [↓reduceIte]
    split
    · rw [view_kill _ _ _ _ hm, view_kill _ _ _ _ hm]
      by_cases ha : a.getLsbD m
      · simp only [ha, ↓reduceIte]
      · simp only [ha, Bool.false_eq_true, ↓reduceIte]
    · exact view_kill _ _ _ _ hm

theorem view_killSrcs (g : Gang) (os : List Operand) (m : Nat) (a : Mask) (hm : m < 32) :
    (os.foldl (fun g o => g.killSrc o a) g).view m = if a.getLsbD m then os.foldl LaneView.killSrc (g.view m) else g.view m := by
  induction os generalizing g with
  | nil => simp
  | cons o t ih =>
    rw [List.foldl_cons, ih, view_killSrc g o m a hm]
    by_cases ha : a.getLsbD m
    · simp only [ha, ↓reduceIte, List.foldl_cons]
    · simp only [ha, Bool.false_eq_true, ↓reduceIte]

/-- A lane with a result written. -/
def LaneView.result (a : LaneView) (spec : BitVec 7) (wide keeps : Bool) (v : Nat) : LaneView :=
  if 120 ≤ spec.toNat then a
  else
    let b := a.setReg spec.toNat (BitVec.ofNat 32 v) (keeps && decide (spec.toNat < 112) && a.pois spec.toNat)
    if wide then b.setReg (spec.toNat + 1) (BitVec.ofNat 32 (v / 2 ^ 32)) false else b

/-- What a written register keeps of its poison, as the lane sees it: the view of a slot holds its value alone. -/
theorem view_setReg_keeps (g : Gang) (spec l : Nat) (w : Word) (keeps : Bool) :
    (g.view l).setReg spec w (keeps && g.rpois spec l)
      = (g.view l).setReg spec w (keeps && decide (spec < 112) && (g.view l).pois spec) := by
  unfold LaneView.setReg Gang.rpois
  split
  · next h => simp [h, Gang.view]
  · rfl

theorem view_result (g : Gang) (spec : BitVec 7) (wide keeps : Bool) (l m v : Nat) (hl : l < 32) (hm : m < 32) :
    (g.result spec wide keeps l v).view m = if m = l then (g.view m).result spec wide keeps v else g.view m := by
  unfold Gang.result LaneView.result
  split
  · simp
  · by_cases h : m = l
    · subst h
      cases wide
      · simp only [Bool.false_eq_true, ↓reduceIte, view_setReg _ _ _ _ _ _ hl hl, view_setReg_keeps]
      · simp only [↓reduceIte, view_setReg _ _ _ _ _ _ hl hl, view_setReg_keeps]
    · cases wide
      · simp only [Bool.false_eq_true, ↓reduceIte, view_setReg _ _ _ _ _ _ hl hm, h]
      · simp only [↓reduceIte, view_setReg _ _ _ _ _ _ hl hm, h]

/-- A lane after a vector instruction's write. -/
def VOp.lane (o : VOp) (push : Bool) (c : Cur) (f : LaneFn) (l : Nat) (a : LaneView) : LaneView :=
  let v := o.merge c l (f c (c.lane o.fp l)).1
  let b := a.result o.dst o.wide (o.kept != 0) v
  if push then b.push (pipeB o.dst) (BitVec.ofNat 64 (if o.wide then v else v % 2 ^ 32)) else b

/-- What a vector instruction's write does to each lane: an acting lane has its dead sources killed, then takes its own result; no
other lane changes. -/
theorem view_write (o : VOp) (push : Bool) (c : Cur) (f : LaneFn) (g : Gang) (m : Nat) (hm : m < 32) :
    (o.write push c f g).view m =
      if (c.act (pfxGuard o.x)).getLsbD m then o.lane push c f m (o.srcs.foldl LaneView.killSrc (g.view m)) else g.view m := by
  unfold VOp.write
  simp only []
  rw [view_foldl _ (fun l a => o.lane push c f l a) ?_ _ (lanesIn_nodup _) (fun l hl => (mem_lanesIn.1 hl).1) _ m hm,
    view_killSrcs _ _ _ _ hm]
  · by_cases ha : (c.act (pfxGuard o.x)).getLsbD m
    · have : m ∈ lanesIn (c.act (pfxGuard o.x)) := mem_lanesIn.2 ⟨hm, ha⟩
      simp only [this, ↓reduceIte, ha]
    · have : ¬ (m ∈ lanesIn (c.act (pfxGuard o.x))) := fun h => ha (mem_lanesIn.1 h).2
      simp only [this, ↓reduceIte, ha, Bool.false_eq_true]
  · intro g l m hl hm
    unfold VOp.lane
    cases push
    · simp only [Bool.false_eq_true, ↓reduceIte]
      exact view_result _ _ _ _ _ _ _ hl hm
    · simp only [↓reduceIte]
      rw [view_push _ _ _ _ _ hl hm, view_result _ _ _ _ _ _ _ hl hm]
      by_cases h : m = l
      · subst h; simp only [↓reduceIte]
      · simp only [h, ↓reduceIte]

/-! Nothing else of the gang changes. -/

/-- A gang differs from another in its vector registers, their marks, its operand cache and its latches alone. -/
def Gang.upTo (g g' : Gang) : Prop :=
  g' = { g with vregs := g'.vregs, killed := g'.killed, vpois := g'.vpois, oc := g'.oc, latch := g'.latch }

theorem Gang.upTo_refl (g : Gang) : g.upTo g := rfl

theorem Gang.upTo_trans {a b d : Gang} (h1 : a.upTo b) (h2 : b.upTo d) : a.upTo d := by
  unfold Gang.upTo at *
  rw [h2, h1]

theorem upTo_foldl {α : Type} (F : Gang → α → Gang) (hF : ∀ (g : Gang) (x : α), g.upTo (F g x)) (L : List α) (g : Gang) :
    g.upTo (L.foldl F g) := by
  induction L generalizing g with
  | nil => exact Gang.upTo_refl g
  | cons x t ih => exact Gang.upTo_trans (hF g x) (ih _)

theorem upTo_setReg (g : Gang) (spec l : Nat) (w : Word) (p : Bool) : g.upTo (g.setReg spec l w p) := by
  unfold Gang.setReg
  split <;> rfl

theorem upTo_push (g : Gang) (b : Bool) (l : Nat) (x : DWord) : g.upTo (g.push b l x) := rfl

theorem upTo_kill (g : Gang) (spec : Nat) (a : Mask) : g.upTo (g.kill spec a) := by
  unfold Gang.kill
  split
  · rfl
  · split
    · exact upTo_foldl (fun (g : Gang) l => g.setOc (spec - 112) l 0#32) (fun _ _ => rfl) _ _
    · rfl

theorem upTo_killSrc (g : Gang) (o : Operand) (a : Mask) : g.upTo (g.killSrc o a) := by
  unfold Gang.killSrc
  split
  · split
    · exact Gang.upTo_trans (upTo_kill _ _ _) (upTo_kill _ _ _)
    · exact upTo_kill _ _ _
  · rfl

theorem upTo_result (g : Gang) (spec : BitVec 7) (wide keeps : Bool) (l v : Nat) : g.upTo (g.result spec wide keeps l v) := by
  unfold Gang.result
  split
  · rfl
  · simp only []
    split
    · exact Gang.upTo_trans (upTo_setReg _ _ _ _ _) (upTo_setReg _ _ _ _ _)
    · exact upTo_setReg _ _ _ _ _

/-- A vector instruction's write leaves the rest of its gang as it was. -/
theorem upTo_write (o : VOp) (push : Bool) (c : Cur) (f : LaneFn) (g : Gang) : g.upTo (o.write push c f g) := by
  unfold VOp.write
  refine Gang.upTo_trans (upTo_foldl _ (fun g s => upTo_killSrc g s _) _ _) (upTo_foldl _ (fun g l => ?_) _ _)
  simp only []
  split
  · exact Gang.upTo_trans (upTo_result _ _ _ _ _ _) (upTo_push _ _ _ _)
  · exact upTo_result _ _ _ _ _ _

end Sys2Proof.Machine
end

