-- ==== Sys2Proof/Laws/Issue.lean ====
section
/-!
SUPPORT. What every issue does: the counters it adds to, the gang it passes through, and what stays as it was elsewhere.
-/
namespace Sys2Proof.Machine

/-! What stays apart. -/

theorem Apart.refl (c : Cur) (s : State) : Apart c s s := ⟨rfl, fun _ => rfl, fun _ _ => rfl, fun _ _ => rfl⟩

theorem Apart.trans {c : Cur} {s t u : State} (h1 : Apart c s t) (h2 : Apart c t u) : Apart c s u := by
  refine ⟨?_, fun k => ?_, fun r hr => ?_, fun k hk => ?_⟩
  · have a := h1.rest; have b := h2.rest
    rw [b, a]
  · rw [h2.groups, h1.groups]
  · rw [h2.gangs r hr, h1.gangs r hr]
  · rw [h2.regs k hk, h1.regs k hk]

theorem shell_modGroup (k : Nat) (f : Group → Group) (hf : ∀ g, (f g).shell = g.shell) (s : State) (j : Nat) :
    (aget j (modGroup k f s).groups).map Group.shell = (aget j s.groups).map Group.shell := by
  rw [aget_groups_modGroup]
  split
  · cases aget j s.groups <;> simp [hf]
  · rfl

/-- A change of the issuing gang alone. -/
theorem apart_modGang (c : Cur) (f : Gang → Gang) (s : State) : Apart c s (modGang (gangRefOf c.r) f s) := by
  refine ⟨rfl, fun k => ?_, fun r hr => ?_, fun _ _ => rfl⟩
  · exact shell_modGroup c.r.grp (fun grp => { grp with gangs := amod c.r.gang f grp.gangs }) (fun g => rfl) s k
  · rw [gangOf_modGang_ne hr]

theorem modFrag_eq (r : FragRef) (f : Frag → Frag) (s : State) :
    modFrag r f s = modGang (gangRefOf r) (fun g => { g with frags := amod r.frag f g.frags }) s := rfl

theorem apart_modFrag (c : Cur) (f : Frag → Frag) (s : State) : Apart c s (modFrag c.r f s) := apart_modGang c _ s

theorem apart_unstall (c : Cur) (s : State) : Apart c s (unstall s) := ⟨rfl, fun _ => rfl, fun _ _ => rfl, fun _ _ => rfl⟩

/-- Counting registers change alone. -/
theorem apart_setMreg (c : Cur) (fn off : Nat) (v : DWord) (s : State) (h : countingReg (off % 65536) = true) :
    Apart c s (setMreg fn off v s) := by
  refine ⟨rfl, fun _ => rfl, fun _ _ => rfl, fun k hk => ?_⟩
  unfold setMreg
  simp only []
  refine sget_sput_ne ?_ v s.mmio
  intro hh
  rw [hh] at hk
  have : (65536 * fn + off) % 65536 = off % 65536 := by omega
  rw [this, h] at hk
  cases hk

theorem apart_raiseMsix (c : Cur) (fn e : Nat) (s : State) : Apart c s (raiseMsix fn e s) :=
  ⟨rfl, fun _ => rfl, fun _ _ => rfl, fun _ _ => rfl⟩

theorem apart_addCounter (c : Cur) (fn n k : Nat) (hn : n < 64) (s : State) : Apart c s (addCounter fn n k s) := by
  have h1 : countingReg ((0x1E00 + 8 * n) % 65536) = true := by
    have : (0x1E00 + 8 * n) % 65536 = 0x1E00 + 8 * n := by omega
    rw [this]
    unfold countingReg
    simp only [Bool.or_eq_true, Bool.and_eq_true, decide_eq_true_eq]
    right
    omega
  unfold addCounter counterWraps
  simp only []
  split
  · split
    · exact (apart_setMreg c fn _ _ s h1).trans ((apart_setMreg c fn _ _ _ (by decide)).trans (apart_raiseMsix c fn _ _))
    · exact (apart_setMreg c fn _ _ s h1).trans (apart_setMreg c fn _ _ _ (by decide))
  · exact apart_setMreg c fn _ _ s h1

theorem apart_foldl {α : Type} (c : Cur) (F : State → α → State) (L : List α) (hF : ∀ s, ∀ x ∈ L, Apart c s (F s x)) (s : State) :
    Apart c s (L.foldl F s) := by
  induction L generalizing s with
  | nil => exact Apart.refl c s
  | cons x t ih =>
    exact (hF s x (List.mem_cons_self ..)).trans (ih (fun s y hy => hF s y (List.mem_cons_of_mem x hy)) _)

theorem apart_countEvents (c : Cur) (code : Nat) (ctx : BitVec 6) (k : Nat) (s : State) : Apart c s (countEvents code ctx k s) := by
  unfold countEvents
  simp only []
  split
  · refine apart_foldl c _ _ (fun s n hn => ?_) s
    split
    · exact apart_addCounter c _ n k (by simpa using hn) s
    · exact Apart.refl c s
  · exact Apart.refl c s

theorem groups_addCounter (fn n k : Nat) (s : State) : (addCounter fn n k s).groups = s.groups := by
  unfold addCounter counterWraps
  simp only []
  split
  · split <;> rfl
  · rfl

theorem groups_foldl {α : Type} (F : State → α → State) (hF : ∀ s x, (F s x).groups = s.groups) (L : List α) (s : State) :
    (L.foldl F s).groups = s.groups := by
  induction L generalizing s with
  | nil => rfl
  | cons x t ih => rw [List.foldl_cons, ih, hF]

theorem groups_countEvents (code : Nat) (ctx : BitVec 6) (k : Nat) (s : State) : (countEvents code ctx k s).groups = s.groups := by
  unfold countEvents
  simp only []
  split
  · refine groups_foldl _ (fun s n => ?_) _ s
    split
    · exact groups_addCounter _ _ _ _
    · rfl
  · rfl

theorem gangOf_groups {s t : State} (h : t.groups = s.groups) (r : GangRef) : gangOf r t = gangOf r s := by
  unfold gangOf; rw [h]

/-- A gang after every gang has changed by its keys. -/
theorem gangOf_mapGangs (f : Nat → Group → Nat → Gang → Gang) (s : State) (r : GangRef) :
    gangOf r (mapGangs f s) = (aget r.grp s.groups).bind (fun g => (aget r.gang g.gangs).map (f r.grp g r.gang)) := by
  unfold gangOf mapGangs
  simp only [aget_amap]
  cases aget r.grp s.groups with
  | none => rfl
  | some g => simp

theorem shell_mapGangs (f : Nat → Group → Nat → Gang → Gang) (s : State) (k : Nat) :
    (aget k (mapGangs f s).groups).map Group.shell = (aget k s.groups).map Group.shell := by
  unfold mapGangs
  simp only [aget_amap]
  cases aget k s.groups <;> rfl

/-- A change of other gangs' holds and yield marks is what stays apart. -/
theorem apart_mapGangs (c : Cur) (f : Nat → Group → Nat → Gang → Gang) (hq : ∀ k g j gg, (f k g j gg).quiet = gg.quiet)
    (s : State) : Apart c s (mapGangs f s) := by
  refine ⟨rfl, shell_mapGangs f s, fun r _ => ?_, fun _ _ => rfl⟩
  rw [gangOf_mapGangs]
  unfold gangOf
  cases aget r.grp s.groups with
  | none => rfl
  | some g =>
    simp only [Option.bind_some]
    cases aget r.gang g.gangs with
    | none => rfl
    | some gg => simp [hq]

theorem gangOf_mapGangs_same (f : Nat → Group → Nat → Gang → Gang) (s : State) (r : GangRef)
    (h : ∀ g gg, f r.grp g r.gang gg = gg) : gangOf r (mapGangs f s) = gangOf r s := by
  rw [gangOf_mapGangs]
  unfold gangOf
  cases aget r.grp s.groups with
  | none => rfl
  | some g =>
    simp only [Option.bind_some]
    cases aget r.gang g.gangs with
    | none => rfl
    | some gg => simp [h]

/-- A Lantern hold spares the gang that issues. -/
theorem lanternIssue_spec (c : Cur) (s : State) :
    Apart c s (lanternIssue c s) ∧ gangOf (gangRefOf c.r) (lanternIssue c s) = gangOf (gangRefOf c.r) s := by
  unfold lanternIssue
  simp only []
  split
  · refine ⟨(apart_setMreg c c.lau.fn 0x1AE0 _ s (by decide)).trans (apart_mapGangs c _ (fun k g j gg => ?_) _), ?_⟩
    · split <;> rfl
    · rw [gangOf_mapGangs_same _ _ _ (fun g gg => ?_)]
      · rfl
      · simp [gangRefOf]
  · exact ⟨Apart.refl c s, rfl⟩

/-- An issue lets other gangs of its partition go on, and does nothing to its own. -/
theorem unyield_spec (c : Cur) (s : State) :
    Apart c s (unyield c s) ∧ gangOf (gangRefOf c.r) (unyield c s) = gangOf (gangRefOf c.r) s := by
  unfold unyield
  split
  · exact ⟨Apart.refl c s, rfl⟩
  · refine ⟨apart_mapGangs c _ (fun k g j gg => ?_) s, gangOf_mapGangs_same _ _ _ (fun g gg => ?_)⟩
    · split <;> rfl
    · simp [gangRefOf]

theorem noteIssue_spec (c : Cur) (s : State) :
    Apart c s (noteIssue c s) ∧ gangOf (gangRefOf c.r) (noteIssue c s) = gangOf (gangRefOf c.r) s := by
  unfold noteIssue
  have h1 := apart_countEvents c 0x0001 c.ctx 1 s
  have h2 := lanternIssue_spec c (countEvents 0x0001 c.ctx 1 s)
  have h3 := unyield_spec c (lanternIssue c (countEvents 0x0001 c.ctx 1 s))
  exact ⟨h1.trans (h2.1.trans h3.1), by rw [h3.2, h2.2, gangOf_groups (groups_countEvents _ _ _ s)]⟩

/-- What every issue does before the instruction's own effect: its gang has issued, and nothing apart from it has changed. -/
theorem begun_spec (i : Instr) {c : Cur} {s : State} (h : cur s = some c) :
    Apart c s (begun i c s) ∧ gangOf (gangRefOf c.r) (begun i c s) = some (c.gang.issue i c) := by
  unfold begun issued
  have h1 := noteIssue_spec c (modGang (gangRefOf c.r) (fun g => g.issue i c) (unstall s))
  refine ⟨(apart_unstall c s).trans ((apart_modGang c _ _).trans h1.1), ?_⟩
  rw [h1.2, gangOf_modGang_self, gangOf_groups (t := unstall s) (s := s) rfl, gangOf_cur h]
  rfl

/-- Issue whose checks pass: the effect, then the park bit. -/
theorem issue_go {i : Instr} {p : Bool} {chk : Cur → Pre} {eff : Cur → State → State} {c : Cur} {s : State}
    (h : Issues i c s) (hc : chk c = .go) : issue i p chk eff s = .next (parked p c (eff c (begun i c s))) := by
  simp [issue, h.sel, h.wf, hc]

/-- Issue whose checks find a fault takes it. -/
theorem issue_fault {i : Instr} {p : Bool} {chk : Cur → Pre} {eff : Cur → State → State} {c : Cur} {s : State} {f : FReq}
    (h : Issues i c s) (hc : chk c = .fault f) : issue i p chk eff s = .next (takeFault c f s) := by
  simp [issue, h.sel, h.wf, hc]

/-- Issue that must wait changes nothing but which fragments wait. -/
theorem issue_stall {i : Instr} {p : Bool} {chk : Cur → Pre} {eff : Cur → State → State} {c : Cur} {s : State}
    (h : Issues i c s) (hc : chk c = .stall) : issue i p chk eff s = .next (stallCur c s) := by
  simp [issue, h.sel, h.wf, hc]

/-- Issue of an instruction that accesses memory lines whose checks pass. -/
theorem issueMem_go {i : Instr} {p : Bool} {chk : Cur → State → Pre} {eff : Cur → State → State} {c : Cur} {s : State}
    (h : Issues i c s) (hc : chk c s = .go) : issueMem i p chk eff s = .next (parked p c (eff c (begun i c s))) := by
  simp [issueMem, h.sel, h.wf, checkLines, hc, containAll]

theorem issueMem_fault {i : Instr} {p : Bool} {chk : Cur → State → Pre} {eff : Cur → State → State} {c : Cur} {s : State}
    {f : FReq} (h : Issues i c s) (hc : chk c s = .fault f) : issueMem i p chk eff s = .next (takeFault c f s) := by
  simp [issueMem, h.sel, h.wf, checkLines, hc]

theorem issueMem_stall {i : Instr} {p : Bool} {chk : Cur → State → Pre} {eff : Cur → State → State} {c : Cur} {s : State}
    (h : Issues i c s) (hc : chk c s = .stall) : issueMem i p chk eff s = .next (stallCur c s) := by
  simp [issueMem, h.sel, h.wf, checkLines, hc]

/-- Bank conflicts are counted, and nothing else. -/
theorem banked_spec (c : Cur) (bs : List Nat) (s : State) :
    Apart c s (banked c bs s) ∧ gangOf (gangRefOf c.r) (banked c bs s) = gangOf (gangRefOf c.r) s :=
  ⟨apart_countEvents c 0x0002 c.ctx _ s, gangOf_groups (groups_countEvents _ _ _ s) _⟩

/-- An effect on the issuing gang alone, through issue. -/
theorem issue_gang {i : Instr} {p : Bool} {chk : Cur → Pre} {F : Cur → Gang → Gang} {c : Cur} {s : State}
    (h : Issues i c s) (hc : chk c = .go) :
    ∃ t, issue i p chk (fun c s => modGang (gangRefOf c.r) (F c) s) s = .next (parked p c t)
      ∧ gangOf (gangRefOf c.r) t = some (F c (c.gang.issue i c)) ∧ Apart c s t := by
  have hb := begun_spec i h.sel
  refine ⟨_, issue_go h hc, ?_, hb.1.trans (apart_modGang c _ _)⟩
  rw [gangOf_modGang_self, hb.2]
  rfl

end Sys2Proof.Machine
end

