-- ==== Sys2Proof/Laws/Run.lean ====
section
/-!
SUPPORT. What the vector operations do when their checks pass.
-/
namespace Sys2Proof.Machine

/-- A dead source takes its registers away from a lane. -/
theorem killSrc_v (a : LaneView) (o : Operand) (r : Nat) (hr : r < 112) :
    (a.killSrc o).v r = if o.dead && (r == o.spec || (o.wide && decide (o.spec < 120) && r == o.spec + 1)) then 0#32 else a.v r := by
  unfold LaneView.killSrc
  cases hd : o.dead
  · simp
  · simp only [↓reduceIte, Bool.true_and]
    have H : ∀ (b : LaneView) (k : Nat), (b.kill k).v r = if r = k then 0#32 else b.v r := by
      intro b k
      unfold LaneView.kill
      by_cases h1 : k < 112
      · simp [h1, upd]
      · have : r ≠ k := by omega
        by_cases h2 : k < 120 <;> simp [h1, h2, this]
    split
    · next h =>
      rw [H, H]
      simp only [Bool.and_eq_true, decide_eq_true_eq] at h
      by_cases h1 : r = o.spec
      · simp [h1]
      · by_cases h2 : r = o.spec + 1 <;> simp [h1, h2, h]
    · next h =>
      rw [H]
      by_cases h1 : r = o.spec
      · simp [h1]
      · simp only [h1, ↓reduceIte]
        have : (o.wide && decide (o.spec < 120)) = false := by simpa using h
        simp [this, h1]

theorem killSrc_pois (a : LaneView) (o : Operand) (r : Nat) (hr : r < 112) :
    (a.killSrc o).pois r = if o.dead && (r == o.spec || (o.wide && decide (o.spec < 120) && r == o.spec + 1)) then false else a.pois r := by
  unfold LaneView.killSrc
  cases hd : o.dead
  · simp
  · simp only [↓reduceIte, Bool.true_and]
    have H : ∀ (b : LaneView) (k : Nat), (b.kill k).pois r = if r = k then false else b.pois r := by
      intro b k
      unfold LaneView.kill
      by_cases h1 : k < 112
      · simp [h1, upd]
      · have : r ≠ k := by omega
        by_cases h2 : k < 120 <;> simp [h1, h2, this]
    split
    · next h =>
      rw [H, H]
      simp only [Bool.and_eq_true, decide_eq_true_eq] at h
      by_cases h1 : r = o.spec
      · simp [h1]
      · by_cases h2 : r = o.spec + 1 <;> simp [h1, h2, h]
    · next h =>
      rw [H]
      by_cases h1 : r = o.spec
      · simp [h1]
      · simp only [h1, ↓reduceIte]
        have : (o.wide && decide (o.spec < 120)) = false := by simpa using h
        simp [this, h1]

theorem killSrc_oc (a : LaneView) (o : Operand) (k : Nat) (hk : k < 8) :
    (a.killSrc o).oc k =
      if o.dead && (112 + k == o.spec || (o.wide && decide (o.spec < 120) && 112 + k == o.spec + 1)) then 0#32 else a.oc k := by
  unfold LaneView.killSrc
  cases hd : o.dead
  · simp
  · simp only [↓reduceIte, Bool.true_and]
    have H : ∀ (b : LaneView) (j : Nat), (b.kill j).oc k = if 112 + k = j then 0#32 else b.oc k := by
      intro b j
      unfold LaneView.kill
      by_cases h1 : j < 112
      · have : 112 + k ≠ j := by omega
        simp [h1, this]
      · by_cases h2 : j < 120
        · obtain ⟨n, rfl⟩ : ∃ n, j = 112 + n := ⟨j - 112, by omega⟩
          have h3 : 112 + n - 112 = n := by omega
          have h4 : (112 + k = 112 + n) ↔ k = n := by omega
          simp only [h1, h2, ↓reduceIte, upd, h3, h4]
        · have : 112 + k ≠ j := by omega
          simp [h1, h2, this]
    split
    · next h =>
      rw [H, H]
      simp only [Bool.and_eq_true, decide_eq_true_eq] at h
      by_cases h1 : 112 + k = o.spec
      · simp [h1]
      · by_cases h2 : 112 + k = o.spec + 1 <;> simp [h1, h2, h]
    · next h =>
      rw [H]
      by_cases h1 : 112 + k = o.spec
      · simp [h1]
      · simp only [h1, ↓reduceIte]
        have : (o.wide && decide (o.spec < 120)) = false := by simpa using h
        simp [this, h1]

theorem killSrc_lat (a : LaneView) (o : Operand) : (a.killSrc o).lat = a.lat := by
  have H : ∀ (b : LaneView) (j : Nat), (b.kill j).lat = b.lat := by
    intro b j; unfold LaneView.kill; split
    · rfl
    · split <;> rfl
  unfold LaneView.killSrc
  split
  · split
    · rw [H, H]
    · rw [H]
  · rfl

theorem killSrcs_v (os : List Operand) (a : LaneView) (r : Nat) (hr : r < 112) :
    (os.foldl LaneView.killSrc a).v r =
      if os.any (fun o => o.dead && (r == o.spec || (o.wide && decide (o.spec < 120) && r == o.spec + 1))) then 0#32 else a.v r := by
  induction os generalizing a with
  | nil => simp
  | cons o t ih =>
    rw [List.foldl_cons, ih, killSrc_v a o r hr, List.any_cons]
    by_cases h1 : t.any (fun o => o.dead && (r == o.spec || (o.wide && decide (o.spec < 120) && r == o.spec + 1))) = true
    · simp only [h1, ↓reduceIte, Bool.or_true]
    · simp only [h1, Bool.false_eq_true, ↓reduceIte, Bool.or_false]

theorem killSrcs_pois (os : List Operand) (a : LaneView) (r : Nat) (hr : r < 112) :
    (os.foldl LaneView.killSrc a).pois r =
      if os.any (fun o => o.dead && (r == o.spec || (o.wide && decide (o.spec < 120) && r == o.spec + 1))) then false else a.pois r := by
  induction os generalizing a with
  | nil => simp
  | cons o t ih =>
    rw [List.foldl_cons, ih, killSrc_pois a o r hr, List.any_cons]
    by_cases h1 : t.any (fun o => o.dead && (r == o.spec || (o.wide && decide (o.spec < 120) && r == o.spec + 1))) = true
    · simp only [h1, ↓reduceIte, Bool.or_true]
    · simp only [h1, Bool.false_eq_true, ↓reduceIte, Bool.or_false]

theorem killSrcs_oc (os : List Operand) (a : LaneView) (k : Nat) (hk : k < 8) :
    (os.foldl LaneView.killSrc a).oc k =
      if os.any (fun o => o.dead && (112 + k == o.spec || (o.wide && decide (o.spec < 120) && 112 + k == o.spec + 1)))
      then 0#32 else a.oc k := by
  induction os generalizing a with
  | nil => simp
  | cons o t ih =>
    rw [List.foldl_cons, ih, killSrc_oc a o k hk, List.any_cons]
    by_cases h1 : t.any (fun o => o.dead && (112 + k == o.spec || (o.wide && decide (o.spec < 120) && 112 + k == o.spec + 1))) = true
    · simp only [h1, ↓reduceIte, Bool.or_true]
    · simp only [h1, Bool.false_eq_true, ↓reduceIte, Bool.or_false]

theorem killSrcs_lat (os : List Operand) (a : LaneView) : (os.foldl LaneView.killSrc a).lat = a.lat := by
  induction os generalizing a with
  | nil => rfl
  | cons o t ih => rw [List.foldl_cons, ih, killSrc_lat]

/-- The registers of a lane after a result is written to a legal destination. -/
theorem result_v (a : LaneView) (o : VOp) (keeps : Bool) (x r : Nat) (hr : r < 112) {regs : Nat}
    (hd : dstOk regs o.dst o.wide = true) :
    (a.result o.dst o.wide keeps x).v r = if o.hits r then o.part r x else a.v r := by
  unfold LaneView.result VOp.hits VOp.part
  unfold dstOk regOk at hd
  by_cases h0 : 120 ≤ o.dst.toNat
  · have h1 : r ≠ o.dst.toNat := by omega
    have h2 : r ≠ o.dst.toNat + 1 := by omega
    simp [h0, h1, h2]
  · have h124 : o.dst ≠ 124#7 := by intro h; rw [h] at h0; simp at h0
    simp only [h0, ↓reduceIte, LaneView.setReg]
    simp only [beq_eq_false_iff_ne.2 h124, Bool.false_or] at hd
    by_cases hlt : o.dst.toNat < 112
    · simp only [hlt, ↓reduceIte] at hd ⊢
      cases hw : o.wide
      · by_cases h1 : r = o.dst.toNat <;> simp [upd, h1]
      · simp only [hw, Bool.not_true, Bool.false_or, Bool.and_eq_true, decide_eq_true_eq, beq_iff_eq] at hd
        have h111 : o.dst.toNat + 1 < 112 := by omega
        simp only [↓reduceIte, h111]
        by_cases h1 : r = o.dst.toNat
        · subst h1; simp [upd]
        · by_cases h2 : r = o.dst.toNat + 1 <;> simp [upd, h1, h2]
    · have h1 : r ≠ o.dst.toNat := by omega
      have h2 : r ≠ o.dst.toNat + 1 := by omega
      have h3 : ¬ (o.dst.toNat + 1 < 112) := by omega
      cases o.wide <;> simp [hlt, h1, h2, h3]

theorem result_pois (a : LaneView) (o : VOp) (keeps : Bool) (x r : Nat) (hr : r < 112) {regs : Nat}
    (hd : dstOk regs o.dst o.wide = true) :
    (a.result o.dst o.wide keeps x).pois r = if o.hits r then keeps && r == o.dst.toNat && a.pois r else a.pois r := by
  unfold LaneView.result VOp.hits
  unfold dstOk regOk at hd
  by_cases h0 : 120 ≤ o.dst.toNat
  · have h1 : r ≠ o.dst.toNat := by omega
    have h2 : r ≠ o.dst.toNat + 1 := by omega
    simp [h0, h1, h2]
  · have h124 : o.dst ≠ 124#7 := by intro h; rw [h] at h0; simp at h0
    simp only [h0, ↓reduceIte, LaneView.setReg]
    simp only [beq_eq_false_iff_ne.2 h124, Bool.false_or] at hd
    by_cases hlt : o.dst.toNat < 112
    · simp only [hlt, ↓reduceIte] at hd ⊢
      cases hw : o.wide
      · by_cases h1 : r = o.dst.toNat
        · subst h1; simp [upd]
        · simp [upd, h1]
      · simp only [hw, Bool.not_true, Bool.false_or, Bool.and_eq_true, decide_eq_true_eq, beq_iff_eq] at hd
        have h111 : o.dst.toNat + 1 < 112 := by omega
        simp only [↓reduceIte, h111]
        by_cases h1 : r = o.dst.toNat
        · subst h1; simp [upd]
        · by_cases h2 : r = o.dst.toNat + 1
          · subst h2; simp [upd]
          · simp [upd, h1, h2]
    · have h1 : r ≠ o.dst.toNat := by omega
      have h2 : r ≠ o.dst.toNat + 1 := by omega
      have h3 : ¬ (o.dst.toNat + 1 < 112) := by omega
      cases o.wide <;> simp [hlt, h1, h2, h3]

theorem result_oc (a : LaneView) (o : VOp) (keeps : Bool) (x k : Nat) (hk : k < 8) {regs : Nat}
    (hd : dstOk regs o.dst o.wide = true) :
    (a.result o.dst o.wide keeps x).oc k = if o.hits (112 + k) then o.part (112 + k) x else a.oc k := by
  unfold LaneView.result VOp.hits VOp.part
  unfold dstOk regOk at hd
  by_cases h0 : 120 ≤ o.dst.toNat
  · have h1 : 112 + k ≠ o.dst.toNat := by omega
    by_cases h2 : 112 + k = o.dst.toNat + 1
    · omega
    · simp [h0, h1, h2]
  · have h124 : o.dst ≠ 124#7 := by intro h; rw [h] at h0; simp at h0
    simp only [h0, ↓reduceIte, LaneView.setReg]
    simp only [beq_eq_false_iff_ne.2 h124, Bool.false_or] at hd
    by_cases hlt : o.dst.toNat < 112
    · simp only [hlt, ↓reduceIte] at hd ⊢
      have h1 : 112 + k ≠ o.dst.toNat := by omega
      cases hw : o.wide
      · simp [h1]
      · simp only [hw, Bool.not_true, Bool.false_or, Bool.and_eq_true, decide_eq_true_eq, beq_iff_eq] at hd
        have h111 : o.dst.toNat + 1 < 112 := by omega
        have h2 : 112 + k ≠ o.dst.toNat + 1 := by omega
        simp [h111, h1, h2]
    · obtain ⟨n, hn⟩ : ∃ n, o.dst.toNat = 112 + n := ⟨o.dst.toNat - 112, by omega⟩
      have h3 : ¬ (112 + n < 112) := by omega
      have h3' : ¬ (112 + n + 1 < 112) := by omega
      have h4 : 112 + n - 112 = n := by omega
      have h5 : 112 + n + 1 - 112 = n + 1 := by omega
      have h6 : (112 + k = 112 + n) ↔ k = n := by omega
      have h7 : (112 + k = 112 + n + 1) ↔ k = n + 1 := by omega
      have h8 : n ≠ n + 1 := by omega
      rw [hn]
      cases o.wide
      · by_cases h : k = n
        · subst h; simp [h3, upd]
        · simp [h3, upd, h]
      · by_cases h : k = n
        · subst h; simp only [↓reduceIte, h3, h3', h5, upd]; simp
        · by_cases h9 : k = n + 1
          · subst h9
            have h10 : 112 + (n + 1) = 112 + n + 1 := by omega
            simp only [↓reduceIte, h3, h3', h5, upd, h10]; simp
          · simp [h3, h3', upd, h5, h7, h, h9]

theorem result_lat (a : LaneView) (spec : BitVec 7) (wide keeps : Bool) (x : Nat) : (a.result spec wide keeps x).lat = a.lat := by
  have H : ∀ (b : LaneView) (k : Nat) (w : Word) (p : Bool), (b.setReg k w p).lat = b.lat := by
    intro b k w p; unfold LaneView.setReg; split <;> rfl
  unfold LaneView.result
  split
  · rfl
  · simp only []
    split
    · rw [H, H]
    · rw [H]

/-- Fragment changes do not touch registers. -/
theorem view_frags (g : Gang) (fs : AList Frag) (m : Nat) : Gang.view { g with frags := fs } m = g.view m := rfl

/-- Issue leaves the registers alone. -/
theorem view_issue (g : Gang) (i : Instr) (c : Cur) (m : Nat) : (g.issue i c).view m = g.view m := by
  have H : ∀ (L : List Nat) (g : Gang) (f : Quad → Quad), (L.foldl (fun g q => g.modQuad q f) g).view m = g.view m := by
    intro L
    induction L with
    | nil => intro g f; rfl
    | cons x t ih => intro g f; rw [List.foldl_cons, ih]; rfl
  unfold Gang.issue Gang.modQuads
  rw [H]
  rfl

/-- What a vector instruction's write leaves, register by register. -/
theorem write_effect (o : VOp) (push : Bool) (c : Cur) (f : LaneFn) (mark : Frag → Frag) (g : Gang) {regs : Nat}
    (hd : dstOk regs o.dst o.wide = true)
    (hu : (c.gang.issue o.i c |> o.write push c f).upTo { g with frags := (c.gang.issue o.i c).frags })
    (hv : ∀ m, g.view m = (o.write push c f (c.gang.issue o.i c)).view m)
    (hf : ∀ k, aget k g.frags = if k = c.r.frag then (aget k (c.gang.issue o.i c).frags).map mark else aget k (c.gang.issue o.i c).frags) :
    VectorEffect o push c (fun l => o.merge c l (f c (c.lane o.fp l)).1) mark g := by
  have hw : ∀ m, m < 32 → g.view m = if (c.act (pfxGuard o.x)).getLsbD m then
      o.lane push c f m (o.srcs.foldl LaneView.killSrc (c.gang.view m)) else c.gang.view m := by
    intro m hm
    rw [hv, view_write o push c f _ m hm, view_issue]
  refine ⟨?_, hf, ?_, ?_, ?_, ?_⟩
  · have h1 := upTo_write o push c f (c.gang.issue o.i c)
    have h2 := Gang.upTo_trans h1 hu
    unfold Gang.upTo at h2
    have : g = { ({ g with frags := (c.gang.issue o.i c).frags } : Gang) with frags := g.frags } := rfl
    rw [this, h2]
  · intro r l hr hl
    have h := congrArg (fun a => LaneView.v a r) (hw l hl)
    simp only [Gang.view] at h
    rw [h]
    unfold VOp.acts
    split
    · simp only [VOp.lane]
      have hp : ∀ (b : LaneView) (x : DWord), (if push then b.push (pipeB o.dst) x else b).v r = b.v r := by
        intro b x; split <;> rfl
      rw [hp, result_v _ o _ _ r hr hd, killSrcs_v _ _ r hr]
      rfl
    · rfl
  · intro k l hk hl
    have h := congrArg (fun a => LaneView.oc a k) (hw l hl)
    simp only [Gang.view] at h
    rw [h]
    unfold VOp.acts
    split
    · simp only [VOp.lane]
      have hp : ∀ (b : LaneView) (x : DWord), (if push then b.push (pipeB o.dst) x else b).oc k = b.oc k := by
        intro b x; split <;> rfl
      rw [hp, result_oc _ o _ _ k hk hd, killSrcs_oc _ _ k hk]
      rfl
    · rfl
  · intro r l hr hl
    have h := congrArg (fun a => LaneView.pois a r) (hw l hl)
    simp only [Gang.view] at h
    rw [h]
    unfold VOp.acts
    split
    · simp only [VOp.lane]
      have hp : ∀ (b : LaneView) (x : DWord), (if push then b.push (pipeB o.dst) x else b).pois r = b.pois r := by
        intro b x; split <;> rfl
      rw [hp, result_pois _ o _ _ r hr hd, killSrcs_pois _ _ r hr]
      unfold VOp.kills
      split
      · split
        · next h1 h2 => simp [h2]
        · next h1 h2 => simp [h2]
      · rfl
    · rfl
  · intro j l hj hl
    have h := congrArg (fun a => LaneView.lat a j) (hw l hl)
    simp only [Gang.view] at h
    rw [h]
    unfold VOp.acts
    cases push
    · simp only [Bool.false_and, Bool.false_eq_true, ↓reduceIte]
      split
      · simp only [VOp.lane, Bool.false_eq_true, ↓reduceIte]
        rw [result_lat, killSrcs_lat]
      · rfl
    · simp only [Bool.true_and]
      split
      · simp only [VOp.lane, ↓reduceIte, LaneView.push]
        rw [result_lat, killSrcs_lat]
        simp only [upd]
      · rfl

/-! The vector operations. -/

theorem withSat_zero (f : Frag) : withSat 0 f = f := by simp [withSat]

theorem satAdd16_zero (a : BitVec 16) : satAdd16 a (BitVec.ofNat 16 0) = a := by
  unfold satAdd16
  have := a.isLt
  apply BitVec.eq_of_toNat_eq
  simp
  omega

theorem countNit_zero (kind : Nat) (f : Frag) : countNit kind 0 f = f := by
  unfold countNit
  split <;> simp only [satAdd16_zero]

/-- Saturation bits reach the pending set of the issuing fragment alone. -/
theorem pendSat_spec (c : Cur) (bits : Nat) (s : State) {g : Gang} (hg : gangOf (gangRefOf c.r) s = some g) :
    Apart c s (pendSat c.r bits s) ∧ ∃ g', gangOf (gangRefOf c.r) (pendSat c.r bits s) = some g'
      ∧ g' = { g with frags := g'.frags }
      ∧ ∀ k, aget k g'.frags = if k = c.r.frag then (aget k g.frags).map (withSat bits) else aget k g.frags := by
  unfold pendSat
  split
  · next h =>
    subst h
    refine ⟨Apart.refl c s, g, hg, rfl, fun k => ?_⟩
    split
    · cases aget k g.frags <;> simp [withSat_zero]
    · rfl
  · refine ⟨apart_modFrag c _ s, { g with frags := amod c.r.frag (withSat bits) g.frags }, ?_, rfl, fun k => ?_⟩
    · rw [modFrag_eq, gangOf_modGang_self, hg]; rfl
    · exact aget_amod _ _ _ _

/-- How many events a fragment counts: those of a kind whose action is not to ignore them (R54, R55). -/
theorem nitEvent_counts (c : Cur) (len kind : Nat) (hits : List NitHit) (op : Option Nat) (s : State)
    (ha : nitAction c.gang.nitcfg kind < 2) :
    nitEvent c len kind hits op s =
      if hits.isEmpty || nitAction c.gang.nitcfg kind == 0 then s else modFrag c.r (countNit kind hits.length) s := by
  unfold nitEvent
  simp only []
  split
  · rfl
  · have h2 : ¬ (nitAction c.gang.nitcfg kind = 2) := by omega
    have h3 : ¬ (nitAction c.gang.nitcfg kind = 3) := by omega
    simp only [h2, h3, ↓reduceIte]

theorem nitEvent_spec (c : Cur) (len kind : Nat) (hits : List NitHit) (op : Option Nat) (s : State) {g : Gang}
    (ha : hits = [] ∨ nitAction c.gang.nitcfg kind < 2) (hg : gangOf (gangRefOf c.r) s = some g) :
    Apart c s (nitEvent c len kind hits op s) ∧ ∃ g', gangOf (gangRefOf c.r) (nitEvent c len kind hits op s) = some g'
      ∧ g' = { g with frags := g'.frags }
      ∧ ∀ k, aget k g'.frags = if k = c.r.frag then (aget k g.frags).map (countNit kind (countedHits c kind hits))
          else aget k g.frags := by
  have same : ∀ n, n = 0 → nitEvent c len kind hits op s = s → countedHits c kind hits = n →
      Apart c s (nitEvent c len kind hits op s) ∧ ∃ g', gangOf (gangRefOf c.r) (nitEvent c len kind hits op s) = some g'
      ∧ g' = { g with frags := g'.frags }
      ∧ ∀ k, aget k g'.frags = if k = c.r.frag then (aget k g.frags).map (countNit kind (countedHits c kind hits))
          else aget k g.frags := by
    intro n hn hs hc
    rw [hs, hc, hn]
    refine ⟨Apart.refl c s, g, hg, rfl, fun k => ?_⟩
    split
    · cases aget k g.frags <;> simp [countNit_zero]
    · rfl
  by_cases he : hits = []
  · refine same 0 rfl ?_ ?_
    · subst he; unfold nitEvent; simp
    · subst he; unfold countedHits; simp
  · have ha' : nitAction c.gang.nitcfg kind < 2 := by rcases ha with h | h; exact absurd h he; exact h
    have hne : hits.isEmpty = false := by cases hits with
      | nil => exact absurd rfl he
      | cons a t => rfl
    by_cases h0 : nitAction c.gang.nitcfg kind = 0
    · refine same 0 rfl ?_ ?_
      · rw [nitEvent_counts c len kind hits op s ha']; simp [h0]
      · unfold countedHits; simp [h0]
    · rw [nitEvent_counts c len kind hits op s ha']
      have : (hits.isEmpty || nitAction c.gang.nitcfg kind == 0) = false := by simp [hne, h0]
      simp only [this, Bool.false_eq_true, ↓reduceIte]
      refine ⟨apart_modFrag c _ s, { g with frags := amod c.r.frag (countNit kind hits.length) g.frags }, ?_, rfl, fun k => ?_⟩
      · rw [modFrag_eq, gangOf_modGang_self, hg]; rfl
      · unfold countedHits
        simp only [h0, ↓reduceIte]
        exact aget_amod _ _ _ _

theorem countNit_withSat (kind n bits : Nat) (f : Frag) : countNit kind n (withSat bits f) = withSat bits (countNit kind n f) := by
  unfold countNit withSat
  split <;> rfl

/-- A vector instruction whose checks pass, whose events are none or only counted: it is done. -/
theorem runPre_done (o : VOp) (pre : Cur → Pre) (f : LaneFn) (kind : Nat) (hits : Cur → List NitHit) {c : Cur} {s : State}
    (h : Issues o.i c s) (hp : pre c = .go) {regs : Nat} (hd : dstOk regs o.dst o.wide = true)
    (ha : hits c = [] ∨ nitAction c.gang.nitcfg kind < 2) :
    VectorDone o true c s (fun l => o.merge c l (f c (c.lane o.fp l)).1)
      (fun x => countNit kind (countedHits c kind (hits c)) (withSat (o.sats c f) x)) (o.runPre pre f kind hits s) := by
  have hb0 := begun_spec o.i h.sel
  have hk := banked_spec c (o.srcs.flatMap Operand.banks) (begun o.i c s)
  have hb := And.intro (hb0.1.trans hk.1) (hk.2.trans hb0.2)
  have hw := apart_modGang c (o.write true c f) (banked c (o.srcs.flatMap Operand.banks) (begun o.i c s))
  have hg : gangOf (gangRefOf c.r) (modGang (gangRefOf c.r) (o.write true c f) (banked c (o.srcs.flatMap Operand.banks) (begun o.i c s)))
      = some (o.write true c f (c.gang.issue o.i c)) := by rw [gangOf_modGang_self, hb.2]; rfl
  obtain ⟨hs1, g1, hg1, he1, hf1⟩ := pendSat_spec c (o.sats c f) _ hg
  obtain ⟨hs2, g2, hg2, he2, hf2⟩ := nitEvent_spec c o.i.len kind (hits c) none _ ha hg1
  unfold VOp.runPre
  refine ⟨_, g2, issue_go h hp, hg2, ?_, hb.1.trans (hw.trans (hs1.trans hs2))⟩
  refine write_effect o true c f _ g2 hd ?_ (fun m => ?_) (fun k => ?_)
  · have hu := upTo_write o true c f (c.gang.issue o.i c)
    unfold Gang.upTo at hu ⊢
    rw [he2, he1]
    show ({ o.write true c f (c.gang.issue o.i c) with frags := (c.gang.issue o.i c).frags } : Gang)
      = o.write true c f (c.gang.issue o.i c)
    generalize o.write true c f (c.gang.issue o.i c) = w at hu ⊢
    rw [hu]
  · rw [he2, he1]
    exact view_frags _ _ m
  · have hu := upTo_write o true c f (c.gang.issue o.i c)
    unfold Gang.upTo at hu
    have hfr : (o.write true c f (c.gang.issue o.i c)).frags = (c.gang.issue o.i c).frags := by
      generalize o.write true c f (c.gang.issue o.i c) = w at hu ⊢
      rw [hu]
    rw [hf2, hf1, hfr]
    split
    · cases aget k (c.gang.issue o.i c).frags <;> rfl
    · rfl

/-- The checks of a vector instruction that is ready pass. -/
theorem pre_go {o : VOp} {c : Cur} {s : State} (h : VectorReady o c s) : o.pre true c = .go := by
  have hs : o.srcs.all (fun a => a.ok c.regs) = true := List.all_eq_true.2 (fun a ha => h.srcs a ha)
  simp [VOp.pre, preOf, Pre.andThen, Pre.unless, hs, h.dst, h.clean]

/-- A vector instruction that is ready is done. -/
theorem run_done (o : VOp) (f : LaneFn) (kind : Nat) (hits : Cur → List NitHit) {c : Cur} {s : State} (h : VectorReady o c s)
    (ha : hits c = [] ∨ nitAction c.gang.nitcfg kind < 2) :
    VectorDone o true c s (fun l => o.merge c l (f c (c.lane o.fp l)).1)
      (fun x => countNit kind (countedHits c kind (hits c)) (withSat (o.sats c f) x)) (o.run true f kind hits s) :=
  runPre_done o (o.pre true) f kind hits h.toIssues (pre_go h) h.dst ha

/-- The same where no event can be raised and nothing of the destination is kept. -/
theorem run_plain (o : VOp) (f : LaneFn) (kind : Nat) {c : Cur} {s : State} (h : VectorReady o c s) (hk : o.kept = 0) :
    VectorDone o true c s (fun l => (f c (c.lane o.fp l)).1) (withSat (o.sats c f)) (o.run true f kind noHits s) := by
  have := run_done o f kind noHits h (.inl rfl)
  have hm : (fun l => o.merge c l (f c (c.lane o.fp l)).1) = fun l => (f c (c.lane o.fp l)).1 := by
    funext l; simp [VOp.merge, hk]
  have hn : (fun x => countNit kind (countedHits c kind (noHits c)) (withSat (o.sats c f) x)) = withSat (o.sats c f) := by
    funext x
    have : countedHits c kind (noHits c) = 0 := by simp [countedHits, noHits]
    rw [this, countNit_zero]
  rw [hm, hn] at this
  exact this

end Sys2Proof.Machine
end

