-- ==== Sys2Proof/Laws/Rows.lean ====
section
/-!
SUPPORT. What the rows beside the plain vector ones leave behind: exchanges, operations that count on a path, compares, predicates and
scalars.
-/
namespace Sys2Proof.Machine

/-- An instruction whose checks pass and whose effect keeps to its gang is done. -/
theorem issue_done {i : Instr} {p : Bool} {chk : Cur → Pre} {eff : Cur → State → State} {c : Cur} {s : State} {G : Gang → Prop}
    (h : Issues i c s) (hc : chk c = .go)
    (he : ∀ t, gangOf (gangRefOf c.r) t = some (c.gang.issue i c) →
      Apart c t (eff c t) ∧ ∃ g, gangOf (gangRefOf c.r) (eff c t) = some g ∧ G g) :
    GangDone p c s G (issue i p chk eff s) := by
  have hb := begun_spec i h.sel
  obtain ⟨ha, g, hg, hG⟩ := he _ hb.2
  exact ⟨_, g, issue_go h hc, hg, hG, hb.1.trans ha⟩

/-- The same for an instruction with sources in registers. -/
theorem issueFrom_done {srcs : List Operand} {i : Instr} {p : Bool} {chk : Cur → Pre} {eff : Cur → State → State} {c : Cur} {s : State}
    {G : Gang → Prop} (h : Issues i c s) (hc : chk c = .go)
    (he : ∀ t, gangOf (gangRefOf c.r) t = some (c.gang.issue i c) →
      Apart c t (eff c t) ∧ ∃ g, gangOf (gangRefOf c.r) (eff c t) = some g ∧ G g) :
    GangDone p c s G (issueFrom srcs i p chk eff s) :=
  issue_done h hc (fun t ht => by
    have hb := banked_spec c (srcs.flatMap Operand.banks) t
    obtain ⟨ha, g, hg, hG⟩ := he _ (hb.2.trans ht)
    exact ⟨hb.1.trans ha, g, hg, hG⟩)

/-- The same for an effect on the gang alone. -/
theorem issue_gang_done {i : Instr} {p : Bool} {chk : Cur → Pre} {F : Cur → Gang → Gang} {c : Cur} {s : State} {G : Gang → Prop}
    (h : Issues i c s) (hc : chk c = .go) (hG : G (F c (c.gang.issue i c))) :
    GangDone p c s G (issue i p chk (fun c s => modGang (gangRefOf c.r) (F c) s) s) :=
  issue_done h hc (fun t ht => ⟨apart_modGang c _ t, _, by rw [gangOf_modGang_self, ht]; rfl, hG⟩)

/-- The same for no effect beyond issue. -/
theorem issue_plain_done {i : Instr} {p : Bool} {chk : Cur → Pre} {c : Cur} {s : State} {G : Gang → Prop}
    (h : Issues i c s) (hc : chk c = .go) (hG : G (c.gang.issue i c)) :
    GangDone p c s G (issue i p chk (fun _ s => s) s) :=
  issue_done h hc (fun t ht => ⟨Apart.refl c t, _, ht, hG⟩)

/-- Checks of operands and poison that find nothing. -/
theorem preOf_go {ok poisoned : Bool} (h1 : ok = true) (h2 : poisoned = false) : preOf ok poisoned = .go := by
  simp [preOf, Pre.andThen, Pre.unless, h1, h2]

/-! Scalars. -/

theorem s_issue (g : Gang) (i : Instr) (c : Cur) : (g.issue i c).sregs = g.sregs ∧ (g.issue i c).spois = g.spois
    ∧ (g.issue i c).pregs = g.pregs ∧ (g.issue i c).ppois = g.ppois ∧ (g.issue i c).ops = g.ops := by
  have H : ∀ (L : List Nat) (g : Gang) (f : Quad → Quad), (L.foldl (fun g q => g.modQuad q f) g).sregs = g.sregs
      ∧ (L.foldl (fun g q => g.modQuad q f) g).spois = g.spois ∧ (L.foldl (fun g q => g.modQuad q f) g).pregs = g.pregs
      ∧ (L.foldl (fun g q => g.modQuad q f) g).ppois = g.ppois ∧ (L.foldl (fun g q => g.modQuad q f) g).ops = g.ops := by
    intro L
    induction L with
    | nil => intro g f; exact ⟨rfl, rfl, rfl, rfl, rfl⟩
    | cons x t ih => intro g f; rw [List.foldl_cons]; exact ih _ f
  unfold Gang.issue Gang.modQuads
  exact H _ _ _

/-- A scalar written in the gang that issue leaves. -/
theorem setS_effect (i : Instr) (c : Cur) (sd : BitVec 6) (v : DWord) :
    ScalarEffect i c sd v ((c.gang.issue i c).setSBy c.r.frag sd v) := by
  obtain ⟨h1, h2, _⟩ := s_issue c.gang i c
  refine ⟨?_, fun n => ?_, fun n => ?_⟩
  · unfold Gang.setSBy Gang.noteS; rw [noteW_rest]; rfl
  · rw [s_setSBy]; unfold Gang.s; rw [h1]
  · rw [spoisoned_setSBy]; unfold Gang.spoisoned; rw [h2]

/-- A scalar instruction whose sources are clean is done. -/
theorem scalar_done {i : Instr} {p : Bool} {reads : List (BitVec 6)} {sd : BitVec 6} {f : Cur → DWord} {c : Cur} {s : State}
    (h : Issues i c s) (hp : c.sPoison reads = false) :
    GangDone p c s (ScalarEffect i c sd (f c)) (runScalar i p reads sd f s) := by
  unfold runScalar
  exact issue_gang_done (F := fun c g => g.setSBy c.r.frag sd (f c)) h (preOf_go rfl hp) (setS_effect i c sd (f c))

/-! Predicates. -/

theorem ppoisoned_setP (g : Gang) (n k : BitVec 3) (m v : Mask) :
    (g.setP n m v).ppoisoned k = if k = n ∧ m = 0xFFFFFFFF#32 then false else g.ppoisoned k := by
  unfold Gang.ppoisoned Gang.setP
  by_cases hm : m = 0xFFFFFFFF#32
  · simp only [hm, ↓reduceIte, and_true]
    revert k n
    generalize g.ppois = x
    intro n k
    have hn := n.isLt; have hk := k.isLt
    by_cases h : k = n
    · subst h
      simp only [↓reduceIte, BitVec.getLsbD_and, BitVec.getLsbD_not, BitVec.getLsbD_shiftLeft, BitVec.getLsbD_one]
      simp
    · have : k.toNat ≠ n.toNat := fun e => h (BitVec.eq_of_toNat_eq e)
      simp only [h, ↓reduceIte, BitVec.getLsbD_and, BitVec.getLsbD_not, BitVec.getLsbD_shiftLeft, BitVec.getLsbD_one]
      by_cases hlt : k.toNat < n.toNat
      · have : k.toNat < 8 := by omega
        simp [hlt, this]
      · have h0 : k.toNat - n.toNat ≠ 0 := by omega
        have : k.toNat < 8 := by omega
        simp [h0, this]
  · simp [hm]

/-- A predicate written in the gang that issue leaves. -/
theorem setP_effect (i : Instr) (c : Cur) (pd : BitVec 3) (m v : Mask) :
    PredicateEffect i c pd m (fun l => v.getLsbD l) ((c.gang.issue i c).setP pd m v) := by
  obtain ⟨_, _, h3, h4, _⟩ := s_issue c.gang i c
  have hpr : ∀ n, (c.gang.issue i c).pr n = c.gang.pr n := fun n => by unfold Gang.pr; rw [h3]
  have hpp : ∀ n, (c.gang.issue i c).ppoisoned n = c.gang.ppoisoned n := fun n => by unfold Gang.ppoisoned; rw [h4]
  refine ⟨rfl, fun n l hl => ?_, fun n => ?_⟩
  · rw [pr_setP, hpr, hpr]
    by_cases h : n = pd
    · subst h
      simp only [↓reduceIte, true_and]
      simp only [BitVec.getLsbD_or, BitVec.getLsbD_and, BitVec.getLsbD_not, hl, decide_true, Bool.true_and]
      generalize BitVec.getLsbD m l = b
      cases b <;> simp
    · simp [h]
  · rw [ppoisoned_setP, hpp]

/-! Exchanges. -/

/-- An exchange that counts on no path and whose checks pass is done: its destination is written, no latch is pushed. -/
theorem exch_done (o : VOp) (ok : Cur → Bool) (reads : Cur → Nat → List (Operand × Nat)) (f : LaneFn) {c : Cur} {s : State}
    (h : Issues o.i c s) (hk : o.kept = 0) (hs : ∀ a ∈ o.srcs, a.ok c.regs = true) (hd : regOk c.regs o.dst.toNat o.wide = true)
    (hok : ok c = true) (hg : c.guardPoisoned (pfxGuard o.x) = false)
    (hp : ∀ l, o.acts c l = true → ∀ r ∈ reads c l, r.1.poisoned c r.2 = false) :
    VectorDone o false c s (fun l => (f c (c.lane o.fp l)).1) (withSat (o.sats c f)) (runExch o ok reads none f s) := by
  have hd' : dstOk c.regs o.dst o.wide = true := by simp [dstOk, hd]
  have hall : o.srcs.all (fun a => a.ok c.regs) = true := List.all_eq_true.2 hs
  have hp' : ((lanesIn (c.act (pfxGuard o.x))).any fun l => (reads c l).any fun r => r.1.poisoned c r.2) = false := by
    rw [List.any_eq_false]
    intro l hl
    rw [Bool.not_eq_true, List.any_eq_false]
    intro r hr
    rw [hp l (mem_lanesIn.1 hl).2 r hr]
    simp
  unfold runExch
  refine issueFrom_done h ?_ (fun t ht => ?_)
  · simp only [hall, hd, hok, hg, hp', Bool.and_self, Bool.or_self]
    rfl
  · have hw := apart_modGang c (o.write false c f) t
    have hgm : gangOf (gangRefOf c.r) (modGang (gangRefOf c.r) (o.write false c f) t)
        = some (o.write false c f (c.gang.issue o.i c)) := by rw [gangOf_modGang_self, ht]; rfl
    obtain ⟨hs1, g1, hg1, he1, hf1⟩ := pendSat_spec c (o.sats c f) _ hgm
    refine ⟨hw.trans hs1, g1, hg1, ?_⟩
    have hm : (fun l => o.merge c l (f c (c.lane o.fp l)).1) = fun l => (f c (c.lane o.fp l)).1 := by
      funext l; simp [VOp.merge, hk]
    rw [← hm]
    have hu := upTo_write o false c f (c.gang.issue o.i c)
    unfold Gang.upTo at hu
    have hfr : (o.write false c f (c.gang.issue o.i c)).frags = (c.gang.issue o.i c).frags := by
      generalize o.write false c f (c.gang.issue o.i c) = w at hu ⊢
      rw [hu]
    refine write_effect o false c f _ g1 hd' ?_ (fun m => ?_) (fun k => ?_)
    · unfold Gang.upTo
      rw [he1]
      show ({ o.write false c f (c.gang.issue o.i c) with frags := (c.gang.issue o.i c).frags } : Gang)
        = o.write false c f (c.gang.issue o.i c)
      generalize o.write false c f (c.gang.issue o.i c) = w at hu ⊢
      rw [hu]
    · rw [he1]; exact view_frags _ _ m
    · rw [hf1, hfr]

/-! Operations that count on a path. -/

/-- Counting an operation. -/
theorem addOp_spec (c : Cur) (op : Nat → PendOp) (s : State) {g : Gang} (hg : gangOf (gangRefOf c.r) s = some g) :
    Apart c s (addOp c op s).2 ∧ gangOf (gangRefOf c.r) (addOp c op s).2 = some { g with ops := g.ops ++ [op s.serial] }
      ∧ (addOp c op s).1 = s.serial := by
  have hf : Apart c s (fresh s).2 := ⟨rfl, fun _ => rfl, fun _ _ => rfl, fun _ _ => rfl⟩
  refine ⟨hf.trans (apart_modGang c _ _), ?_, rfl⟩
  show gangOf (gangRefOf c.r) (modGang (gangRefOf c.r) _ (fresh s).2) = _
  rw [gangOf_modGang_self, gangOf_groups (t := (fresh s).2) (s := s) rfl, hg]
  rfl

/-- A gang whose dead sources are killed: it differs in kill marks and the operand cache alone. -/
theorem killSrcs_upTo (os : List Operand) (m : Mask) (g : Gang) :
    os.foldl (fun g s => g.killSrc s m) g
      = { g with killed := (os.foldl (fun g s => g.killSrc s m) g).killed, oc := (os.foldl (fun g s => g.killSrc s m) g).oc } := by
  have hk : ∀ (g : Gang) (spec : Nat), g.kill spec m = { g with killed := (g.kill spec m).killed, oc := (g.kill spec m).oc } := by
    intro g spec
    unfold Gang.kill
    split
    · rfl
    · split
      · have H : ∀ (L : List Nat) (g : Gang), L.foldl (fun g l => g.setOc (spec - 112) l 0#32) g
            = { g with oc := (L.foldl (fun g l => g.setOc (spec - 112) l 0#32) g).oc } := by
          intro L
          induction L with
          | nil => intro g; rfl
          | cons x t ih => intro g; rw [List.foldl_cons, ih]; rfl
        have := H (lanesIn m) g
        generalize List.foldl (fun g l => g.setOc (spec - 112) l 0#32) g (lanesIn m) = w at this ⊢
        rw [this]
      · rfl
  have hs : ∀ (g : Gang) (o : Operand), g.killSrc o m = { g with killed := (g.killSrc o m).killed, oc := (g.killSrc o m).oc } := by
    intro g o
    unfold Gang.killSrc
    split
    · split
      · have h1 := hk g o.spec
        generalize g.kill o.spec m = w at h1 ⊢
        have h2 := hk w (o.spec + 1)
        generalize w.kill (o.spec + 1) m = x at h2 ⊢
        rw [h2, h1]
      · exact hk g o.spec
    · rfl
  induction os generalizing g with
  | nil => rfl
  | cons o t ih =>
    rw [List.foldl_cons]
    have h1 := ih (g.killSrc o m)
    generalize List.foldl (fun g s => g.killSrc s m) (g.killSrc o m) t = w at h1 ⊢
    have h2 := hs g o
    generalize g.killSrc o m = x at h1 h2 ⊢
    rw [h1, h2]

/-- The lanes of a gang whose dead sources are killed. -/
theorem killed_lane (o : VOp) (c : Cur) (g : Gang) (m : Nat) (hm : m < 32) :
    (o.srcs.foldl (fun g s => g.killSrc s (c.act (pfxGuard o.x))) g).view m
      = if o.acts c m then o.srcs.foldl LaneView.killSrc (g.view m) else g.view m :=
  view_killSrcs g o.srcs m _ hm

/-- What the sources of an instruction that counts on a path leave, once it has its operation. -/
theorem later_effect (o : VOp) (path : Path) (words : List RegWrite) (c : Cur) (mark : Frag → Frag) (g k : Gang) (id : Nat)
    (hk : k = o.srcs.foldl (fun g s => g.killSrc s (c.act (pfxGuard o.x))) (c.gang.issue o.i c))
    (hg : g = { k with ops := k.ops ++ [{ PendOp.blank id path c.r.frag with writes := words }], frags := g.frags })
    (hf : ∀ j, aget j g.frags = if j = c.r.frag then (aget j (c.gang.issue o.i c).frags).map mark else aget j (c.gang.issue o.i c).frags) :
    LaterEffect o path words c mark g := by
  have hu := killSrcs_upTo o.srcs (c.act (pfxGuard o.x)) (c.gang.issue o.i c)
  rw [← hk] at hu
  have hv : ∀ m, g.view m = k.view m := fun m => by rw [hg]; rfl
  have hw : ∀ m, m < 32 → g.view m = if o.acts c m then o.srcs.foldl LaneView.killSrc (c.gang.view m) else c.gang.view m := by
    intro m hm
    rw [hv, hk, killed_lane o c _ m hm, view_issue]
  have ho : k.ops = c.gang.ops := by rw [hu]; exact (s_issue c.gang o.i c).2.2.2.2
  refine ⟨?_, hf, ⟨id, by rw [hg, ← ho]⟩, fun r l hr hl => ?_, fun j l hj hl => ?_, fun r l hr hl => ?_⟩
  · have hkv : k.vpois = (c.gang.issue o.i c).vpois := by rw [hu]
    rw [hg]
    show ({ k with ops := _, frags := _ } : Gang) = _
    generalize k.ops ++ [{ PendOp.blank id path c.r.frag with writes := words }] = z
    generalize hgf : g.frags = y
    rw [hu]
  · have h := congrArg (fun a => LaneView.v a r) (hw l hl)
    simp only [Gang.view] at h
    rw [h]
    cases o.acts c l
    · simp
    · simp only [↓reduceIte, Bool.true_and]
      rw [killSrcs_v _ _ r hr]; rfl
  · have h := congrArg (fun a => LaneView.oc a j) (hw l hl)
    simp only [Gang.view] at h
    rw [h]
    cases o.acts c l
    · simp
    · simp only [↓reduceIte, Bool.true_and]
      rw [killSrcs_oc _ _ j hj]; rfl
  · have h := congrArg (fun a => LaneView.pois a r) (hw l hl)
    simp only [Gang.view] at h
    rw [h]
    cases o.acts c l
    · simp
    · simp only [↓reduceIte, Bool.true_and]
      rw [killSrcs_pois _ _ r hr]; rfl

/-- A vector instruction that counts on a path, whose checks pass and whose events are none or only counted, is done. -/
theorem later_done (o : VOp) (path : Path) (f : LaneFn) (kind : Nat) (hits : Cur → List NitHit) {c : Cur} {s : State}
    (h : VectorReady o c s) (hp : c.gang.counter path < 63) (ha : hits c = [] ∨ nitAction c.gang.nitcfg kind < 2) :
    GangDone o.p c s (LaterEffect o path (o.words c f) c (countNit kind (countedHits c kind (hits c)))) (o.runLater path f kind hits s) := by
  unfold VOp.runLater
  refine issueFrom_done h.toIssues ?_ (fun t ht => ?_)
  · have : c.pathFull path = .go := by unfold Cur.pathFull; rw [if_neg (by omega)]
    simp [pre_go h, this, Pre.andThen]
  · simp only []
    have hk := apart_modGang c (fun g => o.srcs.foldl (fun g s => g.killSrc s (c.act (pfxGuard o.x))) g) t
    have hgk : gangOf (gangRefOf c.r) (modGang (gangRefOf c.r)
        (fun g => o.srcs.foldl (fun g s => g.killSrc s (c.act (pfxGuard o.x))) g) t)
        = some (o.srcs.foldl (fun g s => g.killSrc s (c.act (pfxGuard o.x))) (c.gang.issue o.i c)) := by
      rw [gangOf_modGang_self, ht]; rfl
    obtain ⟨h1, h2, _⟩ := addOp_spec c (fun id => { PendOp.blank id path c.r.frag with writes := o.words c f }) _ hgk
    obtain ⟨h3, g, h4, h5, h6⟩ := nitEvent_spec c o.i.len kind (hits c) (some (addOp c (fun id =>
      { PendOp.blank id path c.r.frag with writes := o.words c f }) _).1) _ ha h2
    refine ⟨hk.trans (h1.trans h3), g, h4, later_effect o path _ c _ g _ _ rfl (by rw [h5]) (fun j => ?_)⟩
    rw [h6]
    have hu := killSrcs_upTo o.srcs (c.act (pfxGuard o.x)) (c.gang.issue o.i c)
    have : (o.srcs.foldl (fun g s => g.killSrc s (c.act (pfxGuard o.x))) (c.gang.issue o.i c)).frags = (c.gang.issue o.i c).frags := by
      generalize o.srcs.foldl (fun g s => g.killSrc s (c.act (pfxGuard o.x))) (c.gang.issue o.i c) = w at hu ⊢
      rw [hu]
    simp only [this]

/-! Compares. -/

/-- A compare writes a latch pair of pipe A in each of some lanes. -/
theorem view_pushes (f : Nat → DWord) (a : Mask) (g : Gang) (m : Nat) (hm : m < 32) :
    ((lanesIn a).foldl (fun g l => g.push false l (f l)) g).view m = if a.getLsbD m then (g.view m).push false (f m) else g.view m := by
  rw [view_foldl (fun g l => g.push false l (f l)) (fun l v => v.push false (f l))
    (fun g l m hl hm => view_push g false l m (f l) hl hm) (lanesIn a) (lanesIn_nodup a)
    (fun l hl => (mem_lanesIn.1 hl).1) g m hm]
  by_cases h : a.getLsbD m
  · rw [if_pos (mem_lanesIn.2 ⟨hm, h⟩), if_pos h]
  · rw [if_neg (fun hx => h (mem_lanesIn.1 hx).2), if_neg h]

theorem latches_upTo (f : Nat → DWord) (L : List Nat) (g : Gang) :
    L.foldl (fun g l => g.push false l (f l)) g = { g with latch := (L.foldl (fun g l => g.push false l (f l)) g).latch } := by
  induction L generalizing g with
  | nil => rfl
  | cons x t ih => rw [List.foldl_cons, ih]; rfl

theorem bitsOf_lt (p : Nat → Bool) (n : Nat) : bitsOf p n < 2 ^ n := by
  induction n with
  | zero => simp [bitsOf]
  | succ n ih => unfold bitsOf; split <;> rw [Nat.pow_succ] <;> omega

/-- The bits of a number made of a test. -/
theorem testBit_bitsOf (p : Nat → Bool) (n i : Nat) : (bitsOf p n).testBit i = (decide (i < n) && p i) := by
  induction n with
  | zero => simp [bitsOf]
  | succ n ih =>
    unfold bitsOf
    have h : bitsOf p n + (if p n then 2 ^ n else 0) = 2 ^ n * (if p n then 1 else 0) + bitsOf p n := by
      split <;> simp [Nat.add_comm]
    rw [h, Nat.testBit_two_pow_mul_add _ (bitsOf_lt p n)]
    split
    · next hi => rw [ih]; simp [hi, Nat.lt_succ_of_lt hi]
    · next hi =>
      by_cases e : i = n
      · subst e; cases p i <;> simp
      · have h1 : i - n ≠ 0 := by omega
        have h2 : ¬ i < n + 1 := by omega
        have h3 : Nat.testBit 1 (i - n) = false := by
          rw [show (1 : Nat) = 2 ^ 0 from rfl, Nat.testBit_two_pow]; simp; omega
        cases p n <;> simp [h2, h3]

theorem getLsbD_maskOf (f : Nat → Bool) (l : Nat) (hl : l < 32) : (maskOf f).getLsbD l = f l := by
  unfold maskOf
  rw [BitVec.getLsbD_ofNat, testBit_bitsOf]
  simp [hl]

/-- A compare whose sources are within their limits and clean, and whose events are none or only counted, is done. -/
theorem compare_done (o : VCmp) (f : Cur → Nat → Bool) {c : Cur} {s : State} (h : Issues o.i c s)
    (hs : ∀ a ∈ o.srcs, a.ok c.regs = true) (hp : c.poison true (pfxGuard o.x) o.srcs = false)
    (ha : c.split (f c) (c.act (pfxGuard o.x)) = [] ∨ nitAction c.gang.nitcfg 2 < 2) :
    GangDone o.p c s (CompareEffect o c (c.vote (f c)) (countNit 2 (countedHits c 2 (c.split (f c) (c.act (pfxGuard o.x))))))
      (o.run f s) := by
  have hall : o.srcs.all (fun a => a.ok c.regs) = true := List.all_eq_true.2 hs
  unfold VCmp.run
  refine issueFrom_done h (preOf_go hall hp) (fun t ht => ?_)
  simp only []
  generalize hm : maskOf (c.vote (f c)) = m
  have hbit : ∀ l, l < 32 → m.getLsbD l = c.vote (f c) l := fun l hl => by rw [← hm]; exact getLsbD_maskOf _ l hl
  generalize hF : (fun g : Gang => (lanesIn (c.act (pfxGuard o.x))).foldl (fun g l => g.push false l (if m.getLsbD l then 1#64 else 0#64))
    ((o.srcs.foldl (fun g s => g.killSrc s (c.act (pfxGuard o.x))) g).setP o.pd (c.act (pfxGuard o.x)) m)) = F
  have hgm : gangOf (gangRefOf c.r) (modGang (gangRefOf c.r) F t) = some (F (c.gang.issue o.i c)) := by
    rw [gangOf_modGang_self, ht]; rfl
  obtain ⟨h3, g, h4, h5, h6⟩ := nitEvent_spec c o.i.len 2 (c.split (f c) (c.act (pfxGuard o.x))) none _ ha hgm
  refine ⟨(apart_modGang c F t).trans h3, g, h4, ?_⟩
  have hk := killSrcs_upTo o.srcs (c.act (pfxGuard o.x)) (c.gang.issue o.i c)
  have hkl := fun l hl => view_killSrcs (c.gang.issue o.i c) o.srcs l (c.act (pfxGuard o.x)) hl
  have hF' : F (c.gang.issue o.i c) = _ := (congrFun hF.symm _)
  generalize o.srcs.foldl (fun g s => g.killSrc s (c.act (pfxGuard o.x))) (c.gang.issue o.i c) = k at hk hkl hF'
  have hl := latches_upTo (fun l => if m.getLsbD l then 1#64 else 0#64) (lanesIn (c.act (pfxGuard o.x))) (k.setP o.pd (c.act (pfxGuard o.x)) m)
  have hw : ∀ l, l < 32 → g.view l = if (c.act (pfxGuard o.x)).getLsbD l then
      (o.srcs.foldl LaneView.killSrc (c.gang.view l)).push false (if m.getLsbD l then 1#64 else 0#64) else c.gang.view l := by
    intro l hll
    have e1 : g.view l = (F (c.gang.issue o.i c)).view l := by rw [h5]; exact view_frags _ _ l
    have e2 : (k.setP o.pd (c.act (pfxGuard o.x)) m).view l = k.view l := rfl
    rw [e1, hF', view_pushes _ _ _ _ hll, e2, hkl l hll, view_issue]
    split <;> rfl
  obtain ⟨_, _, i3, i4, _⟩ := s_issue c.gang o.i c
  have hpr : g.pregs = (k.setP o.pd (c.act (pfxGuard o.x)) m).pregs ∧ g.ppois = (k.setP o.pd (c.act (pfxGuard o.x)) m).ppois := by
    rw [h5, hF', hl]; exact ⟨rfl, rfl⟩
  have hkp : (∀ n, k.pr n = c.gang.pr n) ∧ ∀ n, k.ppoisoned n = c.gang.ppoisoned n := by
    rw [hk]
    exact ⟨fun n => by unfold Gang.pr; simp only [i3], fun n => by unfold Gang.ppoisoned; simp only [i4]⟩
  refine ⟨?_, ?_, ?_, ?_, ?_, ?_, ?_, ?_⟩
  · rw [h5, hF', hl]
    show ({ k.setP o.pd (c.act (pfxGuard o.x)) m with latch := _, frags := _ } : Gang) = _
    generalize g.frags = y
    generalize List.foldl (fun g l => g.push false l (if m.getLsbD l then 1#64 else 0#64)) (k.setP o.pd (c.act (pfxGuard o.x)) m)
      (lanesIn (c.act (pfxGuard o.x))) = z
    rw [hk]
    rfl
  · intro j
    rw [h6]
    have : (F (c.gang.issue o.i c)).frags = (c.gang.issue o.i c).frags := by rw [hF', hl, hk]; rfl
    rw [this]
  · intro n l hll
    have : g.pr n = (k.setP o.pd (c.act (pfxGuard o.x)) m).pr n := by unfold Gang.pr; rw [hpr.1]
    rw [this, pr_setP, hkp.1, hkp.1]
    by_cases hn : n = o.pd
    · subst hn
      simp only [↓reduceIte, true_and]
      simp only [BitVec.getLsbD_or, BitVec.getLsbD_and, BitVec.getLsbD_not, hll, decide_true, Bool.true_and, hbit l hll]
      generalize BitVec.getLsbD (c.act (pfxGuard o.x)) l = b
      cases b <;> simp
    · simp [hn]
  · intro r l hr hll
    have h := congrArg (fun a => LaneView.v a r) (hw l hll)
    simp only [Gang.view] at h
    rw [h]
    cases (c.act (pfxGuard o.x)).getLsbD l
    · simp
    · simp only [↓reduceIte, Bool.true_and, LaneView.push]
      rw [killSrcs_v _ _ r hr]
  · intro r l hr hll
    have h := congrArg (fun a => LaneView.pois a r) (hw l hll)
    simp only [Gang.view] at h
    rw [h]
    cases (c.act (pfxGuard o.x)).getLsbD l
    · simp
    · simp only [↓reduceIte, Bool.true_and, LaneView.push]
      rw [killSrcs_pois _ _ r hr]
  · intro n
    have : g.ppoisoned n = (k.setP o.pd (c.act (pfxGuard o.x)) m).ppoisoned n := by unfold Gang.ppoisoned; rw [hpr.2]
    rw [this, ppoisoned_setP, hkp.2]
  · intro j l hj hll
    have h := congrArg (fun a => LaneView.oc a j) (hw l hll)
    simp only [Gang.view] at h
    rw [h]
    cases (c.act (pfxGuard o.x)).getLsbD l
    · simp
    · simp only [↓reduceIte, Bool.true_and, LaneView.push]
      rw [killSrcs_oc _ _ j hj]
  · intro j l hj hll
    have h := congrArg (fun a => LaneView.lat a j) (hw l hll)
    simp only [Gang.view] at h
    rw [h]
    cases (c.act (pfxGuard o.x)).getLsbD l
    · simp
    · simp only [↓reduceIte, LaneView.push, hbit l hll]
      rw [killSrcs_lat]
      simp only [upd, Bool.false_eq_true, ↓reduceIte]

end Sys2Proof.Machine
end

