-- ==== Sys2Proof/Laws/Faults.lean ====
section
/-!
SUPPORT. What taking a fault that holds its fragment does, and what the beginning of a region does.
-/
namespace Sys2Proof.Machine

theorem gangs_issue_frags (i : Instr) (c : Cur) (g : Gang) : (g.issue i c).frags = amod c.r.frag (fun f =>
    { f with
      pc := pcOf (f.pc + BitVec.ofNat 64 i.len)
      bpSkip := false
      waitSkip := false
      sig := if f.inHandler || sigExempt i then f.sig else sigNext f.sig i.hash }) g.frags := by
  have H : ∀ (L : List Nat) (g : Gang) (f : Quad → Quad), (L.foldl (fun g q => g.modQuad q f) g).frags = g.frags := by
    intro L
    induction L with
    | nil => intro g f; rfl
    | cons x t ih => intro g f; rw [List.foldl_cons]; exact ih _ f
  unfold Gang.issue Gang.modQuads
  exact H _ _ _

/-! Holding a fragment for a fault. -/

/-- A fault of this device's own checks that holds: it is taken in the gang as it stands in the state it meets. -/
theorem holdFault_held (c : Cur) (pc retry : DWord) (f : FReq) (s u : State) {g0 : Gang} (hu : Apart c s u) (hk : u.tokens = s.tokens)
    (hg : gangOf (gangRefOf c.r) u = some g0) (ho : ownerFn c.ctx u = ownerFn c.ctx s) (hc : f.cause = .here) :
    FaultHeld c pc retry f g0 s (holdFault c pc retry f u) := by
  have key : ∀ (k : Nat) (w : State), Apart c s { w with tokens := s.tokens } → gangOf (gangRefOf c.r) w = some { g0 with tcause := f.tcause } →
      ∀ x, aget k w.tokens = some x → x.live = true → c.r ∈ x.frags → x.key = f.key c →
      (f.key c = none → x = { fn := ownerFn c.ctx s, debug := false, vectorC := false, kind := .frags, frags := [c.r], key := none,
                              record := recOf c pc f, written := false, live := true }) →
      (∀ j, j ≠ k → aget j w.tokens = aget j s.tokens) → FaultHeld c pc retry f g0 s (holdFor c.r k retry w) := by
    intro k w ha hw x h1 h2 h4 h5 h6 h7
    have hgang : gangOf (gangRefOf c.r) (holdFor c.r k retry w) = some { g0 with
        tcause := f.tcause, frags := amod c.r.frag (fun y => { y with hold := .fault k retry }) g0.frags } := by
      unfold holdFor
      rw [modFrag_eq, gangOf_modGang_self, hw]; rfl
    have hap := ha.trans (apart_modFrag c (fun y => { y with hold := .fault k retry }) { w with tokens := s.tokens })
    refine ⟨⟨k, x, h1, h2, h4, h5, h6, h7, hgang⟩, ?_, hap.groups, hap.gangs, hap.regs⟩
    have hr := hap.rest
    generalize hz : holdFor c.r k retry w = z
    have e : z = { modFrag c.r (fun y => { y with hold := .fault k retry }) { w with tokens := s.tokens } with tokens := z.tokens } := by
      rw [← hz]; rfl
    rw [e, hr]
  have ht : Apart c s (modGang (gangRefOf c.r) (fun g => { g with tcause := f.tcause }) (unstall u)) :=
    hu.trans ((apart_unstall c u).trans (apart_modGang c _ _))
  have htg : gangOf (gangRefOf c.r) (modGang (gangRefOf c.r) (fun g => { g with tcause := f.tcause }) (unstall u))
      = some { g0 with tcause := f.tcause } := by
    rw [gangOf_modGang_self, gangOf_groups (t := unstall u) (s := u) rfl, hg]; rfl
  have htk : (modGang (gangRefOf c.r) (fun g => { g with tcause := f.tcause }) (unstall u)).tokens = s.tokens := hk
  have hto : ownerFn c.ctx (modGang (gangRefOf c.r) (fun g => { g with tcause := f.tcause }) (unstall u)) = ownerFn c.ctx s := ho
  unfold holdFault
  simp only [hc, FaultFrom.learn]
  generalize modGang (gangRefOf c.r) (fun g => { g with tcause := f.tcause }) (unstall u) = v at ht htg htk hto
  have hv : Apart c s { v with tokens := s.tokens } := by
    have : ({ v with tokens := s.tokens } : State) = v := by rw [← htk]
    rw [this]; exact ht
  split
  · next k t hf =>
    split at hf
    · cases hf
    · next hn =>
      have hm := List.find?_some hf
      have hmem := List.mem_of_find?_eq_some hf
      simp only [Bool.and_eq_true, beq_iff_eq] at hm
      refine key k _ ?_ ?_ _ (aget_aput_self ..) hm.1.1 (List.mem_append_right _ (List.mem_singleton.2 rfl)) hm.2
        (fun h0 => absurd h0 (by intro h0; rw [h0] at hn; exact hn rfl)) (fun j hj => ?_)
      · exact hv
      · rw [← htg]; rfl
      · show aget j (aput _ _ v.tokens) = _
        rw [aget_aput_ne hj, htk]
  · next hf =>
    generalize hk' : (match f.key c with | some k => decide (256 ≤ bufferUse k.1 v) | none => false) = full
    refine key (v.serial + 1) _ ?_ htg _ (aget_aput_self ..) rfl (List.mem_singleton.2 rfl) rfl (fun hn => ?_) (fun j hj => ?_)
    · have : Apart c v (fresh v).2 := ⟨rfl, fun _ => rfl, fun _ _ => rfl, fun _ _ => rfl⟩
      have hx := ht.trans this
      refine ⟨?_, hx.groups, hx.gangs, hx.regs⟩
      have := hx.rest
      show ({ (fresh v).2 with tokens := s.tokens } : State) = _
      show ({ (fresh v).2 with tokens := s.tokens } : State) = { s with groups := (fresh v).2.groups, mmio := (fresh v).2.mmio, msix := (fresh v).2.msix, stalled := (fresh v).2.stalled, serial := (fresh v).2.serial }
      generalize (fresh v).2 = z at this ⊢
      rw [this]
    · rw [hn] at hk'
      subst hk'
      rw [hto, hn]
      rfl
    · show aget j (aput _ _ v.tokens) = _
      rw [aget_aput_ne hj, htk]

/-- A fault before issue that does not halt the gang. -/
theorem takeFault_held {c : Cur} {f : FReq} {s : State} (h : cur s = some c) (hf : ¬(f.cls = 0x0A ∨ f.cls = 0x0B))
    (hc : f.cause = .here) : FaultHeld c c.frag.pc c.frag.pc f c.gang s (takeFault c f s) := by
  unfold takeFault takeFaultAt
  rw [if_neg hf]
  exact holdFault_held c _ _ f s s (Apart.refl c s) rfl (gangOf_cur h) rfl hc

/-! Regions. -/

theorem quads_modQuads (g : Gang) (m : Mask) (f : Quad → Quad) (hf : ∀ q, f (f q) = f q) (q : Nat) (hq : q < 8) (hl : q < g.quads.length) :
    (g.modQuads m f).quad q = if quadBits m q = 0#4 then g.quad q else f (g.quad q) := by
  have one : ∀ (g : Gang) (k j : Nat), j < g.quads.length → (g.modQuad k f).quad j = if j = k then f (g.quad j) else g.quad j := by
    intro g k j hj
    unfold Gang.modQuad Gang.quad
    simp only [List.getD_eq_getElem?_getD, List.getElem?_modify]
    by_cases h : j = k
    · subst h
      simp [List.getElem?_eq_getElem hj]
    · simp [h, Ne.symm h]
  have len : ∀ (g : Gang) (k : Nat), (g.modQuad k f).quads.length = g.quads.length := by
    intro g k; unfold Gang.modQuad; simp
  have many : ∀ (L : List Nat) (g : Gang) (j : Nat), j < g.quads.length →
      (L.foldl (fun g q => g.modQuad q f) g).quad j = if j ∈ L then f (g.quad j) else g.quad j := by
    intro L
    induction L with
    | nil => intro g j hj; simp
    | cons x t ih =>
      intro g j hj
      rw [List.foldl_cons, ih _ _ (by rw [len]; exact hj), one g x j hj]
      by_cases h1 : j = x
      · subst h1
        by_cases h2 : j ∈ t <;> simp [h2, hf]
      · by_cases h2 : j ∈ t <;> simp [h1, h2]
  unfold Gang.modQuads
  rw [many _ _ _ hl]
  have : q ∈ quadsIn m ↔ quadBits m q ≠ 0#4 := by simp [quadsIn, hq]
  by_cases h : quadBits m q = 0#4
  · rw [if_pos h, if_neg (fun hm => this.1 hm h)]
  · rw [if_neg h, if_pos (this.2 h)]

theorem modQuads_rest (g : Gang) (m : Mask) (f : Quad → Quad) : g.modQuads m f = { g with quads := (g.modQuads m f).quads } := by
  have H : ∀ (L : List Nat) (g : Gang), L.foldl (fun g q => g.modQuad q f) g = { g with quads := (L.foldl (fun g q => g.modQuad q f) g).quads } := by
    intro L
    induction L with
    | nil => intro g; rfl
    | cons x t ih => intro g; rw [List.foldl_cons, ih]; rfl
  exact H _ _

theorem packCounts (x y z : BitVec 16) : (x.setWidth 64 ||| (y.setWidth 64 <<< 16) ||| (z.setWidth 64 <<< 32)).toNat
    = x.toNat + 65536 * y.toNat + 2 ^ 32 * z.toNat := by
  have hx := x.isLt
  have hy := y.isLt
  have hz := z.isLt
  simp only [BitVec.toNat_or, BitVec.toNat_setWidth, BitVec.toNat_shiftLeft, Nat.shiftLeft_eq]
  generalize x.toNat = a at *
  generalize y.toNat = b at *
  generalize z.toNat = d at *
  have join : ∀ (i a b : Nat), b < 2 ^ i → b ||| 2 ^ i * a = b + 2 ^ i * a := fun i a b hb => by
    rw [Nat.or_comm, ← Nat.two_pow_add_eq_or_of_lt hb, Nat.add_comm]
  have lt2 : ∀ a b : Nat, a < 2 ^ 16 → b < 2 ^ 16 → a + 2 ^ 16 * b < 2 ^ 32 := by intro a b h1 h2; omega
  have a0 : a % 2 ^ 64 = a := by omega
  have b0 : b % 2 ^ 64 * 2 ^ 16 % 2 ^ 64 = 2 ^ 16 * b := by omega
  have d1 : d % 2 ^ 64 = d := Nat.mod_eq_of_lt (Nat.lt_of_lt_of_le hz (Nat.pow_le_pow_right (by omega) (by omega)))
  have d2 : d * 2 ^ 32 < 2 ^ 64 := by
    have h1 := Nat.mul_lt_mul_of_pos_right hz (Nat.two_pow_pos 32)
    rw [← Nat.pow_add] at h1
    exact Nat.lt_of_lt_of_le h1 (Nat.pow_le_pow_right (by omega) (by omega))
  have d0 : d % 2 ^ 64 * 2 ^ 32 % 2 ^ 64 = 2 ^ 32 * d := by rw [d1, Nat.mod_eq_of_lt d2, Nat.mul_comm]
  rw [a0, b0, d0, join 16 b a hx, join 32 d (a + 2 ^ 16 * b) (lt2 a b hx hy)]
  all_goals omega

theorem foldNit_counts (cnt : DWord) (f : Frag) : (foldNit cnt f).toNat = sat16 (cnt.toNat % 65536) f.pendCancel.toNat
    + 65536 * sat16 (cnt.toNat / 65536 % 65536) f.pendCmp.toNat + 2 ^ 32 * sat16 (cnt.toNat / 2 ^ 32 % 65536) f.pendDivz.toNat := by
  have hs : ∀ a b : BitVec 16, (satAdd16 a b).toNat = sat16 a.toNat b.toNat := by
    intro a b
    unfold satAdd16 sat16
    have := a.isLt
    rw [BitVec.toNat_ofNat, Nat.mod_eq_of_lt]
    omega
  have lt : ∀ a b, sat16 a b < 65536 := by intro a b; unfold sat16; omega
  have e0 : (cnt.setWidth 16).toNat = cnt.toNat % 65536 := by simp
  have e1 : ((cnt >>> 16).setWidth 16).toNat = cnt.toNat / 65536 % 65536 := by simp [Nat.shiftRight_eq_div_pow]
  have e2 : ((cnt >>> 32).setWidth 16).toNat = cnt.toNat / 2 ^ 32 % 65536 := by simp [Nat.shiftRight_eq_div_pow]
  unfold foldNit addCounts
  have h0 := hs (cnt.setWidth 16) f.pendCancel
  have h1 := hs ((cnt >>> 16).setWidth 16) f.pendCmp
  have h2 := hs ((cnt >>> 32).setWidth 16) f.pendDivz
  rw [e0] at h0; rw [e1] at h1; rw [e2] at h2
  have l0 := lt (cnt.toNat % 65536) f.pendCancel.toNat
  have l1 := lt (cnt.toNat / 65536 % 65536) f.pendCmp.toNat
  have l2 := lt (cnt.toNat / 2 ^ 32 % 65536) f.pendDivz.toNat
  rw [← h0, ← h1, ← h2] at *
  generalize satAdd16 (cnt.setWidth 16) f.pendCancel = x at *
  generalize satAdd16 ((cnt >>> 16).setWidth 16) f.pendCmp = y at *
  generalize satAdd16 ((cnt >>> 32).setWidth 16) f.pendDivz = z at *
  exact packCounts x y z

/-- The beginning of a region. -/
theorem beginRegion_start {g : Gang} {k : Nat} {f : Frag} (h : aget k g.frags = some f) : RegionStart k f g (g.beginRegion k) := by
  unfold Gang.beginRegion
  rw [h]
  simp only []
  generalize hd : (List.range 112).foldl (fun d r => sput r ((sget r d &&& ~~~ f.mask) ||| (sget r g.killed &&& f.mask)) d) g.dead = dd
  generalize hg : ({ g with
      frags := aput k { f with rpc := f.pc, rexec := f.exec, rsig := f.sig, rhand := f.inHandler, pendCancel := 0#16, pendCmp := 0#16,
                               pendDivz := 0#16, pendSatf := 0#7 } g.frags
      nitcnt := foldNit g.nitcnt f
      satf := g.satf ||| f.pendSatf.setWidth 32
      joints := g.joints.filter (fun j => j.2.2 != 2 + k)
      swap := g.swap.atRegion
      book := { nit := g.openFolds f, swrote := g.book.swrote.map (SWrite.fold f) }
      dead := dd } : Gang) = g1
  have hr := modQuads_rest g1 f.mask (fun q => { q with ricount := q.icount, rmode := q.mode })
  have hdead : ∀ (L : List Nat), L.Nodup → ∀ (d : Sparse 32) (r : Nat),
      sget r (L.foldl (fun d r => sput r ((sget r d &&& ~~~ f.mask) ||| (sget r g.killed &&& f.mask)) d) d)
        = if r ∈ L then (sget r d &&& ~~~ f.mask) ||| (sget r g.killed &&& f.mask) else sget r d := by
    intro L
    induction L with
    | nil => intro _ d r; simp
    | cons x t ih =>
      intro hn d r
      have hn' := List.nodup_cons.1 hn
      rw [List.foldl_cons, ih hn'.2, sget_sput]
      by_cases h1 : r = x
      · subst h1
        simp [hn'.1]
      · by_cases h2 : r ∈ t <;> simp [h1, h2]
  refine ⟨?_, fun j => ?_, ?_, fun i hi => ?_, ?_, ?_, fun r l hr' hl => ?_, fun q hq hl => ?_⟩
  · rw [hr, ← hg]
  · rw [hr, ← hg]
    show aget j (aput k _ g.frags) = _
    rw [aget_aput]
  · rw [hr, ← hg]; exact foldNit_counts g.nitcnt f
  · rw [hr, ← hg]
    show (g.satf ||| f.pendSatf.setWidth 32).getLsbD i = _
    simp only [BitVec.getLsbD_or, BitVec.getLsbD_setWidth, hi, decide_true, Bool.true_and]
  · rw [hr, ← hg]
  · rw [hr, ← hg]
  · rw [hr, ← hg]
    show (sget r dd).getLsbD l = _
    rw [← hd, hdead _ List.nodup_range, if_pos (List.mem_range.2 hr')]
    simp only [BitVec.getLsbD_or, BitVec.getLsbD_and, BitVec.getLsbD_not, hl, decide_true, Bool.true_and]
    cases f.mask.getLsbD l <;> simp
  · have hq1 : g1.quads = g.quads := by rw [← hg]
    have := quads_modQuads g1 f.mask (fun q => { q with ricount := q.icount, rmode := q.mode }) (fun _ => rfl) q hq (by rw [hq1]; exact hl)
    have hq2 : g1.quad q = g.quad q := by unfold Gang.quad; rw [hq1]
    rw [this, hq2]

end Sys2Proof.Machine
end

