-- ==== Sys2Proof/Laws/State.lean ====
section
/-!
SUPPORT. What each named update of the state, and of a gang, leaves as it was: one law for each field.
-/
namespace Sys2Proof.Machine

/-! A group changes. -/

@[simp] theorem modGroup_sel (k : Nat) (f : Group → Group) (s : State) : (modGroup k f s).sel = s.sel := rfl
@[simp] theorem modGroup_agenda (k : Nat) (f : Group → Group) (s : State) : (modGroup k f s).agenda = s.agenda := rfl
@[simp] theorem modGroup_stalled (k : Nat) (f : Group → Group) (s : State) : (modGroup k f s).stalled = s.stalled := rfl
@[simp] theorem modGroup_clock (k : Nat) (f : Group → Group) (s : State) : (modGroup k f s).clock = s.clock := rfl
@[simp] theorem modGroup_cycles (k : Nat) (f : Group → Group) (s : State) : (modGroup k f s).cycles = s.cycles := rfl
@[simp] theorem modGroup_serial (k : Nat) (f : Group → Group) (s : State) : (modGroup k f s).serial = s.serial := rfl
@[simp] theorem modGroup_mem (k : Nat) (f : Group → Group) (s : State) : (modGroup k f s).mem = s.mem := rfl
@[simp] theorem modGroup_poison (k : Nat) (f : Group → Group) (s : State) : (modGroup k f s).poison = s.poison := rfl
@[simp] theorem modGroup_mirror (k : Nat) (f : Group → Group) (s : State) : (modGroup k f s).mirror = s.mirror := rfl
@[simp] theorem modGroup_hbmFlips (k : Nat) (f : Group → Group) (s : State) : (modGroup k f s).hbmFlips = s.hbmFlips := rfl
@[simp] theorem modGroup_owners (k : Nat) (f : Group → Group) (s : State) : (modGroup k f s).owners = s.owners := rfl
@[simp] theorem modGroup_retired (k : Nat) (f : Group → Group) (s : State) : (modGroup k f s).retired = s.retired := rfl
@[simp] theorem modGroup_quarantined (k : Nat) (f : Group → Group) (s : State) : (modGroup k f s).quarantined = s.quarantined := rfl
@[simp] theorem modGroup_quiescing (k : Nat) (f : Group → Group) (s : State) : (modGroup k f s).quiescing = s.quiescing := rfl
@[simp] theorem modGroup_testing (k : Nat) (f : Group → Group) (s : State) : (modGroup k f s).testing = s.testing := rfl
@[simp] theorem modGroup_stuck (k : Nat) (f : Group → Group) (s : State) : (modGroup k f s).stuck = s.stuck := rfl
@[simp] theorem modGroup_tlb (k : Nat) (f : Group → Group) (s : State) : (modGroup k f s).tlb = s.tlb := rfl
@[simp] theorem modGroup_tlbi (k : Nat) (f : Group → Group) (s : State) : (modGroup k f s).tlbi = s.tlbi := rfl
@[simp] theorem modGroup_atsReqs (k : Nat) (f : Group → Group) (s : State) : (modGroup k f s).atsReqs = s.atsReqs := rfl
@[simp] theorem modGroup_priReqs (k : Nat) (f : Group → Group) (s : State) : (modGroup k f s).priReqs = s.priReqs := rfl
@[simp] theorem modGroup_priRefused (k : Nat) (f : Group → Group) (s : State) : (modGroup k f s).priRefused = s.priRefused := rfl
@[simp] theorem modGroup_hostWaits (k : Nat) (f : Group → Group) (s : State) : (modGroup k f s).hostWaits = s.hostWaits := rfl
@[simp] theorem modGroup_mmio (k : Nat) (f : Group → Group) (s : State) : (modGroup k f s).mmio = s.mmio := rfl
@[simp] theorem modGroup_msix (k : Nat) (f : Group → Group) (s : State) : (modGroup k f s).msix = s.msix := rfl
@[simp] theorem modGroup_cores (k : Nat) (f : Group → Group) (s : State) : (modGroup k f s).cores = s.cores := rfl
@[simp] theorem modGroup_objects (k : Nat) (f : Group → Group) (s : State) : (modGroup k f s).objects = s.objects := rfl
@[simp] theorem modGroup_launches (k : Nat) (f : Group → Group) (s : State) : (modGroup k f s).launches = s.launches := rfl
@[simp] theorem modGroup_saved (k : Nat) (f : Group → Group) (s : State) : (modGroup k f s).saved = s.saved := rfl
@[simp] theorem modGroup_entries (k : Nat) (f : Group → Group) (s : State) : (modGroup k f s).entries = s.entries := rfl
@[simp] theorem modGroup_tokens (k : Nat) (f : Group → Group) (s : State) : (modGroup k f s).tokens = s.tokens := rfl
@[simp] theorem modGroup_completions (k : Nat) (f : Group → Group) (s : State) : (modGroup k f s).completions = s.completions := rfl
@[simp] theorem modGroup_endedQueues (k : Nat) (f : Group → Group) (s : State) : (modGroup k f s).endedQueues = s.endedQueues := rfl
@[simp] theorem modGroup_resetting (k : Nat) (f : Group → Group) (s : State) : (modGroup k f s).resetting = s.resetting := rfl
@[simp] theorem modGroup_keptHeads (k : Nat) (f : Group → Group) (s : State) : (modGroup k f s).keptHeads = s.keptHeads := rfl
@[simp] theorem modGroup_waiting (k : Nat) (f : Group → Group) (s : State) : (modGroup k f s).waiting = s.waiting := rfl
@[simp] theorem modGroup_marks (k : Nat) (f : Group → Group) (s : State) : (modGroup k f s).marks = s.marks := rfl
@[simp] theorem modGroup_temps (k : Nat) (f : Group → Group) (s : State) : (modGroup k f s).temps = s.temps := rfl
@[simp] theorem modGroup_overwritten (k : Nat) (f : Group → Group) (s : State) : (modGroup k f s).overwritten = s.overwritten := rfl
@[simp] theorem modGroup_dispatchFrozen (k : Nat) (f : Group → Group) (s : State) : (modGroup k f s).dispatchFrozen = s.dispatchFrozen := rfl
@[simp] theorem modGroup_ringmasterBoot (k : Nat) (f : Group → Group) (s : State) : (modGroup k f s).ringmasterBoot = s.ringmasterBoot := rfl
@[simp] theorem modGroup_restarting (k : Nat) (f : Group → Group) (s : State) : (modGroup k f s).restarting = s.restarting := rfl
@[simp] theorem modGroup_sliceFn (k : Nat) (f : Group → Group) (s : State) : (modGroup k f s).sliceFn = s.sliceFn := rfl
@[simp] theorem modGroup_sliceStart (k : Nat) (f : Group → Group) (s : State) : (modGroup k f s).sliceStart = s.sliceStart := rfl
@[simp] theorem modGroup_switching (k : Nat) (f : Group → Group) (s : State) : (modGroup k f s).switching = s.switching := rfl
@[simp] theorem modGroup_sleeping (k : Nat) (f : Group → Group) (s : State) : (modGroup k f s).sleeping = s.sleeping := rfl
@[simp] theorem modGroup_clockSteps (k : Nat) (f : Group → Group) (s : State) : (modGroup k f s).clockSteps = s.clockSteps := rfl
@[simp] theorem modGroup_power (k : Nat) (f : Group → Group) (s : State) : (modGroup k f s).power = s.power := rfl
@[simp] theorem modGroup_links (k : Nat) (f : Group → Group) (s : State) : (modGroup k f s).links = s.links := rfl
@[simp] theorem modGroup_ports (k : Nat) (f : Group → Group) (s : State) : (modGroup k f s).ports = s.ports := rfl
@[simp] theorem modGroup_rxSeq (k : Nat) (f : Group → Group) (s : State) : (modGroup k f s).rxSeq = s.rxSeq := rfl
@[simp] theorem modGroup_rxData (k : Nat) (f : Group → Group) (s : State) : (modGroup k f s).rxData = s.rxData := rfl
@[simp] theorem modGroup_txSeq (k : Nat) (f : Group → Group) (s : State) : (modGroup k f s).txSeq = s.txSeq := rfl
@[simp] theorem modGroup_sent (k : Nat) (f : Group → Group) (s : State) : (modGroup k f s).sent = s.sent := rfl
@[simp] theorem modGroup_replay (k : Nat) (f : Group → Group) (s : State) : (modGroup k f s).replay = s.replay := rfl
@[simp] theorem modGroup_caused (k : Nat) (f : Group → Group) (s : State) : (modGroup k f s).caused = s.caused := rfl
@[simp] theorem modGroup_hostReads (k : Nat) (f : Group → Group) (s : State) : (modGroup k f s).hostReads = s.hostReads := rfl
@[simp] theorem modGroup_reports (k : Nat) (f : Group → Group) (s : State) : (modGroup k f s).reports = s.reports := rfl

/-! A gang changes. -/

@[simp] theorem modGang_sel (r : GangRef) (f : Gang → Gang) (s : State) : (modGang r f s).sel = s.sel := rfl
@[simp] theorem modGang_agenda (r : GangRef) (f : Gang → Gang) (s : State) : (modGang r f s).agenda = s.agenda := rfl
@[simp] theorem modGang_stalled (r : GangRef) (f : Gang → Gang) (s : State) : (modGang r f s).stalled = s.stalled := rfl
@[simp] theorem modGang_clock (r : GangRef) (f : Gang → Gang) (s : State) : (modGang r f s).clock = s.clock := rfl
@[simp] theorem modGang_cycles (r : GangRef) (f : Gang → Gang) (s : State) : (modGang r f s).cycles = s.cycles := rfl
@[simp] theorem modGang_serial (r : GangRef) (f : Gang → Gang) (s : State) : (modGang r f s).serial = s.serial := rfl
@[simp] theorem modGang_mem (r : GangRef) (f : Gang → Gang) (s : State) : (modGang r f s).mem = s.mem := rfl
@[simp] theorem modGang_poison (r : GangRef) (f : Gang → Gang) (s : State) : (modGang r f s).poison = s.poison := rfl
@[simp] theorem modGang_mirror (r : GangRef) (f : Gang → Gang) (s : State) : (modGang r f s).mirror = s.mirror := rfl
@[simp] theorem modGang_hbmFlips (r : GangRef) (f : Gang → Gang) (s : State) : (modGang r f s).hbmFlips = s.hbmFlips := rfl
@[simp] theorem modGang_owners (r : GangRef) (f : Gang → Gang) (s : State) : (modGang r f s).owners = s.owners := rfl
@[simp] theorem modGang_retired (r : GangRef) (f : Gang → Gang) (s : State) : (modGang r f s).retired = s.retired := rfl
@[simp] theorem modGang_quarantined (r : GangRef) (f : Gang → Gang) (s : State) : (modGang r f s).quarantined = s.quarantined := rfl
@[simp] theorem modGang_quiescing (r : GangRef) (f : Gang → Gang) (s : State) : (modGang r f s).quiescing = s.quiescing := rfl
@[simp] theorem modGang_testing (r : GangRef) (f : Gang → Gang) (s : State) : (modGang r f s).testing = s.testing := rfl
@[simp] theorem modGang_stuck (r : GangRef) (f : Gang → Gang) (s : State) : (modGang r f s).stuck = s.stuck := rfl
@[simp] theorem modGang_tlb (r : GangRef) (f : Gang → Gang) (s : State) : (modGang r f s).tlb = s.tlb := rfl
@[simp] theorem modGang_tlbi (r : GangRef) (f : Gang → Gang) (s : State) : (modGang r f s).tlbi = s.tlbi := rfl
@[simp] theorem modGang_atsReqs (r : GangRef) (f : Gang → Gang) (s : State) : (modGang r f s).atsReqs = s.atsReqs := rfl
@[simp] theorem modGang_priReqs (r : GangRef) (f : Gang → Gang) (s : State) : (modGang r f s).priReqs = s.priReqs := rfl
@[simp] theorem modGang_priRefused (r : GangRef) (f : Gang → Gang) (s : State) : (modGang r f s).priRefused = s.priRefused := rfl
@[simp] theorem modGang_hostWaits (r : GangRef) (f : Gang → Gang) (s : State) : (modGang r f s).hostWaits = s.hostWaits := rfl
@[simp] theorem modGang_mmio (r : GangRef) (f : Gang → Gang) (s : State) : (modGang r f s).mmio = s.mmio := rfl
@[simp] theorem modGang_msix (r : GangRef) (f : Gang → Gang) (s : State) : (modGang r f s).msix = s.msix := rfl
@[simp] theorem modGang_cores (r : GangRef) (f : Gang → Gang) (s : State) : (modGang r f s).cores = s.cores := rfl
@[simp] theorem modGang_objects (r : GangRef) (f : Gang → Gang) (s : State) : (modGang r f s).objects = s.objects := rfl
@[simp] theorem modGang_launches (r : GangRef) (f : Gang → Gang) (s : State) : (modGang r f s).launches = s.launches := rfl
@[simp] theorem modGang_saved (r : GangRef) (f : Gang → Gang) (s : State) : (modGang r f s).saved = s.saved := rfl
@[simp] theorem modGang_entries (r : GangRef) (f : Gang → Gang) (s : State) : (modGang r f s).entries = s.entries := rfl
@[simp] theorem modGang_tokens (r : GangRef) (f : Gang → Gang) (s : State) : (modGang r f s).tokens = s.tokens := rfl
@[simp] theorem modGang_completions (r : GangRef) (f : Gang → Gang) (s : State) : (modGang r f s).completions = s.completions := rfl
@[simp] theorem modGang_endedQueues (r : GangRef) (f : Gang → Gang) (s : State) : (modGang r f s).endedQueues = s.endedQueues := rfl
@[simp] theorem modGang_resetting (r : GangRef) (f : Gang → Gang) (s : State) : (modGang r f s).resetting = s.resetting := rfl
@[simp] theorem modGang_keptHeads (r : GangRef) (f : Gang → Gang) (s : State) : (modGang r f s).keptHeads = s.keptHeads := rfl
@[simp] theorem modGang_waiting (r : GangRef) (f : Gang → Gang) (s : State) : (modGang r f s).waiting = s.waiting := rfl
@[simp] theorem modGang_marks (r : GangRef) (f : Gang → Gang) (s : State) : (modGang r f s).marks = s.marks := rfl
@[simp] theorem modGang_temps (r : GangRef) (f : Gang → Gang) (s : State) : (modGang r f s).temps = s.temps := rfl
@[simp] theorem modGang_overwritten (r : GangRef) (f : Gang → Gang) (s : State) : (modGang r f s).overwritten = s.overwritten := rfl
@[simp] theorem modGang_dispatchFrozen (r : GangRef) (f : Gang → Gang) (s : State) : (modGang r f s).dispatchFrozen = s.dispatchFrozen := rfl
@[simp] theorem modGang_ringmasterBoot (r : GangRef) (f : Gang → Gang) (s : State) : (modGang r f s).ringmasterBoot = s.ringmasterBoot := rfl
@[simp] theorem modGang_restarting (r : GangRef) (f : Gang → Gang) (s : State) : (modGang r f s).restarting = s.restarting := rfl
@[simp] theorem modGang_sliceFn (r : GangRef) (f : Gang → Gang) (s : State) : (modGang r f s).sliceFn = s.sliceFn := rfl
@[simp] theorem modGang_sliceStart (r : GangRef) (f : Gang → Gang) (s : State) : (modGang r f s).sliceStart = s.sliceStart := rfl
@[simp] theorem modGang_switching (r : GangRef) (f : Gang → Gang) (s : State) : (modGang r f s).switching = s.switching := rfl
@[simp] theorem modGang_sleeping (r : GangRef) (f : Gang → Gang) (s : State) : (modGang r f s).sleeping = s.sleeping := rfl
@[simp] theorem modGang_clockSteps (r : GangRef) (f : Gang → Gang) (s : State) : (modGang r f s).clockSteps = s.clockSteps := rfl
@[simp] theorem modGang_power (r : GangRef) (f : Gang → Gang) (s : State) : (modGang r f s).power = s.power := rfl
@[simp] theorem modGang_links (r : GangRef) (f : Gang → Gang) (s : State) : (modGang r f s).links = s.links := rfl
@[simp] theorem modGang_ports (r : GangRef) (f : Gang → Gang) (s : State) : (modGang r f s).ports = s.ports := rfl
@[simp] theorem modGang_rxSeq (r : GangRef) (f : Gang → Gang) (s : State) : (modGang r f s).rxSeq = s.rxSeq := rfl
@[simp] theorem modGang_rxData (r : GangRef) (f : Gang → Gang) (s : State) : (modGang r f s).rxData = s.rxData := rfl
@[simp] theorem modGang_txSeq (r : GangRef) (f : Gang → Gang) (s : State) : (modGang r f s).txSeq = s.txSeq := rfl
@[simp] theorem modGang_sent (r : GangRef) (f : Gang → Gang) (s : State) : (modGang r f s).sent = s.sent := rfl
@[simp] theorem modGang_replay (r : GangRef) (f : Gang → Gang) (s : State) : (modGang r f s).replay = s.replay := rfl
@[simp] theorem modGang_caused (r : GangRef) (f : Gang → Gang) (s : State) : (modGang r f s).caused = s.caused := rfl
@[simp] theorem modGang_hostReads (r : GangRef) (f : Gang → Gang) (s : State) : (modGang r f s).hostReads = s.hostReads := rfl
@[simp] theorem modGang_reports (r : GangRef) (f : Gang → Gang) (s : State) : (modGang r f s).reports = s.reports := rfl

/-! A fragment changes. -/

@[simp] theorem modFrag_sel (r : FragRef) (f : Frag → Frag) (s : State) : (modFrag r f s).sel = s.sel := rfl
@[simp] theorem modFrag_agenda (r : FragRef) (f : Frag → Frag) (s : State) : (modFrag r f s).agenda = s.agenda := rfl
@[simp] theorem modFrag_stalled (r : FragRef) (f : Frag → Frag) (s : State) : (modFrag r f s).stalled = s.stalled := rfl
@[simp] theorem modFrag_clock (r : FragRef) (f : Frag → Frag) (s : State) : (modFrag r f s).clock = s.clock := rfl
@[simp] theorem modFrag_cycles (r : FragRef) (f : Frag → Frag) (s : State) : (modFrag r f s).cycles = s.cycles := rfl
@[simp] theorem modFrag_serial (r : FragRef) (f : Frag → Frag) (s : State) : (modFrag r f s).serial = s.serial := rfl
@[simp] theorem modFrag_mem (r : FragRef) (f : Frag → Frag) (s : State) : (modFrag r f s).mem = s.mem := rfl
@[simp] theorem modFrag_poison (r : FragRef) (f : Frag → Frag) (s : State) : (modFrag r f s).poison = s.poison := rfl
@[simp] theorem modFrag_mirror (r : FragRef) (f : Frag → Frag) (s : State) : (modFrag r f s).mirror = s.mirror := rfl
@[simp] theorem modFrag_hbmFlips (r : FragRef) (f : Frag → Frag) (s : State) : (modFrag r f s).hbmFlips = s.hbmFlips := rfl
@[simp] theorem modFrag_owners (r : FragRef) (f : Frag → Frag) (s : State) : (modFrag r f s).owners = s.owners := rfl
@[simp] theorem modFrag_retired (r : FragRef) (f : Frag → Frag) (s : State) : (modFrag r f s).retired = s.retired := rfl
@[simp] theorem modFrag_quarantined (r : FragRef) (f : Frag → Frag) (s : State) : (modFrag r f s).quarantined = s.quarantined := rfl
@[simp] theorem modFrag_quiescing (r : FragRef) (f : Frag → Frag) (s : State) : (modFrag r f s).quiescing = s.quiescing := rfl
@[simp] theorem modFrag_testing (r : FragRef) (f : Frag → Frag) (s : State) : (modFrag r f s).testing = s.testing := rfl
@[simp] theorem modFrag_stuck (r : FragRef) (f : Frag → Frag) (s : State) : (modFrag r f s).stuck = s.stuck := rfl
@[simp] theorem modFrag_tlb (r : FragRef) (f : Frag → Frag) (s : State) : (modFrag r f s).tlb = s.tlb := rfl
@[simp] theorem modFrag_tlbi (r : FragRef) (f : Frag → Frag) (s : State) : (modFrag r f s).tlbi = s.tlbi := rfl
@[simp] theorem modFrag_atsReqs (r : FragRef) (f : Frag → Frag) (s : State) : (modFrag r f s).atsReqs = s.atsReqs := rfl
@[simp] theorem modFrag_priReqs (r : FragRef) (f : Frag → Frag) (s : State) : (modFrag r f s).priReqs = s.priReqs := rfl
@[simp] theorem modFrag_priRefused (r : FragRef) (f : Frag → Frag) (s : State) : (modFrag r f s).priRefused = s.priRefused := rfl
@[simp] theorem modFrag_hostWaits (r : FragRef) (f : Frag → Frag) (s : State) : (modFrag r f s).hostWaits = s.hostWaits := rfl
@[simp] theorem modFrag_mmio (r : FragRef) (f : Frag → Frag) (s : State) : (modFrag r f s).mmio = s.mmio := rfl
@[simp] theorem modFrag_msix (r : FragRef) (f : Frag → Frag) (s : State) : (modFrag r f s).msix = s.msix := rfl
@[simp] theorem modFrag_cores (r : FragRef) (f : Frag → Frag) (s : State) : (modFrag r f s).cores = s.cores := rfl
@[simp] theorem modFrag_objects (r : FragRef) (f : Frag → Frag) (s : State) : (modFrag r f s).objects = s.objects := rfl
@[simp] theorem modFrag_launches (r : FragRef) (f : Frag → Frag) (s : State) : (modFrag r f s).launches = s.launches := rfl
@[simp] theorem modFrag_saved (r : FragRef) (f : Frag → Frag) (s : State) : (modFrag r f s).saved = s.saved := rfl
@[simp] theorem modFrag_entries (r : FragRef) (f : Frag → Frag) (s : State) : (modFrag r f s).entries = s.entries := rfl
@[simp] theorem modFrag_tokens (r : FragRef) (f : Frag → Frag) (s : State) : (modFrag r f s).tokens = s.tokens := rfl
@[simp] theorem modFrag_completions (r : FragRef) (f : Frag → Frag) (s : State) : (modFrag r f s).completions = s.completions := rfl
@[simp] theorem modFrag_endedQueues (r : FragRef) (f : Frag → Frag) (s : State) : (modFrag r f s).endedQueues = s.endedQueues := rfl
@[simp] theorem modFrag_resetting (r : FragRef) (f : Frag → Frag) (s : State) : (modFrag r f s).resetting = s.resetting := rfl
@[simp] theorem modFrag_keptHeads (r : FragRef) (f : Frag → Frag) (s : State) : (modFrag r f s).keptHeads = s.keptHeads := rfl
@[simp] theorem modFrag_waiting (r : FragRef) (f : Frag → Frag) (s : State) : (modFrag r f s).waiting = s.waiting := rfl
@[simp] theorem modFrag_marks (r : FragRef) (f : Frag → Frag) (s : State) : (modFrag r f s).marks = s.marks := rfl
@[simp] theorem modFrag_temps (r : FragRef) (f : Frag → Frag) (s : State) : (modFrag r f s).temps = s.temps := rfl
@[simp] theorem modFrag_overwritten (r : FragRef) (f : Frag → Frag) (s : State) : (modFrag r f s).overwritten = s.overwritten := rfl
@[simp] theorem modFrag_dispatchFrozen (r : FragRef) (f : Frag → Frag) (s : State) : (modFrag r f s).dispatchFrozen = s.dispatchFrozen := rfl
@[simp] theorem modFrag_ringmasterBoot (r : FragRef) (f : Frag → Frag) (s : State) : (modFrag r f s).ringmasterBoot = s.ringmasterBoot := rfl
@[simp] theorem modFrag_restarting (r : FragRef) (f : Frag → Frag) (s : State) : (modFrag r f s).restarting = s.restarting := rfl
@[simp] theorem modFrag_sliceFn (r : FragRef) (f : Frag → Frag) (s : State) : (modFrag r f s).sliceFn = s.sliceFn := rfl
@[simp] theorem modFrag_sliceStart (r : FragRef) (f : Frag → Frag) (s : State) : (modFrag r f s).sliceStart = s.sliceStart := rfl
@[simp] theorem modFrag_switching (r : FragRef) (f : Frag → Frag) (s : State) : (modFrag r f s).switching = s.switching := rfl
@[simp] theorem modFrag_sleeping (r : FragRef) (f : Frag → Frag) (s : State) : (modFrag r f s).sleeping = s.sleeping := rfl
@[simp] theorem modFrag_clockSteps (r : FragRef) (f : Frag → Frag) (s : State) : (modFrag r f s).clockSteps = s.clockSteps := rfl
@[simp] theorem modFrag_power (r : FragRef) (f : Frag → Frag) (s : State) : (modFrag r f s).power = s.power := rfl
@[simp] theorem modFrag_links (r : FragRef) (f : Frag → Frag) (s : State) : (modFrag r f s).links = s.links := rfl
@[simp] theorem modFrag_ports (r : FragRef) (f : Frag → Frag) (s : State) : (modFrag r f s).ports = s.ports := rfl
@[simp] theorem modFrag_rxSeq (r : FragRef) (f : Frag → Frag) (s : State) : (modFrag r f s).rxSeq = s.rxSeq := rfl
@[simp] theorem modFrag_rxData (r : FragRef) (f : Frag → Frag) (s : State) : (modFrag r f s).rxData = s.rxData := rfl
@[simp] theorem modFrag_txSeq (r : FragRef) (f : Frag → Frag) (s : State) : (modFrag r f s).txSeq = s.txSeq := rfl
@[simp] theorem modFrag_sent (r : FragRef) (f : Frag → Frag) (s : State) : (modFrag r f s).sent = s.sent := rfl
@[simp] theorem modFrag_replay (r : FragRef) (f : Frag → Frag) (s : State) : (modFrag r f s).replay = s.replay := rfl
@[simp] theorem modFrag_caused (r : FragRef) (f : Frag → Frag) (s : State) : (modFrag r f s).caused = s.caused := rfl
@[simp] theorem modFrag_hostReads (r : FragRef) (f : Frag → Frag) (s : State) : (modFrag r f s).hostReads = s.hostReads := rfl
@[simp] theorem modFrag_reports (r : FragRef) (f : Frag → Frag) (s : State) : (modFrag r f s).reports = s.reports := rfl

/-! A core changes. -/

@[simp] theorem modCore_sel (k : Nat) (f : Core → Core) (s : State) : (modCore k f s).sel = s.sel := rfl
@[simp] theorem modCore_agenda (k : Nat) (f : Core → Core) (s : State) : (modCore k f s).agenda = s.agenda := rfl
@[simp] theorem modCore_stalled (k : Nat) (f : Core → Core) (s : State) : (modCore k f s).stalled = s.stalled := rfl
@[simp] theorem modCore_clock (k : Nat) (f : Core → Core) (s : State) : (modCore k f s).clock = s.clock := rfl
@[simp] theorem modCore_cycles (k : Nat) (f : Core → Core) (s : State) : (modCore k f s).cycles = s.cycles := rfl
@[simp] theorem modCore_serial (k : Nat) (f : Core → Core) (s : State) : (modCore k f s).serial = s.serial := rfl
@[simp] theorem modCore_mem (k : Nat) (f : Core → Core) (s : State) : (modCore k f s).mem = s.mem := rfl
@[simp] theorem modCore_poison (k : Nat) (f : Core → Core) (s : State) : (modCore k f s).poison = s.poison := rfl
@[simp] theorem modCore_mirror (k : Nat) (f : Core → Core) (s : State) : (modCore k f s).mirror = s.mirror := rfl
@[simp] theorem modCore_hbmFlips (k : Nat) (f : Core → Core) (s : State) : (modCore k f s).hbmFlips = s.hbmFlips := rfl
@[simp] theorem modCore_owners (k : Nat) (f : Core → Core) (s : State) : (modCore k f s).owners = s.owners := rfl
@[simp] theorem modCore_retired (k : Nat) (f : Core → Core) (s : State) : (modCore k f s).retired = s.retired := rfl
@[simp] theorem modCore_quarantined (k : Nat) (f : Core → Core) (s : State) : (modCore k f s).quarantined = s.quarantined := rfl
@[simp] theorem modCore_quiescing (k : Nat) (f : Core → Core) (s : State) : (modCore k f s).quiescing = s.quiescing := rfl
@[simp] theorem modCore_testing (k : Nat) (f : Core → Core) (s : State) : (modCore k f s).testing = s.testing := rfl
@[simp] theorem modCore_stuck (k : Nat) (f : Core → Core) (s : State) : (modCore k f s).stuck = s.stuck := rfl
@[simp] theorem modCore_tlb (k : Nat) (f : Core → Core) (s : State) : (modCore k f s).tlb = s.tlb := rfl
@[simp] theorem modCore_tlbi (k : Nat) (f : Core → Core) (s : State) : (modCore k f s).tlbi = s.tlbi := rfl
@[simp] theorem modCore_atsReqs (k : Nat) (f : Core → Core) (s : State) : (modCore k f s).atsReqs = s.atsReqs := rfl
@[simp] theorem modCore_priReqs (k : Nat) (f : Core → Core) (s : State) : (modCore k f s).priReqs = s.priReqs := rfl
@[simp] theorem modCore_priRefused (k : Nat) (f : Core → Core) (s : State) : (modCore k f s).priRefused = s.priRefused := rfl
@[simp] theorem modCore_hostWaits (k : Nat) (f : Core → Core) (s : State) : (modCore k f s).hostWaits = s.hostWaits := rfl
@[simp] theorem modCore_mmio (k : Nat) (f : Core → Core) (s : State) : (modCore k f s).mmio = s.mmio := rfl
@[simp] theorem modCore_msix (k : Nat) (f : Core → Core) (s : State) : (modCore k f s).msix = s.msix := rfl
@[simp] theorem modCore_objects (k : Nat) (f : Core → Core) (s : State) : (modCore k f s).objects = s.objects := rfl
@[simp] theorem modCore_launches (k : Nat) (f : Core → Core) (s : State) : (modCore k f s).launches = s.launches := rfl
@[simp] theorem modCore_groups (k : Nat) (f : Core → Core) (s : State) : (modCore k f s).groups = s.groups := rfl
@[simp] theorem modCore_saved (k : Nat) (f : Core → Core) (s : State) : (modCore k f s).saved = s.saved := rfl
@[simp] theorem modCore_entries (k : Nat) (f : Core → Core) (s : State) : (modCore k f s).entries = s.entries := rfl
@[simp] theorem modCore_tokens (k : Nat) (f : Core → Core) (s : State) : (modCore k f s).tokens = s.tokens := rfl
@[simp] theorem modCore_completions (k : Nat) (f : Core → Core) (s : State) : (modCore k f s).completions = s.completions := rfl
@[simp] theorem modCore_endedQueues (k : Nat) (f : Core → Core) (s : State) : (modCore k f s).endedQueues = s.endedQueues := rfl
@[simp] theorem modCore_resetting (k : Nat) (f : Core → Core) (s : State) : (modCore k f s).resetting = s.resetting := rfl
@[simp] theorem modCore_keptHeads (k : Nat) (f : Core → Core) (s : State) : (modCore k f s).keptHeads = s.keptHeads := rfl
@[simp] theorem modCore_waiting (k : Nat) (f : Core → Core) (s : State) : (modCore k f s).waiting = s.waiting := rfl
@[simp] theorem modCore_marks (k : Nat) (f : Core → Core) (s : State) : (modCore k f s).marks = s.marks := rfl
@[simp] theorem modCore_temps (k : Nat) (f : Core → Core) (s : State) : (modCore k f s).temps = s.temps := rfl
@[simp] theorem modCore_overwritten (k : Nat) (f : Core → Core) (s : State) : (modCore k f s).overwritten = s.overwritten := rfl
@[simp] theorem modCore_dispatchFrozen (k : Nat) (f : Core → Core) (s : State) : (modCore k f s).dispatchFrozen = s.dispatchFrozen := rfl
@[simp] theorem modCore_ringmasterBoot (k : Nat) (f : Core → Core) (s : State) : (modCore k f s).ringmasterBoot = s.ringmasterBoot := rfl
@[simp] theorem modCore_restarting (k : Nat) (f : Core → Core) (s : State) : (modCore k f s).restarting = s.restarting := rfl
@[simp] theorem modCore_sliceFn (k : Nat) (f : Core → Core) (s : State) : (modCore k f s).sliceFn = s.sliceFn := rfl
@[simp] theorem modCore_sliceStart (k : Nat) (f : Core → Core) (s : State) : (modCore k f s).sliceStart = s.sliceStart := rfl
@[simp] theorem modCore_switching (k : Nat) (f : Core → Core) (s : State) : (modCore k f s).switching = s.switching := rfl
@[simp] theorem modCore_sleeping (k : Nat) (f : Core → Core) (s : State) : (modCore k f s).sleeping = s.sleeping := rfl
@[simp] theorem modCore_clockSteps (k : Nat) (f : Core → Core) (s : State) : (modCore k f s).clockSteps = s.clockSteps := rfl
@[simp] theorem modCore_power (k : Nat) (f : Core → Core) (s : State) : (modCore k f s).power = s.power := rfl
@[simp] theorem modCore_links (k : Nat) (f : Core → Core) (s : State) : (modCore k f s).links = s.links := rfl
@[simp] theorem modCore_ports (k : Nat) (f : Core → Core) (s : State) : (modCore k f s).ports = s.ports := rfl
@[simp] theorem modCore_rxSeq (k : Nat) (f : Core → Core) (s : State) : (modCore k f s).rxSeq = s.rxSeq := rfl
@[simp] theorem modCore_rxData (k : Nat) (f : Core → Core) (s : State) : (modCore k f s).rxData = s.rxData := rfl
@[simp] theorem modCore_txSeq (k : Nat) (f : Core → Core) (s : State) : (modCore k f s).txSeq = s.txSeq := rfl
@[simp] theorem modCore_sent (k : Nat) (f : Core → Core) (s : State) : (modCore k f s).sent = s.sent := rfl
@[simp] theorem modCore_replay (k : Nat) (f : Core → Core) (s : State) : (modCore k f s).replay = s.replay := rfl
@[simp] theorem modCore_caused (k : Nat) (f : Core → Core) (s : State) : (modCore k f s).caused = s.caused := rfl
@[simp] theorem modCore_hostReads (k : Nat) (f : Core → Core) (s : State) : (modCore k f s).hostReads = s.hostReads := rfl
@[simp] theorem modCore_reports (k : Nat) (f : Core → Core) (s : State) : (modCore k f s).reports = s.reports := rfl

/-! A launch changes. -/

@[simp] theorem modLaunch_sel (k : Nat) (f : Launch → Launch) (s : State) : (modLaunch k f s).sel = s.sel := rfl
@[simp] theorem modLaunch_agenda (k : Nat) (f : Launch → Launch) (s : State) : (modLaunch k f s).agenda = s.agenda := rfl
@[simp] theorem modLaunch_stalled (k : Nat) (f : Launch → Launch) (s : State) : (modLaunch k f s).stalled = s.stalled := rfl
@[simp] theorem modLaunch_clock (k : Nat) (f : Launch → Launch) (s : State) : (modLaunch k f s).clock = s.clock := rfl
@[simp] theorem modLaunch_cycles (k : Nat) (f : Launch → Launch) (s : State) : (modLaunch k f s).cycles = s.cycles := rfl
@[simp] theorem modLaunch_serial (k : Nat) (f : Launch → Launch) (s : State) : (modLaunch k f s).serial = s.serial := rfl
@[simp] theorem modLaunch_mem (k : Nat) (f : Launch → Launch) (s : State) : (modLaunch k f s).mem = s.mem := rfl
@[simp] theorem modLaunch_poison (k : Nat) (f : Launch → Launch) (s : State) : (modLaunch k f s).poison = s.poison := rfl
@[simp] theorem modLaunch_mirror (k : Nat) (f : Launch → Launch) (s : State) : (modLaunch k f s).mirror = s.mirror := rfl
@[simp] theorem modLaunch_hbmFlips (k : Nat) (f : Launch → Launch) (s : State) : (modLaunch k f s).hbmFlips = s.hbmFlips := rfl
@[simp] theorem modLaunch_owners (k : Nat) (f : Launch → Launch) (s : State) : (modLaunch k f s).owners = s.owners := rfl
@[simp] theorem modLaunch_retired (k : Nat) (f : Launch → Launch) (s : State) : (modLaunch k f s).retired = s.retired := rfl
@[simp] theorem modLaunch_quarantined (k : Nat) (f : Launch → Launch) (s : State) : (modLaunch k f s).quarantined = s.quarantined := rfl
@[simp] theorem modLaunch_quiescing (k : Nat) (f : Launch → Launch) (s : State) : (modLaunch k f s).quiescing = s.quiescing := rfl
@[simp] theorem modLaunch_testing (k : Nat) (f : Launch → Launch) (s : State) : (modLaunch k f s).testing = s.testing := rfl
@[simp] theorem modLaunch_stuck (k : Nat) (f : Launch → Launch) (s : State) : (modLaunch k f s).stuck = s.stuck := rfl
@[simp] theorem modLaunch_tlb (k : Nat) (f : Launch → Launch) (s : State) : (modLaunch k f s).tlb = s.tlb := rfl
@[simp] theorem modLaunch_tlbi (k : Nat) (f : Launch → Launch) (s : State) : (modLaunch k f s).tlbi = s.tlbi := rfl
@[simp] theorem modLaunch_atsReqs (k : Nat) (f : Launch → Launch) (s : State) : (modLaunch k f s).atsReqs = s.atsReqs := rfl
@[simp] theorem modLaunch_priReqs (k : Nat) (f : Launch → Launch) (s : State) : (modLaunch k f s).priReqs = s.priReqs := rfl
@[simp] theorem modLaunch_priRefused (k : Nat) (f : Launch → Launch) (s : State) : (modLaunch k f s).priRefused = s.priRefused := rfl
@[simp] theorem modLaunch_hostWaits (k : Nat) (f : Launch → Launch) (s : State) : (modLaunch k f s).hostWaits = s.hostWaits := rfl
@[simp] theorem modLaunch_mmio (k : Nat) (f : Launch → Launch) (s : State) : (modLaunch k f s).mmio = s.mmio := rfl
@[simp] theorem modLaunch_msix (k : Nat) (f : Launch → Launch) (s : State) : (modLaunch k f s).msix = s.msix := rfl
@[simp] theorem modLaunch_cores (k : Nat) (f : Launch → Launch) (s : State) : (modLaunch k f s).cores = s.cores := rfl
@[simp] theorem modLaunch_objects (k : Nat) (f : Launch → Launch) (s : State) : (modLaunch k f s).objects = s.objects := rfl
@[simp] theorem modLaunch_groups (k : Nat) (f : Launch → Launch) (s : State) : (modLaunch k f s).groups = s.groups := rfl
@[simp] theorem modLaunch_saved (k : Nat) (f : Launch → Launch) (s : State) : (modLaunch k f s).saved = s.saved := rfl
@[simp] theorem modLaunch_entries (k : Nat) (f : Launch → Launch) (s : State) : (modLaunch k f s).entries = s.entries := rfl
@[simp] theorem modLaunch_tokens (k : Nat) (f : Launch → Launch) (s : State) : (modLaunch k f s).tokens = s.tokens := rfl
@[simp] theorem modLaunch_completions (k : Nat) (f : Launch → Launch) (s : State) : (modLaunch k f s).completions = s.completions := rfl
@[simp] theorem modLaunch_endedQueues (k : Nat) (f : Launch → Launch) (s : State) : (modLaunch k f s).endedQueues = s.endedQueues := rfl
@[simp] theorem modLaunch_resetting (k : Nat) (f : Launch → Launch) (s : State) : (modLaunch k f s).resetting = s.resetting := rfl
@[simp] theorem modLaunch_keptHeads (k : Nat) (f : Launch → Launch) (s : State) : (modLaunch k f s).keptHeads = s.keptHeads := rfl
@[simp] theorem modLaunch_waiting (k : Nat) (f : Launch → Launch) (s : State) : (modLaunch k f s).waiting = s.waiting := rfl
@[simp] theorem modLaunch_marks (k : Nat) (f : Launch → Launch) (s : State) : (modLaunch k f s).marks = s.marks := rfl
@[simp] theorem modLaunch_temps (k : Nat) (f : Launch → Launch) (s : State) : (modLaunch k f s).temps = s.temps := rfl
@[simp] theorem modLaunch_overwritten (k : Nat) (f : Launch → Launch) (s : State) : (modLaunch k f s).overwritten = s.overwritten := rfl
@[simp] theorem modLaunch_dispatchFrozen (k : Nat) (f : Launch → Launch) (s : State) : (modLaunch k f s).dispatchFrozen = s.dispatchFrozen := rfl
@[simp] theorem modLaunch_ringmasterBoot (k : Nat) (f : Launch → Launch) (s : State) : (modLaunch k f s).ringmasterBoot = s.ringmasterBoot := rfl
@[simp] theorem modLaunch_restarting (k : Nat) (f : Launch → Launch) (s : State) : (modLaunch k f s).restarting = s.restarting := rfl
@[simp] theorem modLaunch_sliceFn (k : Nat) (f : Launch → Launch) (s : State) : (modLaunch k f s).sliceFn = s.sliceFn := rfl
@[simp] theorem modLaunch_sliceStart (k : Nat) (f : Launch → Launch) (s : State) : (modLaunch k f s).sliceStart = s.sliceStart := rfl
@[simp] theorem modLaunch_switching (k : Nat) (f : Launch → Launch) (s : State) : (modLaunch k f s).switching = s.switching := rfl
@[simp] theorem modLaunch_sleeping (k : Nat) (f : Launch → Launch) (s : State) : (modLaunch k f s).sleeping = s.sleeping := rfl
@[simp] theorem modLaunch_clockSteps (k : Nat) (f : Launch → Launch) (s : State) : (modLaunch k f s).clockSteps = s.clockSteps := rfl
@[simp] theorem modLaunch_power (k : Nat) (f : Launch → Launch) (s : State) : (modLaunch k f s).power = s.power := rfl
@[simp] theorem modLaunch_links (k : Nat) (f : Launch → Launch) (s : State) : (modLaunch k f s).links = s.links := rfl
@[simp] theorem modLaunch_ports (k : Nat) (f : Launch → Launch) (s : State) : (modLaunch k f s).ports = s.ports := rfl
@[simp] theorem modLaunch_rxSeq (k : Nat) (f : Launch → Launch) (s : State) : (modLaunch k f s).rxSeq = s.rxSeq := rfl
@[simp] theorem modLaunch_rxData (k : Nat) (f : Launch → Launch) (s : State) : (modLaunch k f s).rxData = s.rxData := rfl
@[simp] theorem modLaunch_txSeq (k : Nat) (f : Launch → Launch) (s : State) : (modLaunch k f s).txSeq = s.txSeq := rfl
@[simp] theorem modLaunch_sent (k : Nat) (f : Launch → Launch) (s : State) : (modLaunch k f s).sent = s.sent := rfl
@[simp] theorem modLaunch_replay (k : Nat) (f : Launch → Launch) (s : State) : (modLaunch k f s).replay = s.replay := rfl
@[simp] theorem modLaunch_caused (k : Nat) (f : Launch → Launch) (s : State) : (modLaunch k f s).caused = s.caused := rfl
@[simp] theorem modLaunch_hostReads (k : Nat) (f : Launch → Launch) (s : State) : (modLaunch k f s).hostReads = s.hostReads := rfl
@[simp] theorem modLaunch_reports (k : Nat) (f : Launch → Launch) (s : State) : (modLaunch k f s).reports = s.reports := rfl

/-! A management register changes. -/

@[simp] theorem setMreg_sel (fn off : Nat) (v : DWord) (s : State) : (setMreg fn off v s).sel = s.sel := rfl
@[simp] theorem setMreg_agenda (fn off : Nat) (v : DWord) (s : State) : (setMreg fn off v s).agenda = s.agenda := rfl
@[simp] theorem setMreg_stalled (fn off : Nat) (v : DWord) (s : State) : (setMreg fn off v s).stalled = s.stalled := rfl
@[simp] theorem setMreg_clock (fn off : Nat) (v : DWord) (s : State) : (setMreg fn off v s).clock = s.clock := rfl
@[simp] theorem setMreg_cycles (fn off : Nat) (v : DWord) (s : State) : (setMreg fn off v s).cycles = s.cycles := rfl
@[simp] theorem setMreg_serial (fn off : Nat) (v : DWord) (s : State) : (setMreg fn off v s).serial = s.serial := rfl
@[simp] theorem setMreg_mem (fn off : Nat) (v : DWord) (s : State) : (setMreg fn off v s).mem = s.mem := rfl
@[simp] theorem setMreg_poison (fn off : Nat) (v : DWord) (s : State) : (setMreg fn off v s).poison = s.poison := rfl
@[simp] theorem setMreg_mirror (fn off : Nat) (v : DWord) (s : State) : (setMreg fn off v s).mirror = s.mirror := rfl
@[simp] theorem setMreg_hbmFlips (fn off : Nat) (v : DWord) (s : State) : (setMreg fn off v s).hbmFlips = s.hbmFlips := rfl
@[simp] theorem setMreg_owners (fn off : Nat) (v : DWord) (s : State) : (setMreg fn off v s).owners = s.owners := rfl
@[simp] theorem setMreg_retired (fn off : Nat) (v : DWord) (s : State) : (setMreg fn off v s).retired = s.retired := rfl
@[simp] theorem setMreg_quarantined (fn off : Nat) (v : DWord) (s : State) : (setMreg fn off v s).quarantined = s.quarantined := rfl
@[simp] theorem setMreg_quiescing (fn off : Nat) (v : DWord) (s : State) : (setMreg fn off v s).quiescing = s.quiescing := rfl
@[simp] theorem setMreg_testing (fn off : Nat) (v : DWord) (s : State) : (setMreg fn off v s).testing = s.testing := rfl
@[simp] theorem setMreg_stuck (fn off : Nat) (v : DWord) (s : State) : (setMreg fn off v s).stuck = s.stuck := rfl
@[simp] theorem setMreg_tlb (fn off : Nat) (v : DWord) (s : State) : (setMreg fn off v s).tlb = s.tlb := rfl
@[simp] theorem setMreg_tlbi (fn off : Nat) (v : DWord) (s : State) : (setMreg fn off v s).tlbi = s.tlbi := rfl
@[simp] theorem setMreg_atsReqs (fn off : Nat) (v : DWord) (s : State) : (setMreg fn off v s).atsReqs = s.atsReqs := rfl
@[simp] theorem setMreg_priReqs (fn off : Nat) (v : DWord) (s : State) : (setMreg fn off v s).priReqs = s.priReqs := rfl
@[simp] theorem setMreg_priRefused (fn off : Nat) (v : DWord) (s : State) : (setMreg fn off v s).priRefused = s.priRefused := rfl
@[simp] theorem setMreg_hostWaits (fn off : Nat) (v : DWord) (s : State) : (setMreg fn off v s).hostWaits = s.hostWaits := rfl
@[simp] theorem setMreg_msix (fn off : Nat) (v : DWord) (s : State) : (setMreg fn off v s).msix = s.msix := rfl
@[simp] theorem setMreg_cores (fn off : Nat) (v : DWord) (s : State) : (setMreg fn off v s).cores = s.cores := rfl
@[simp] theorem setMreg_objects (fn off : Nat) (v : DWord) (s : State) : (setMreg fn off v s).objects = s.objects := rfl
@[simp] theorem setMreg_launches (fn off : Nat) (v : DWord) (s : State) : (setMreg fn off v s).launches = s.launches := rfl
@[simp] theorem setMreg_groups (fn off : Nat) (v : DWord) (s : State) : (setMreg fn off v s).groups = s.groups := rfl
@[simp] theorem setMreg_saved (fn off : Nat) (v : DWord) (s : State) : (setMreg fn off v s).saved = s.saved := rfl
@[simp] theorem setMreg_entries (fn off : Nat) (v : DWord) (s : State) : (setMreg fn off v s).entries = s.entries := rfl
@[simp] theorem setMreg_tokens (fn off : Nat) (v : DWord) (s : State) : (setMreg fn off v s).tokens = s.tokens := rfl
@[simp] theorem setMreg_completions (fn off : Nat) (v : DWord) (s : State) : (setMreg fn off v s).completions = s.completions := rfl
@[simp] theorem setMreg_endedQueues (fn off : Nat) (v : DWord) (s : State) : (setMreg fn off v s).endedQueues = s.endedQueues := rfl
@[simp] theorem setMreg_resetting (fn off : Nat) (v : DWord) (s : State) : (setMreg fn off v s).resetting = s.resetting := rfl
@[simp] theorem setMreg_keptHeads (fn off : Nat) (v : DWord) (s : State) : (setMreg fn off v s).keptHeads = s.keptHeads := rfl
@[simp] theorem setMreg_waiting (fn off : Nat) (v : DWord) (s : State) : (setMreg fn off v s).waiting = s.waiting := rfl
@[simp] theorem setMreg_marks (fn off : Nat) (v : DWord) (s : State) : (setMreg fn off v s).marks = s.marks := rfl
@[simp] theorem setMreg_temps (fn off : Nat) (v : DWord) (s : State) : (setMreg fn off v s).temps = s.temps := rfl
@[simp] theorem setMreg_overwritten (fn off : Nat) (v : DWord) (s : State) : (setMreg fn off v s).overwritten = s.overwritten := rfl
@[simp] theorem setMreg_dispatchFrozen (fn off : Nat) (v : DWord) (s : State) : (setMreg fn off v s).dispatchFrozen = s.dispatchFrozen := rfl
@[simp] theorem setMreg_ringmasterBoot (fn off : Nat) (v : DWord) (s : State) : (setMreg fn off v s).ringmasterBoot = s.ringmasterBoot := rfl
@[simp] theorem setMreg_restarting (fn off : Nat) (v : DWord) (s : State) : (setMreg fn off v s).restarting = s.restarting := rfl
@[simp] theorem setMreg_sliceFn (fn off : Nat) (v : DWord) (s : State) : (setMreg fn off v s).sliceFn = s.sliceFn := rfl
@[simp] theorem setMreg_sliceStart (fn off : Nat) (v : DWord) (s : State) : (setMreg fn off v s).sliceStart = s.sliceStart := rfl
@[simp] theorem setMreg_switching (fn off : Nat) (v : DWord) (s : State) : (setMreg fn off v s).switching = s.switching := rfl
@[simp] theorem setMreg_sleeping (fn off : Nat) (v : DWord) (s : State) : (setMreg fn off v s).sleeping = s.sleeping := rfl
@[simp] theorem setMreg_clockSteps (fn off : Nat) (v : DWord) (s : State) : (setMreg fn off v s).clockSteps = s.clockSteps := rfl
@[simp] theorem setMreg_power (fn off : Nat) (v : DWord) (s : State) : (setMreg fn off v s).power = s.power := rfl
@[simp] theorem setMreg_links (fn off : Nat) (v : DWord) (s : State) : (setMreg fn off v s).links = s.links := rfl
@[simp] theorem setMreg_ports (fn off : Nat) (v : DWord) (s : State) : (setMreg fn off v s).ports = s.ports := rfl
@[simp] theorem setMreg_rxSeq (fn off : Nat) (v : DWord) (s : State) : (setMreg fn off v s).rxSeq = s.rxSeq := rfl
@[simp] theorem setMreg_rxData (fn off : Nat) (v : DWord) (s : State) : (setMreg fn off v s).rxData = s.rxData := rfl
@[simp] theorem setMreg_txSeq (fn off : Nat) (v : DWord) (s : State) : (setMreg fn off v s).txSeq = s.txSeq := rfl
@[simp] theorem setMreg_sent (fn off : Nat) (v : DWord) (s : State) : (setMreg fn off v s).sent = s.sent := rfl
@[simp] theorem setMreg_replay (fn off : Nat) (v : DWord) (s : State) : (setMreg fn off v s).replay = s.replay := rfl
@[simp] theorem setMreg_caused (fn off : Nat) (v : DWord) (s : State) : (setMreg fn off v s).caused = s.caused := rfl
@[simp] theorem setMreg_hostReads (fn off : Nat) (v : DWord) (s : State) : (setMreg fn off v s).hostReads = s.hostReads := rfl
@[simp] theorem setMreg_reports (fn off : Nat) (v : DWord) (s : State) : (setMreg fn off v s).reports = s.reports := rfl

/-! An MSI-X entry is raised. -/

@[simp] theorem raiseMsix_sel (fn e : Nat) (s : State) : (raiseMsix fn e s).sel = s.sel := rfl
@[simp] theorem raiseMsix_agenda (fn e : Nat) (s : State) : (raiseMsix fn e s).agenda = s.agenda := rfl
@[simp] theorem raiseMsix_stalled (fn e : Nat) (s : State) : (raiseMsix fn e s).stalled = s.stalled := rfl
@[simp] theorem raiseMsix_clock (fn e : Nat) (s : State) : (raiseMsix fn e s).clock = s.clock := rfl
@[simp] theorem raiseMsix_cycles (fn e : Nat) (s : State) : (raiseMsix fn e s).cycles = s.cycles := rfl
@[simp] theorem raiseMsix_serial (fn e : Nat) (s : State) : (raiseMsix fn e s).serial = s.serial := rfl
@[simp] theorem raiseMsix_mem (fn e : Nat) (s : State) : (raiseMsix fn e s).mem = s.mem := rfl
@[simp] theorem raiseMsix_poison (fn e : Nat) (s : State) : (raiseMsix fn e s).poison = s.poison := rfl
@[simp] theorem raiseMsix_mirror (fn e : Nat) (s : State) : (raiseMsix fn e s).mirror = s.mirror := rfl
@[simp] theorem raiseMsix_hbmFlips (fn e : Nat) (s : State) : (raiseMsix fn e s).hbmFlips = s.hbmFlips := rfl
@[simp] theorem raiseMsix_owners (fn e : Nat) (s : State) : (raiseMsix fn e s).owners = s.owners := rfl
@[simp] theorem raiseMsix_retired (fn e : Nat) (s : State) : (raiseMsix fn e s).retired = s.retired := rfl
@[simp] theorem raiseMsix_quarantined (fn e : Nat) (s : State) : (raiseMsix fn e s).quarantined = s.quarantined := rfl
@[simp] theorem raiseMsix_quiescing (fn e : Nat) (s : State) : (raiseMsix fn e s).quiescing = s.quiescing := rfl
@[simp] theorem raiseMsix_testing (fn e : Nat) (s : State) : (raiseMsix fn e s).testing = s.testing := rfl
@[simp] theorem raiseMsix_stuck (fn e : Nat) (s : State) : (raiseMsix fn e s).stuck = s.stuck := rfl
@[simp] theorem raiseMsix_tlb (fn e : Nat) (s : State) : (raiseMsix fn e s).tlb = s.tlb := rfl
@[simp] theorem raiseMsix_tlbi (fn e : Nat) (s : State) : (raiseMsix fn e s).tlbi = s.tlbi := rfl
@[simp] theorem raiseMsix_atsReqs (fn e : Nat) (s : State) : (raiseMsix fn e s).atsReqs = s.atsReqs := rfl
@[simp] theorem raiseMsix_priReqs (fn e : Nat) (s : State) : (raiseMsix fn e s).priReqs = s.priReqs := rfl
@[simp] theorem raiseMsix_priRefused (fn e : Nat) (s : State) : (raiseMsix fn e s).priRefused = s.priRefused := rfl
@[simp] theorem raiseMsix_hostWaits (fn e : Nat) (s : State) : (raiseMsix fn e s).hostWaits = s.hostWaits := rfl
@[simp] theorem raiseMsix_mmio (fn e : Nat) (s : State) : (raiseMsix fn e s).mmio = s.mmio := rfl
@[simp] theorem raiseMsix_cores (fn e : Nat) (s : State) : (raiseMsix fn e s).cores = s.cores := rfl
@[simp] theorem raiseMsix_objects (fn e : Nat) (s : State) : (raiseMsix fn e s).objects = s.objects := rfl
@[simp] theorem raiseMsix_launches (fn e : Nat) (s : State) : (raiseMsix fn e s).launches = s.launches := rfl
@[simp] theorem raiseMsix_groups (fn e : Nat) (s : State) : (raiseMsix fn e s).groups = s.groups := rfl
@[simp] theorem raiseMsix_saved (fn e : Nat) (s : State) : (raiseMsix fn e s).saved = s.saved := rfl
@[simp] theorem raiseMsix_entries (fn e : Nat) (s : State) : (raiseMsix fn e s).entries = s.entries := rfl
@[simp] theorem raiseMsix_tokens (fn e : Nat) (s : State) : (raiseMsix fn e s).tokens = s.tokens := rfl
@[simp] theorem raiseMsix_completions (fn e : Nat) (s : State) : (raiseMsix fn e s).completions = s.completions := rfl
@[simp] theorem raiseMsix_endedQueues (fn e : Nat) (s : State) : (raiseMsix fn e s).endedQueues = s.endedQueues := rfl
@[simp] theorem raiseMsix_resetting (fn e : Nat) (s : State) : (raiseMsix fn e s).resetting = s.resetting := rfl
@[simp] theorem raiseMsix_keptHeads (fn e : Nat) (s : State) : (raiseMsix fn e s).keptHeads = s.keptHeads := rfl
@[simp] theorem raiseMsix_waiting (fn e : Nat) (s : State) : (raiseMsix fn e s).waiting = s.waiting := rfl
@[simp] theorem raiseMsix_marks (fn e : Nat) (s : State) : (raiseMsix fn e s).marks = s.marks := rfl
@[simp] theorem raiseMsix_temps (fn e : Nat) (s : State) : (raiseMsix fn e s).temps = s.temps := rfl
@[simp] theorem raiseMsix_overwritten (fn e : Nat) (s : State) : (raiseMsix fn e s).overwritten = s.overwritten := rfl
@[simp] theorem raiseMsix_dispatchFrozen (fn e : Nat) (s : State) : (raiseMsix fn e s).dispatchFrozen = s.dispatchFrozen := rfl
@[simp] theorem raiseMsix_ringmasterBoot (fn e : Nat) (s : State) : (raiseMsix fn e s).ringmasterBoot = s.ringmasterBoot := rfl
@[simp] theorem raiseMsix_restarting (fn e : Nat) (s : State) : (raiseMsix fn e s).restarting = s.restarting := rfl
@[simp] theorem raiseMsix_sliceFn (fn e : Nat) (s : State) : (raiseMsix fn e s).sliceFn = s.sliceFn := rfl
@[simp] theorem raiseMsix_sliceStart (fn e : Nat) (s : State) : (raiseMsix fn e s).sliceStart = s.sliceStart := rfl
@[simp] theorem raiseMsix_switching (fn e : Nat) (s : State) : (raiseMsix fn e s).switching = s.switching := rfl
@[simp] theorem raiseMsix_sleeping (fn e : Nat) (s : State) : (raiseMsix fn e s).sleeping = s.sleeping := rfl
@[simp] theorem raiseMsix_clockSteps (fn e : Nat) (s : State) : (raiseMsix fn e s).clockSteps = s.clockSteps := rfl
@[simp] theorem raiseMsix_power (fn e : Nat) (s : State) : (raiseMsix fn e s).power = s.power := rfl
@[simp] theorem raiseMsix_links (fn e : Nat) (s : State) : (raiseMsix fn e s).links = s.links := rfl
@[simp] theorem raiseMsix_ports (fn e : Nat) (s : State) : (raiseMsix fn e s).ports = s.ports := rfl
@[simp] theorem raiseMsix_rxSeq (fn e : Nat) (s : State) : (raiseMsix fn e s).rxSeq = s.rxSeq := rfl
@[simp] theorem raiseMsix_rxData (fn e : Nat) (s : State) : (raiseMsix fn e s).rxData = s.rxData := rfl
@[simp] theorem raiseMsix_txSeq (fn e : Nat) (s : State) : (raiseMsix fn e s).txSeq = s.txSeq := rfl
@[simp] theorem raiseMsix_sent (fn e : Nat) (s : State) : (raiseMsix fn e s).sent = s.sent := rfl
@[simp] theorem raiseMsix_replay (fn e : Nat) (s : State) : (raiseMsix fn e s).replay = s.replay := rfl
@[simp] theorem raiseMsix_caused (fn e : Nat) (s : State) : (raiseMsix fn e s).caused = s.caused := rfl
@[simp] theorem raiseMsix_hostReads (fn e : Nat) (s : State) : (raiseMsix fn e s).hostReads = s.hostReads := rfl
@[simp] theorem raiseMsix_reports (fn e : Nat) (s : State) : (raiseMsix fn e s).reports = s.reports := rfl

/-! Fragments that waited may go on. -/

@[simp] theorem unstall_sel (s : State) : (unstall s).sel = s.sel := rfl
@[simp] theorem unstall_agenda (s : State) : (unstall s).agenda = s.agenda := rfl
@[simp] theorem unstall_clock (s : State) : (unstall s).clock = s.clock := rfl
@[simp] theorem unstall_cycles (s : State) : (unstall s).cycles = s.cycles := rfl
@[simp] theorem unstall_serial (s : State) : (unstall s).serial = s.serial := rfl
@[simp] theorem unstall_mem (s : State) : (unstall s).mem = s.mem := rfl
@[simp] theorem unstall_poison (s : State) : (unstall s).poison = s.poison := rfl
@[simp] theorem unstall_mirror (s : State) : (unstall s).mirror = s.mirror := rfl
@[simp] theorem unstall_hbmFlips (s : State) : (unstall s).hbmFlips = s.hbmFlips := rfl
@[simp] theorem unstall_owners (s : State) : (unstall s).owners = s.owners := rfl
@[simp] theorem unstall_retired (s : State) : (unstall s).retired = s.retired := rfl
@[simp] theorem unstall_quarantined (s : State) : (unstall s).quarantined = s.quarantined := rfl
@[simp] theorem unstall_quiescing (s : State) : (unstall s).quiescing = s.quiescing := rfl
@[simp] theorem unstall_testing (s : State) : (unstall s).testing = s.testing := rfl
@[simp] theorem unstall_stuck (s : State) : (unstall s).stuck = s.stuck := rfl
@[simp] theorem unstall_tlb (s : State) : (unstall s).tlb = s.tlb := rfl
@[simp] theorem unstall_tlbi (s : State) : (unstall s).tlbi = s.tlbi := rfl
@[simp] theorem unstall_atsReqs (s : State) : (unstall s).atsReqs = s.atsReqs := rfl
@[simp] theorem unstall_priReqs (s : State) : (unstall s).priReqs = s.priReqs := rfl
@[simp] theorem unstall_priRefused (s : State) : (unstall s).priRefused = s.priRefused := rfl
@[simp] theorem unstall_hostWaits (s : State) : (unstall s).hostWaits = s.hostWaits := rfl
@[simp] theorem unstall_mmio (s : State) : (unstall s).mmio = s.mmio := rfl
@[simp] theorem unstall_msix (s : State) : (unstall s).msix = s.msix := rfl
@[simp] theorem unstall_cores (s : State) : (unstall s).cores = s.cores := rfl
@[simp] theorem unstall_objects (s : State) : (unstall s).objects = s.objects := rfl
@[simp] theorem unstall_launches (s : State) : (unstall s).launches = s.launches := rfl
@[simp] theorem unstall_groups (s : State) : (unstall s).groups = s.groups := rfl
@[simp] theorem unstall_saved (s : State) : (unstall s).saved = s.saved := rfl
@[simp] theorem unstall_entries (s : State) : (unstall s).entries = s.entries := rfl
@[simp] theorem unstall_tokens (s : State) : (unstall s).tokens = s.tokens := rfl
@[simp] theorem unstall_completions (s : State) : (unstall s).completions = s.completions := rfl
@[simp] theorem unstall_endedQueues (s : State) : (unstall s).endedQueues = s.endedQueues := rfl
@[simp] theorem unstall_resetting (s : State) : (unstall s).resetting = s.resetting := rfl
@[simp] theorem unstall_keptHeads (s : State) : (unstall s).keptHeads = s.keptHeads := rfl
@[simp] theorem unstall_waiting (s : State) : (unstall s).waiting = s.waiting := rfl
@[simp] theorem unstall_marks (s : State) : (unstall s).marks = s.marks := rfl
@[simp] theorem unstall_temps (s : State) : (unstall s).temps = s.temps := rfl
@[simp] theorem unstall_overwritten (s : State) : (unstall s).overwritten = s.overwritten := rfl
@[simp] theorem unstall_dispatchFrozen (s : State) : (unstall s).dispatchFrozen = s.dispatchFrozen := rfl
@[simp] theorem unstall_ringmasterBoot (s : State) : (unstall s).ringmasterBoot = s.ringmasterBoot := rfl
@[simp] theorem unstall_restarting (s : State) : (unstall s).restarting = s.restarting := rfl
@[simp] theorem unstall_sliceFn (s : State) : (unstall s).sliceFn = s.sliceFn := rfl
@[simp] theorem unstall_sliceStart (s : State) : (unstall s).sliceStart = s.sliceStart := rfl
@[simp] theorem unstall_switching (s : State) : (unstall s).switching = s.switching := rfl
@[simp] theorem unstall_sleeping (s : State) : (unstall s).sleeping = s.sleeping := rfl
@[simp] theorem unstall_clockSteps (s : State) : (unstall s).clockSteps = s.clockSteps := rfl
@[simp] theorem unstall_power (s : State) : (unstall s).power = s.power := rfl
@[simp] theorem unstall_links (s : State) : (unstall s).links = s.links := rfl
@[simp] theorem unstall_ports (s : State) : (unstall s).ports = s.ports := rfl
@[simp] theorem unstall_rxSeq (s : State) : (unstall s).rxSeq = s.rxSeq := rfl
@[simp] theorem unstall_rxData (s : State) : (unstall s).rxData = s.rxData := rfl
@[simp] theorem unstall_txSeq (s : State) : (unstall s).txSeq = s.txSeq := rfl
@[simp] theorem unstall_sent (s : State) : (unstall s).sent = s.sent := rfl
@[simp] theorem unstall_replay (s : State) : (unstall s).replay = s.replay := rfl
@[simp] theorem unstall_caused (s : State) : (unstall s).caused = s.caused := rfl
@[simp] theorem unstall_hostReads (s : State) : (unstall s).hostReads = s.hostReads := rfl
@[simp] theorem unstall_reports (s : State) : (unstall s).reports = s.reports := rfl

/-! A fragment waits. -/

@[simp] theorem stallCur_sel (c : Cur) (s : State) : (stallCur c s).sel = s.sel := rfl
@[simp] theorem stallCur_agenda (c : Cur) (s : State) : (stallCur c s).agenda = s.agenda := rfl
@[simp] theorem stallCur_clock (c : Cur) (s : State) : (stallCur c s).clock = s.clock := rfl
@[simp] theorem stallCur_cycles (c : Cur) (s : State) : (stallCur c s).cycles = s.cycles := rfl
@[simp] theorem stallCur_serial (c : Cur) (s : State) : (stallCur c s).serial = s.serial := rfl
@[simp] theorem stallCur_mem (c : Cur) (s : State) : (stallCur c s).mem = s.mem := rfl
@[simp] theorem stallCur_poison (c : Cur) (s : State) : (stallCur c s).poison = s.poison := rfl
@[simp] theorem stallCur_mirror (c : Cur) (s : State) : (stallCur c s).mirror = s.mirror := rfl
@[simp] theorem stallCur_hbmFlips (c : Cur) (s : State) : (stallCur c s).hbmFlips = s.hbmFlips := rfl
@[simp] theorem stallCur_owners (c : Cur) (s : State) : (stallCur c s).owners = s.owners := rfl
@[simp] theorem stallCur_retired (c : Cur) (s : State) : (stallCur c s).retired = s.retired := rfl
@[simp] theorem stallCur_quarantined (c : Cur) (s : State) : (stallCur c s).quarantined = s.quarantined := rfl
@[simp] theorem stallCur_quiescing (c : Cur) (s : State) : (stallCur c s).quiescing = s.quiescing := rfl
@[simp] theorem stallCur_testing (c : Cur) (s : State) : (stallCur c s).testing = s.testing := rfl
@[simp] theorem stallCur_stuck (c : Cur) (s : State) : (stallCur c s).stuck = s.stuck := rfl
@[simp] theorem stallCur_tlb (c : Cur) (s : State) : (stallCur c s).tlb = s.tlb := rfl
@[simp] theorem stallCur_tlbi (c : Cur) (s : State) : (stallCur c s).tlbi = s.tlbi := rfl
@[simp] theorem stallCur_atsReqs (c : Cur) (s : State) : (stallCur c s).atsReqs = s.atsReqs := rfl
@[simp] theorem stallCur_priReqs (c : Cur) (s : State) : (stallCur c s).priReqs = s.priReqs := rfl
@[simp] theorem stallCur_priRefused (c : Cur) (s : State) : (stallCur c s).priRefused = s.priRefused := rfl
@[simp] theorem stallCur_hostWaits (c : Cur) (s : State) : (stallCur c s).hostWaits = s.hostWaits := rfl
@[simp] theorem stallCur_mmio (c : Cur) (s : State) : (stallCur c s).mmio = s.mmio := rfl
@[simp] theorem stallCur_msix (c : Cur) (s : State) : (stallCur c s).msix = s.msix := rfl
@[simp] theorem stallCur_cores (c : Cur) (s : State) : (stallCur c s).cores = s.cores := rfl
@[simp] theorem stallCur_objects (c : Cur) (s : State) : (stallCur c s).objects = s.objects := rfl
@[simp] theorem stallCur_launches (c : Cur) (s : State) : (stallCur c s).launches = s.launches := rfl
@[simp] theorem stallCur_groups (c : Cur) (s : State) : (stallCur c s).groups = s.groups := rfl
@[simp] theorem stallCur_saved (c : Cur) (s : State) : (stallCur c s).saved = s.saved := rfl
@[simp] theorem stallCur_entries (c : Cur) (s : State) : (stallCur c s).entries = s.entries := rfl
@[simp] theorem stallCur_tokens (c : Cur) (s : State) : (stallCur c s).tokens = s.tokens := rfl
@[simp] theorem stallCur_completions (c : Cur) (s : State) : (stallCur c s).completions = s.completions := rfl
@[simp] theorem stallCur_endedQueues (c : Cur) (s : State) : (stallCur c s).endedQueues = s.endedQueues := rfl
@[simp] theorem stallCur_resetting (c : Cur) (s : State) : (stallCur c s).resetting = s.resetting := rfl
@[simp] theorem stallCur_keptHeads (c : Cur) (s : State) : (stallCur c s).keptHeads = s.keptHeads := rfl
@[simp] theorem stallCur_waiting (c : Cur) (s : State) : (stallCur c s).waiting = s.waiting := rfl
@[simp] theorem stallCur_marks (c : Cur) (s : State) : (stallCur c s).marks = s.marks := rfl
@[simp] theorem stallCur_temps (c : Cur) (s : State) : (stallCur c s).temps = s.temps := rfl
@[simp] theorem stallCur_overwritten (c : Cur) (s : State) : (stallCur c s).overwritten = s.overwritten := rfl
@[simp] theorem stallCur_dispatchFrozen (c : Cur) (s : State) : (stallCur c s).dispatchFrozen = s.dispatchFrozen := rfl
@[simp] theorem stallCur_ringmasterBoot (c : Cur) (s : State) : (stallCur c s).ringmasterBoot = s.ringmasterBoot := rfl
@[simp] theorem stallCur_restarting (c : Cur) (s : State) : (stallCur c s).restarting = s.restarting := rfl
@[simp] theorem stallCur_sliceFn (c : Cur) (s : State) : (stallCur c s).sliceFn = s.sliceFn := rfl
@[simp] theorem stallCur_sliceStart (c : Cur) (s : State) : (stallCur c s).sliceStart = s.sliceStart := rfl
@[simp] theorem stallCur_switching (c : Cur) (s : State) : (stallCur c s).switching = s.switching := rfl
@[simp] theorem stallCur_sleeping (c : Cur) (s : State) : (stallCur c s).sleeping = s.sleeping := rfl
@[simp] theorem stallCur_clockSteps (c : Cur) (s : State) : (stallCur c s).clockSteps = s.clockSteps := rfl
@[simp] theorem stallCur_power (c : Cur) (s : State) : (stallCur c s).power = s.power := rfl
@[simp] theorem stallCur_links (c : Cur) (s : State) : (stallCur c s).links = s.links := rfl
@[simp] theorem stallCur_ports (c : Cur) (s : State) : (stallCur c s).ports = s.ports := rfl
@[simp] theorem stallCur_rxSeq (c : Cur) (s : State) : (stallCur c s).rxSeq = s.rxSeq := rfl
@[simp] theorem stallCur_rxData (c : Cur) (s : State) : (stallCur c s).rxData = s.rxData := rfl
@[simp] theorem stallCur_txSeq (c : Cur) (s : State) : (stallCur c s).txSeq = s.txSeq := rfl
@[simp] theorem stallCur_sent (c : Cur) (s : State) : (stallCur c s).sent = s.sent := rfl
@[simp] theorem stallCur_replay (c : Cur) (s : State) : (stallCur c s).replay = s.replay := rfl
@[simp] theorem stallCur_caused (c : Cur) (s : State) : (stallCur c s).caused = s.caused := rfl
@[simp] theorem stallCur_hostReads (c : Cur) (s : State) : (stallCur c s).hostReads = s.hostReads := rfl
@[simp] theorem stallCur_reports (c : Cur) (s : State) : (stallCur c s).reports = s.reports := rfl

/-! A scalar is written. -/

@[simp] theorem setS_vregs (g : Gang) (n : BitVec 6) (v : DWord) : (g.setS n v).vregs = g.vregs := rfl
@[simp] theorem setS_killed (g : Gang) (n : BitVec 6) (v : DWord) : (g.setS n v).killed = g.killed := rfl
@[simp] theorem setS_dead (g : Gang) (n : BitVec 6) (v : DWord) : (g.setS n v).dead = g.dead := rfl
@[simp] theorem setS_vpois (g : Gang) (n : BitVec 6) (v : DWord) : (g.setS n v).vpois = g.vpois := rfl
@[simp] theorem setS_oc (g : Gang) (n : BitVec 6) (v : DWord) : (g.setS n v).oc = g.oc := rfl
@[simp] theorem setS_latch (g : Gang) (n : BitVec 6) (v : DWord) : (g.setS n v).latch = g.latch := rfl
@[simp] theorem setS_pregs (g : Gang) (n : BitVec 6) (v : DWord) : (g.setS n v).pregs = g.pregs := rfl
@[simp] theorem setS_ppois (g : Gang) (n : BitVec 6) (v : DWord) : (g.setS n v).ppois = g.ppois := rfl
@[simp] theorem setS_frags (g : Gang) (n : BitVec 6) (v : DWord) : (g.setS n v).frags = g.frags := rfl
@[simp] theorem setS_recs (g : Gang) (n : BitVec 6) (v : DWord) : (g.setS n v).recs = g.recs := rfl
@[simp] theorem setS_quads (g : Gang) (n : BitVec 6) (v : DWord) : (g.setS n v).quads = g.quads := rfl
@[simp] theorem setS_startMask (g : Gang) (n : BitVec 6) (v : DWord) : (g.setS n v).startMask = g.startMask := rfl
@[simp] theorem setS_exited (g : Gang) (n : BitVec 6) (v : DWord) : (g.setS n v).exited = g.exited := rfl
@[simp] theorem setS_fragPtr (g : Gang) (n : BitVec 6) (v : DWord) : (g.setS n v).fragPtr = g.fragPtr := rfl
@[simp] theorem setS_nitcfg (g : Gang) (n : BitVec 6) (v : DWord) : (g.setS n v).nitcfg = g.nitcfg := rfl
@[simp] theorem setS_nitcnt (g : Gang) (n : BitVec 6) (v : DWord) : (g.setS n v).nitcnt = g.nitcnt := rfl
@[simp] theorem setS_satf (g : Gang) (n : BitVec 6) (v : DWord) : (g.setS n v).satf = g.satf := rfl
@[simp] theorem setS_gset (g : Gang) (n : BitVec 6) (v : DWord) : (g.setS n v).gset = g.gset := rfl
@[simp] theorem setS_leaseDecl (g : Gang) (n : BitVec 6) (v : DWord) : (g.setS n v).leaseDecl = g.leaseDecl := rfl
@[simp] theorem setS_leaseBase (g : Gang) (n : BitVec 6) (v : DWord) : (g.setS n v).leaseBase = g.leaseBase := rfl
@[simp] theorem setS_leaseE (g : Gang) (n : BitVec 6) (v : DWord) : (g.setS n v).leaseE = g.leaseE := rfl
@[simp] theorem setS_footprint (g : Gang) (n : BitVec 6) (v : DWord) : (g.setS n v).footprint = g.footprint := rfl
@[simp] theorem setS_window (g : Gang) (n : BitVec 6) (v : DWord) : (g.setS n v).window = g.window := rfl
@[simp] theorem setS_epc (g : Gang) (n : BitVec 6) (v : DWord) : (g.setS n v).epc = g.epc := rfl
@[simp] theorem setS_tcause (g : Gang) (n : BitVec 6) (v : DWord) : (g.setS n v).tcause = g.tcause := rfl
@[simp] theorem setS_ops (g : Gang) (n : BitVec 6) (v : DWord) : (g.setS n v).ops = g.ops := rfl
@[simp] theorem setS_sbuf (g : Gang) (n : BitVec 6) (v : DWord) : (g.setS n v).sbuf = g.sbuf := rfl
@[simp] theorem setS_parked (g : Gang) (n : BitVec 6) (v : DWord) : (g.setS n v).parked = g.parked := rfl
@[simp] theorem setS_halted (g : Gang) (n : BitVec 6) (v : DWord) : (g.setS n v).halted = g.halted := rfl
@[simp] theorem setS_ended (g : Gang) (n : BitVec 6) (v : DWord) : (g.setS n v).ended = g.ended := rfl
@[simp] theorem setS_partition (g : Gang) (n : BitVec 6) (v : DWord) : (g.setS n v).partition = g.partition := rfl
@[simp] theorem setS_granule (g : Gang) (n : BitVec 6) (v : DWord) : (g.setS n v).granule = g.granule := rfl
@[simp] theorem setS_slot (g : Gang) (n : BitVec 6) (v : DWord) : (g.setS n v).slot = g.slot := rfl
@[simp] theorem setS_active (g : Gang) (n : BitVec 6) (v : DWord) : (g.setS n v).active = g.active := rfl
@[simp] theorem setS_changedAt (g : Gang) (n : BitVec 6) (v : DWord) : (g.setS n v).changedAt = g.changedAt := rfl
@[simp] theorem setS_exempt (g : Gang) (n : BitVec 6) (v : DWord) : (g.setS n v).exempt = g.exempt := rfl
@[simp] theorem setS_starved (g : Gang) (n : BitVec 6) (v : DWord) : (g.setS n v).starved = g.starved := rfl
@[simp] theorem setS_yielded (g : Gang) (n : BitVec 6) (v : DWord) : (g.setS n v).yielded = g.yielded := rfl
@[simp] theorem setS_lantern (g : Gang) (n : BitVec 6) (v : DWord) : (g.setS n v).lantern = g.lantern := rfl
@[simp] theorem setS_joints (g : Gang) (n : BitVec 6) (v : DWord) : (g.setS n v).joints = g.joints := rfl
@[simp] theorem setS_deferred (g : Gang) (n : BitVec 6) (v : DWord) : (g.setS n v).deferred = g.deferred := rfl
@[simp] theorem setS_copySat (g : Gang) (n : BitVec 6) (v : DWord) : (g.setS n v).copySat = g.copySat := rfl
@[simp] theorem setS_hist (g : Gang) (n : BitVec 6) (v : DWord) : (g.setS n v).hist = g.hist := rfl
@[simp] theorem setS_book (g : Gang) (n : BitVec 6) (v : DWord) : (g.setS n v).book = g.book := rfl
@[simp] theorem setS_reads (g : Gang) (n : BitVec 6) (v : DWord) : (g.setS n v).reads = g.reads := rfl

/-! A predicate is written. -/

@[simp] theorem setP_vregs (g : Gang) (n : BitVec 3) (m v : Mask) : (g.setP n m v).vregs = g.vregs := rfl
@[simp] theorem setP_killed (g : Gang) (n : BitVec 3) (m v : Mask) : (g.setP n m v).killed = g.killed := rfl
@[simp] theorem setP_dead (g : Gang) (n : BitVec 3) (m v : Mask) : (g.setP n m v).dead = g.dead := rfl
@[simp] theorem setP_vpois (g : Gang) (n : BitVec 3) (m v : Mask) : (g.setP n m v).vpois = g.vpois := rfl
@[simp] theorem setP_oc (g : Gang) (n : BitVec 3) (m v : Mask) : (g.setP n m v).oc = g.oc := rfl
@[simp] theorem setP_latch (g : Gang) (n : BitVec 3) (m v : Mask) : (g.setP n m v).latch = g.latch := rfl
@[simp] theorem setP_sregs (g : Gang) (n : BitVec 3) (m v : Mask) : (g.setP n m v).sregs = g.sregs := rfl
@[simp] theorem setP_spois (g : Gang) (n : BitVec 3) (m v : Mask) : (g.setP n m v).spois = g.spois := rfl
@[simp] theorem setP_frags (g : Gang) (n : BitVec 3) (m v : Mask) : (g.setP n m v).frags = g.frags := rfl
@[simp] theorem setP_recs (g : Gang) (n : BitVec 3) (m v : Mask) : (g.setP n m v).recs = g.recs := rfl
@[simp] theorem setP_quads (g : Gang) (n : BitVec 3) (m v : Mask) : (g.setP n m v).quads = g.quads := rfl
@[simp] theorem setP_startMask (g : Gang) (n : BitVec 3) (m v : Mask) : (g.setP n m v).startMask = g.startMask := rfl
@[simp] theorem setP_exited (g : Gang) (n : BitVec 3) (m v : Mask) : (g.setP n m v).exited = g.exited := rfl
@[simp] theorem setP_fragPtr (g : Gang) (n : BitVec 3) (m v : Mask) : (g.setP n m v).fragPtr = g.fragPtr := rfl
@[simp] theorem setP_nitcfg (g : Gang) (n : BitVec 3) (m v : Mask) : (g.setP n m v).nitcfg = g.nitcfg := rfl
@[simp] theorem setP_nitcnt (g : Gang) (n : BitVec 3) (m v : Mask) : (g.setP n m v).nitcnt = g.nitcnt := rfl
@[simp] theorem setP_satf (g : Gang) (n : BitVec 3) (m v : Mask) : (g.setP n m v).satf = g.satf := rfl
@[simp] theorem setP_gset (g : Gang) (n : BitVec 3) (m v : Mask) : (g.setP n m v).gset = g.gset := rfl
@[simp] theorem setP_leaseDecl (g : Gang) (n : BitVec 3) (m v : Mask) : (g.setP n m v).leaseDecl = g.leaseDecl := rfl
@[simp] theorem setP_leaseBase (g : Gang) (n : BitVec 3) (m v : Mask) : (g.setP n m v).leaseBase = g.leaseBase := rfl
@[simp] theorem setP_leaseE (g : Gang) (n : BitVec 3) (m v : Mask) : (g.setP n m v).leaseE = g.leaseE := rfl
@[simp] theorem setP_footprint (g : Gang) (n : BitVec 3) (m v : Mask) : (g.setP n m v).footprint = g.footprint := rfl
@[simp] theorem setP_window (g : Gang) (n : BitVec 3) (m v : Mask) : (g.setP n m v).window = g.window := rfl
@[simp] theorem setP_epc (g : Gang) (n : BitVec 3) (m v : Mask) : (g.setP n m v).epc = g.epc := rfl
@[simp] theorem setP_tcause (g : Gang) (n : BitVec 3) (m v : Mask) : (g.setP n m v).tcause = g.tcause := rfl
@[simp] theorem setP_ops (g : Gang) (n : BitVec 3) (m v : Mask) : (g.setP n m v).ops = g.ops := rfl
@[simp] theorem setP_sbuf (g : Gang) (n : BitVec 3) (m v : Mask) : (g.setP n m v).sbuf = g.sbuf := rfl
@[simp] theorem setP_parked (g : Gang) (n : BitVec 3) (m v : Mask) : (g.setP n m v).parked = g.parked := rfl
@[simp] theorem setP_halted (g : Gang) (n : BitVec 3) (m v : Mask) : (g.setP n m v).halted = g.halted := rfl
@[simp] theorem setP_ended (g : Gang) (n : BitVec 3) (m v : Mask) : (g.setP n m v).ended = g.ended := rfl
@[simp] theorem setP_partition (g : Gang) (n : BitVec 3) (m v : Mask) : (g.setP n m v).partition = g.partition := rfl
@[simp] theorem setP_granule (g : Gang) (n : BitVec 3) (m v : Mask) : (g.setP n m v).granule = g.granule := rfl
@[simp] theorem setP_slot (g : Gang) (n : BitVec 3) (m v : Mask) : (g.setP n m v).slot = g.slot := rfl
@[simp] theorem setP_active (g : Gang) (n : BitVec 3) (m v : Mask) : (g.setP n m v).active = g.active := rfl
@[simp] theorem setP_changedAt (g : Gang) (n : BitVec 3) (m v : Mask) : (g.setP n m v).changedAt = g.changedAt := rfl
@[simp] theorem setP_exempt (g : Gang) (n : BitVec 3) (m v : Mask) : (g.setP n m v).exempt = g.exempt := rfl
@[simp] theorem setP_starved (g : Gang) (n : BitVec 3) (m v : Mask) : (g.setP n m v).starved = g.starved := rfl
@[simp] theorem setP_yielded (g : Gang) (n : BitVec 3) (m v : Mask) : (g.setP n m v).yielded = g.yielded := rfl
@[simp] theorem setP_lantern (g : Gang) (n : BitVec 3) (m v : Mask) : (g.setP n m v).lantern = g.lantern := rfl
@[simp] theorem setP_joints (g : Gang) (n : BitVec 3) (m v : Mask) : (g.setP n m v).joints = g.joints := rfl
@[simp] theorem setP_deferred (g : Gang) (n : BitVec 3) (m v : Mask) : (g.setP n m v).deferred = g.deferred := rfl
@[simp] theorem setP_copySat (g : Gang) (n : BitVec 3) (m v : Mask) : (g.setP n m v).copySat = g.copySat := rfl
@[simp] theorem setP_hist (g : Gang) (n : BitVec 3) (m v : Mask) : (g.setP n m v).hist = g.hist := rfl
@[simp] theorem setP_book (g : Gang) (n : BitVec 3) (m v : Mask) : (g.setP n m v).book = g.book := rfl
@[simp] theorem setP_reads (g : Gang) (n : BitVec 3) (m v : Mask) : (g.setP n m v).reads = g.reads := rfl

/-! A vector register is written. -/

@[simp] theorem setV_dead (g : Gang) (r l : Nat) (w : Word) (p : Bool) : (g.setV r l w p).dead = g.dead := rfl
@[simp] theorem setV_oc (g : Gang) (r l : Nat) (w : Word) (p : Bool) : (g.setV r l w p).oc = g.oc := rfl
@[simp] theorem setV_latch (g : Gang) (r l : Nat) (w : Word) (p : Bool) : (g.setV r l w p).latch = g.latch := rfl
@[simp] theorem setV_sregs (g : Gang) (r l : Nat) (w : Word) (p : Bool) : (g.setV r l w p).sregs = g.sregs := rfl
@[simp] theorem setV_spois (g : Gang) (r l : Nat) (w : Word) (p : Bool) : (g.setV r l w p).spois = g.spois := rfl
@[simp] theorem setV_pregs (g : Gang) (r l : Nat) (w : Word) (p : Bool) : (g.setV r l w p).pregs = g.pregs := rfl
@[simp] theorem setV_ppois (g : Gang) (r l : Nat) (w : Word) (p : Bool) : (g.setV r l w p).ppois = g.ppois := rfl
@[simp] theorem setV_frags (g : Gang) (r l : Nat) (w : Word) (p : Bool) : (g.setV r l w p).frags = g.frags := rfl
@[simp] theorem setV_recs (g : Gang) (r l : Nat) (w : Word) (p : Bool) : (g.setV r l w p).recs = g.recs := rfl
@[simp] theorem setV_quads (g : Gang) (r l : Nat) (w : Word) (p : Bool) : (g.setV r l w p).quads = g.quads := rfl
@[simp] theorem setV_startMask (g : Gang) (r l : Nat) (w : Word) (p : Bool) : (g.setV r l w p).startMask = g.startMask := rfl
@[simp] theorem setV_exited (g : Gang) (r l : Nat) (w : Word) (p : Bool) : (g.setV r l w p).exited = g.exited := rfl
@[simp] theorem setV_fragPtr (g : Gang) (r l : Nat) (w : Word) (p : Bool) : (g.setV r l w p).fragPtr = g.fragPtr := rfl
@[simp] theorem setV_nitcfg (g : Gang) (r l : Nat) (w : Word) (p : Bool) : (g.setV r l w p).nitcfg = g.nitcfg := rfl
@[simp] theorem setV_nitcnt (g : Gang) (r l : Nat) (w : Word) (p : Bool) : (g.setV r l w p).nitcnt = g.nitcnt := rfl
@[simp] theorem setV_satf (g : Gang) (r l : Nat) (w : Word) (p : Bool) : (g.setV r l w p).satf = g.satf := rfl
@[simp] theorem setV_gset (g : Gang) (r l : Nat) (w : Word) (p : Bool) : (g.setV r l w p).gset = g.gset := rfl
@[simp] theorem setV_leaseDecl (g : Gang) (r l : Nat) (w : Word) (p : Bool) : (g.setV r l w p).leaseDecl = g.leaseDecl := rfl
@[simp] theorem setV_leaseBase (g : Gang) (r l : Nat) (w : Word) (p : Bool) : (g.setV r l w p).leaseBase = g.leaseBase := rfl
@[simp] theorem setV_leaseE (g : Gang) (r l : Nat) (w : Word) (p : Bool) : (g.setV r l w p).leaseE = g.leaseE := rfl
@[simp] theorem setV_footprint (g : Gang) (r l : Nat) (w : Word) (p : Bool) : (g.setV r l w p).footprint = g.footprint := rfl
@[simp] theorem setV_window (g : Gang) (r l : Nat) (w : Word) (p : Bool) : (g.setV r l w p).window = g.window := rfl
@[simp] theorem setV_epc (g : Gang) (r l : Nat) (w : Word) (p : Bool) : (g.setV r l w p).epc = g.epc := rfl
@[simp] theorem setV_tcause (g : Gang) (r l : Nat) (w : Word) (p : Bool) : (g.setV r l w p).tcause = g.tcause := rfl
@[simp] theorem setV_ops (g : Gang) (r l : Nat) (w : Word) (p : Bool) : (g.setV r l w p).ops = g.ops := rfl
@[simp] theorem setV_sbuf (g : Gang) (r l : Nat) (w : Word) (p : Bool) : (g.setV r l w p).sbuf = g.sbuf := rfl
@[simp] theorem setV_parked (g : Gang) (r l : Nat) (w : Word) (p : Bool) : (g.setV r l w p).parked = g.parked := rfl
@[simp] theorem setV_halted (g : Gang) (r l : Nat) (w : Word) (p : Bool) : (g.setV r l w p).halted = g.halted := rfl
@[simp] theorem setV_ended (g : Gang) (r l : Nat) (w : Word) (p : Bool) : (g.setV r l w p).ended = g.ended := rfl
@[simp] theorem setV_partition (g : Gang) (r l : Nat) (w : Word) (p : Bool) : (g.setV r l w p).partition = g.partition := rfl
@[simp] theorem setV_granule (g : Gang) (r l : Nat) (w : Word) (p : Bool) : (g.setV r l w p).granule = g.granule := rfl
@[simp] theorem setV_slot (g : Gang) (r l : Nat) (w : Word) (p : Bool) : (g.setV r l w p).slot = g.slot := rfl
@[simp] theorem setV_active (g : Gang) (r l : Nat) (w : Word) (p : Bool) : (g.setV r l w p).active = g.active := rfl
@[simp] theorem setV_changedAt (g : Gang) (r l : Nat) (w : Word) (p : Bool) : (g.setV r l w p).changedAt = g.changedAt := rfl
@[simp] theorem setV_exempt (g : Gang) (r l : Nat) (w : Word) (p : Bool) : (g.setV r l w p).exempt = g.exempt := rfl
@[simp] theorem setV_starved (g : Gang) (r l : Nat) (w : Word) (p : Bool) : (g.setV r l w p).starved = g.starved := rfl
@[simp] theorem setV_yielded (g : Gang) (r l : Nat) (w : Word) (p : Bool) : (g.setV r l w p).yielded = g.yielded := rfl
@[simp] theorem setV_lantern (g : Gang) (r l : Nat) (w : Word) (p : Bool) : (g.setV r l w p).lantern = g.lantern := rfl
@[simp] theorem setV_joints (g : Gang) (r l : Nat) (w : Word) (p : Bool) : (g.setV r l w p).joints = g.joints := rfl
@[simp] theorem setV_deferred (g : Gang) (r l : Nat) (w : Word) (p : Bool) : (g.setV r l w p).deferred = g.deferred := rfl
@[simp] theorem setV_copySat (g : Gang) (r l : Nat) (w : Word) (p : Bool) : (g.setV r l w p).copySat = g.copySat := rfl
@[simp] theorem setV_hist (g : Gang) (r l : Nat) (w : Word) (p : Bool) : (g.setV r l w p).hist = g.hist := rfl
@[simp] theorem setV_book (g : Gang) (r l : Nat) (w : Word) (p : Bool) : (g.setV r l w p).book = g.book := rfl
@[simp] theorem setV_reads (g : Gang) (r l : Nat) (w : Word) (p : Bool) : (g.setV r l w p).reads = g.reads := rfl

/-! Upper levels are emptied. -/

@[simp] theorem invalidate_vregs (g : Gang) (m : Mask) : (g.invalidate m).vregs = g.vregs := rfl
@[simp] theorem invalidate_killed (g : Gang) (m : Mask) : (g.invalidate m).killed = g.killed := rfl
@[simp] theorem invalidate_dead (g : Gang) (m : Mask) : (g.invalidate m).dead = g.dead := rfl
@[simp] theorem invalidate_vpois (g : Gang) (m : Mask) : (g.invalidate m).vpois = g.vpois := rfl
@[simp] theorem invalidate_sregs (g : Gang) (m : Mask) : (g.invalidate m).sregs = g.sregs := rfl
@[simp] theorem invalidate_spois (g : Gang) (m : Mask) : (g.invalidate m).spois = g.spois := rfl
@[simp] theorem invalidate_pregs (g : Gang) (m : Mask) : (g.invalidate m).pregs = g.pregs := rfl
@[simp] theorem invalidate_ppois (g : Gang) (m : Mask) : (g.invalidate m).ppois = g.ppois := rfl
@[simp] theorem invalidate_frags (g : Gang) (m : Mask) : (g.invalidate m).frags = g.frags := rfl
@[simp] theorem invalidate_recs (g : Gang) (m : Mask) : (g.invalidate m).recs = g.recs := rfl
@[simp] theorem invalidate_quads (g : Gang) (m : Mask) : (g.invalidate m).quads = g.quads := rfl
@[simp] theorem invalidate_startMask (g : Gang) (m : Mask) : (g.invalidate m).startMask = g.startMask := rfl
@[simp] theorem invalidate_exited (g : Gang) (m : Mask) : (g.invalidate m).exited = g.exited := rfl
@[simp] theorem invalidate_fragPtr (g : Gang) (m : Mask) : (g.invalidate m).fragPtr = g.fragPtr := rfl
@[simp] theorem invalidate_nitcfg (g : Gang) (m : Mask) : (g.invalidate m).nitcfg = g.nitcfg := rfl
@[simp] theorem invalidate_nitcnt (g : Gang) (m : Mask) : (g.invalidate m).nitcnt = g.nitcnt := rfl
@[simp] theorem invalidate_satf (g : Gang) (m : Mask) : (g.invalidate m).satf = g.satf := rfl
@[simp] theorem invalidate_gset (g : Gang) (m : Mask) : (g.invalidate m).gset = g.gset := rfl
@[simp] theorem invalidate_leaseDecl (g : Gang) (m : Mask) : (g.invalidate m).leaseDecl = g.leaseDecl := rfl
@[simp] theorem invalidate_leaseBase (g : Gang) (m : Mask) : (g.invalidate m).leaseBase = g.leaseBase := rfl
@[simp] theorem invalidate_leaseE (g : Gang) (m : Mask) : (g.invalidate m).leaseE = g.leaseE := rfl
@[simp] theorem invalidate_footprint (g : Gang) (m : Mask) : (g.invalidate m).footprint = g.footprint := rfl
@[simp] theorem invalidate_window (g : Gang) (m : Mask) : (g.invalidate m).window = g.window := rfl
@[simp] theorem invalidate_epc (g : Gang) (m : Mask) : (g.invalidate m).epc = g.epc := rfl
@[simp] theorem invalidate_tcause (g : Gang) (m : Mask) : (g.invalidate m).tcause = g.tcause := rfl
@[simp] theorem invalidate_ops (g : Gang) (m : Mask) : (g.invalidate m).ops = g.ops := rfl
@[simp] theorem invalidate_sbuf (g : Gang) (m : Mask) : (g.invalidate m).sbuf = g.sbuf := rfl
@[simp] theorem invalidate_parked (g : Gang) (m : Mask) : (g.invalidate m).parked = g.parked := rfl
@[simp] theorem invalidate_halted (g : Gang) (m : Mask) : (g.invalidate m).halted = g.halted := rfl
@[simp] theorem invalidate_ended (g : Gang) (m : Mask) : (g.invalidate m).ended = g.ended := rfl
@[simp] theorem invalidate_partition (g : Gang) (m : Mask) : (g.invalidate m).partition = g.partition := rfl
@[simp] theorem invalidate_granule (g : Gang) (m : Mask) : (g.invalidate m).granule = g.granule := rfl
@[simp] theorem invalidate_slot (g : Gang) (m : Mask) : (g.invalidate m).slot = g.slot := rfl
@[simp] theorem invalidate_active (g : Gang) (m : Mask) : (g.invalidate m).active = g.active := rfl
@[simp] theorem invalidate_changedAt (g : Gang) (m : Mask) : (g.invalidate m).changedAt = g.changedAt := rfl
@[simp] theorem invalidate_exempt (g : Gang) (m : Mask) : (g.invalidate m).exempt = g.exempt := rfl
@[simp] theorem invalidate_starved (g : Gang) (m : Mask) : (g.invalidate m).starved = g.starved := rfl
@[simp] theorem invalidate_yielded (g : Gang) (m : Mask) : (g.invalidate m).yielded = g.yielded := rfl
@[simp] theorem invalidate_lantern (g : Gang) (m : Mask) : (g.invalidate m).lantern = g.lantern := rfl
@[simp] theorem invalidate_joints (g : Gang) (m : Mask) : (g.invalidate m).joints = g.joints := rfl
@[simp] theorem invalidate_deferred (g : Gang) (m : Mask) : (g.invalidate m).deferred = g.deferred := rfl
@[simp] theorem invalidate_copySat (g : Gang) (m : Mask) : (g.invalidate m).copySat = g.copySat := rfl
@[simp] theorem invalidate_hist (g : Gang) (m : Mask) : (g.invalidate m).hist = g.hist := rfl
@[simp] theorem invalidate_book (g : Gang) (m : Mask) : (g.invalidate m).book = g.book := rfl
@[simp] theorem invalidate_reads (g : Gang) (m : Mask) : (g.invalidate m).reads = g.reads := rfl

end Sys2Proof.Machine
end

