-- ==== Sys2Proof/Tests/Slice0.lean ====
section
/-!
SUPPORT. Tests: ill-formed terms that the checks refuse, words written out from the encoding tables, single instructions on a small
state, and for each statement with hypotheses states and operands that meet them.
-/
set_option Elab.async false

namespace Sys2Proof.Tests
open Sys2Proof.Machine Sys2Proof.Claims

/-! The lab: one SINGLE gang of 32 lanes in a running launch, its fragment about to issue at 0x10000. -/

/-- The launch of `State.withFetchWord`, its fragment selected. -/
def lab : State := { probe State.reset with sel := some { grp := 0, gang := 0, frag := 0 } }

/-- The lab's gang. -/
def labGang : Gang := { Gang.start probeLaunch 0 0 0 0 with active := true }

/-- The lab's fragment. -/
def labFrag : Frag := Frag.start 0x10000#64 0xFFFFFFFF#32

/-- The lab's group. -/
def labGroup : Group := { Group.start probeLaunch 0 0 0 0 0 [(0, 0)] [64] with gangs := [(0, labGang)] }

/-- The lab with another group, gang, fragment and launch, and more fragments beside the issuing one. -/
def labOf (l : Launch) (gr : Group) (g : Gang) (f : Frag) (more : AList Frag) : State :=
  { lab with launches := [(0, l)], groups := [(0, { gr with launch := 0, gangs := [(0, { g with frags := (0, f) :: more })] })] }

/-- Its issuing fragment. -/
def curOfLab (l : Launch) (gr : Group) (g : Gang) (f : Frag) (more : AList Frag) : Cur :=
  { r := { grp := 0, gang := 0, frag := 0 }, grp := { gr with launch := 0, gangs := [(0, { g with frags := (0, f) :: more })] },
    gang := { g with frags := (0, f) :: more }, frag := f, lau := l
    early := { g with frags := (0, f) :: more }.early lab.clock, earlyS := { g with frags := (0, f) :: more }.earlyS lab.clock }

theorem labOf_cur (l : Launch) (gr : Group) (g : Gang) (f : Frag) (more : AList Frag) :
    cur (labOf l gr g f more) = some (curOfLab l gr g f more) := rfl

theorem labOf_issues (i : Instr) (h : i.wf = true) (l : Launch) (gr : Group) (g : Gang) (f : Frag) (more : AList Frag) :
    Issues i (curOfLab l gr g f more) (labOf l gr g f more) := ⟨labOf_cur l gr g f more, h⟩

/-- The lab as it stands. -/
def lab0 : State := labOf probeLaunch labGroup labGang labFrag []
/-- Its issuing fragment. -/
def cur0 : Cur := curOfLab probeLaunch labGroup labGang labFrag []

/-- The lab with a launch of mode TRIPLE. -/
def lab3 : State := labOf { probeLaunch with kern := { probeKernel with triple := true } } labGroup
  { labGang with quads := List.replicate 8 (Quad.start true) } labFrag []
/-- Its issuing fragment. -/
def cur3 : Cur := curOfLab { probeLaunch with kern := { probeKernel with triple := true } } labGroup
  { labGang with quads := List.replicate 8 (Quad.start true) } labFrag []

theorem issues0 (i : Instr) (h : i.wf = true) : Issues i cur0 lab0 := labOf_issues i h _ _ _ _ _
theorem issues3 (i : Instr) (h : i.wf = true) : Issues i cur3 lab3 := labOf_issues i h _ _ _ _ _
/-! Ill-formed terms, one or more for each check of `Instr.wf`; each list is refused whole. -/

/-- An XO word with nothing set. -/
def xo0 : XO := ⟨0#3, false, 0#3, false, 0#2, false, 0#2, false, false, 0#7⟩
/-- An XI word with nothing set. -/
def xi0 : XI := ⟨0#3, false, 0#3, false, 0#14⟩
/-- An XM word with nothing set. -/
def xm0 : XM := ⟨0#2, 0#3, 0#2, false, 0#3, false, false, 0#10⟩
/-- A three-source form after an XO word. -/
def a3 (x : XO) : A3 := ⟨1#7, 2#7, 3#7, false, false, false, .xo x⟩
/-- A one-source form after an XO word. -/
def af (x : XO) : AF := ⟨2#7, 4#7, false, false, .xo x⟩
/-- A one-source form without a prefix. -/
def af0 : AF := ⟨2#7, 4#7, false, false, .none⟩
/-- An immediate form after a prefix. -/
def iform (x : Pfx) : IF := ⟨5#9, 2#7, 4#7, false, x⟩
/-- A load or store of width code `w`. -/
def mf (w : BitVec 3) (x : Option XM) : MF := ⟨w, 1#6, 2#7, 4#7, false, x⟩
/-- An atomic of a width, order, scope and LOG bit. -/
def amo (w : BitVec 3) (ord : BitVec 2) (scope : BitVec 3) (log : Bool) : AMO :=
  ⟨w, 1#6, 2#7, 4#7, false, ord, scope, 0#2, false, 0#3, false, false, log, 0#5⟩
/-- A SLIDE form. -/
def slide (x : Pfx) : SlideF := ⟨2#7, 4#7, false, x⟩
/-- A PREF or CMO form. -/
def addrF (x : Option XM) : AddrF := ⟨1#6, 2#7, false, x⟩

/-- What XO may say: TY, SMOD, RND without ROE, an override, SAT, SRCC where it is no source (R113, R120). -/
theorem test_wf_xo : ∀ i ∈ ([.fadd (a3 { xo0 with ty := 4#3 }),
    .fadd (a3 { xo0 with smod := 2#2 }),
    .fadd (a3 { xo0 with rnd := 1#2 }),
    .fmin (a3 { xo0 with roe := true }),
    .fadd (a3 { xo0 with sat := true }),
    .frnd 0#2 0#2 (af { xo0 with srcc := 1#7 }),
    .frnd 0#2 0#2 (af { xo0 with dc := true }),
    .iadd (a3 { xo0 with srcc := 64#7 }),
    .iadd (a3 { xo0 with dc := true })] : List Instr),
    i.wf = false := by decide

/-- The layout of the prefix, and the TY codes of XI (R120). -/
theorem test_wf_layout : ∀ i ∈ ([.iaddI (iform (.xo xo0)),
    .andI (iform (.xi { xi0 with ty := 1#3 })),
    .prmt ⟨1#7, 2#7, 3#7, false, false, false, .xi xi0⟩,
    .frnd 0#2 0#2 ⟨2#7, 4#7, false, false, .xi xi0⟩] : List Instr),
    i.wf = false := by decide

/-- Conditions, types and formats that R121 and R122 reserve. -/
theorem test_wf_codes : ∀ i ∈ ([.fcmp 8#4 0#3 ⟨1#7, 2#7, false, false, false, .none⟩,
    .icmp 6#4 0#3 ⟨1#7, 2#7, false, false, false, .none⟩,
    .icmpI 6#4 0#3 ⟨1#9, 2#7, false, .none⟩,
    .itof 0#3 2#2 af0,
    .itof 4#3 1#2 af0,
    .itof 6#3 0#2 af0,
    .fcvt 1#3 1#3 false af0,
    .fcvt 7#3 0#3 false af0,
    .fcvt 4#3 1#3 false af0,
    .fcvt 1#3 0#3 true af0,
    .fcvtToXs 2#3 (af xo0),
    .fcvtFromXs 2#3 (af xo0),
    .mov 1#3 af0,
    .not 1#3 af0,
    .iabs 1#3 af0,
    .popc 1#3 af0,
    .clz 4#3 af0,
    .brev 6#3 af0] : List Instr),
    i.wf = false := by decide

/-- SEL needs PE; the halfword of zeros is no MOV (R370, R111). -/
theorem test_wf_select : ∀ i ∈ ([.sel (a3 xo0),
    .mov16 0#5 0#6] : List Instr),
    i.wf = false := by decide

/-- Widths, orders, scopes and hints of the M rows (R117, R123, R125, R126). -/
theorem test_wf_memory : ∀ i ∈ ([.ldG (mf 7#3 none),
    .ldS (mf 2#3 (some { xm0 with ord := 2#2 })),
    .ldG (mf 2#3 (some { xm0 with scope := 1#3 })),
    .ldG (mf 2#3 (some { xm0 with ord := 1#2, scope := 5#3 })),
    .stG (mf 5#3 none),
    .stF (mf 2#3 (some { xm0 with ord := 1#2 })),
    .atomAdd .g (amo 4#3 0#2 0#3 false),
    .atomMaxe .g (amo 3#3 0#2 0#3 false),
    .atomAnd .s (amo 2#3 0#2 1#3 false),
    .acas .g (amo 5#3 0#2 0#3 false),
    .acas .g (amo 2#3 0#2 0#3 true),
    .xsadd .g (amo 2#3 0#2 0#3 false),
    .pref 3#2 (addrF none),
    .pref 0#2 (addrF (some { xm0 with hint := 1#2 })),
    .cmo 3#2 0#2 (addrF none),
    .cmo 0#2 3#2 (addrF none),
    .cmo 0#2 0#2 (addrF (some { xm0 with ord := 1#2 })),
    .cmoRange 3#2 0#2 1#6 2#6 false,
    .cmoRange 0#2 3#2 1#6 2#6 false,
    .fence 0#2 0#3 false,
    .fence 1#2 5#3 false] : List Instr),
    i.wf = false := by decide

/-- The lane-exchange rows (R124). -/
theorem test_wf_lane : ∀ i ∈ ([.qswap false 0#2 af0,
    .redux 10#4 0#3 af0,
    .redux 0#4 4#3 af0,
    .redux 0#4 0#3 (af { xo0 with roe := true }),
    .slideDown 1#5 (slide (.xi { xi0 with imm14 := 1#14 })),
    .slideUp 1#5 (slide (.xo xo0)),
    .slideFill true 1#5 3#6 (slide .none),
    .slideFill true 1#5 3#6 (slide (.xi { xi0 with imm14 := 4#14 })),
    .shfl (a3 { xo0 with ty := 1#3 })] : List Instr),
    i.wf = false := by decide

/-- The S rows (R127, R128). -/
theorem test_wf_scalar : ∀ i ∈ ([.sld 4#3 0#2 0#6 1#6 2#6 false,
    .sld 0#3 3#2 0#6 1#6 2#6 false,
    .sst 4#3 0#2 0#6 1#6 2#6 false,
    .sst 0#3 1#2 0#6 1#6 2#6 false,
    .sread 15#6 0#6 false,
    .swrite 0#6 15#6 false,
    .plop .not 1#3 0#3 0#3 false,
    .wait true 1#6 2#6 0#3 false,
    .wait false 1#6 2#6 0#3 false,
    .wait true 0#6 2#6 5#3 false,
    .copy 0#2 3#2 1#6 2#6 3#6 false,
    .mldw 5#3 1#6 2#6 false,
    .mma 5#3 1#6 2#6 0#3 false,
    .mwait true 1#3 false,
    .reservedMajorOpcode 0x00000001#32,
    .xpPrefix 0x00000001#32] : List Instr),
    i.wf = false := by decide

/-- The same forms, mended, are formed. -/
theorem test_wf_formed : ∀ i ∈ ([.fadd (a3 xo0), .iaddI (iform (.xi xi0)), .fcmp 7#4 0#3 ⟨1#7, 2#7, false, false, false, .none⟩, .fcvt 4#3 0#3 true af0,
    .sel (a3 { xo0 with pe := true }), .ldG (mf 6#3 (some { xm0 with ord := 1#2, scope := 4#3 })), .acas .g (amo 4#3 3#2 2#3 false), .redux 9#4 1#3 af0,
    .slideFill true 1#5 3#6 (slide (.xi { xi0 with imm14 := 3#14 })), .sread 14#6 0#6 false, .plop .mov 0#3 0#3 0#3 false] : List Instr), i.wf = true := by decide

/-! Words written out from the encoding tables of R108-R130: one or more for every row that has an encoding. -/

/-- Words of the float rows. -/
def floatWords1 : List (Frame × Instr) :=
  [(.word 0x9AAB1C01, .fadd ⟨77#7, 42#7, 99#7, true, false, false, .none⟩),
   (.word 0x9AAB1C05, .fsub ⟨77#7, 42#7, 99#7, true, false, false, .none⟩),
   (.word 0x9AAB1C09, .fmul ⟨77#7, 42#7, 99#7, true, false, false, .none⟩),
   (.word 0x9AAB1C0D, .ffma ⟨77#7, 42#7, 99#7, true, false, false, .none⟩),
   (.word 0x9AAB1C11, .fmin ⟨77#7, 42#7, 99#7, true, false, false, .none⟩),
   (.word 0x9AAB1C15, .fmax ⟨77#7, 42#7, 99#7, true, false, false, .none⟩),
   (.word 0x9AAB1C19, .fscale ⟨77#7, 42#7, 99#7, true, false, false, .none⟩),
   (.word 0x9AA95C1D, .fcmp 5#4 3#3 ⟨77#7, 42#7, true, false, false, .none⟩),
   (.word 0x9AAB1C21, .faddF64 ⟨77#7, 42#7, 99#7, true, false, false, .none⟩),
   (.word 0x9AAB1C25, .fsubF64 ⟨77#7, 42#7, 99#7, true, false, false, .none⟩),
   (.word 0x9AAB1C29, .fmulF64 ⟨77#7, 42#7, 99#7, true, false, false, .none⟩),
   (.word 0x9AAB1C2D, .ffmaF64 ⟨77#7, 42#7, 99#7, true, false, false, .none⟩),
   (.word 0x0D355231, .frnd 1#2 2#2 ⟨77#7, 42#7, true, false, .none⟩),
   (.word 0x29355231, .fclass 1#2 ⟨77#7, 42#7, true, false, .none⟩),
   (.word 0x49355231, .digits 1#2 ⟨77#7, 42#7, true, false, .none⟩),
   (.word 0x69355235, .itof 3#3 1#2 ⟨77#7, 42#7, true, false, .none⟩),
   (.word 0x43355039, .fcvt 2#3 0#3 true ⟨77#7, 42#7, false, false, .none⟩),
   (.word 0xCF355231, .ftoi .n64 true 3#2 ⟨77#7, 42#7, true, false, .none⟩),
   (.word 0x63355231, .ftoi .s32 false 1#2 ⟨77#7, 42#7, true, false, .none⟩),
   (.pair 0x000013FD 0xC0082039, .fcvtToXs 0#3 ⟨2#7, 4#7, false, false, .xo ⟨0#3, false, 0#3, false, 0#2, false, 0#2, false, false, 9#7⟩⟩)]

theorem test_words_float1 : ∀ e ∈ floatWords1, decode e.1 = .ok e.2 := by decide +kernel

/-- Words of the float rows. -/
def floatWords2 : List (Frame × Instr) :=
  [(.pair 0x000013FD 0x18103039, .fcvtFromXs 0#3 ⟨4#7, 6#7, false, false, .xo ⟨0#3, false, 0#3, false, 0#2, false, 0#2, false, false, 9#7⟩⟩),
   (.pair 0x2DB413FD 0x0E182C03, .fadd ⟨7#7, 6#7, 5#7, true, false, true, .xo ⟨2#3, true, 5#3, true, 1#2, true, 1#2, false, false, 9#7⟩⟩)]

theorem test_words_float2 : ∀ e ∈ floatWords2, decode e.1 = .ok e.2 := by decide +kernel

/-- Words of the integer rows. -/
def integerWords1 : List (Frame × Instr) :=
  [(.word 0x0535523D, .mov 2#3 ⟨77#7, 42#7, true, false, .none⟩),
   (.word 0x1535523D, .not 2#3 ⟨77#7, 42#7, true, false, .none⟩),
   (.word 0x2D35523D, .iabs 6#3 ⟨77#7, 42#7, true, false, .none⟩),
   (.word 0x3535523D, .popc 2#3 ⟨77#7, 42#7, true, false, .none⟩),
   (.word 0x4535523D, .clz 2#3 ⟨77#7, 42#7, true, false, .none⟩),
   (.word 0x5535523D, .brev 2#3 ⟨77#7, 42#7, true, false, .none⟩),
   (.word 0x9AAB1C41, .iadd ⟨77#7, 42#7, 99#7, true, false, false, .none⟩),
   (.word 0x9AAB1C45, .isub ⟨77#7, 42#7, 99#7, true, false, false, .none⟩),
   (.word 0x9AAB1C49, .imul ⟨77#7, 42#7, 99#7, true, false, false, .none⟩),
   (.word 0x9AAB1C4D, .imulh ⟨77#7, 42#7, 99#7, true, false, false, .none⟩),
   (.word 0x9AAB1C51, .imad ⟨77#7, 42#7, 99#7, true, false, false, .none⟩),
   (.word 0x9AAB1C55, .imin ⟨77#7, 42#7, 99#7, true, false, false, .none⟩),
   (.word 0x9AAB1C59, .imax ⟨77#7, 42#7, 99#7, true, false, false, .none⟩),
   (.word 0x9AA91C5D, .icmp 4#4 3#3 ⟨77#7, 42#7, true, false, false, .none⟩),
   (.word 0x9AAB1C61, .iadds ⟨77#7, 42#7, 99#7, true, false, false, .none⟩),
   (.word 0x9AAB1C65, .isubs ⟨77#7, 42#7, 99#7, true, false, false, .none⟩),
   (.word 0x9AAB1C69, .idot2 ⟨77#7, 42#7, 99#7, true, false, false, .none⟩),
   (.word 0x9AAB1C6D, .ishrr ⟨77#7, 42#7, 99#7, true, false, false, .none⟩),
   (.word 0x9AAB1C71, .pks ⟨77#7, 42#7, 99#7, true, false, false, .none⟩),
   (.word 0x9AAB1C7D, .bfx ⟨77#7, 42#7, 99#7, true, false, false, .none⟩)]

theorem test_words_integer1 : ∀ e ∈ integerWords1, decode e.1 = .ok e.2 := by decide +kernel

/-- Words of the integer rows. -/
def integerWords2 : List (Frame × Instr) :=
  [(.word 0x9AAB1C81, .bfi ⟨77#7, 42#7, 99#7, true, false, false, .none⟩),
   (.word 0x9AAB1C85, .and ⟨77#7, 42#7, 99#7, true, false, false, .none⟩),
   (.word 0x9AAB1C89, .or ⟨77#7, 42#7, 99#7, true, false, false, .none⟩),
   (.word 0x9AAB1C8D, .xor ⟨77#7, 42#7, 99#7, true, false, false, .none⟩),
   (.word 0x9AAB1C91, .shl ⟨77#7, 42#7, 99#7, true, false, false, .none⟩),
   (.word 0x9AAB1C95, .shr ⟨77#7, 42#7, 99#7, true, false, false, .none⟩),
   (.word 0x9AAB1C99, .sar ⟨77#7, 42#7, 99#7, true, false, false, .none⟩),
   (.pair 0x2D8001FD 0x9AAB1A75, .sel ⟨77#7, 42#7, 99#7, false, true, false, .xo ⟨2#3, true, 5#3, true, 0#2, false, 0#2, false, false, 0#7⟩⟩),
   (.pair 0x000143FD 0x9AAB1C79, .prmt ⟨77#7, 42#7, 99#7, true, false, false, .xo ⟨0#3, false, 0#3, false, 0#2, false, 0#2, false, true, 33#7⟩⟩)]

theorem test_words_integer2 : ∀ e ∈ integerWords2, decode e.1 = .ok e.2 := by decide +kernel

/-- Words of the immediate rows. -/
def immediateWords : List (Frame × Instr) :=
  [(.word 0xD9CD469D, .icmpI 4#4 3#3 ⟨435#9, 77#7, false, .none⟩),
   (.word 0xD9CD54A1, .iaddI ⟨435#9, 77#7, 42#7, false, .none⟩),
   (.word 0xD9CD54A5, .imulI ⟨435#9, 77#7, 42#7, false, .none⟩),
   (.word 0xD9CD54A9, .andI ⟨435#9, 77#7, 42#7, false, .none⟩),
   (.word 0xD9CD54AD, .orI ⟨435#9, 77#7, 42#7, false, .none⟩),
   (.word 0xD9CD54B1, .xorI ⟨435#9, 77#7, 42#7, false, .none⟩),
   (.word 0xD9CD54B5, .shlI ⟨435#9, 77#7, 42#7, false, .none⟩),
   (.word 0xD9CD54B9, .shrI ⟨435#9, 77#7, 42#7, false, .none⟩),
   (.word 0xD9CD54BD, .sarI ⟨435#9, 77#7, 42#7, false, .none⟩),
   (.pair 0xCED4B7FD 0xFF0916A3, .iaddI ⟨510#9, 9#7, 11#7, true, .xi ⟨4#3, true, 6#3, true, 0x2A5B#14⟩⟩)]

theorem test_words_immediate : ∀ e ∈ immediateWords, decode e.1 = .ok e.2 := by decide +kernel

/-- Words of the half rows. -/
def halfWords : List (Frame × Instr) :=
  [(.half 0x9CA0, .mov16 19#5 37#6),
   (.half 0x9CA2, .iadd16 19#5 37#6),
   (.half 0x9CA4, .isub16 19#5 37#6),
   (.half 0x9CA6, .imul16 19#5 37#6),
   (.half 0x9CA8, .imin16 19#5 37#6),
   (.half 0x9CAA, .imax16 19#5 37#6),
   (.half 0x9CAC, .and16 19#5 37#6),
   (.half 0x9CAE, .or16 19#5 37#6),
   (.half 0x9CB0, .xor16 19#5 37#6),
   (.half 0x9CB2, .shl16 19#5 37#6),
   (.half 0x9CB4, .shr16 19#5 37#6),
   (.half 0x9CB6, .sar16 19#5 37#6),
   (.half 0x9CB8, .fadd16 19#5 37#6),
   (.half 0x9CBA, .fsub16 19#5 37#6),
   (.half 0x9CBC, .fmul16 19#5 37#6),
   (.half 0x9CBE, .fmax16 19#5 37#6),
   (.half 0x0000, .illegalHalfword)]

theorem test_words_half : ∀ e ∈ halfWords, decode e.1 = .ok e.2 := by decide +kernel

/-- Words of the control rows. -/
def controlWords : List (Frame × Instr) :=
  [(.word 0xB4B4B5F9, .illegal 5921370#23 false),
   (.word 0xB4B4B765, .braCond 370085#19 true 3#3 false),
   (.word 0xB4B4A169, .bra 370085#19 false),
   (.word 0xB4B4B76D, .brv 370085#19 true 3#3 false),
   (.word 0xB4B4A171, .call 370085#19 false),
   (.word 0x00128175, .braReg 37#6 false),
   (.word 0x08128175, .callReg 37#6 false),
   (.word 0x00000179, .ret false),
   (.word 0x0000017D, .regangWait false),
   (.word 0x0800017D, .regangTry false),
   (.word 0x00000181, .region false),
   (.word 0x00000185, .exit false),
   (.word 0x00000189, .nop false),
   (.word 0x00000135, .reservedMajorOpcode 309#32),
   (.word 0x123401F5, .reservedMajorOpcode 305398261#32),
   (.pair 0x000001FD 0x000001FD, .xpPrefix 509#32),
   (.pair 0x000001FD 0x00002165, .xpPrefix 509#32)]

theorem test_words_control : ∀ e ∈ controlWords, decode e.1 = .ok e.2 := by decide +kernel

/-- Words of the memory rows. -/
def memoryWords1 : List (Frame × Instr) :=
  [(.word 0x72CD54C1, .ldG ⟨3#3, 37#6, 77#7, 42#7, false, none⟩),
   (.word 0x72CD54C5, .ldS ⟨3#3, 37#6, 77#7, 42#7, false, none⟩),
   (.word 0x72CD54C9, .ldC ⟨3#3, 37#6, 77#7, 42#7, false, none⟩),
   (.word 0x72CD54CD, .ldP ⟨3#3, 37#6, 77#7, 42#7, false, none⟩),
   (.word 0x72CD54D1, .ldH ⟨3#3, 37#6, 77#7, 42#7, false, none⟩),
   (.word 0x72CD54D5, .ldF ⟨3#3, 37#6, 77#7, 42#7, false, none⟩),
   (.word 0x72CD54D9, .stG ⟨3#3, 37#6, 77#7, 42#7, false, none⟩),
   (.word 0x72CD54DD, .stS ⟨3#3, 37#6, 77#7, 42#7, false, none⟩),
   (.word 0x72CD54E1, .stC ⟨3#3, 37#6, 77#7, 42#7, false, none⟩),
   (.word 0x72CD54E5, .stP ⟨3#3, 37#6, 77#7, 42#7, false, none⟩),
   (.word 0x72CD54E9, .stH ⟨3#3, 37#6, 77#7, 42#7, false, none⟩),
   (.word 0x72CD54ED, .stF ⟨3#3, 37#6, 77#7, 42#7, false, none⟩),
   (.word 0x12CD0109, .pref 0#2 ⟨37#6, 77#7, false, none⟩),
   (.word 0x12CD130D, .cmo 2#2 1#2 ⟨37#6, 77#7, false, none⟩),
   (.word 0x34AB01E5, .cmoRange 1#2 2#2 37#6 22#6 false),
   (.word 0x98000111, .fence 2#2 3#3 false),
   (.pair 0x490067FD 0x52CD54F1, .atomAdd .g ⟨2#3, 37#6, 77#7, 42#7, false, 1#2, 1#3, 0#2, true, 0#3, false, false, true, 19#5⟩),
   (.pair 0x9328E9FD 0x72CD54F5, .atomMin .s ⟨3#3, 37#6, 77#7, 42#7, false, 2#2, 2#3, 1#2, true, 1#3, false, true, true, 20#5⟩),
   (.pair 0xDD416BFD 0x52CD54F9, .atomMinu .c ⟨2#3, 37#6, 77#7, 42#7, false, 3#2, 3#3, 2#2, true, 2#3, false, false, true, 21#5⟩),
   (.pair 0x6769EDFD 0x72CD54FD, .atomMax .p ⟨3#3, 37#6, 77#7, 42#7, false, 1#2, 4#3, 3#2, true, 3#3, false, true, true, 22#5⟩)]

theorem test_words_memory1 : ∀ e ∈ memoryWords1, decode e.1 = .ok e.2 := by decide +kernel

/-- Words of the memory rows. -/
def memoryWords2 : List (Frame × Instr) :=
  [(.pair 0x89826FFD 0x52CD5501, .atomMaxu .h ⟨2#3, 37#6, 77#7, 42#7, false, 2#2, 1#3, 0#2, true, 4#3, false, false, true, 23#5⟩),
   (.pair 0xD3AAF1FD 0x52CD5505, .atomMaxe .f ⟨2#3, 37#6, 77#7, 42#7, false, 3#2, 2#3, 1#2, true, 5#3, false, true, true, 24#5⟩),
   (.pair 0x5DC373FD 0x52CD54F1, .atomAnd .g ⟨2#3, 37#6, 77#7, 42#7, false, 1#2, 3#3, 2#2, true, 6#3, false, false, true, 25#5⟩),
   (.pair 0xA7EBF5FD 0x72CD54F5, .atomOr .s ⟨3#3, 37#6, 77#7, 42#7, false, 2#2, 4#3, 3#2, true, 7#3, false, true, true, 26#5⟩),
   (.pair 0xC91477FD 0x52CD54F9, .atomXor .c ⟨2#3, 37#6, 77#7, 42#7, false, 3#2, 1#3, 0#2, true, 0#3, true, false, true, 27#5⟩),
   (.pair 0x533CF9FD 0x72CD54FD, .atomXchg .p ⟨3#3, 37#6, 77#7, 42#7, false, 1#2, 2#3, 1#2, true, 1#3, true, true, true, 28#5⟩),
   (.pair 0x9D557BFD 0x52CD5501, .atomFadd .h ⟨2#3, 37#6, 77#7, 42#7, false, 2#2, 3#3, 2#2, true, 2#3, true, false, true, 29#5⟩),
   (.pair 0xE77DFDFD 0x72CD5505, .atomFmax .f ⟨3#3, 37#6, 77#7, 42#7, false, 3#2, 4#3, 3#2, true, 3#3, true, true, true, 30#5⟩),
   (.pair 0x499627FD 0x92CD54F1, .acas .g ⟨4#3, 37#6, 77#7, 42#7, false, 1#2, 1#3, 0#2, true, 4#3, true, false, false, 19#5⟩),
   (.pair 0x93BEA9FD 0x72CD54F5, .xsadd .s ⟨3#3, 37#6, 77#7, 42#7, false, 2#2, 2#3, 1#2, true, 5#3, true, true, false, 20#5⟩),
   (.pair 0x5F4FFDFD 0x638828C1, .ldG ⟨3#3, 7#6, 8#7, 20#7, false, some ⟨1#2, 3#3, 3#2, true, 2#3, false, true, 0x3FE#10⟩⟩)]

theorem test_words_memory2 : ∀ e ∈ memoryWords2, decode e.1 = .ok e.2 := by decide +kernel

/-- Words of the lane rows. -/
def laneWords : List (Frame × Instr) :=
  [(.word 0x25355115, .qswap true 2#2 ⟨77#7, 42#7, false, false, .none⟩),
   (.word 0x63355115, .qbcast true 1#2 ⟨77#7, 42#7, false, false, .none⟩),
   (.word 0x9AAB1D19, .shfl ⟨77#7, 42#7, 99#7, true, false, false, .none⟩),
   (.word 0x09CD551D, .slideDown 19#5 ⟨77#7, 42#7, false, .none⟩),
   (.word 0x89CD551D, .slideUp 19#5 ⟨77#7, 42#7, false, .none⟩),
   (.word 0x03355121, .match true ⟨77#7, 42#7, false, false, .none⟩),
   (.word 0x77355325, .redux 7#4 3#3 ⟨77#7, 42#7, true, false, .none⟩),
   (.word 0x00018B29, .voteAny 3#3 5#3 false),
   (.word 0x08018B29, .voteAll 3#3 5#3 false),
   (.word 0x1001CB29, .voteBal 3#3 37#6 false),
   (.word 0x18000729, .elect 3#3 false),
   (.word 0x27352F2D, .readlnImm 19#5 77#7 37#6 true false .none),
   (.word 0x4B34B32D, .readlnScalar 37#6 77#7 22#6 true false .none),
   (.word 0x26966D31, .writelnImm 19#5 37#6 77#7 false .none),
   (.word 0x4A5A6931, .writelnScalar 37#6 22#6 77#7 false .none),
   (.pair 0x8B0057FD 0xC9CD551D, .slideFill true 19#5 43#6 ⟨77#7, 42#7, false, .xi ⟨0#3, true, 3#3, false, 43#14⟩⟩)]

theorem test_words_lane : ∀ e ∈ laneWords, decode e.1 = .ok e.2 := by decide +kernel

/-- Words of the scalar rows. -/
def scalarWords1 : List (Frame × Instr) :=
  [(.word 0x04AB5741, .sadd 37#6 22#6 43#6 false),
   (.word 0x0CAB5741, .ssub 37#6 22#6 43#6 false),
   (.word 0x14AB5741, .smul 37#6 22#6 43#6 false),
   (.word 0x1CAB5741, .sand 37#6 22#6 43#6 false),
   (.word 0x24AB5741, .sor 37#6 22#6 43#6 false),
   (.word 0x2CAB5741, .sxor 37#6 22#6 43#6 false),
   (.word 0x34AB5741, .sshl 37#6 22#6 43#6 false),
   (.word 0x3CAB5741, .sshr 37#6 22#6 43#6 false),
   (.word 0x44AB5741, .ssar 37#6 22#6 43#6 false),
   (.word 0x4812AD41, .smov 37#6 22#6 false),
   (.word 0x54AB5741, .ssel 37#6 22#6 43#6 false),
   (.word 0xBEEF4B45, .sli 48879#16 37#6 false),
   (.word 0xBEEFCB45, .sliSh 48879#16 37#6 false),
   (.word 0xD4AB5749, .sld 6#3 2#2 37#6 22#6 43#6 false),
   (.word 0x74AB574D, .sst 3#3 2#2 37#6 22#6 43#6 false),
   (.word 0x0006AD51, .sread 13#6 22#6 false),
   (.word 0x00129755, .swrite 37#6 11#6 false),
   (.word 0x38128759, .plopFroms 37#6 3#3 false),
   (.word 0x4001CB59, .plopTos 3#3 37#6 false),
   (.word 0x5CAB5741, .scmp .eq 37#6 22#6 43#6 false)]

theorem test_words_scalar1 : ∀ e ∈ scalarWords1, decode e.1 = .ok e.2 := by decide +kernel

/-- Words of the scalar rows. -/
def scalarWords2 : List (Frame × Instr) :=
  [(.word 0x64AB5741, .scmp .ne 37#6 22#6 43#6 false),
   (.word 0x6CAB5741, .scmp .lt 37#6 22#6 43#6 false),
   (.word 0x74AB5741, .scmp .le 37#6 22#6 43#6 false),
   (.word 0x7CAB5741, .scmp .ltu 37#6 22#6 43#6 false),
   (.word 0x84AB5741, .scmp .leu 37#6 22#6 43#6 false),
   (.word 0x00628D59, .plop .and 3#3 5#3 6#3 false),
   (.word 0x08628D59, .plop .or 3#3 5#3 6#3 false),
   (.word 0x10628D59, .plop .xor 3#3 5#3 6#3 false),
   (.word 0x18628D59, .plop .andn 3#3 5#3 6#3 false),
   (.word 0x20628D59, .plop .orn 3#3 5#3 6#3 false),
   (.word 0x28028D59, .plop .not 0#3 5#3 6#3 false),
   (.word 0x30028D59, .plop .mov 0#3 5#3 6#3 false)]

theorem test_words_scalar2 : ∀ e ∈ scalarWords2, decode e.1 = .ok e.2 := by decide +kernel

/-- Words of the function rows. -/
def functionWords : List (Frame × Instr) :=
  [(.word 0x9AAB1D5D, .fdiv ⟨77#7, 42#7, 99#7, true, false, false, .none⟩),
   (.word 0x09355361, .frcp 1#2 ⟨77#7, 42#7, true, false, .none⟩),
   (.word 0x29355361, .frsq 1#2 ⟨77#7, 42#7, true, false, .none⟩),
   (.word 0x49355361, .fsqrt 1#2 ⟨77#7, 42#7, true, false, .none⟩),
   (.word 0x69355361, .fexp2 1#2 ⟨77#7, 42#7, true, false, .none⟩),
   (.word 0x89355361, .flog2 1#2 ⟨77#7, 42#7, true, false, .none⟩),
   (.word 0xA9355361, .fsinpi 1#2 ⟨77#7, 42#7, true, false, .none⟩),
   (.word 0xC9355361, .fcospi 1#2 ⟨77#7, 42#7, true, false, .none⟩)]

theorem test_words_function : ∀ e ∈ functionWords, decode e.1 = .ok e.2 := by decide +kernel

/-- Words of the system rows. -/
def systemWords1 : List (Frame × Instr) :=
  [(.word 0x080B098D, .wait true 0#6 22#6 4#3 false),
   (.word 0x0001CB91, .bar 3#4 37#6 false),
   (.word 0x0001CB95, .cbar 3#4 37#6 false),
   (.word 0x94AB5799, .copy 2#2 1#2 37#6 22#6 43#6 false),
   (.word 0x04AB019D, .binit 37#6 22#6 false),
   (.word 0x001281A1, .bwait 37#6 false),
   (.word 0x84AB01A5, .mldw 4#3 37#6 22#6 false),
   (.word 0x000001A9, .mswap false),
   (.word 0x64AB0BAD, .mma 3#3 37#6 22#6 5#3 false),
   (.word 0x000001B1, .mfence false),
   (.word 0x000007B5, .mwait false 3#3 false),
   (.word 0x84AB07B9, .mdrain 2#2 37#6 22#6 3#3 false),
   (.word 0x000007BD, .mzero 3#3 false),
   (.word 0x001281C1, .trap 37#6 false),
   (.word 0x000001C5, .rett false),
   (.word 0x001281C9, .bkpt 37#6 false),
   (.word 0x981281CD, .trace 19#5 37#6 false),
   (.word 0x0012ADD1, .ctrrd 37#6 22#6 false),
   (.word 0x000007D5, .progress 3#3 false),
   (.word 0x000001D9, .yield false)]

theorem test_words_system1 : ∀ e ∈ systemWords1, decode e.1 = .ok e.2 := by decide +kernel

/-- Words of the system rows. -/
def systemWords2 : List (Frame × Instr) :=
  [(.word 0x001281DD, .lease 37#6 false),
   (.word 0x001281E1, .sigchk 37#6 false)]

theorem test_words_system2 : ∀ e ∈ systemWords2, decode e.1 = .ok e.2 := by decide +kernel

/-! Single instructions on the lab's gang. The operands and results are the worked examples of the reference entries, or follow by
hand from the rule that each test cites. -/

/-- The lab's gang with vector registers (keyed 32 * register + lane) and scalars. -/
def gangWith (vs : Sparse 32) (ss : Sparse 64) : Gang := { labGang with vregs := vs, sregs := ss }

/-- The issuing gang after an instruction that goes on. -/
def after (i : Instr) (g : Gang) : Option Gang :=
  match exec i (labOf probeLaunch labGroup g labFrag []) with
  | .next t => (cur t).map (fun c => c.gang)
  | _ => none

/-- The same for a TRIPLE launch of seed 0. -/
def after3 (i : Instr) (g : Gang) : Option Gang :=
  match exec i (labOf { probeLaunch with kern := { probeKernel with triple := true } } labGroup
    { g with quads := List.replicate 8 (Quad.start true) } labFrag []) with
  | .next t => (cur t).map (fun c => c.gang)
  | _ => none

/-- Lane `l` of vector register `r`. -/
def vAt (g : Option Gang) (r l : Nat) : Option Word := g.map (fun g => sget (32 * r + l) g.vregs)
/-- A scalar. -/
def sAt (g : Option Gang) (r : Nat) : Option DWord := g.map (fun g => sget r g.sregs)
/-- The saturation flags that the fragment has pending (R75). -/
def satAt (g : Option Gang) : Option (BitVec 7) := (g.bind (fun g => aget 0 g.frags)).map (fun f => f.pendSatf)
/-- The fragment's pc. -/
def pcAt (g : Option Gang) : Option DWord := (g.bind (fun g => aget 0 g.frags)).map (fun f => f.pc)

/-- What an instruction on a path will write to lane `l` of register `r` when it completes (R159). -/
def waitsAt (g : Option Gang) (r l : Nat) : Option Word :=
  (g.bind (fun g => g.ops.head?)).bind (fun o => (o.writes.find? (fun w => w.reg == r && w.lane == l)).map (fun w => w.val))

/-- One register in every lane. -/
def everyLane (r : Nat) (v : Word) : Sparse 32 := (List.range 32).map (fun l => (32 * r + l, v))

/-- R308: the field of 0x0F70 at position 4, length 8, is 0xF7. -/
theorem test_bfx : vAt (after (.bfx ⟨3#7, 2#7, 1#7, false, false, false, .none⟩) (gangWith [(64, 0xF70#32), (96, 0x804#32)] [])) 1 0
    = some 0xFFFFFFF7#32 := by decide +kernel
/-- R308: BFI of 0x0F70 into 0 gives 0x0700. -/
theorem test_bfi : vAt (after (.bfi ⟨3#7, 2#7, 1#7, false, false, false, .none⟩) (gangWith [(64, 0xF70#32), (96, 0x804#32)] [])) 1 0
    = some 0x700#32 := by decide +kernel
/-- R330: IABS.S16X2 of 0x8000_FFF6. -/
theorem test_iabs : vAt (after (.iabs 4#3 ⟨2#7, 1#7, false, false, .none⟩) (gangWith [(64, 0x8000FFF6#32)] [])) 1 0
    = some 0x8000000A#32 := by decide +kernel
/-- R336: the dot product of 30,000s over 400,000,000 clamps and sets SATF.DOT (bit 2, R75). -/
theorem test_idot2 : vAt (after (.idot2 ⟨3#7, 2#7, 8#7, false, false, false, .none⟩) (gangWith [(64, 0x75307530#32), (96, 0x75307530#32)] [])) 8 0
    = some 0x6B49D200#32 := by decide +kernel
theorem test_idot2_clamps : (fun g => (vAt g 8 0, satAt g)) (after (.idot2 ⟨3#7, 2#7, 8#7, false, false, false, .none⟩)
    (gangWith [(64, 0x75307530#32), (96, 0x75307530#32), (256, 400000000#32)] [])) = (some 0x7FFFFFFF#32, some 4#7) := by decide +kernel
/-- R337: the high half of -2^31 times 2, signed and unsigned. -/
theorem test_imulh : vAt (after (.imulh ⟨3#7, 2#7, 1#7, false, false, false, .none⟩) (gangWith [(64, 0x80000000#32), (96, 2#32)] [])) 1 0
    = some 0xFFFFFFFF#32 := by decide +kernel
theorem test_imulh_n32 : vAt (after (.imulh ⟨3#7, 2#7, 1#7, false, false, false, .xi { xi0 with ty := 1#3 }⟩)
    (gangWith [(64, 0x80000000#32), (96, 2#32)] [])) 1 0 = some 1#32 := by decide +kernel
/-- R353: PKS of 40,000 and -5, and of bytes -128, 256 and 5. -/
theorem test_pks : vAt (after (.pks ⟨3#7, 2#7, 1#7, false, false, false, .none⟩) (gangWith [(64, 40000#32), (96, 0xFFFFFFFB#32)] [])) 1 0
    = some 0xFFFB7FFF#32 := by decide +kernel
theorem test_pks_s16x2 : vAt (after (.pks ⟨3#7, 2#7, 1#7, false, false, false, .xi { xi0 with ty := 4#3 }⟩)
    (gangWith [(64, 0x0100FF80#32), (96, 5#32)] [])) 1 0 = some 0x00057F80#32 := by decide +kernel
/-- R355: POPC of 0xF0F0_0001 is 9. -/
theorem test_popc : vAt (after (.popc 0#3 ⟨2#7, 1#7, false, false, .none⟩) (gangWith [(64, 0xF0F00001#32)] [])) 1 0 = some 9#32 := by
  decide +kernel
/-- R328: FTOI.S32.F32.RZ of -3.7 is -3; of 3.0e9 it is the top of the range, and SATF.CVT (bit 6, R75) is pending. -/
theorem test_ftoi : vAt (after (.ftoi .s32 false 1#2 ⟨6#7, 7#7, false, false, .none⟩) (gangWith [(192, 0xC06CCCCD#32)] [])) 7 0
    = some 0xFFFFFFFD#32 := by decide +kernel
theorem test_ftoi_clamps : (fun g => (vAt g 7 0, satAt g)) (after (.ftoi .s32 false 1#2 ⟨6#7, 7#7, false, false, .none⟩)
    (gangWith [(192, 0x4F32D05E#32)] [])) = (some 0x7FFFFFFF#32, some 0x40#7) := by decide +kernel
/-- R324: 3.0 under exponent -58 is 3 x 2^58, and comes back. -/
theorem test_fcvt_to_xs : vAt (after (.fcvtToXs 0#3 ⟨2#7, 4#7, false, false, .xo { xo0 with srcc := 9#7 }⟩)
    (gangWith [(64, 0x40400000#32)] [(9, 0xFFC6#64)])) 5 0 = some 0x0C000000#32 := by decide +kernel
theorem test_fcvt_from_xs : vAt (after (.fcvtFromXs 0#3 ⟨4#7, 6#7, false, false, .xo { xo0 with srcc := 9#7 }⟩)
    (gangWith [(160, 0x0C000000#32)] [(9, 0xFFC6#64)])) 6 0 = some 0x40400000#32 := by decide +kernel
/-- R340: N16X2 65,535 into F16X2 is infinity under RN and 65,504 under RZ. -/
theorem test_itof_f16x2 : vAt (after (.itof 5#3 2#2 ⟨2#7, 1#7, false, false, .none⟩) (gangWith [(64, 65535#32)] [])) 1 0
    = some 0x7C00#32 := by decide +kernel
theorem test_itof_f16x2_rz : vAt (after (.itof 5#3 2#2 ⟨2#7, 1#7, false, false, .xo { xo0 with roe := true, rnd := 1#2 }⟩)
    (gangWith [(64, 65535#32)] [])) 1 0 = some 0x7BFF#32 := by decide +kernel

/-- The worked draw of R319: 1.0 + 2^-24 in a TRIPLE quad rounds to even in lane 3, up in lane 0 and down in lanes 1 and 2. -/
theorem test_fadd_draw : (List.range 4).map (vAt (after3 (.fadd ⟨7#7, 6#7, 5#7, false, false, false, .none⟩)
    (gangWith (everyLane 6 0x3F800000#32 ++ everyLane 7 0x33800000#32) [])) 5)
    = [some 0x3F800001#32, some 0x3F800000#32, some 0x3F800000#32, some 0x3F800000#32] := by decide +kernel
/-- The worked draw of R340: 2^24 + 1. -/
theorem test_itof_draw : (List.range 4).map (vAt (after3 (.itof 0#3 0#2 ⟨2#7, 1#7, false, false, .none⟩) (gangWith (everyLane 2 16777217#32) [])) 1)
    = [some 0x4B800001#32, some 0x4B800000#32, some 0x4B800000#32, some 0x4B800000#32] := by decide +kernel

/-- R376: SLIDE.DOWN by 3 takes lane 29 of the destination from lane 0 of the next register; SLIDE.UP by 2 fills from s7. -/
theorem test_slide_down : (fun g => [waitsAt g 10 0, waitsAt g 10 28, waitsAt g 10 29]) (after (.slideDown 3#5 ⟨4#7, 10#7, false, .none⟩)
    (gangWith [(131, 3#32), (159, 31#32), (160, 32#32)] [])) = [some 3#32, some 31#32, some 32#32] := by decide +kernel
theorem test_slide_up : (fun g => [waitsAt g 10 0, waitsAt g 10 1, waitsAt g 10 5]) (after (.slideFill true 2#5 7#6 ⟨4#7, 10#7, false, .xi { xi0 with imm14 := 7#14 }⟩)
    (gangWith [(131, 3#32)] [(7, 0x1FFFFFFFF#64)])) = [some 0xFFFFFFFF#32, some 0xFFFFFFFF#32, some 3#32] := by decide +kernel

/-- R374: the steps that build a scratch-window address. -/
theorem test_sli : sAt (after (.sli 0xFFFF#16 8#6 false) labGang) 8 = some 0xFFFFFFFFFFFFFFFF#64 := by decide +kernel
theorem test_sli_sh : sAt (after (.sliSh 0x8000#16 8#6 false) (gangWith [] [(8, 0xFFFFFFFFFFFFFFFF#64)])) 8
    = some 0xFFFFFFFFFFFF8000#64 := by decide +kernel
/-- R368: SADD wraps; a source is the destination. -/
theorem test_sadd : sAt (after (.sadd 5#6 4#6 4#6 false) (gangWith [] [(4, 0xFFFFFFFFFFFFFFFF#64), (5, 2#64)])) 4 = some 1#64 := by decide +kernel
/-- R332, R110: the 16-bit ISUB subtracts the source from the destination. -/
theorem test_isub16 : vAt (after (.isub16 2#5 1#6) (gangWith [(32, 5#32), (64, 7#32)] [])) 1 0 = some 0xFFFFFFFE#32 := by decide +kernel
/-- R311: a branch 8 bytes back; CALL saves the next instruction's address in s63. -/
theorem test_bra : pcAt (after (.bra 0x7FFFC#19 false) labGang) = some 0xFFF8#64 := by decide +kernel
theorem test_call : (fun g => (pcAt g, sAt g 63)) (after (.call 0x80#19 false) labGang) = (some 0x10100#64, some 0x10004#64) := by decide +kernel
/-- R369: 0xFFFF_FF80 shifted by 3. -/
theorem test_sar : vAt (after (.sar ⟨3#7, 2#7, 1#7, false, false, false, .none⟩) (gangWith [(64, 0xFFFFFF80#32), (96, 35#32)] [])) 1 0
    = some 0xFFFFFFF0#32 := by decide +kernel
theorem test_shr : vAt (after (.shr ⟨3#7, 2#7, 1#7, false, false, false, .none⟩) (gangWith [(64, 0xFFFFFF80#32), (96, 3#32)] [])) 1 0
    = some 0x1FFFFFF0#32 := by decide +kernel
/-- R74: ISHRR of 0x7FFF_FFFF by 1. -/
theorem test_ishrr : (fun g => (vAt g 1 0, satAt g)) (after (.ishrr ⟨3#7, 2#7, 1#7, false, false, false, .none⟩)
    (gangWith [(64, 0x7FFFFFFF#32), (96, 1#32)] [])) = (some 0x40000000#32, some 0#7) := by decide +kernel
/-- R321: an ordered compare is false of a NaN, and NE is true of one. -/
theorem test_fcmp_nan : ((after (.fcmp 1#4 2#3 ⟨3#7, 2#7, false, false, false, .none⟩) (gangWith [(64, 0x7FC00000#32)] [])).map
    (fun g => sget 2 g.pregs)) = some 1#32 := by decide +kernel
/-- R379: a store enters the store buffer and changes no memory. -/
theorem test_store_waits : (after (.stG ⟨2#3, 4#6, 124#7, 2#7, false, none⟩) (gangWith [(64, 0x1234#32)] [(4, 0x10100#64)])).map
    (fun g => g.sbuf.length) = some 1 := by decide +kernel


/-! The hypotheses of the statements about instructions can be met. Operands stand at their limits: v111 is the last register of this
launch, 119 the last operand-cache slot, a pair ends at v111, s63 is the last scalar. -/

theorem wit_integerRowsWrap :
    (∃ r, intRow (.iadd ⟨110#7, 108#7, 110#7, true, false, true, .xo ⟨2#3, true, 7#3, true, 0#2, false, 0#2, false, false, 63#7⟩⟩) = some r
      ∧ VectorReady (r.b.vop r.t.wide false) cur0 lab0)
    ∧ (∃ r, intRow (.iadd16 31#5 63#6) = some r ∧ VectorReady (r.b.vop r.t.wide false) cur3 lab3)
    ∧ ∃ r, intRow (.imulI ⟨511#9, 119#7, 119#7, false, .xi ⟨7#3, false, 0#3, false, 0x3FFF#14⟩⟩) = some r
      ∧ VectorReady (r.b.vop r.t.wide false) cur3 lab3 :=
  ⟨⟨_, rfl, issues0 _ (by decide), by decide, by decide, by decide⟩, ⟨_, rfl, issues3 _ (by decide), by decide, by decide, by decide⟩,
    ⟨_, rfl, issues3 _ (by decide), by decide, by decide, by decide⟩⟩

theorem wit_saturatingRowsClamp :
    (∃ r, satRow (.iadds ⟨111#7, 0#7, 111#7, false, false, false, .none⟩) = some r ∧ VectorReady (r.b.vop r.t.wide false) cur0 lab0)
    ∧ ∃ r, satRow (.ishrr ⟨119#7, 112#7, 0#7, true, true, true, .xi ⟨4#3, false, 0#3, false, 0#14⟩⟩) = some r
      ∧ VectorReady (r.b.vop r.t.wide false) cur3 lab3 :=
  ⟨⟨_, rfl, issues0 _ (by decide), by decide, by decide, by decide⟩, ⟨_, rfl, issues3 _ (by decide), by decide, by decide, by decide⟩⟩

theorem wit_logicRows :
    (∃ r, bitRow (.and ⟨110#7, 0#7, 110#7, false, false, false, .xi ⟨2#3, false, 0#3, false, 0#14⟩⟩) = some r
      ∧ VectorReady (r.b.vop r.wide false) cur0 lab0)
    ∧ (∃ r, bitRow (.orI ⟨0#9, 111#7, 111#7, false, .none⟩) = some r ∧ VectorReady (r.b.vop r.wide false) cur0 lab0)
    ∧ ∃ r, bitRow (.xor16 0#5 0#6) = some r ∧ VectorReady (r.b.vop r.wide false) cur3 lab3 :=
  ⟨⟨_, rfl, issues0 _ (by decide), by decide, by decide, by decide⟩, ⟨_, rfl, issues0 _ (by decide), by decide, by decide, by decide⟩,
    ⟨_, rfl, issues3 _ (by decide), by decide, by decide, by decide⟩⟩

theorem wit_shiftRows :
    (∃ r, shiftRow (.sar ⟨111#7, 110#7, 110#7, false, false, true, .xi ⟨2#3, false, 0#3, false, 0#14⟩⟩) = some r
      ∧ VectorReady (r.b.vop r.wide false) cur0 lab0)
    ∧ (∃ r, shiftRow (.shlI ⟨511#9, 111#7, 111#7, false, .none⟩) = some r ∧ VectorReady (r.b.vop r.wide false) cur0 lab0)
    ∧ ∃ r, shiftRow (.shr16 31#5 63#6) = some r ∧ VectorReady (r.b.vop r.wide false) cur3 lab3 :=
  ⟨⟨_, rfl, issues0 _ (by decide), by decide, by decide, by decide⟩, ⟨_, rfl, issues0 _ (by decide), by decide, by decide, by decide⟩,
    ⟨_, rfl, issues3 _ (by decide), by decide, by decide, by decide⟩⟩

theorem wit_oneSourceRows :
    (∃ r, oneRow (.mov16 31#5 63#6) = some r ∧ VectorReady r.o cur0 lab0)
    ∧ (∃ r, oneRow (.clz 2#3 ⟨110#7, 110#7, true, true, .none⟩) = some r ∧ VectorReady r.o cur0 lab0)
    ∧ ∃ r, oneRow (.iabs 6#3 ⟨119#7, 119#7, false, false, .none⟩) = some r ∧ VectorReady r.o cur3 lab3 :=
  ⟨⟨_, rfl, issues0 _ (by decide), by decide, by decide, by decide⟩, ⟨_, rfl, issues0 _ (by decide), by decide, by decide, by decide⟩,
    ⟨_, rfl, issues3 _ (by decide), by decide, by decide, by decide⟩⟩

theorem wit_manySourceRows :
    (∃ r, manyRow (.bfi ⟨111#7, 110#7, 110#7, false, false, false, .xo ⟨2#3, false, 0#3, false, 0#2, false, 0#2, false, false, 110#7⟩⟩) = some r
      ∧ r.legal = true ∧ VectorReady r.o cur0 lab0)
    ∧ (∃ r, manyRow (.prmt ⟨111#7, 111#7, 111#7, true, true, true, .xo ⟨0#3, true, 0#3, false, 0#2, false, 0#2, false, true, 111#7⟩⟩) = some r
      ∧ r.legal = true ∧ VectorReady r.o cur3 lab3)
    ∧ ∃ r, manyRow (.pks ⟨0#7, 119#7, 0#7, false, false, false, .xi ⟨5#3, false, 0#3, false, 0#14⟩⟩) = some r
      ∧ r.legal = true ∧ VectorReady r.o cur0 lab0 :=
  ⟨⟨_, rfl, by decide, issues0 _ (by decide), by decide, by decide, by decide⟩,
    ⟨_, rfl, by decide, issues3 _ (by decide), by decide, by decide, by decide⟩,
    ⟨_, rfl, by decide, issues0 _ (by decide), by decide, by decide, by decide⟩⟩

/-- SEL of pairs, its selector p7 complemented. -/
def selTest : A3 := ⟨110#7, 108#7, 110#7, false, false, false, .xo ⟨2#3, true, 7#3, true, 0#2, false, 0#2, false, false, 0#7⟩⟩

theorem wit_selPicksBySelector : selTest.x ≠ Pfx.none ∧ VectorReady (selOp selTest) cur0 lab0 ∧ cur0.guardPoisoned (pfxGuard selTest.x) = false :=
  ⟨by decide, ⟨issues0 _ (by decide), by decide, by decide, by decide⟩, by decide⟩

/-- A TRIPLE launch with a trap handler. -/
def launch3 : Launch := { probeLaunch with kern := { probeKernel with triple := true, handler := some 0x100 } }

/-- Its gang, the siblings of quad 0 holding sums that cancel, NITCFG asking for one action throughout. -/
def cancelGang (cfg : Word) : Gang :=
  { labGang with
    quads := List.replicate 8 (Quad.start true), nitcfg := cfg,
    vregs := [(0, 0x3F800000#32), (1, 0x3F800000#32), (2, 0x3F800001#32), (3, 0x3F800000#32),
              (32, 0xBF800000#32), (33, 0xBF7FFFFF#32), (34, 0xBF800000#32), (35, 0xBF800000#32),
              (64, 0x3F800000#32), (65, 0x3F800000#32), (66, 0x3F800000#32), (67, 0x3F800000#32)] }

/-- The lab with that gang. -/
def cancelLab (cfg : Word) : State := labOf launch3 labGroup (cancelGang cfg) labFrag []
/-- Its issuing fragment. -/
def cancelCur (cfg : Word) : Cur := curOfLab launch3 labGroup (cancelGang cfg) labFrag []

/-- An FADD of v0 and v1. -/
def cancelRow : FloatRow := sumRow false .f32 (fBin (.fadd ⟨1#7, 0#7, 2#7, false, false, false, .none⟩) ⟨1#7, 0#7, 2#7, false, false, false, .none⟩ .f32)

theorem wit_floatRowsRoundOnce :
    (∃ r, floatRow (.ffmaF64 ⟨110#7, 110#7, 110#7, true, true, true, .xo ⟨0#3, true, 7#3, true, 2#2, true, 3#2, false, true, 110#7⟩⟩) = some r
      ∧ VectorReady r.o cur0 lab0 ∧ (r.hits cur0 = [] ∨ nitAction cur0.gang.nitcfg 1 < 2))
    ∧ (∃ r, floatRow (.fscale ⟨119#7, 111#7, 111#7, false, false, false, .xi ⟨2#3, false, 0#3, false, 0#14⟩⟩) = some r
      ∧ VectorReady r.o cur3 lab3 ∧ (r.hits cur3 = [] ∨ nitAction cur3.gang.nitcfg 1 < 2))
    ∧ ∃ r, floatRow (.fmax16 31#5 63#6) = some r ∧ VectorReady r.o cur0 lab0 ∧ (r.hits cur0 = [] ∨ nitAction cur0.gang.nitcfg 1 < 2) :=
  ⟨⟨_, rfl, ⟨issues0 _ (by decide), by decide, by decide, by decide⟩, .inr (by decide)⟩,
    ⟨_, rfl, ⟨issues3 _ (by decide), by decide, by decide, by decide⟩, .inr (by decide)⟩,
    ⟨_, rfl, ⟨issues0 _ (by decide), by decide, by decide, by decide⟩, .inr (by decide)⟩⟩

theorem wit_numericalEventsTrap : floatRow (.fadd ⟨1#7, 0#7, 2#7, false, false, false, .none⟩) = some cancelRow
    ∧ VectorReady cancelRow.o (cancelCur 0x00040A2A#32) (cancelLab 0x00040A2A#32) ∧ cancelRow.hits (cancelCur 0x00040A2A#32) ≠ []
    ∧ nitAction (cancelCur 0x00040A2A#32).gang.nitcfg 1 = 2 ∧ (cancelCur 0x00040A2A#32).handler = some 0x10100#64
    ∧ (cancelCur 0x00040A2A#32).gang.frags.all (fun e => !e.2.inHandler) = true :=
  ⟨rfl, ⟨labOf_issues _ (by decide) _ _ _ _ _, by decide, by decide, by decide⟩, by decide +kernel, by decide, by decide, by decide⟩

theorem wit_numericalEventsHalt : floatRow (.fadd ⟨1#7, 0#7, 2#7, false, false, false, .none⟩) = some cancelRow
    ∧ VectorReady cancelRow.o (cancelCur 0x00040A3F#32) (cancelLab 0x00040A3F#32) ∧ cancelRow.hits (cancelCur 0x00040A3F#32) ≠ []
    ∧ nitAction (cancelCur 0x00040A3F#32).gang.nitcfg 1 = 3 :=
  ⟨rfl, ⟨labOf_issues _ (by decide) _ _ _ _ _, by decide, by decide, by decide⟩, by decide +kernel, by decide⟩

/-- A compare for equality of v0 and v2, of whose siblings one differs. -/
def splitTest : Instr := .icmp 0#4 7#3 ⟨2#7, 0#7, false, false, false, .none⟩
/-- A division of v0 by zero. -/
def zeroDivTest : Instr := .fdiv ⟨3#7, 0#7, 4#7, false, false, false, .none⟩

theorem wit_numericalEvents_cmp : ∀ a ∈ [0x00040A2A#32, 0x00040A3F#32], ∃ r, cmpRow splitTest = some r
    ∧ Issues r.o.i (cancelCur a) (cancelLab a) ∧ (∀ x ∈ r.o.srcs, x.ok (cancelCur a).regs = true)
    ∧ (cancelCur a).poison true (pfxGuard r.o.x) r.o.srcs = false ∧ (cancelCur a).split (r.f (cancelCur a)) ((cancelCur a).act (pfxGuard r.o.x)) ≠ []
    ∧ nitAction (cancelCur a).gang.nitcfg 2 = (if a = 0x00040A2A#32 then 2 else 3) := by
  simp only [List.forall_mem_cons]
  refine ⟨?_, ?_, fun _ h => nomatch h⟩ <;>
    exact ⟨_, rfl, labOf_issues _ (by decide) _ _ _ _ _, by decide, by decide, by decide +kernel, by decide⟩

theorem wit_numericalEvents_divz : ∀ a ∈ [0x00040A2A#32, 0x00040A3F#32], ∃ r, slowRow zeroDivTest = some r
    ∧ VectorReady r.o (cancelCur a) (cancelLab a) ∧ (cancelCur a).gang.counter .x < 63 ∧ divzOf r (cancelCur a) ≠ []
    ∧ nitAction (cancelCur a).gang.nitcfg 3 = (if a = 0x00040A2A#32 then 2 else 3) := by
  simp only [List.forall_mem_cons]
  refine ⟨?_, ?_, fun _ h => nomatch h⟩ <;>
    exact ⟨_, rfl, ⟨labOf_issues _ (by decide) _ _ _ _ _, by decide, by decide, by decide⟩, by decide, by decide +kernel, by decide⟩

/-- The sum that cancels, beside a fragment in the handler, and with no handler. -/
theorem wit_numericalEvents_trapWaits :
    (let f := { labFrag with mask := 0xFFFF0000#32, exec := 0xFFFF0000#32, inHandler := true }
      let c := curOfLab launch3 labGroup (cancelGang 0x00040A2A#32) { labFrag with mask := 0xFFFF#32, exec := 0xFFFF#32 } [(7, f)]
      cancelRow.hits c ≠ [] ∧ nitAction c.gang.nitcfg 1 = 2 ∧ c.handler.isSome = true ∧ c.frag.inHandler = false
      ∧ ∃ e ∈ c.gang.frags, e.2.inHandler = true)
    ∧ (let c := curOfLab { launch3 with kern := { probeKernel with triple := true } } labGroup (cancelGang 0x00040A2A#32) labFrag []
      cancelRow.hits c ≠ [] ∧ nitAction c.gang.nitcfg 1 = 2 ∧ c.handler = none) :=
  ⟨⟨by decide +kernel, by decide, by decide, rfl, _, .tail _ (.head _), rfl⟩, by decide +kernel, by decide, by decide⟩

theorem wit_conversionRows :
    (∃ r, convRow (.fcvt 4#3 0#3 true ⟨110#7, 111#7, true, true, .xo ⟨0#3, true, 0#3, true, 0#2, true, 3#2, true, false, 0#7⟩⟩) = some r
      ∧ VectorReady r.o cur0 lab0)
    ∧ (∃ r, convRow (.ftoi .n64 true 3#2 ⟨110#7, 110#7, false, false, .none⟩) = some r ∧ VectorReady r.o cur0 lab0)
    ∧ ∃ r, convRow (.fcvtFromXs 1#3 ⟨110#7, 110#7, false, false, .xo ⟨0#3, false, 0#3, false, 0#2, true, 2#2, false, false, 63#7⟩⟩) = some r
      ∧ VectorReady r.o cur3 lab3 := by
  refine ⟨⟨_, rfl, issues0 _ ?_, ?_, ?_, ?_⟩, ⟨_, rfl, issues0 _ ?_, ?_, ?_, ?_⟩, ⟨_, rfl, issues3 _ ?_, ?_, ?_, ?_⟩⟩ <;> decide

/-- DIGITS of v111. -/
def digitsTest : AF := ⟨111#7, 111#7, true, false, .none⟩

theorem wit_digitsOfSiblings : let o := afOp (.digits 0#2 digitsTest) digitsTest (Fty.of (0#2).toNat).ix (Fty.of (0#2).toNat).wide false true
    Issues o.i cur3 lab3 ∧ (∀ a ∈ o.srcs, a.ok cur3.regs = true) ∧ dstOk cur3.regs o.dst false = true
    ∧ cur3.guardPoisoned (pfxGuard digitsTest.x) = false ∧ cur3.triple = true
    ∧ (∀ l, l < 32 → digitsReads o cur3 l = true → ∀ a ∈ o.srcs, a.poisoned cur3 l = false)
    ∧ o.acts cur3 31 = true ∧ (cur3.gang.quad (31 / 4)).sib = true ∧ 0 ∈ (Fty.of (0#2).toNat).elems :=
  ⟨issues3 _ (by decide), by decide, by decide, by decide, by decide, by decide +kernel, by decide, by decide, by decide⟩

/-- The largest patterns and the last type code, and a fragment of which only quad 7 is active. -/
theorem wit_numberOperations : 0xFFFFFFFF < 2 ^ Fmt.f32.w ∧ Fmt.f64 ∈ [Fmt.f64, .f32, .f16, .bf16] ∧ 0xFFFFFFFFFFFFFFFF < 2 ^ Fmt.f64.w ∧ 3 < 4
    ∧ (let c := curOfLab probeLaunch labGroup labGang { labFrag with exec := 0x80000000#32 } []
      quadBits c.frag.exec 7 ≠ 0#4 ∧ ∀ k, k < 7 → quadBits c.frag.exec k = 0#4)
    ∧ (0xFFFFFFFFFFFFFFFF < 2 ^ 64 ∧ 0 ∈ Fty.f32.elems) := by decide

theorem wit_digitsCountsAgreement : let o := afOp (.digits 0#2 digitsTest) digitsTest .f32 false false true
    Issues o.i cur3 lab3 ∧ (∀ a ∈ o.srcs, a.ok cur3.regs = true) ∧ dstOk cur3.regs o.dst false = true
    ∧ cur3.guardPoisoned (pfxGuard digitsTest.x) = false
    ∧ ∀ l, l < 32 → digitsReads o cur3 l = true → ∀ a ∈ o.srcs, a.poisoned cur3 l = false :=
  ⟨issues3 _ (by decide), by decide, by decide, by decide, by decide +kernel⟩

/-- A gang one of whose paths counts 62 operations. -/
def fullGang (p : Path) (n : Nat) : Gang := { labGang with ops := (List.range n).map (fun i => PendOp.blank i p 0) }

theorem wit_specialFunctionsCountOnX :
    (∃ r, slowRow (.fdiv ⟨0#7, 111#7, 111#7, true, false, false, .xi ⟨3#3, false, 0#3, false, 0#14⟩⟩) = some r
      ∧ VectorReady r.o (curOfLab launch3 labGroup (fullGang .x 62) labFrag []) (labOf launch3 labGroup (fullGang .x 62) labFrag [])
      ∧ (curOfLab launch3 labGroup (fullGang .x 62) labFrag []).gang.counter .x < 63
      ∧ (divzOf r (curOfLab launch3 labGroup (fullGang .x 62) labFrag []) = []
        ∨ nitAction (curOfLab launch3 labGroup (fullGang .x 62) labFrag []).gang.nitcfg 3 < 2))
    ∧ ∃ r, slowRow (.fsinpi 1#2 ⟨110#7, 110#7, false, true, .none⟩) = some r ∧ VectorReady r.o cur0 lab0
      ∧ cur0.gang.counter .x < 63 ∧ (divzOf r cur0 = [] ∨ nitAction cur0.gang.nitcfg 3 < 2) :=
  ⟨⟨_, rfl, ⟨labOf_issues _ (by decide) _ _ _ _ _, by decide, by decide, by decide⟩, by decide, .inr (by decide)⟩,
    ⟨_, rfl, ⟨issues0 _ (by decide), by decide, by decide, by decide⟩, by decide, .inr (by decide)⟩⟩

theorem wit_comparesWritePredicates :
    (∃ r, cmpRow (.icmp 5#4 7#3 ⟨110#7, 110#7, true, false, true, .xi ⟨2#3, true, 7#3, true, 0#14⟩⟩) = some r ∧ Issues r.o.i cur0 lab0
      ∧ (∀ a ∈ r.o.srcs, a.ok cur0.regs = true) ∧ cur0.poison true (pfxGuard r.o.x) r.o.srcs = false
      ∧ (cur0.split (r.f cur0) (cur0.act (pfxGuard r.o.x)) = [] ∨ nitAction cur0.gang.nitcfg 2 < 2))
    ∧ (∃ r, cmpRow (.icmpI 0#4 0#3 ⟨511#9, 111#7, false, .none⟩) = some r ∧ Issues r.o.i cur0 lab0
      ∧ (∀ a ∈ r.o.srcs, a.ok cur0.regs = true) ∧ cur0.poison true (pfxGuard r.o.x) r.o.srcs = false
      ∧ (cur0.split (r.f cur0) (cur0.act (pfxGuard r.o.x)) = [] ∨ nitAction cur0.gang.nitcfg 2 < 2))
    ∧ ∃ r, cmpRow (.fcmp 7#4 7#3 ⟨111#7, 119#7, false, false, false, .none⟩) = some r ∧ Issues r.o.i cur3 lab3
      ∧ (∀ a ∈ r.o.srcs, a.ok cur3.regs = true) ∧ cur3.poison true (pfxGuard r.o.x) r.o.srcs = false
      ∧ (cur3.split (r.f cur3) (cur3.act (pfxGuard r.o.x)) = [] ∨ nitAction cur3.gang.nitcfg 2 < 2) :=
  ⟨⟨_, rfl, issues0 _ (by decide), by decide, by decide, .inr (by decide)⟩, ⟨_, rfl, issues0 _ (by decide), by decide, by decide, .inr (by decide)⟩,
    ⟨_, rfl, issues3 _ (by decide), by decide, by decide, .inr (by decide)⟩⟩

theorem acting_decides (o : VOp) (c : Cur) (P : Nat → Prop) (h : ∀ l, l < 32 → o.acts c l = true → P l) :
    ∀ l, o.acts c l = true → P l := fun l hl => h l (BitVec.lt_of_getLsbD hl) hl

theorem wit_quickExchanges :
    (∃ r, quickExch (.qswap true 3#2 ⟨110#7, 110#7, true, true, .none⟩) = some r ∧ ExchReady r cur0 lab0)
    ∧ ∃ r, quickExch (.redux 9#4 0#3 ⟨111#7, 0#7, false, false, .none⟩) = some r ∧ ExchReady r cur3 lab3 := by
  refine ⟨⟨_, rfl, ⟨issues0 _ ?_, ?_, ?_, ?_, ?_, fun l hl => ?_⟩⟩, ⟨_, rfl, ⟨issues3 _ ?_, ?_, ?_, ?_, ?_, fun l hl => ?_⟩⟩⟩
  all_goals first | decide | (revert hl; revert l; exact (acting_decides _ _ _ (by decide +kernel)))

theorem wit_slowExchangesCountOnS :
    (∃ r, slowExch (.shfl ⟨111#7, 111#7, 111#7, true, true, true, .none⟩) = some r
      ∧ ExchReady r (curOfLab probeLaunch labGroup (fullGang .s 62) labFrag []) (labOf probeLaunch labGroup (fullGang .s 62) labFrag [])
      ∧ (curOfLab probeLaunch labGroup (fullGang .s 62) labFrag []).gang.counter .s < 63)
    ∧ (∃ r, slowExch (.slideUp 8#5 ⟨110#7, 0#7, false, .none⟩) = some r ∧ ExchReady r cur3 lab3 ∧ cur3.gang.counter .s < 63)
    ∧ ∃ r, slowExch (.slideFill false 31#5 63#6 ⟨119#7, 0#7, false, .xi ⟨0#3, false, 0#3, false, 63#14⟩⟩) = some r
      ∧ ExchReady r cur0 lab0 ∧ cur0.gang.counter .s < 63 := by
  refine ⟨⟨_, rfl, ⟨labOf_issues _ ?_ _ _ _ _ _, ?_, ?_, ?_, ?_, fun l hl => ?_⟩, ?_⟩,
    ⟨_, rfl, ⟨issues3 _ ?_, ?_, ?_, ?_, ?_, fun l hl => ?_⟩, ?_⟩, ⟨_, rfl, ⟨issues0 _ ?_, ?_, ?_, ?_, ?_, fun l hl => ?_⟩, ?_⟩⟩
  all_goals first | decide | (revert hl; revert l; exact (acting_decides _ _ _ (by decide +kernel)))

theorem wit_votesAndBallots :
    (∃ v, voteRow (.voteAll 7#3 7#3 true) = some (some 7#3, 7#3, true, v) ∧ Issues (.voteAll 7#3 7#3 true) cur0 lab0
      ∧ ∀ n, some (7#3) = some n → cur0.frag.exec ≠ 0#32 → cur0.gang.ppoisoned n = false)
    ∧ (∃ v, voteRow (.elect 0#3 false) = some (none, 0#3, false, v) ∧ Issues (.elect 0#3 false) cur3 lab3)
    ∧ Issues (.voteBal 7#3 63#6 false) cur0 lab0 ∧ cur0.gang.ppoisoned 7#3 = false :=
  ⟨⟨_, rfl, issues0 _ (by decide), by decide⟩, ⟨_, rfl, issues3 _ (by decide)⟩, issues0 _ (by decide), by decide⟩

theorem wit_laneScalarMoves_read :
    (∃ r, readlnRow (.readlnImm 31#5 111#7 63#6 true true .none) = some r ∧ Issues r.o.i cur0 lab0
      ∧ (∀ a ∈ r.o.srcs, a.ok cur0.regs = true) ∧ cur0.guardPoisoned (pfxGuard r.o.x) = false ∧ cur0.act (pfxGuard r.o.x) ≠ 0#32
      ∧ (∀ a ∈ r.o.srcs, a.poisoned cur0 (if cur0.triple then r.lane cur0 / 4 * 4 + 3 else r.lane cur0) = false)
      ∧ ∀ n, r.sl = some n → cur0.spoisoned n = false)
    ∧ ∃ r, readlnRow (.readlnScalar 63#6 0#7 63#6 false false (.xi ⟨0#3, true, 7#3, false, 0#14⟩)) = some r ∧ Issues r.o.i cur3 lab3
      ∧ (∀ a ∈ r.o.srcs, a.ok cur3.regs = true) ∧ cur3.guardPoisoned (pfxGuard r.o.x) = false ∧ cur3.act (pfxGuard r.o.x) = 0#32 :=
  ⟨⟨_, rfl, issues0 _ (by decide), by decide, by decide, by decide, by decide, by decide⟩,
    ⟨_, rfl, issues3 _ (by decide), by decide, by decide, by decide⟩⟩

theorem wit_laneScalarMoves_write :
    (∃ r, writelnRow (.writelnImm 31#5 63#6 119#7 false .none) = some r ∧ Issues (.writelnImm 31#5 63#6 119#7 false .none) cur0 lab0
      ∧ regOk cur0.regs r.d.toNat false = true ∧ cur0.guardPoisoned (pfxGuard r.x) = false ∧ r.hits cur0 31 = true
      ∧ cur0.spoisoned r.sa = false)
    ∧ ∃ r, writelnRow (.writelnScalar 63#6 63#6 111#7 true .none) = some r ∧ Issues (.writelnScalar 63#6 63#6 111#7 true .none) cur3 lab3
      ∧ regOk cur3.regs r.d.toNat false = true ∧ cur3.guardPoisoned (pfxGuard r.x) = false
      ∧ (∀ n, r.sl = some n → cur3.spoisoned n = false) ∧ r.hits cur3 0 = true ∧ cur3.spoisoned r.sa = false :=
  ⟨⟨_, rfl, issues0 _ (by decide), by decide, by decide, by decide, by decide⟩,
    ⟨_, rfl, issues3 _ (by decide), by decide, by decide, by decide, by decide, by decide⟩⟩

theorem wit_scalarRowsCompute :
    (∃ r, scalarRow (.ssel 63#6 63#6 63#6 true) = some r ∧ Issues (.ssel 63#6 63#6 63#6 true) cur0 lab0
      ∧ ∀ n ∈ r.reads, cur0.spoisoned n = false)
    ∧ ∃ r, scalarRow (.plopTos 7#3 63#6 false) = some r ∧ Issues (.plopTos 7#3 63#6 false) cur0 lab0
      ∧ (∀ n ∈ r.reads, cur0.spoisoned n = false) ∧ cur0.gang.ppoisoned 7#3 = false :=
  ⟨⟨_, rfl, issues0 _ (by decide), by decide⟩, ⟨_, rfl, issues0 _ (by decide), by decide, by decide⟩⟩

theorem wit_predicateLogic :
    (∃ ok v, plopRow (.plop .andn 7#3 0#3 7#3 false) = some (ok, 7#3, false, v) ∧ Issues (.plop .andn 7#3 0#3 7#3 false) cur0 lab0
      ∧ ok cur0 = true)
    ∧ ∃ ok v, plopRow (.plopFroms 63#6 0#3 true) = some (ok, 0#3, true, v) ∧ Issues (.plopFroms 63#6 0#3 true) cur3 lab3 ∧ ok cur3 = true :=
  ⟨⟨_, _, rfl, issues0 _ (by decide), by decide⟩, ⟨_, _, rfl, issues3 _ (by decide), by decide⟩⟩

theorem wit_specialReads :
    Issues (.sread 5#6 62#6 false) cur0 lab0 ∧ (62#6).toNat % 2 = 0
    ∧ (62#6).toNat + 1 < cur0.regs ∧ Issues (.sread 14#6 63#6 true) cur0 lab0 ∧ (14#6 : BitVec 6) ≠ 5#6 :=
  ⟨issues0 _ (by decide), by decide, by decide, issues0 _ (by decide), by decide⟩

theorem wit_specialWrites :
    (Issues (.swrite 63#6 0#6 true) cur3 lab3 ∧ cur3.spoisoned 63#6 = false
      ∧ (swritten 0#6 cur3 (cur3.s 63#6) (cur3.gang.issue (.swrite 63#6 0#6 true) cur3)).isSome = true)
    ∧ (Issues (.swrite 0#6 13#6 false) cur0 lab0 ∧ cur0.spoisoned 0#6 = false
      ∧ (swritten 13#6 cur0 (cur0.s 0#6) (cur0.gang.issue (.swrite 0#6 13#6 false) cur0)).isSome = true)
    ∧ (Issues (.lease 63#6 false) cur0 lab0 ∧ cur0.spoisoned 63#6 = false)
    ∧ cur lab0 = some cur0 ∧ (14#6).toNat ∈ [0x05, 0x06, 0x07, 0x0A, 0x0C, 0x0E] ∧ 14 < (15#6).toNat
    ∧ Issues (.sread 0x0A#6 63#6 true) cur0 lab0 :=
  ⟨⟨issues3 _ (by decide), by decide, by decide⟩, ⟨issues0 _ (by decide), by decide, by decide⟩, ⟨issues0 _ (by decide), by decide⟩, rfl, by decide, by decide,
    issues0 _ (by decide)⟩

theorem wit_branches : Issues (.bra 0x40000#19 true) cur0 lab0
    ∧ Issues (.braCond 0x3FFFF#19 true 7#3 false) cur0 lab0 ∧ (cur0.frag.exec ≠ 0#32 → cur0.gang.ppoisoned 7#3 = false)
    ∧ someTake cur0 true 7#3 = true ∧ someTake cur0 false 7#3 = false :=
  ⟨issues0 _ (by decide), issues0 _ (by decide), by decide, by decide, by decide⟩

theorem wit_callsAndReturns : Issues (.call 0x40000#19 false) cur0 lab0
    ∧ Issues (.ret true) cur0 lab0 ∧ cur0.spoisoned 63#6 = false ∧ (cur0.s 63#6).getLsbD 0 = false :=
  ⟨issues0 _ (by decide), issues0 _ (by decide), by decide, by decide⟩

/-- A gang whose pair v62 and scalar s63 hold an odd address in every lane. -/
def oddGang : Gang := { labGang with vregs := [(1984, 1#32)], sregs := [(63, 3#64)] }

theorem wit_branchesToRegisters :
    RegBranch (.braReg 62#6 false) 62#6 cur0 lab0 ∧ RegBranch (.callReg 0#6 true) 0#6 cur3 lab3
    ∧ (let c := curOfLab probeLaunch labGroup oddGang labFrag []
      Issues (.braReg 62#6 false) c (labOf probeLaunch labGroup oddGang labFrag []) ∧ (62#6).toNat % 2 = 0 ∧ (62#6).toNat + 1 < c.regs
      ∧ c.vpoisoned (62#6).toNat (targetLane c) = false ∧ c.vpoisoned ((62#6).toNat + 1) (targetLane c) = false
      ∧ (pairAt c 62#6).getLsbD 0 = true ∧ Issues (.callReg 62#6 true) c (labOf probeLaunch labGroup oddGang labFrag [])
      ∧ Issues (.ret false) c (labOf probeLaunch labGroup oddGang labFrag []) ∧ c.spoisoned 63#6 = false
      ∧ (c.s 63#6).getLsbD 0 = true) :=
  ⟨⟨issues0 _ (by decide), by decide, by decide, by decide⟩, ⟨issues3 _ (by decide), by decide, by decide, by decide⟩,
    labOf_issues _ (by decide) _ _ _ _ _, by decide, by decide, by decide, by decide, by decide, labOf_issues _ (by decide) _ _ _ _ _, labOf_issues _ (by decide) _ _ _ _ _,
    by decide, by decide⟩

/-- A gang whose p0 is set in some lanes, quad 0 with a stack of some depth. -/
def brvGang (p0 : Mask) (depth : Nat) : Gang :=
  { labGang with
    pregs := sput 0 p0 [],
    quads := { Quad.start false with
        stack := List.replicate depth { split := 7, second := false, pc := 0#64, notTaken := 0#4, lanes := 0xF#4, xl := 0xF#4 } }
      :: List.replicate 7 (Quad.start false) }

/-- Its issuing fragment in the lab. -/
def brvCur (p0 : Mask) (depth : Nat) : Cur := curOfLab probeLaunch labGroup (brvGang p0 depth) labFrag []

theorem wit_divergentBranchSplits :
    (∀ p0 d, Issues (.brv 0x10#19 false 0#3 false) (brvCur p0 d) (labOf probeLaunch labGroup (brvGang p0 d) labFrag []))
    ∧ (brvCur 0x00000003#32 7).gang.ppoisoned 0#3 = false
    ∧ parts (brvCur 0xFFFFFFFF#32 0) (maskOf (takes (brvCur 0xFFFFFFFF#32 0) false 0#3)) = false
    ∧ (let c := brvCur 0x00000003#32 7
       let t := maskOf (takes c false 0#3)
      parts c t = true ∧ (List.range 8).any (fun k => (aget k c.gang.recs).isNone) = true
      ∧ (List.range 8).all (fun q => !(quadBits c.frag.mask q != 0#4 && quadMixed c t q) || decide ((c.gang.quad q).stack.length < 8)) = true
      ∧ elsewhere c t ≠ 0#32 ∧ (List.range 8).any (fun k => (aget k c.gang.frags).isNone) = true)
    ∧ (let c := brvCur 0x00000003#32 8
       let t := maskOf (takes c false 0#3)
      parts c t = true
      ∧ (List.range 8).all (fun q => !(quadBits c.frag.mask q != 0#4 && quadMixed c t q) || decide ((c.gang.quad q).stack.length < 8)) = false) :=
  ⟨fun _ _ => labOf_issues _ (by decide) _ _ _ _ _, by decide, by decide, by decide, by decide⟩

/-- Two fragments of one split: one stands at REGANG.WAIT, the other waits there. -/
def splitGang : Gang := { labGang with recs := [(0, { origin := 0xFFFFFFFF#32, parent := none, jpc := 0#64 })] }
/-- The one that stands there. -/
def splitFrag : Frag := { labFrag with mask := 0x0000FFFF#32, exec := 0x0000FFFF#32, split := some 0 }
/-- The one that waits. -/
def waitFrag : Frag := { labFrag with pc := 0x10004#64, mask := 0xFFFF0000#32, exec := 0xFFFF0000#32, split := some 0, waiting := true }
/-- The issuing fragment. -/
def splitCur : Cur := curOfLab probeLaunch labGroup splitGang splitFrag [(7, waitFrag)]

theorem quad_none (c : Cur) (h : ∀ x ∈ c.gang.quads, x.stack = []) (q : Nat) : (c.gang.quad q).stack = [] := by
  unfold Gang.quad
  rw [List.getD_eq_getElem?_getD]
  cases hq : c.gang.quads[q]? with
  | none => rfl
  | some x => exact h x (List.mem_of_getElem? hq)

theorem topFor_none (g : Gang) (q k : Nat) (h : (g.quad q).stack = []) : g.topFor q k = none := by
  unfold Gang.topFor
  simp [h]

theorem wit_regangWaitFuses : Issues (.regangWait true) splitCur (labOf probeLaunch labGroup splitGang splitFrag [(7, waitFrag)])
    ∧ splitCur.frag.inHandler = false ∧ splitCur.frag.split = some 0
    ∧ aget 0 splitCur.gang.recs = some { origin := 0xFFFFFFFF#32, parent := none, jpc := 0#64 }
    ∧ (∀ q, splitCur.gang.topFor q 0 = none) ∧ (splitCur.gang.frags.map Prod.fst).Pairwise (· < ·)
    ∧ (∀ e ∈ splitCur.gang.frags, e.1 ≠ splitCur.r.frag → splitCur.gang.descends e.2 0 = true → e.2.waiting = true ∧ e.2.split = some 0)
    ∧ 0xFFFFFFFF#32 = (splitCur.gang.frags.filter (fun e => e.1 == splitCur.r.frag || splitCur.gang.descends e.2 0)).foldl (fun m e => m ||| e.2.mask) 0#32 :=
  ⟨labOf_issues _ (by decide) _ _ _ _ _, rfl, rfl, rfl, fun q => topFor_none _ _ _ (quad_none splitCur (by decide) q), by decide, by decide, by decide⟩

/-- A gang of split 0, whose earlier REGANG.WAIT was at some address, quad 0 with some stack. -/
def turnGang (origin : Mask) (jpc : DWord) (stack : List QEntry) : Gang :=
  { labGang with
    recs := [(0, { origin := origin, parent := none, jpc := jpc })],
    quads := { Quad.start false with stack := stack } :: List.replicate 7 (Quad.start false) }
/-- A fragment of split 0 with some lanes at an address. -/
def turnFrag (pc : DWord) (mask : Mask) (waiting : Bool) : Frag :=
  { labFrag with pc := pc, mask := mask, exec := mask, split := some 0, waiting := waiting }
/-- One of that gang's fragments issues; others are as told. -/
def turnCur (g : Gang) (mask : Mask) (more : AList Frag) : Cur := curOfLab probeLaunch labGroup g (turnFrag 0x10000#64 mask false) more
/-- The lab with it. -/
def turnLab (g : Gang) (mask : Mask) (more : AList Frag) : State := labOf probeLaunch labGroup g (turnFrag 0x10000#64 mask false) more

/-- Quad 0 with lanes 0 and 1 on the first side, or with lanes 2 and 3 on the second. -/
def sideOf (second : Bool) : QEntry :=
  { split := 0, second := second, pc := 0x10040#64, notTaken := 0xC#4, lanes := 0xF#4, xl := if second then 0x3#4 else 0xF#4 }

theorem at_regang (i : Instr) (p : Bool) (h : i.wf = true) (hi : i = .regangWait p ∨ i = .regangTry p) (g : Gang) (x : SplitRec)
    (hx : aget 0 g.recs = some x) (mask : Mask) (more : AList Frag) (ho : (0 :: more.map Prod.fst).Pairwise (· < ·)) :
    AtRegang i p 0 x (turnCur g mask more) (turnLab g mask more) :=
  ⟨labOf_issues i h _ _ _ _ _, hi, rfl, rfl, hx, ho⟩

theorem no_stack (o : Mask) (jpc : DWord) (mask : Mask) (more : AList Frag) (q : Nat) :
    (turnCur (turnGang o jpc []) mask more).gang.topFor q 0 = none :=
  topFor_none _ _ _ (quad_none _ (by decide : ∀ x ∈ Quad.start false :: List.replicate 7 (Quad.start false), x.stack = []) q)

/-- Another fragment of the split runs elsewhere. -/
def farFrag : Frag := turnFrag 0x10008#64 0x00FF0000#32 false
/-- It stands at the issuing fragment's address. -/
def nearFrag : Frag := turnFrag 0x10000#64 0xFF000000#32 false

theorem wit_regangParks : (∃ x, AtRegang (.regangWait true) true 0 x (turnCur (turnGang 0xFFFFFFFF#32 0#64 []) 0xFFFF#32 [(7, farFrag)])
      (turnLab (turnGang 0xFFFFFFFF#32 0#64 []) 0xFFFF#32 [(7, farFrag)]) ∧ x.jpc = 0#64)
    ∧ (∀ q, (turnCur (turnGang 0xFFFFFFFF#32 0#64 []) 0xFFFF#32 [(7, farFrag)]).gang.topFor q 0 = none)
    ∧ ∃ e ∈ kin (turnCur (turnGang 0xFFFFFFFF#32 0#64 []) 0xFFFF#32 [(7, farFrag)]) 0, e.2.waiting = false ∨ e.2.split ≠ some 0 :=
  ⟨⟨_, at_regang _ _ (by decide) (.inl rfl) _ _ rfl _ _ (by decide), rfl⟩, no_stack _ _ _ _, (7, farFrag), by decide, .inl rfl⟩

theorem wit_regangTries : (∀ more ∈ [[(7, farFrag)], [(7, nearFrag)], [(6, farFrag), (7, nearFrag)]],
      (∃ x, AtRegang (.regangTry false) false 0 x (turnCur (turnGang 0xFF00FFFF#32 0#64 []) 0xFFFF#32 more)
        (turnLab (turnGang 0xFF00FFFF#32 0#64 []) 0xFFFF#32 more))
      ∧ ∀ q, (turnCur (turnGang 0xFF00FFFF#32 0#64 []) 0xFFFF#32 more).gang.topFor q 0 = none)
    ∧ standing (turnCur (turnGang 0xFF00FFFF#32 0#64 []) 0xFFFF#32 [(7, farFrag)]) 0 = []
    ∧ (let c := turnCur (turnGang 0xFF00FFFF#32 0#64 []) 0xFFFF#32 [(7, nearFrag)]
      standing c 0 ≠ [] ∧ unionMask ((c.r.frag, c.frag) :: standing c 0) = 0xFF00FFFF#32 ∧ ∀ e ∈ kin c 0, e ∈ standing c 0)
    ∧ (let c := turnCur (turnGang 0xFF00FFFF#32 0#64 []) 0xFFFF#32 [(6, farFrag), (7, nearFrag)]
      standing c 0 ≠ [] ∧ ¬∀ e ∈ kin c 0, e ∈ standing c 0) := by
  refine ⟨?_, by decide, by decide, by decide⟩
  simp only [List.forall_mem_cons]
  refine ⟨?_, ?_, ?_, fun _ h => nomatch h⟩ <;>
    exact ⟨⟨_, at_regang _ _ (by decide) (.inr rfl) _ _ rfl _ _ (by decide)⟩, no_stack _ _ _ _⟩

theorem wit_regangTurns : (∀ i ∈ [Instr.regangWait false, .regangTry false],
      (∃ x, AtRegang i false 0 x (turnCur (turnGang 0xF#32 0#64 [sideOf false]) 0x3#32 []) (turnLab (turnGang 0xF#32 0#64 [sideOf false]) 0x3#32 []))
      ∧ (turnCur (turnGang 0xF#32 0#64 [sideOf false]) 0x3#32 []).frag.mask ≠ 0#32
      ∧ ∀ q, q < 8 → quadBits (turnCur (turnGang 0xF#32 0#64 [sideOf false]) 0x3#32 []).frag.mask q ≠ 0#4 →
        ∃ e, (turnCur (turnGang 0xF#32 0#64 [sideOf false]) 0x3#32 []).gang.topFor q 0 = some e ∧ e.second = false ∧ e.pc = 0x10040#64)
    ∧ (let c := turnCur (turnGang 0xF#32 0#64 [sideOf true]) 0xC#32 []
      (∃ x, AtRegang (.regangWait false) false 0 x c (turnLab (turnGang 0xF#32 0#64 [sideOf true]) 0xC#32 []) ∧ x.jpc = 0#64 ∧ x.origin = 0xF#32)
      ∧ kin c 0 = [] ∧ (∀ q e, q < 8 → quadBits c.frag.mask q ≠ 0#4 → c.gang.topFor q 0 = some e → e.second = true)
      ∧ ∀ q, q < 8 → (quadBits 0xF#32 q, quadBits 0xF#32 q) =
        match quadBits c.frag.mask q != 0#4, c.gang.topFor q 0 with
        | true, some e => (e.lanes, (quadBits c.frag.exec q ||| e.xl) &&& e.lanes)
        | _, _ => (quadBits c.frag.mask q, quadBits c.frag.exec q)) := by
  refine ⟨?_, ⟨_, at_regang _ _ (by decide) (.inl rfl) _ _ rfl _ _ (by decide), rfl, rfl⟩, by decide, ?_, by decide⟩
  · have h : ∀ q, q < 8 → quadBits (turnCur (turnGang 0xF#32 0#64 [sideOf false]) 0x3#32 []).frag.mask q ≠ 0#4 → q = 0 := by decide
    simp only [List.forall_mem_cons]
    refine ⟨⟨⟨_, at_regang _ _ (by decide) (.inl rfl) _ _ rfl _ _ (by decide)⟩, by decide, fun q hq hn => ?_⟩,
      ⟨⟨_, at_regang _ _ (by decide) (.inr rfl) _ _ rfl _ _ (by decide)⟩, by decide, fun q hq hn => ?_⟩, fun _ h => nomatch h⟩ <;>
    · rw [h q hq hn]
      exact ⟨sideOf false, rfl, rfl, rfl⟩
  · intro q e hq hn ht
    have h : ∀ q, q < 8 → quadBits (turnCur (turnGang 0xF#32 0#64 [sideOf true]) 0xC#32 []).frag.mask q ≠ 0#4 → q = 0 := by decide
    rw [h q hq hn] at ht
    cases ht
    rfl

theorem wit_regangFails :
    (∃ x, AtRegang (.regangWait false) false 0 x (turnCur (turnGang 0xFFFF#32 0x10008#64 []) 0xFFFF#32 [])
      (turnLab (turnGang 0xFFFF#32 0x10008#64 []) 0xFFFF#32 []) ∧ x.jpc ≠ 0#64 ∧ x.jpc ≠ 0x10000#64)
    ∧ (let c := turnCur (turnGang 0xFFFF#32 0x10000#64 []) 0xFF#32 []
      (∃ x, AtRegang (.regangWait false) false 0 x c (turnLab (turnGang 0xFFFF#32 0x10000#64 []) 0xFF#32 []) ∧ x.jpc = c.frag.pc
        ∧ unionMask ((c.r.frag, c.frag) :: kin c 0) ≠ x.origin)
      ∧ ∀ e ∈ kin c 0, e.2.waiting = true ∧ e.2.split = some 0)
    ∧ ∀ o jpc m q, (turnCur (turnGang o jpc []) m []).gang.topFor q 0 = none :=
  ⟨⟨_, at_regang _ _ (by decide) (.inl rfl) _ _ rfl _ _ (by decide), by decide, by decide⟩,
    ⟨⟨_, at_regang _ _ (by decide) (.inl rfl) _ _ rfl _ _ (by decide), rfl, by decide⟩, by decide⟩, fun _ _ _ => no_stack _ _ _ _⟩

theorem wit_exitLeavesTheOthers :
    (∀ second, let c := turnCur (turnGang 0xF#32 0#64 [sideOf second]) (if second then 0x1#32 else 0x3#32) []
      Issues (.exit true) c (turnLab (turnGang 0xF#32 0#64 [sideOf second]) (if second then 0x1#32 else 0x3#32) [])
      ∧ c.frag.inHandler = false ∧ c.frag.mask ≠ 0#32 ∧ c.r.frag < 8 ∧ (c.gang.frags.map Prod.fst).Pairwise (· < ·)
      ∧ ∀ q, q < 8 → quadBits c.frag.mask q ≠ 0#4 → ∃ e rest, (c.gang.quad q).stack = e :: rest ∧ e.pc = 0x10040#64
        ∧ (if e.second then e.lanes else e.notTaken) &&& ~~~ quadBits c.frag.mask q ≠ 0#4)
    ∧ (∀ more, Issues (.exit false) (turnCur (turnGang 0xFFFFFFFF#32 0x10000#64 []) 0xFFFF#32 more)
        (turnLab (turnGang 0xFFFFFFFF#32 0x10000#64 []) 0xFFFF#32 more)
      ∧ ∀ q, ((turnCur (turnGang 0xFFFFFFFF#32 0x10000#64 []) 0xFFFF#32 more).gang.quad q).stack = [])
    ∧ (∃ e ∈ kin (turnCur (turnGang 0xFFFFFFFF#32 0x10000#64 []) 0xFFFF#32 [(7, farFrag)]) 0, e.2.waiting = false ∨ e.2.split ≠ some 0)
    ∧ (let c := turnCur (turnGang 0xFFFFFFFF#32 0x10000#64 []) 0xFFFF#32 [(7, turnFrag 0x10004#64 0xFFFF0000#32 true)]
      kin c 0 ≠ [] ∧ (∀ e ∈ kin c 0, e.2.waiting = true ∧ e.2.split = some 0) ∧ unionMask (kin c 0) = 0xFFFFFFFF#32 &&& ~~~ c.frag.mask)
    ∧ (let c := turnCur (turnGang 0xFFFFFFFF#32 0x10000#64 []) 0xFFFF#32 [(7, { farFrag with split := none })]
      kin c 0 = [] ∧ ∃ e ∈ c.gang.frags, e.1 ≠ c.r.frag) := by
  refine ⟨fun second => ⟨labOf_issues _ (by decide) _ _ _ _ _, rfl, by cases second <;> decide, (by decide : 0 < 8), ?_, ?_⟩,
    fun more => ⟨labOf_issues _ (by decide) _ _ _ _ _, fun q => ?_⟩, ⟨(7, farFrag), by decide, .inl rfl⟩, by decide, by decide, (7, _), .tail _ (.head _), by decide⟩
  · exact List.pairwise_singleton _ _
  · have h : ∀ q, q < 8 → quadBits (turnCur (turnGang 0xF#32 0#64 [sideOf second]) (if second then 0x1#32 else 0x3#32) []).frag.mask q ≠ 0#4 → q = 0 := by
      cases second <;> decide
    intro q hq hn
    rw [h q hq hn]
    cases second <;> exact ⟨_, _, rfl, rfl, by decide⟩
  · exact quad_none _ (by decide : ∀ x ∈ Quad.start false :: List.replicate 7 (Quad.start false), x.stack = []) q

/-- A fragment in its trap handler. -/
def handFrag : Frag := { labFrag with inHandler := true }
/-- The issuing fragment. -/
def handCur : Cur := curOfLab launch3 labGroup labGang handFrag []

theorem wit_regangOutsideSplit : Issues (.regangWait false) cur0 lab0 ∧ cur0.frag.split = none
    ∧ Issues (.regangTry true) handCur (labOf launch3 labGroup labGang handFrag []) ∧ handCur.frag.inHandler = true :=
  ⟨issues0 _ (by decide), rfl, labOf_issues _ (by decide) _ _ _ _ _, rfl⟩

theorem wit_exitEndsTheGang : Issues (.exit true) cur0 lab0 ∧ cur0.gang.frags = [(cur0.r.frag, cur0.frag)] ∧ cur0.frag.split = none
    ∧ ∀ q, (cur0.gang.quad q).stack = [] :=
  ⟨issues0 _ (by decide), rfl, rfl, quad_none cur0 (by decide)⟩

/-- The lab with another gang of the same partition, which gave way. -/
def mateLab : State := { lab0 with groups := [(0, { labGroup with gangs := [(0, { labGang with frags := [(0, labFrag)] }), (1, { labGang with yielded := some 7 })] })] }
/-- Its issuing fragment. -/
def mateCur : Cur := { cur0 with grp := { labGroup with gangs := [(0, { labGang with frags := [(0, labFrag)] }), (1, { labGang with yielded := some 7 })] } }

theorem wit_nopRegionAndYield : Issues (.nop true) cur0 lab0 ∧ Issues (.region false) cur0 lab0 ∧ Issues (.yield true) cur0 lab0
    ∧ (Issues (.yield false) mateCur mateLab ∧ keysRise mateLab ∧ ∃ grp gg, { grp := 0, gang := 1 } ≠ gangRefOf mateCur.r
      ∧ aget 0 mateLab.groups = some grp ∧ aget 1 grp.gangs = some gg ∧ gg.yielded = some 7 ∧ gg.partition = mateCur.gang.partition) :=
  ⟨issues0 _ (by decide), issues0 _ (by decide), issues0 _ (by decide), ⟨rfl, by decide⟩, ⟨by decide, by decide⟩, _, _, by decide, rfl, rfl, rfl, rfl⟩

/-- The issuing fragment of a gang with some operations on path W. -/
def countCur (n : Nat) : Cur := curOfLab probeLaunch labGroup (fullGang .w n) labFrag []

theorem wit_waitComparesTheCounter : (∀ n, Issues (.wait false 62#6 0#6 4#3 false) (countCur n) (labOf probeLaunch labGroup (fullGang .w n) labFrag []))
    ∧ (countCur 62).gang.counter .w ≤ (62#6).toNat ∧ (62#6).toNat < (countCur 63).gang.counter .w
    ∧ Issues (.wait true 0#6 63#6 0#3 true) cur0 lab0 ∧ cur0.spoisoned 63#6 = false
    ∧ cur0.gang.counter .g ≤ min 63 (cur0.s 63#6).toNat :=
  ⟨fun _ => labOf_issues _ (by decide) _ _ _ _ _, by decide, by decide, issues0 _ (by decide), by decide, by decide⟩

theorem wit_progressAndTrace : Issues (.progress 7#3 false) cur0 lab0 ∧ Issues (.trace 31#5 63#6 true) cur0 lab0
    ∧ cur0.spoisoned 63#6 = false :=
  ⟨issues0 _ (by decide), issues0 _ (by decide), by decide⟩

theorem wit_sigchkChecksTheSignature : Issues (.sigchk 63#6 false) cur0 lab0 ∧ cur0.spoisoned 63#6 = false ∧ cur0.frag.inHandler = false
    ∧ cur0.frag.sig.toNat = (cur0.s 63#6).toNat % 2 ^ 32
    ∧ Issues (.sigchk 63#6 false) handCur (labOf launch3 labGroup labGang handFrag []) ∧ handCur.frag.inHandler = true
    ∧ (let c := curOfLab probeLaunch labGroup oddGang labFrag []
      Issues (.sigchk 63#6 true) c (labOf probeLaunch labGroup oddGang labFrag []) ∧ c.spoisoned 63#6 = false ∧ c.frag.inHandler = false
      ∧ c.frag.sig.toNat ≠ (c.s 63#6).toNat % 2 ^ 32) :=
  ⟨issues0 _ (by decide), by decide, rfl, by decide, labOf_issues _ (by decide) _ _ _ _ _, rfl, labOf_issues _ (by decide) _ _ _ _ _, by decide, rfl, by decide⟩

/-- The lab with an open counter session of context 1, whose counter 63 counts event 0x0003. -/
def sessionLab : State := { lab0 with mmio := sput 0x1DF8 3#64 (sput 0x1B00 0x80000100#64 lab0.mmio) }

theorem wit_counterReads : Issues (.ctrrd 63#6 63#6 false) cur0 sessionLab ∧ (mreg 0 0x1B00 sessionLab).toNat / 2 ^ 31 % 2 = 1
    ∧ (mreg 0 0x1B00 sessionLab).toNat / 256 % 64 = cur0.ctx.toNat ∧ (mreg 0 0x1DF8 sessionLab).toNat % 65536 ≠ 1
    ∧ ¬((mreg 0 0x1B00 lab0).toNat / 2 ^ 31 % 2 = 1 ∧ (mreg 0 0x1B00 lab0).toNat / 256 % 64 = cur0.ctx.toNat) :=
  ⟨⟨rfl, by decide⟩, by decide, by decide, by decide, by decide⟩

/-- The lab whose context 1 belongs to virtual function 1, with an open session there whose counter 63 counts flits sent. -/
def vfSessionLab : State :=
  { lab0 with mmio := sput 0x11DF8 0x30#64 (sput 0x11B00 0x80000100#64 (sput 0x2030 2#64 (sput 0x2020 0x8000000000000000#64 lab0.mmio))) }

theorem wit_counterReads_vf : Issues (.ctrrd 63#6 63#6 false) cur0 vfSessionLab ∧ ownerFn cur0.ctx vfSessionLab = 1
    ∧ (mreg 1 0x1B00 vfSessionLab).toNat / 2 ^ 31 % 2 = 1 ∧ (mreg 1 0x1B00 vfSessionLab).toNat / 256 % 64 = cur0.ctx.toNat
    ∧ (mreg 1 0x1DF8 vfSessionLab).toNat % 65536 = 0x30 :=
  ⟨⟨rfl, by decide⟩, by decide, by decide, by decide, by decide⟩

/-- The lab of a launch with a trap handler. -/
def trapCur : Cur := curOfLab launch3 labGroup labGang labFrag []

theorem wit_softwareTraps : Issues (.trap 63#6 true) handCur (labOf launch3 labGroup labGang handFrag []) ∧ handCur.frag.inHandler = true
    ∧ Issues (.trap 63#6 false) trapCur (labOf launch3 labGroup labGang labFrag []) ∧ trapCur.handler = some 0x10100#64
    ∧ trapCur.gang.frags.all (fun e => !e.2.inHandler) = true
    ∧ Issues (.trap 0#6 false) cur0 lab0 ∧ cur0.handler = none ∧ cur0.frag.inHandler = false
    ∧ Issues (.bkpt 63#6 true) cur0 lab0 :=
  ⟨labOf_issues _ (by decide) _ _ _ _ _, rfl, labOf_issues _ (by decide) _ _ _ _ _, by decide, by decide, issues0 _ (by decide), by decide, by decide, issues0 _ (by decide)⟩

theorem wit_returnFromTrap : Issues (.rett true) handCur (labOf launch3 labGroup labGang handFrag []) ∧ handCur.frag.inHandler = true
    ∧ noEntrant handCur.gang = true ∧ Issues (.rett false) cur0 lab0 ∧ cur0.frag.inHandler = false :=
  ⟨labOf_issues _ (by decide) _ _ _ _ _, rfl, by decide, issues0 _ (by decide), rfl⟩

theorem wit_badWordsTakeIllop : badWord .illegalHalfword = some 1 ∧ badWord (.illegal 0x7FFFFF#23 true) = some 1
    ∧ badWord (.xpPrefix 0x000001FD#32) = some 1 ∧ badWord (.reservedMajorOpcode 0x000001F5#32) = some 2 ∧ cur lab0 = some cur0
    ∧ 0xFFFFFFFB % 2 = 1 ∧ majorOf 0xFFFFFFFB = 0x7E :=
  ⟨rfl, rfl, rfl, rfl, rfl, by decide, by decide⟩

/-- A row of each kind whose pair is odd, whose destination is no register, or whose constant or scalar has no prefix. -/
def beyondTest : List Instr :=
  [.faddF64 ⟨0#7, 0#7, 111#7, false, false, false, .none⟩, .mov 2#3 ⟨0#7, 111#7, false, false, .none⟩, .and ⟨0#7, 1#7, 125#7, false, false, false, .none⟩,
   .shlI ⟨1#9, 0#7, 120#7, false, .none⟩, .iadd ⟨126#7, 0#7, 1#7, false, false, false, .none⟩, .iadds ⟨127#7, 0#7, 1#7, false, false, false, .none⟩,
   .idot2 ⟨0#7, 1#7, 127#7, false, false, false, .none⟩, .ftoi .n64 true 3#2 ⟨110#7, 119#7, false, false, .none⟩,
   .fdiv ⟨0#7, 1#7, 125#7, false, false, false, .none⟩, .icmp 0#4 2#3 ⟨111#7, 126#7, false, false, false, .none⟩,
   .redux 9#4 0#3 ⟨111#7, 124#7, false, false, .none⟩, .shfl ⟨1#7, 111#7, 124#7, false, false, false, .none⟩,
   .sel { selTest with d := 109#7 }, .digits 1#2 ⟨126#7, 111#7, false, false, .none⟩]

/-- A row of each kind of check that reads v0 or p7. -/
def poisonTest : List Instr :=
  [.fmul ⟨0#7, 1#7, 111#7, false, false, false, .none⟩, .xor ⟨1#7, 0#7, 111#7, false, false, false, .none⟩,
   .fsqrt 0#2 ⟨0#7, 119#7, false, false, .none⟩, .icmp 0#4 0#3 ⟨111#7, 0#7, false, false, false, .none⟩,
   .redux 9#4 0#3 ⟨0#7, 111#7, false, false, .none⟩, .shfl ⟨0#7, 1#7, 111#7, false, false, false, .none⟩,
   .sel selTest, .digits 0#2 ⟨0#7, 111#7, false, false, .none⟩]

/-- A gang whose v0 is poisoned in lane 28, a reference lane, and p7 in lane 31. -/
def poisonGang : Gang := { labGang with vpois := [(0, 0x10000000#32)], ppois := 0x80#8 }
/-- Its issuing fragment. -/
def poisonCur : Cur := curOfLab probeLaunch labGroup poisonGang labFrag []

theorem wit_operandLimits : ∀ i ∈ beyondTest, i.wf = true ∧ ∃ r, limitRow i = some r ∧ Issues i cur0 lab0 ∧ r.ok cur0 = false := by
  simp only [beyondTest, List.forall_mem_cons]
  refine ⟨?_, ?_, ?_, ?_, ?_, ?_, ?_, ?_, ?_, ?_, ?_, ?_, ?_, ?_, fun _ h => nomatch h⟩ <;>
    exact ⟨by decide, _, rfl, issues0 _ (by decide), by decide⟩

theorem wit_operandPoison : ∀ i ∈ poisonTest, ∃ r, limitRow i = some r
    ∧ Issues i poisonCur (labOf probeLaunch labGroup poisonGang labFrag []) ∧ r.ok poisonCur = true ∧ r.poison poisonCur = true := by
  simp only [poisonTest, List.forall_mem_cons]
  refine ⟨?_, ?_, ?_, ?_, ?_, ?_, ?_, ?_, fun _ h => nomatch h⟩ <;>
    exact ⟨_, rfl, labOf_issues _ (by decide) _ _ _ _ _, by decide, by decide +kernel⟩

theorem wit_encodingRoundTrips : ∃ f, (Instr.mma 4#3 63#6 62#6 7#3 true).wf = true ∧ encode (.mma 4#3 63#6 62#6 7#3 true) = some f :=
  ⟨_, by decide, rfl⟩

theorem wit_decodedInstructionsAreWellFormed : decode (frame 0x13FD 0x2DB4 0x2C03 0x0E18) = .ok (.fadd ⟨7#7, 6#7, 5#7, true, false, true, .xo ⟨2#3, true, 5#3, true, 1#2, true, 1#2, false, false, 9#7⟩⟩)
    ∧ 0x000001FC / 2 % 2 = 0 ∧ 0x00000135 % 2 = 1 ∧ majorOf 0x00000135 ∈ [0x4D, 0x4E, 0x4F, 0x7A, 0x7B, 0x7C, 0x7D] :=
  ⟨by decide +kernel, by decide, by decide, by decide⟩

/-- A machine whose first instruction is FADD with an XO word, eight bytes at 0x10000. -/
def fetchLab : State := State.reset.withFetchWord 64 0x0E182C032DB413FD
/-- The fragment that comes to issue. -/
def fetchCur : Cur := { cur0 with grp := labGroup, gang := { labGang with frags := [(0, labFrag)] } }

theorem fetch_half (k v : Nat) (h : resolveVa fetchCur.ctx (fetchCur.frag.pc.toNat + 2 * k) .ex k (atTurn fetchLab) = .at (.phys (0x300000 + 2 * k))
      ∧ badLine (0x300000 + 2 * k) 2 (atTurn fetchLab) = none ∧ fetchWaits (.phys (0x300000 + 2 * k)) (atTurn fetchLab) = false ∧ poisonedAt (.phys (0x300000 + 2 * k)) 2 (atTurn fetchLab) = false
      ∧ v = (sget (0x300000 + 2 * k) (atTurn fetchLab).mem).toNat + 256 * (sget (0x300000 + 2 * k + 1) (atTurn fetchLab).mem).toNat) :
    HalfAt fetchCur k v (atTurn fetchLab) := ⟨⟨_, h⟩⟩

theorem wit_stepRunsTheDecodedInstruction : Picked { grp := 0, gang := 0, frag := 0 } fetchCur fetchLab
    ∧ FetchAt fetchCur 0x13FD 0x2DB4 0x2C03 0x0E18 (atTurn fetchLab)
    ∧ decode (frame 0x13FD 0x2DB4 0x2C03 0x0E18) = .ok (.fadd ⟨7#7, 6#7, 5#7, true, false, true, .xo ⟨2#3, true, 5#3, true, 1#2, true, 1#2, false, false, 9#7⟩⟩) :=
  ⟨⟨rfl, by decide +kernel, rfl, by decide +kernel⟩,
    ⟨fetch_half 0 _ (by decide +kernel), fun _ => fetch_half 1 _ (by decide +kernel), fun _ _ => fetch_half 2 _ (by decide +kernel),
      fun _ _ _ => fetch_half 3 _ (by decide +kernel)⟩, by decide +kernel⟩

/-- A machine whose first instruction is no row: PRMT after a prefix of the wrong layout. -/
def badLab : State := State.reset.withFetchWord 64 0x0A101A79800001FD

theorem bad_half (k v : Nat) (h : resolveVa fetchCur.ctx (fetchCur.frag.pc.toNat + 2 * k) .ex k (atTurn badLab) = .at (.phys (0x300000 + 2 * k))
      ∧ badLine (0x300000 + 2 * k) 2 (atTurn badLab) = none ∧ fetchWaits (.phys (0x300000 + 2 * k)) (atTurn badLab) = false ∧ poisonedAt (.phys (0x300000 + 2 * k)) 2 (atTurn badLab) = false
      ∧ v = (sget (0x300000 + 2 * k) (atTurn badLab).mem).toNat + 256 * (sget (0x300000 + 2 * k + 1) (atTurn badLab).mem).toNat) :
    HalfAt fetchCur k v (atTurn badLab) := ⟨⟨_, h⟩⟩

theorem wit_badWordsTakeIllop_step : Picked { grp := 0, gang := 0, frag := 0 } fetchCur badLab
    ∧ FetchAt fetchCur 0x01FD 0x8000 0x1A79 0x0A10 (atTurn badLab) ∧ decode (frame 0x01FD 0x8000 0x1A79 0x0A10) = .bad .reserved :=
  ⟨⟨rfl, by decide +kernel, rfl, by decide +kernel⟩,
    ⟨bad_half 0 _ (by decide +kernel), fun _ => bad_half 1 _ (by decide +kernel), fun _ _ => bad_half 2 _ (by decide +kernel),
      fun _ _ _ => bad_half 3 _ (by decide +kernel)⟩, by decide +kernel⟩

theorem wit_stepTakesInputs : ∃ (s : State) (rest : List Instr), s.agenda = (Instr.hostLinkDown true) :: rest ∧ (Instr.hostLinkDown true).isInstruction = false :=
  ⟨{ State.reset with agenda := [.hostLinkDown true, .nop false] }, [.nop false], rfl, by decide⟩

theorem wit_stepIdles : State.reset.agenda = [] ∧ turns State.reset = [] := ⟨rfl, by decide⟩

theorem wit_memoryStaysCanonical : fetchLab.mem.wf = true ∧ goesOn fetchLab = true := ⟨by decide +kernel, by decide +kernel⟩

theorem wit_tablesStayInOrder : fetchLab.InOrder ∧ goesOn fetchLab = true :=
  ⟨⟨by decide +kernel, by decide +kernel, by decide +kernel⟩, by decide +kernel⟩

theorem wit_issueAdvances : cur lab0 = some cur0 ∧ cur0.gang.quads.length = 8 ∧ gangOf (gangRefOf cur0.r) lab0 = some cur0.gang :=
  ⟨rfl, rfl, rfl⟩

/-! Loads and stores: the page at virtual address 0x10000 lies at 0x300000, scratch has 4096 bytes. -/

/-- A gang whose s63 holds an address. -/
def baseGang (a : DWord) : Gang := { labGang with sregs := sput 63 a [] }
/-- Its fragment, lanes 0 and 31 active. -/
def baseFrag : Frag := { labFrag with exec := 0x80000001#32 }
/-- The lab with it. -/
def baseLab (a : DWord) : State := labOf probeLaunch labGroup (baseGang a) baseFrag []
/-- Its issuing fragment. -/
def baseCur (a : DWord) : Cur := curOfLab probeLaunch labGroup (baseGang a) baseFrag []

theorem base_issues (i : Instr) (h : i.wf = true) (a : DWord) : Issues i (baseCur a) (baseLab a) := labOf_issues i h _ _ _ _ _

/-- Every look answers. -/
def allOk (l : List (Nat × Look)) : Bool := l.all (fun e => match e.2 with | .ok _ => true | _ => false)

theorem found_all (l : List (Nat × Look)) (h : allOk l = true) : ∀ e ∈ l, ∃ es, e.2 = .ok es := by
  intro e he
  have := List.all_eq_true.mp h e he
  cases hl : e.2 with
  | ok es => exact ⟨es, rfl⟩
  | fault f => rw [hl] at this; cases this
  | miss v => rw [hl] at this; cases this
  | table l => rw [hl] at this; cases this

theorem look_found {l : Look} (h : (match l with | .ok _ => true | _ => false) = true) : ∃ es, l = .ok es := by
  cases l with
  | ok es => exact ⟨es, rfl⟩
  | fault f => cases h
  | miss v => cases h
  | table l => cases h

theorem lines_good {c : Cur} {sp : Space} {l : List Nat} {s : State} (h : ∀ ln ∈ l, fatalLevel ln s = 0) : ∀ ln ∈ l, lineReads c sp ln s :=
  fun ln hl => .inl (h ln hl)

/-- A 16-byte load by acquire at scope system into v108 to v111, at the last 16 bytes of the page. -/
def loadTest : MF := ⟨4#3, 63#6, 0#7, 108#7, true, some ⟨1#2, 4#3, 0#2, false, 0#3, false, false, 0x3FF#10⟩⟩
/-- A byte load from the last byte of scratch. -/
def loadTestS : MF := ⟨5#3, 63#6, 0#7, 111#7, false, none⟩

theorem wit_loadsBindTheirValues :
    (loadRow (.ldG loadTest) = some (.g, loadTest) ∧ LoadReady (.ldG loadTest) .g loadTest (baseCur 0x20000#64) (baseLab 0x20000#64))
    ∧ (loadRow (.ldS loadTestS) = some (.s, loadTestS) ∧ LoadReady (.ldS loadTestS) .s loadTestS (baseCur 0xFFF#64) (baseLab 0xFFF#64))
    ∧ SldReady 3#3 0#2 63#6 63#6 63#6 true (baseCur 0x10000#64) (baseLab 0x10000#64)
    ∧ SldReady 6#3 2#2 0#6 63#6 0#6 false (baseCur 0xFFE#64) (baseLab 0xFFE#64) :=
  ⟨⟨rfl, base_issues _ (by decide) _, by decide, by decide, by decide, by decide +kernel, found_all _ (by decide +kernel),
      lines_good (by decide +kernel), by decide +kernel, by decide⟩,
    ⟨rfl, base_issues _ (by decide) _, by decide, by decide, by decide, by decide +kernel, found_all _ (by decide +kernel),
      lines_good (by decide +kernel), by decide +kernel, by decide⟩,
    ⟨base_issues _ (by decide) _, by decide, by decide, look_found (by decide +kernel), lines_good (by decide +kernel), by decide +kernel, by decide⟩,
    ⟨base_issues _ (by decide) _, by decide, by decide, look_found (by decide +kernel), lines_good (by decide +kernel), by decide +kernel, by decide⟩⟩


theorem wit_loadedWordsAreTheBytesSeen :
    (31, [{ off := 0, len := (mfAccess loadTest .g .rd).size, win := none, planes := [(.phys 0x30FFF0, 0x1FFF0)], digit := none }])
      ∈ loadElems loadTest .g (baseCur 0x20000#64) (baseLab 0x20000#64)
    ∧ 31 ∈ (baseCur 0x20000#64).memLanes ((baseCur 0x20000#64).act (mfAccess loadTest .g .rd).g) := by decide +kernel

/-- A QUAD window of FP32 in scratch. -/
def quadWindow : Window := { base := 0, size := 64, stride := 128, layout := 1, format := 2, esize := 2 }
/-- A MEAN window of FP64 in scratch. -/
def meanWindow : Window := { base := 512, size := 8, stride := 64, layout := 2, format := 1, esize := 3 }
/-- A TRIPLE launch with both. -/
def winLaunch : Launch := { probeLaunch with kern := { probeKernel with triple := true, layouts := [quadWindow, meanWindow] } }
/-- Its gang in the lab, s63 an offset in scratch. -/
def winCur (a : DWord) : Cur := curOfLab winLaunch labGroup { baseGang a with quads := List.replicate 8 (Quad.start true) } labFrag []
/-- The lab with it. -/
def winLab (a : DWord) : State := labOf winLaunch labGroup { baseGang a with quads := List.replicate 8 (Quad.start true) } labFrag []
/-- The last element of the QUAD window. -/
def quadElem : Elem :=
  { off := 0, len := 4, win := some quadWindow, planes := [(.scr 0 60, 60), (.scr 0 188, 188), (.scr 0 316, 316), (.scr 0 444, 444)], digit := none }
/-- The only element of the MEAN window. -/
def meanElem : Elem := { off := 0, len := 8, win := some meanWindow, planes := [(.scr 0 512, 512)], digit := some (.scr 0 576, 576) }

theorem look_is {l : Look} {es : List Elem} (h : (match l with | .ok x => x == es | _ => false) = true) : l = .ok es := by
  cases l with
  | ok x => exact congrArg Look.ok (eq_of_beq h)
  | fault f => cases h
  | miss v => cases h
  | table l => cases h

theorem wit_windowElements :
    lookAt (winCur 60#64) .s .rd 4 .all 60 31 (winLab 60#64) = .ok [quadElem] ∧ lookAt (winCur 0#64) .s .wr 8 .all 512 3 (winLab 0#64) = .ok [meanElem]
    ∧ (31, [quadElem]) ∈ goodLooks ((mfAccess ⟨2#3, 63#6, 0#7, 111#7, false, none⟩ .s .rd).looks .all true (winCur 60#64) (winLab 60#64))
    ∧ (31, [quadElem]) ∈ loadElems ⟨2#3, 63#6, 0#7, 111#7, false, none⟩ .s (winCur 60#64) (winLab 60#64)
    ∧ (31, [meanElem]) ∈ goodLooks ((mfAccess ⟨3#3, 63#6, 0#7, 110#7, false, none⟩ .s .wr).looks .all false (winCur 512#64) (winLab 512#64))
    ∧ winFmt meanWindow = some .f64
    ∧ scalarLook .wr 2#3 2#2 0#6 63#6 (winCur 60#64) (winLab 60#64) = .ok [quadElem] :=
  ⟨look_is (by decide +kernel), look_is (by decide +kernel), by decide +kernel, by decide +kernel, by decide +kernel, rfl, look_is (by decide +kernel)⟩

/-- A release of 16 bytes from v108 to v111 at the last 16 bytes of the page. -/
def storeTest : MF := ⟨4#3, 63#6, 0#7, 108#7, true, some ⟨2#2, 4#3, 0#2, false, 0#3, false, false, 0x3FF#10⟩⟩
/-- A byte store of the zero register at the last byte of scratch. -/
def storeTestS : MF := ⟨0#3, 63#6, 0#7, 124#7, false, none⟩

theorem wit_storesEnterTheBuffer :
    (storeRow (.stG storeTest) = some (.g, storeTest) ∧ StoreReady (.stG storeTest) .g storeTest (baseCur 0x20000#64) (baseLab 0x20000#64))
    ∧ (storeRow (.stS storeTestS) = some (.s, storeTestS) ∧ StoreReady (.stS storeTestS) .s storeTestS (baseCur 0xFFF#64) (baseLab 0xFFF#64))
    ∧ SstReady 3#3 0#2 63#6 63#6 63#6 true (baseCur 0x10000#64) (baseLab 0x10000#64)
    ∧ SstReady 1#3 2#2 0#6 63#6 0#6 false (baseCur 0xFFE#64) (baseLab 0xFFE#64) :=
  ⟨⟨rfl, base_issues _ (by decide) _, by decide, by decide, by decide +kernel, by decide +kernel, found_all _ (by decide +kernel),
      by decide +kernel, by decide +kernel, by decide +kernel, by decide⟩,
    ⟨rfl, base_issues _ (by decide) _, by decide, by decide, by decide +kernel, by decide +kernel, found_all _ (by decide +kernel),
      by decide +kernel, by decide +kernel, by decide +kernel, by decide⟩,
    ⟨base_issues _ (by decide) _, by decide, by decide, look_found (by decide +kernel), by decide +kernel, by decide +kernel, by decide⟩,
    ⟨base_issues _ (by decide) _, by decide, by decide, look_found (by decide +kernel), by decide +kernel, by decide +kernel, by decide⟩⟩

/-- A load in flight that brings v119 and scalar s63. -/
def loadOp : PendOp :=
  { PendOp.blank 5 .g 0 with
    writes := [{ reg := 119, lane := 31, val := 0xFFFFFFFF#32, pois := true }], sdst := some 63#6, sval := 1#64 }
/-- A store of one byte at the last address of the device. -/
def storeEntry : SbEntry :=
  { op := 6, core := 5, space := .g, line := .phys 0x7FFFFFFF80, cells := [(0x7FFFFFFFFF, 0xAB#8)], rel := none, spots := [], cycle := 0#64,
    depth := 0, pc := 0#64, mask := 0#32, frag := 0, ports := none, hostLink := false, by' := .gang 0 0, marks := [] }
/-- A release of one byte of scratch. -/
def releaseEntry : SbEntry := { storeEntry with line := .scr 0 0xF80, cells := [(0xFFF, 0xCD#8)], rel := some 4#3 }
/-- A gang with a load and a store in flight. -/
def flightGang (e : SbEntry) : Gang := { labGang with ops := [loadOp, PendOp.blank 6 .w 0], sbuf := [e, e] }
/-- The lab with it. -/
def flightLab (e : SbEntry) : State := labOf probeLaunch labGroup (flightGang e) labFrag []
/-- Its issuing fragment. -/
def flightCur (e : SbEntry) : Cur := curOfLab probeLaunch labGroup (flightGang e) labFrag []

theorem wit_completionsPerform :
    ((akeys (flightLab storeEntry).groups).Pairwise (· < ·) ∧ Completes { grp := 0, gang := 0 } 5 (flightCur storeEntry).gang loadOp (flightLab storeEntry)
      ∧ loadOp.satXs = false ∧ (∀ e ∈ (flightCur storeEntry).gang.frags, ∀ pc d, e.2.hold ≠ .nitHalt 5 pc d)
      ∧ ((flightCur storeEntry).gang.ended || (flightCur storeEntry).gang.halted) = false)
    ∧ Performs { grp := 0, gang := 0 } (flightCur storeEntry).grp (flightCur storeEntry).gang probeLaunch storeEntry [storeEntry] (flightLab storeEntry)
    ∧ Performs { grp := 0, gang := 0 } (flightCur releaseEntry).grp (flightCur releaseEntry).gang probeLaunch releaseEntry [releaseEntry]
        (flightLab releaseEntry) := by
  refine ⟨⟨by decide, ⟨rfl, rfl, by decide, ⟨rfl, rfl⟩, fun _ h => (nomatch h), fun h => (nomatch h), by decide, by decide, fun _ h => (nomatch h)⟩, rfl, ?_, rfl⟩,
    ⟨rfl, rfl, rfl, rfl, fun _ h => (nomatch h), fun h => (nomatch h), by decide, fun h => absurd rfl h, ?_, rfl⟩,
    ⟨rfl, rfl, rfl, rfl, fun _ h => (nomatch h), fun h => (nomatch h), by decide, fun _ _ => ⟨by decide, fun _ h => (nomatch h)⟩, ?_, rfl⟩⟩
  · intro e he pc d
    cases he with
    | head => exact Hold.noConfusion
    | tail _ h => cases h
  · intro a ha _
    cases ha
    decide +kernel
  · intro a ha
    cases ha

/-- The fragment that waits for the result of operation 5 before its gang halts. -/
def nitFrag : Frag := { labFrag with hold := .nitHalt 5 0xFFFC#64 0x00030001#32 }
/-- The lab with it. -/
def nitLab : State := labOf probeLaunch labGroup (flightGang storeEntry) nitFrag []

theorem wit_numericalEvents_later : ∃ gg grp, Completes { grp := 0, gang := 0 } 5 gg loadOp nitLab ∧ loadOp.satXs = false
    ∧ (gg.ended || gg.halted) = false ∧ gg.frags = [(0, nitFrag)] ∧ nitFrag.hold = .nitHalt 5 0xFFFC#64 0x00030001#32
    ∧ aget 0 nitLab.groups = some grp ∧ (aget grp.launch nitLab.launches).isSome = true :=
  ⟨_, _, ⟨rfl, rfl, by decide, ⟨rfl, rfl⟩, fun _ h => (nomatch h), fun h => (nomatch h), by decide, by decide, fun _ h => (nomatch h)⟩, rfl, rfl, rfl, rfl, rfl, rfl⟩

/-- A 64-bit add into v110 and v111 at the last 8 bytes of the page, released and acquired. -/
def atomTest : AMO := ⟨3#3, 63#6, 0#7, 110#7, true, 3#2, 4#3, 0#2, false, 0#3, false, false, true, 31#5⟩
/-- A compare-and-swap of 4 bytes in scratch, v110 and v111. -/
def casTest : AMO := ⟨2#3, 63#6, 0#7, 110#7, false, 0#2, 0#3, 0#2, false, 0#3, false, false, false, 0#5⟩

theorem each_lane (ls : List AmoLane) (P : Nat → AmoLane → Bool)
    (h : (List.range ls.length).all (fun n => match ls[n]? with | some l => P n l | none => true) = true) :
    ∀ n l, ls[n]? = some l → P n l = true := by
  intro n l hl
  have := List.all_eq_true.mp h n (List.mem_range.mpr (List.getElem?_eq_some_iff.mp hl).1)
  rwa [hl] at this

theorem wit_atomicsPerformAtTheirPlace :
    (atomRow (.atomAdd .g atomTest) = some (0, .g, atomTest) ∧ AtomReady (.atomAdd .g atomTest) 0 .g atomTest (baseCur 0x20000#64) (baseLab 0x20000#64)
      ∧ ¬(atomTest.log = true ∧ (baseCur 0x20000#64).lau.r.order = 4))
    ∧ (atomRow (.acas .s casTest) = some (12, .s, casTest) ∧ AtomReady (.acas .s casTest) 12 .s casTest (baseCur 0xFFC#64) (baseLab 0xFFC#64)
      ∧ ¬(casTest.log = true ∧ (baseCur 0xFFC#64).lau.r.order = 4))
    ∧ poisonedAt (.phys 0x7FFFFFFFF8) 8 lab0 = false :=
  ⟨⟨rfl, ⟨⟨base_issues _ (by decide) _, by decide, by decide, by decide, by decide +kernel, by decide +kernel, found_all _ (by decide +kernel),
      by decide +kernel, by decide +kernel, by decide, by decide, by decide, by decide +kernel, by decide⟩, by decide +kernel,
      each_lane _ (fun _ _ => _) (by decide +kernel)⟩, by decide⟩,
    ⟨rfl, ⟨⟨base_issues _ (by decide) _, by decide, by decide, by decide, by decide +kernel, by decide +kernel, found_all _ (by decide +kernel),
      by decide +kernel, by decide +kernel, by decide, by decide, by decide, by decide +kernel, by decide⟩, by decide +kernel,
      each_lane _ (fun _ _ => _) (by decide +kernel)⟩, by decide⟩, by decide +kernel⟩

/-- The lab with peer node 2 in the fabric group of context 1. -/
def fabricOf (s : State) : State :=
  { s with mmio := sput 0x2400 0x700000#64 s.mmio, mem := putCells (place 0x700801 [1#8]) (putCells (place 0x700810 (toBytes 2 2 ++ toBytes 2 1)) s.mem) }

/-- The same atomic at a peer, and one watched byte short of the end of the group's scratch. -/
theorem wit_atomicsAtAPeer :
    (let c := baseCur 0x1000#64
      let s := fabricOf (baseLab 0x1000#64)
      let i := Instr.atomAdd .f atomTest
      atomRow i = some (0, .f, atomTest) ∧ AtomMay i 0 .f atomTest c s
      ∧ amoLanes (amoAccess atomTest .f) c (atomStart i 0 .f atomTest c s) ≠ []
      ∧ ∀ l ∈ amoLanes (amoAccess atomTest .f) c (atomStart i 0 .f atomTest c s), l.dest.atPeer.isSome = true)
    ∧ (∀ i, i < 8 → watched 1#6 (0x1FFF8 + i) lab0 = false)
    ∧ poisonedAt (.scr 0 0xFF8) 8 lab0 = false ∧ (aget 0 lab0.groups).isSome = true
    ∧ (0xFFFFFFFF < 2 ^ (8 * 4) ∧ 0xFFFFFFFFFFFFFFFF < 2 ^ (8 * 8)) :=
  ⟨⟨rfl, ⟨⟨rfl, by decide⟩, by decide, by decide, by decide, by decide +kernel, by decide +kernel, found_all _ (by decide +kernel),
      by decide +kernel, by decide +kernel, by decide, by decide, by decide, by decide +kernel, by decide⟩, by decide +kernel, by decide +kernel⟩,
    by decide +kernel, by decide +kernel, rfl, by decide⟩

/-- The address of PREF and CMO. -/
def lineTest : AddrF := ⟨63#6, 0#7, true, none⟩
/-- A CMO in flight on the last line of the device. -/
def cmoOp : PendOp := { PendOp.blank 7 .w 0 with isCmo := true, cmoLevel := 2, cmoOp := 1, ranges := [(0x7FFFFFFF80, 128)] }
/-- A gang with it. -/
def cmoGang : Gang := { labGang with ops := [cmoOp] }
/-- The lab with it. -/
def cmoLab : State := labOf probeLaunch labGroup cmoGang labFrag []

theorem bad_none {ln : Nat} {m : AList CLine} (h : m = []) : badDirty ln m = false := by subst h; rfl

theorem wit_cacheRows :
    (Issues (.pref 2#2 lineTest) (baseCur 0x1FF80#64) (baseLab 0x1FF80#64) ∧ (addrAccess lineTest .rd).offOk (baseCur 0x1FF80#64).regs = true
      ∧ ∀ ln ∈ prefReads 2 lineTest (baseCur 0x1FF80#64) (baseLab 0x1FF80#64), fatalLevel ln (baseLab 0x1FF80#64) = 0)
    ∧ (Issues (.cmo 2#2 1#2 lineTest) (baseCur 0x1FFFFFFFFFFFFFF#64) (baseLab 0x1FFFFFFFFFFFFFF#64)
      ∧ (addrAccess lineTest .rd).poisoned (baseCur 0x1FFFFFFFFFFFFFF#64) = false
      ∧ (∀ l ∈ (addrAccess lineTest .rd).threads (baseCur 0x1FFFFFFFFFFFFFF#64), (addrAccess lineTest .rd).ea (baseCur 0x1FFFFFFFFFFFFFF#64) l < 2 ^ 57)
      ∧ (baseCur 0x1FFFFFFFFFFFFFF#64).gang.counter .w < 63)
    ∧ (Issues (.cmoRange 0#2 0#2 62#6 63#6 true) (baseCur 0x200000000000000#64) (baseLab 0x200000000000000#64)
      ∧ (baseCur 0x200000000000000#64).spoisoned 63#6 = false ∧ (baseCur 0x200000000000000#64).spoisoned 62#6 = false
      ∧ (((baseCur 0x200000000000000#64).s 62#6).toNat = 0
        ∨ ((baseCur 0x200000000000000#64).s 63#6).toNat + ((baseCur 0x200000000000000#64).s 62#6).toNat ≤ 2 ^ 57))
    ∧ (Issues (.fence 3#2 4#3 true) cur0 lab0 ∧ cur0.gang.logWaits = false ∧ cur0.gang.counter .w = 0)
    ∧ (Issues (.fence 2#2 0#3 false) (countCur 1) (labOf probeLaunch labGroup (fullGang .w 1) labFrag []) ∧ (countCur 1).gang.counter .w ≠ 0
      ∧ (2#2 : BitVec 2).getLsbD 1 = true)
    ∧ (∃ grp, aget 0 cmoLab.groups = some grp ∧ aget 0 grp.gangs = some { cmoGang with frags := [(0, labFrag)] } ∧ (akeys cmoLab.groups).Pairwise (· < ·)
      ∧ cmoGang.ops.find? (fun x => x.id == 7) = some cmoOp ∧ cmoOp.isCmo = true ∧ cmoOp.done = false
      ∧ (∀ e ∈ cmoGang.sbuf, e.op < cmoOp.id → ∀ a, e.line = .phys a → inRanges cmoOp.ranges (a / 128) = false)
      ∧ ∀ ln, inRanges cmoOp.ranges ln = true → badDirty ln cmoLab.l2 = false ∧ badDirty ln cmoLab.mirror = false) :=
  ⟨⟨base_issues _ (by decide) _, by decide, by decide +kernel⟩, ⟨base_issues _ (by decide) _, by decide, by decide +kernel, by decide⟩,
    ⟨base_issues _ (by decide) _, by decide, by decide, by decide⟩, ⟨issues0 _ (by decide), by decide, by decide⟩,
    ⟨labOf_issues _ (by decide) _ _ _ _ _, by decide, by decide⟩, ⟨_, rfl, rfl, by decide, rfl, rfl, rfl, fun e h => (nomatch h), fun ln _ => ⟨bad_none rfl, bad_none rfl⟩⟩⟩

/-- A group of two gangs, the other of which has arrived at barrier 15 or not. -/
def barGroup (there : Bool) : Group :=
  { labGroup with barriers := List.replicate 15 { arrived := 0#32, phase := false, cbar := false }
      ++ [{ arrived := if there then 2#32 else 0#32, phase := true, cbar := false }] }
/-- The lab with it: gang 0 is to arrive. -/
def barLab (there : Bool) : State :=
  { lab with
    launches := [(0, { probeLaunch with r := { probeRecord with gangs := 2 } })],
    groups := [(0, { barGroup there with gangs := [(0, { labGang with frags := [(0, labFrag)] }), (1, { labGang with gset := 2#32 })] })] }
/-- Its issuing fragment. -/
def barCur (there : Bool) : Cur :=
  { r := { grp := 0, gang := 0, frag := 0 },
    grp := { barGroup there with gangs := [(0, { labGang with frags := [(0, labFrag)] }), (1, { labGang with gset := 2#32 })] },
    gang := { labGang with frags := [(0, labFrag)] }, frag := labFrag, lau := { probeLaunch with r := { probeRecord with gangs := 2 } },
    early := [], earlyS := [] }

theorem bar_ready (b : Bool) : BarReady false 15#4 63#6 true (barCur b) (barLab b) := by
  refine ⟨⟨by cases b <;> rfl, by decide⟩, by cases b <;> decide, by cases b <;> decide, by cases b <;> decide +kernel, by cases b <;> decide,
    by cases b <;> decide, by cases b <;> decide, ?_⟩
  intro k hk g hg
  have h0 : k = 0 := by cases b <;> simpa [barGroups, barCur] using hk
  subst h0
  cases b <;> (cases hg; rfl)

theorem wit_barriersHoldAndRelease :
    (BarReady false 15#4 63#6 true (barCur false) (barLab false)
      ∧ ∃ k ∈ barGroups false (barCur false) (barLab false), ∃ g, aget k (barLab false).groups = some g
        ∧ g.participants &&& ~~~ arrivedWith (barCur false) 15#4 k g ≠ 0#32)
    ∧ (BarReady false 15#4 63#6 true (barCur true) (barLab true)
      ∧ ∀ k ∈ barGroups false (barCur true) (barLab true), ∀ g, aget k (barLab true).groups = some g
        → g.participants &&& ~~~ arrivedWith (barCur true) 15#4 k g = 0#32)
    ∧ BarReady true 0#4 0#6 false cur0 lab0 := by
  refine ⟨⟨bar_ready false, 0, by decide, _, rfl, by decide +kernel⟩, ⟨bar_ready true, ?_⟩,
    ⟨issues0 _ (by decide), by decide, by decide, by decide +kernel, by decide, by decide, by decide, ?_⟩⟩
  · intro k hk g hg
    have h0 : k = 0 := by simpa [barGroups, barCur] using hk
    subst h0
    cases hg
    decide +kernel
  · intro k hk g hg
    have h0 : k = 0 := by
      have : barGroups true cur0 lab0 = [0] := by decide +kernel
      rw [this] at hk
      simpa using hk
    subst h0
    cases hg
    rfl

/-- Gang 1 as it waits at barrier 15 for the status in s62. -/
def heldGang : Gang := { labGang with gset := 2#32, frags := [(5, { labFrag with hold := .bar 15 false 62#6 })] }

theorem wit_barriersRelease : let g := { barGroup true with gangs := [(0, { labGang with frags := [(0, labFrag)] }), (1, heldGang)] }
    let s := { barLab true with groups := [(0, g)] }
    let c := { barCur true with grp := g }
    BarReady false 15#4 63#6 true c s ∧ (∀ k ∈ barGroups false c s, ∀ x, aget k s.groups = some x → x.participants &&& ~~~ arrivedWith c 15#4 k x = 0#32)
    ∧ aget 1 g.gangs = some heldGang ∧ heldGang.halted = false ∧ heldGang.frags = [(5, { labFrag with hold := .bar (15#4 : BitVec 4).toNat false 62#6 })] := by
  refine ⟨⟨⟨rfl, by decide⟩, by decide, by decide, by decide +kernel, by decide, by decide, by decide, ?_⟩, ?_, rfl, rfl, rfl⟩ <;> intro k hk x hx
  all_goals
    have h0 : k = 0 := by simpa [barGroups, barCur] using hk
    subst h0
    cases hx
    rfl

/-- A launch whose pool holds one shape record. -/
def shapeLaunch : Launch := { probeLaunch with poolSize := 64, kinds := [1] }
/-- A gang whose s63 names the last barrier object of scratch. -/
def objGang : Gang := { labGang with sregs := [(63, 0xFF0#64)] }
/-- Its issuing fragment. -/
def objCur : Cur := curOfLab shapeLaunch labGroup objGang labFrag []
/-- The lab with it. -/
def objLab : State := labOf shapeLaunch labGroup objGang labFrag []

/-- A box of two bytes, moved from the end of the page to scratch. -/
def copyTest : CopyOp :=
  { id := 9, grp := 0, gang := 0, frag := 0, pc := 0#64, mask := 0xFFFFFFFF#32, ctx := 1#6, dir := 0#2, op := 0#2,
    shape := { base := 0x1FFF8, ckaddr := 0, format := 0, planes := 0, dims := 1, edgeZero := false, chunk := 0, exact := false, tag := 0#16,
               pstride := 0, ext := [2, 1, 1, 1, 1], box := [2, 1, 1, 1, 1], str := [1, 0, 0, 0, 0] },
    origin := [0, 0, 0, 0, 0], far := 0xFE8, obj := 0xFF0, cycle := 0#64, depth := 0, next := 0, written := 0, format := false, token := none,
    checked := [], olds := [] }
theorem at_found {x : Except XErr Place} {p : Place} (h : (match x with | .ok q => q == p | .error _ => false) = true) : x = .ok p := by
  cases x with
  | ok q => exact congrArg Except.ok (eq_of_beq h)
  | error e => cases h

/-- The lab with it at work in core 0. -/
def copyLab : State := { objLab with cores := [(0, { Core.reset with copies := [copyTest] })] }

theorem wit_copiesAndTheirBarrierObjects :
    CopyReady 3#2 2#2 63#6 63#6 57#6 true objCur objLab
    ∧ BinitReady 0#6 63#6 true objCur objLab
    ∧ (Issues (.bwait 63#6 true) objCur objLab ∧ objCur.spoisoned 63#6 = false ∧ objCur.objAt 63#6 % 16 = 0
      ∧ objCur.objAt 63#6 + 16 ≤ objCur.grp.scrSize ∧ countAt (objCur.objAt 63#6) objCur objLab ≤ 0)
    ∧ (let g := { labGroup with scratch := [(0xFF0, 1#8)] }
      Issues (.bwait 63#6 true) (curOfLab shapeLaunch g objGang labFrag []) (labOf shapeLaunch g objGang labFrag [])
      ∧ 0 < countAt ((curOfLab shapeLaunch g objGang labFrag []).objAt 63#6) (curOfLab shapeLaunch g objGang labFrag [])
        (labOf shapeLaunch g objGang labFrag [])) :=
  ⟨⟨labOf_issues _ (by decide) _ _ _ _ _, by decide, by decide, by decide, by decide +kernel, by decide, by decide, by decide, by decide⟩,
    ⟨labOf_issues _ (by decide) _ _ _ _ _, by decide, by decide +kernel, by decide +kernel, by decide +kernel, by decide⟩,
    ⟨labOf_issues _ (by decide) _ _ _ _ _, by decide, by decide +kernel, by decide +kernel, by decide +kernel⟩,
    labOf_issues _ (by decide) _ _ _ _ _, by decide +kernel⟩

/-- A lab with one copy at work in core 0. -/
def copyLabOf (cp : CopyOp) : State := { objLab with cores := [(0, { Core.reset with copies := [cp] })] }
/-- Two bytes of scratch, written to 0x1FFF8 as one chunk with a header at 0x1FFC0. -/
def chunkTest : CopyOp := { copyTest with dir := 1#2, shape := { copyTest.shape with ckaddr := 0x1FFC0, chunk := 1 } }

theorem copy_turn (cp : CopyOp) (hf : cp.format = false) (hg : cp.grp = 0) (h : (coreOf 0 (copyLabOf cp)).copies.find? (fun x => x.id == cp.id) = some cp)
    (hr : copyReady 0 cp.id (copyLabOf cp) = true) : CopyTurn 0 cp objCur.grp (copyLabOf cp) :=
  ⟨h, hr, hf, by rw [hg]; rfl, _, .head _, rfl⟩

theorem wit_copyMovesAnElement : ∃ v, MovesElements 0 copyTest objCur.grp none [0] [v] [.scr 0 0xFE8] (copyLabOf copyTest) := by
  refine ⟨0, copy_turn _ rfl rfl rfl (by decide +kernel), by decide, rfl, (fun _ h => nomatch h), rfl, ⟨rfl, rfl⟩, ?_, ?_, by decide +kernel, fun h => absurd rfl h,
    ?_, ?_, fun h => absurd rfl h, ?_, by decide⟩
  · intro i hi
    have h0 : i = 0 := by simpa using hi
    subst h0
    exact ⟨0x30FFF8, at_found (by decide +kernel), by decide +kernel, by decide +kernel⟩
  · intro i hi
    have h0 : i = 0 := by simpa using hi
    subst h0
    exact ⟨rfl, by decide⟩
  · intro i j p hi hj hij
    simp only [List.length_singleton] at hi hj
    omega
  · intro q hq x h1 h2
    simp only [List.mem_singleton] at hq
    subst hq
    have : ¬x < 0xFE8 + copyTest.shape.e := by
      have : copyTest.shape.e = 1 := rfl
      have : copyTest.obj = 0xFF0 := rfl
      omega
    simp [holdsByte, this]
  · intro n hn i hi
    exact ⟨fun h => absurd h (by decide), fun h => absurd h (by decide)⟩

theorem wit_copyMovesAChunk : MovesElements 0 chunkTest objCur.grp (some 0) [0, 1] [0, 0] [.phys 0x30FFF8, .phys 0x30FFF9] (copyLabOf chunkTest) := by
  refine ⟨copy_turn _ rfl rfl rfl (by decide +kernel), by decide, by decide, by decide, by decide, ⟨rfl, rfl⟩, ?_, ?_, by decide +kernel, fun h => absurd rfl h,
    ?_, ?_, fun _ _ => ⟨0x30FFC0, at_found (by decide +kernel), by decide +kernel, ?_⟩, ?_, by decide⟩
  · intro i hi
    have h0 : i = 0 ∨ i = 1 := by simp only [List.length_cons, List.length_nil] at hi; omega
    rcases h0 with rfl | rfl <;> exact ⟨by decide, by decide +kernel⟩
  · intro i hi
    have h0 : i = 0 ∨ i = 1 := by simp only [List.length_cons, List.length_nil] at hi; omega
    rcases h0 with rfl | rfl <;> exact at_found (by decide +kernel)
  · intro i j p hi hj hij
    simp only [List.length_cons, List.length_nil] at hi hj
    have he : chunkTest.shape.e = 1 := rfl
    have h0 : (i = 0 ∧ j = 1) ∨ (i = 1 ∧ j = 0) := by omega
    rcases h0 with ⟨rfl, rfl⟩ | ⟨rfl, rfl⟩ <;> cases p <;> simp [holdsByte, he] <;> omega
  · intro q hq x h1 h2
    simp only [List.mem_cons, List.not_mem_nil, or_false] at hq
    rcases hq with rfl | rfl <;> rfl
  · intro q hq x h1 h2
    simp only [List.mem_cons, List.not_mem_nil, or_false] at hq
    have he : chunkTest.shape.e = 1 := rfl
    rcases hq with rfl | rfl <;> simp [holdsByte] <;> omega
  · intro n hn i hi
    refine ⟨fun _ => ?_, fun h => absurd h (by decide)⟩
    simp only [List.mem_cons, List.not_mem_nil, or_false] at hn
    have he : chunkTest.shape.e = 1 := rfl
    have h4 : i = 0 := by omega
    subst h4
    rcases hn with rfl | rfl <;> decide +kernel

theorem wit_copyEngineMovesItsElements :
    (CopyTurn 0 { copyTest with origin := [2, 0, 0, 0, 0] } objCur.grp (copyLabOf { copyTest with origin := [2, 0, 0, 0, 0] })
      ∧ CopyOp.writes { copyTest with origin := [2, 0, 0, 0, 0] } 0 = false)
    ∧ (copyReady 0 9 (copyLabOf { copyTest with format := true }) = true ∧ (copyLabOf { copyTest with format := true }).groups = [(0, objCur.grp)])
    ∧ (∃ f, CopyTurn 0 { copyTest with far := 0x1000 } objCur.grp (copyLabOf { copyTest with far := 0x1000 })
      ∧ CopyFaults 0 { copyTest with far := 0x1000 } objCur.grp f (copyLabOf { copyTest with far := 0x1000 }))
    ∧ copyReady 0 9 (copyLabOf { copyTest with token := some 4 }) = false := by
  refine ⟨⟨copy_turn _ rfl rfl rfl (by decide +kernel), by decide⟩, ⟨by decide +kernel, rfl⟩,
    ⟨_, copy_turn _ rfl rfl rfl (by decide +kernel), .inr (.inr (.inr ⟨by decide, ?_, .inl ⟨by decide, by decide, rfl⟩⟩))⟩, by decide +kernel⟩
  exact ⟨_, (⟨0x30FFF8, at_found (by decide +kernel), by decide +kernel, rfl⟩ : ∃ a, _)⟩

/-- A gang that lists gangs in GSET. -/
def jointGang (gset : Word) : Gang := { labGang with gset := gset }
/-- A launch of two gangs. -/
def twoLaunch : Launch := { probeLaunch with r := { probeRecord with gangs := 2, bx := 64 } }
/-- The lab with that gang as gang 0. -/
def jointLab (gset : Word) : State := labOf twoLaunch labGroup (jointGang gset) labFrag []
/-- Its issuing fragment. -/
def jointCur (gset : Word) : Cur := curOfLab twoLaunch labGroup (jointGang gset) labFrag []

theorem wit_matrixRowsMeetInTheLatch :
    (∃ r, jointRow (.mdrain 3#2 63#6 62#6 7#3 true) = some r ∧ JointReady (.mdrain 3#2 63#6 62#6 7#3 true) r (jointCur 3#32) (jointLab 3#32)
      ∧ 1 < 32 ∧ 1 ≠ (jointCur 3#32).r.gang ∧ (jointCur 3#32).gang.gset.getLsbD 1 = true)
    ∧ (∃ r, jointRow (.mzero 7#3 true) = some r ∧ JointReady (.mzero 7#3 true) r (jointCur 1#32) (jointLab 1#32)
      ∧ (jointCur 1#32).gang.gset = laneBit (jointCur 1#32).r.gang ∧ (r.joint (jointCur 1#32)).check (jointCur 1#32).grp (jointCur 1#32).lau = none
      ∧ (jointCur 1#32).grp.matrix.queue.length < 16)
    ∧ (Issues (.mfence true) cur0 lab0 ∧ cur0.whole = true ∧ ∀ e ∈ cur0.gang.sbuf, ∃ a, e.line = .phys a)
    ∧ (Issues (.mwait true 0#3 false) cur0 lab0 ∧ (∀ o ∈ cur0.grp.matrix.queue, o.id ∉ covered true 0#3 cur0)
      ∧ ∀ d ∈ cur0.gang.deferred, d.joint ∉ covered true 0#3 cur0)
    ∧ (let g := { labGang with joints := [(4, 128, 1)], deferred := [{ joint := 4, cls := 0x03#8, kind := 1#8, access := 2#8, addr := 0xFFF }] }
       let c := curOfLab probeLaunch labGroup g labFrag []
      Issues (.mwait false 7#3 false) c (labOf probeLaunch labGroup g labFrag []) ∧ tileOk 7#3 c = true
      ∧ (∀ o ∈ c.grp.matrix.queue, o.id ∉ covered false 7#3 c)
      ∧ c.gang.deferred.find? (fun d => decide (d.joint ∈ covered false 7#3 c)) = some { joint := 4, cls := 0x03#8, kind := 1#8, access := 2#8, addr := 0xFFF }) :=
  ⟨⟨_, rfl, ⟨⟨labOf_issues _ (by decide) _ _ _ _ _, by decide, by decide, by decide, by decide, by decide, rfl, by decide⟩, rfl⟩, by decide, by decide, by decide⟩,
    ⟨_, rfl, ⟨⟨labOf_issues _ (by decide) _ _ _ _ _, by decide, by decide, by decide, by decide, by decide, rfl, by decide⟩, rfl⟩, by decide, rfl, by decide⟩,
    ⟨issues0 _ (by decide), by decide, fun e h => (nomatch h)⟩, ⟨issues0 _ (by decide), fun o h => (nomatch h), fun d h => (nomatch h)⟩,
    labOf_issues _ (by decide) _ _ _ _ _, by decide, fun o h => (nomatch h), by decide⟩

/-- The same with gang 1, which waits in the latch. -/
def mateGroup : Group :=
  { labGroup with
    matrix := { Matrix.reset with latch := [{ gang := 1, frag := 5, i := .mzero 7#3 true, park := true, gset := 3#32, joint := .mzero 7#3 }] }
    gangs := [(0, { labGang with gset := 3#32, frags := [(0, labFrag)] }), (1, { labGang with gset := 3#32, frags := [(5, { labFrag with hold := .rendezvous })] })] }
/-- The last arriver's fragment. -/
def lastCur : Cur := { r := { grp := 0, gang := 0, frag := 0 }, grp := mateGroup, gang := { labGang with gset := 3#32, frags := [(0, labFrag)] }, frag := labFrag, lau := twoLaunch, early := [], earlyS := [] }
/-- The lab with it. -/
def lastLab : State := { lab with launches := [(0, twoLaunch)], groups := [(0, mateGroup)] }

theorem wit_lastArrives : ∃ r, jointRow (.mzero 7#3 true) = some r ∧ LastArrives (.mzero 7#3 true) r lastCur lastLab
    ∧ (r.joint lastCur).check lastCur.grp lastCur.lau = none ∧ lastCur.grp.matrix.queue.length < 16 := by
  refine ⟨_, rfl, ⟨⟨⟨rfl, by decide⟩, by decide, by decide, by decide, by decide, by decide, rfl, by decide⟩, by decide, by decide, by decide, ?_⟩, by decide, by decide⟩
  intro w hw
  cases hw with
  | head => exact ⟨_, _, rfl, rfl, rfl⟩
  | tail _ h => cases h

/-- A joint instruction at the head of the engine's queue. -/
def jointTest (j : Joint) : JointOp :=
  { id := 3, gset := 1#32, joint := j, fence := [], bad := false, gang := 0, frag := 0, pc := 0x10000#64, mask := 0xFFFFFFFF#32, depth := 0,
    cycle := 0#64, started := false, drained := [], counts := [], exp := none, next := 0, checked := [], token := none, xsSat := false }
/-- A group whose engine holds it. -/
def engineGroup (j : Joint) : Group := { labGroup with matrix := { Matrix.reset with queue := [jointTest j] } }
/-- The lab with it. -/
def engineLab (j : Joint) : State := labOf probeLaunch (engineGroup j) labGang labFrag []

theorem engine_turn (j : Joint) (h : unfenced (curOfLab probeLaunch (engineGroup j) labGang labFrag []).grp (jointTest j) false = false) :
    EngineTurn 0 (curOfLab probeLaunch (engineGroup j) labGang labFrag []).grp probeLaunch (jointTest j) (engineLab j) :=
  ⟨rfl, rfl, rfl, rfl, ⟨rfl, rfl, rfl, h⟩, rfl, ⟨_, .head _, rfl⟩⟩

theorem wit_matrixEngineCompletes : ∀ j ∈ [Joint.mswap, .mldw 4#3 0#64 0#64, .mma 2#3 7#3 0#64 128#64, .mzero 7#3, .mdrain 0#2 7#3 0#64 0#64],
    EngineTurn 0 (curOfLab probeLaunch (engineGroup j) labGang labFrag []).grp probeLaunch (jointTest j) (engineLab j)
    ∧ 127 < (128#64).toNat % 256 ∧ (128#64).toNat % 256 ≤ 128 ∧ 95 < 96 := by
  intro j hj
  refine ⟨?_, by decide, by decide, by decide⟩
  simp only [List.mem_cons, List.not_mem_nil, or_false] at hj
  rcases hj with rfl | rfl | rfl | rfl | rfl <;> exact engine_turn _ (by decide)

/-! Queues, launches, scheduling. -/

/-- The bytes of a launch record for the lab's kernel. -/
def recordTest : List Byte :=
  toBytes 8 1 ++ toBytes 4 0 ++ [0#8, 112#8, 1#8, 16#8] ++ toBytes 2 32 ++ toBytes 2 1 ++ toBytes 2 1 ++ [1#8, 8#8] ++ toBytes 4 1 ++ toBytes 4 1
    ++ toBytes 4 1 ++ toBytes 4 4096 ++ toBytes 8 0 ++ toBytes 8 0 ++ toBytes 8 0 ++ toBytes 4 0 ++ toBytes 2 0 ++ [0#8, 0#8] ++ toBytes 2 1 ++ toBytes 2 0 ++ toBytes 4 0
    ++ toBytes 8 0 ++ toBytes 8 0 ++ toBytes 8 0 ++ toBytes 8 0 ++ toBytes 16 0

/-- A ready device whose queue 63 of context 1 holds that record at 0x400000. -/
def queueLab : State :=
  { State.reset with
    mem := putCells (place 0x400000 recordTest) [],
    mmio := sput 0x17E0 0x400000#64 (sput 0x17E8 0x80000100#64 (sput 0x17F8 1#64 (sput 0x2420 1#64 State.reset.mmio))),
    objects := [(1, { ctx := 1#6, text := 0x10000, pool := [], poolAt := 0, poolSize := 0, kinds := [], kernels := [probeKernel] })] }

theorem takes_record : TakesRecord 0 63 recordTest (parseRecord recordTest) queueLab :=
  ⟨by decide +kernel, by decide +kernel, by decide +kernel, rfl, rfl, rfl⟩

theorem wit_queues :
    (0 ≤ 16 ∧ 63 < 64 ∧ deviceReady queueLab = true ∧ headOf 0 63 queueLab ≤ 1 ∧ 1 ≤ headOf 0 63 queueLab + queueSize 0 63 queueLab
      ∧ headOf 0 63 queueLab + queueSize 0 63 queueLab < 2)
    ∧ deviceReady State.reset = false
    ∧ (TakesRecord 0 63 recordTest (parseRecord recordTest) queueLab
      ∧ (∃ o, aget (parseRecord recordTest).object queueLab.objects = some o ∧ o.ctx = queueCtx 0 63 queueLab
        ∧ o.kernels[(parseRecord recordTest).kernel]? = some probeKernel ∧ recordFaults recordTest (parseRecord recordTest) (some probeKernel) = []
        ∧ (parseRecord recordTest).order ≤ 2))
    ∧ (TakesRecord 0 63 recordTest (parseRecord recordTest) { queueLab with objects := [] }
      ∧ aget (parseRecord recordTest).object { queueLab with objects := [] }.objects = none ∧ (parseRecord recordTest).completion = 0) :=
  ⟨⟨by decide, by decide, by decide, by decide +kernel, by decide +kernel, by decide +kernel⟩, by decide,
    ⟨takes_record, _, rfl, rfl, rfl, by decide +kernel, by decide +kernel⟩,
    ⟨⟨by decide +kernel, by decide +kernel, by decide +kernel, rfl, rfl, rfl⟩, rfl, by decide +kernel⟩⟩

/-- The lab's launch once its only group has ended, its completion record due at the last 16 bytes of the page. -/
def endedLab (a : Nat) : State :=
  { lab0 with groups := [], launches := [(0, { probeLaunch with ended := [0], r := { probeRecord with completion := a } })] }

theorem wit_launchCompletion :
    (∃ l, aget 0 (endedLab 0).launches = some l ∧ launchOver 0 (endedLab 0) = true ∧ completing (endedLab 0) = true ∧ onTrial l.fn (endedLab 0) ≠ some 0
      ∧ l.r.completion = 0)
    ∧ ∃ l, aget 0 (endedLab 0x1FFF0).launches = some l ∧ launchOver 0 (endedLab 0x1FFF0) = true ∧ completing (endedLab 0x1FFF0) = true
      ∧ onTrial l.fn (endedLab 0x1FFF0) ≠ some 0 ∧ l.r.completion ≠ 0 ∧ l.r.completion < 2 ^ 57
      ∧ resolveVa l.ctx l.r.completion .wr 0 (launchGone 0 (endedLab 0x1FFF0)) = .at (.phys 0x30FFF0) :=
  ⟨⟨_, rfl, by decide, by decide, by decide, rfl⟩, ⟨_, rfl, by decide, by decide, by decide, by decide, by decide, by decide +kernel⟩⟩

/-- A launch none of whose groups is dispatched. -/
def freshLab : State := { lab0 with groups := [], launches := [(0, { probeLaunch with dispatched := [], admitted := [] })] }
/-- Its group in the dispatch queue of core 159. -/
def entryLab : State :=
  { freshLab with
    cores := [(159, { Core.reset with dispatchQ := [7] })],
    entries := [(7, { launch := 0, groups := [0], refusals := 0, restore := false, stops := [] })] }

theorem entry_fits : fitEntry { launch := 0, groups := [0], refusals := 0, restore := false, stops := [] } 159 entryLab
    = some [(0, 159, [(0, 0)], [64])] := by
  let d : DecidableEq (List (Nat × Nat × List (Nat × Nat) × List Nat)) := @instDecidableEqList _ inferInstance
  exact of_decide_eq_true (by with_unfolding_all rfl)

theorem wit_dispatchAndAdmit :
    (∃ l u, aget 0 freshLab.launches = some l ∧ dispatching l freshLab = true ∧ l.r.coop = false ∧ l.r.cluster ≤ 1 ∧ l.r.order ≠ 3
      ∧ nextFor l 159 freshLab = some u ∧ coreServes l.fn 159 freshLab = true ∧ entriesOn 159 freshLab < 4)
    ∧ (∃ e l places granules, (coreOf 159 entryLab).dispatchQ = 7 :: [] ∧ aget 7 entryLab.entries = some e ∧ e.restore = false ∧ e.groups = [0]
      ∧ e.stops = [] ∧ aget e.launch entryLab.launches = some l ∧ l.r.cluster ≤ 1 ∧ bankFirst e 159 entryLab = false
      ∧ fitEntry e 159 entryLab = some [(0, 159, places, granules)]) :=
  ⟨⟨_, 0, rfl, by decide, by decide, by decide, by decide, by decide +kernel, by decide +kernel, by decide +kernel⟩,
    ⟨_, _, [(0, 0)], [64], rfl, rfl, rfl, rfl, rfl, rfl, by decide, by decide, entry_fits⟩⟩

/-- The lab with a save pool, and an entry that its matrix group keeps out; the quantum of one unit of 1,024 clocks is over. -/
def poolLab : State :=
  { labOf { probeLaunch with r := { probeRecord with order := 2, quantum := 1 } } labGroup labGang labFrag [] with
    mmio := sput 0x1850 0x500000#64 (sput 0x1858 0x100000#64 lab0.mmio), cycles := 1024#64 :: List.replicate 159 0#64,
    cores := [(0, { Core.reset with dispatchQ := [9] })],
    entries := [(9, { launch := 0, groups := [1], refusals := 0, restore := false, stops := [] })] }

theorem pool_suspends (hold tail : Bool) : ∃ g l,
    Suspends 0 g l { hold := hold, tail := tail, debug := none, base := none } 0x500000 poolLab :=
  ⟨_, _, by decide, rfl, rfl, by decide +kernel, ⟨rfl, rfl, rfl⟩, by cases hold <;> cases tail <;> decide +kernel,
    by cases hold <;> cases tail <;> decide +kernel⟩

theorem wit_suspensions :
    runningLaunch 0 63 poolLab = none
    ∧ (∃ l0, runningLaunch 0 0 poolLab = some (0, l0) ∧ residentOf 0 poolLab = [0])
    ∧ (∀ hold tail, ∃ g l, Suspends 0 g l { hold := hold, tail := tail, debug := none, base := none } 0x500000 poolLab)
    ∧ quantumOver 0 poolLab = true
    ∧ (mreg 0 0x1A10 poolLab).getLsbD 63 = false :=
  ⟨by decide, ⟨_, rfl, rfl⟩, pool_suspends, by decide +kernel, by decide⟩

/-- Two gangs of one partition. -/
def seatLab (a b : Gang) (now : DWord) : State :=
  { lab0 with cycles := now :: List.replicate 159 0#64, groups := [(0, { labGroup with gangs := [(0, { a with partition := 3 }), (1, { b with partition := 3 })] })] }
/-- A gang that declares a lease of 1,000 lines. -/
def leaseGang : Gang := { labGang with leaseDecl := 1000#16 }
/-- A gang that is not active. -/
def idleGang : Gang := { labGang with active := false }
/-- The lab 64 clocks after its gang became ready. -/
def hungryLab : State := { lab0 with waiting := [(.gang { grp := 0, gang := 0 }, 0)], cycles := 64#64 :: List.replicate 159 0#64 }

theorem wit_activation :
    (∃ a gg g l, overflowGang 0 (seatLab leaseGang leaseGang 0#64) = some a ∧ gangOf a.r (seatLab leaseGang leaseGang 0#64) = some gg
      ∧ aget a.r.grp (seatLab leaseGang leaseGang 0#64).groups = some g ∧ aget g.launch (seatLab leaseGang leaseGang 0#64).launches = some l)
    ∧ (∃ a gg, roomGang 0 (seatLab labGang idleGang 0#64) = some a ∧ gangOf a.r (seatLab labGang idleGang 0#64) = some gg)
    ∧ (∃ gg, rotationDue { grp := 0, gang := 1 } (seatLab labGang idleGang 65536#64) = true
      ∧ gangOf { grp := 0, gang := 1 } (seatLab labGang idleGang 65536#64) = some gg)
    ∧ (∃ gg, gangOf { grp := 0, gang := 1 } (seatLab labGang { labGang with window := 2048 } 0#64) = some gg ∧ 2048 ≤ gg.window)
    ∧ (∃ gg, mayStarve { grp := 0, gang := 0 } hungryLab = true ∧ gangOf { grp := 0, gang := 0 } hungryLab = some gg) :=
  ⟨⟨{ r := { grp := 0, gang := 1 }, admitted := 0, partition := 3, lease := 1000, active := true, pinned := false, exempt := false }, _, _, _,
      by decide +kernel, rfl, rfl, rfl⟩,
    ⟨{ r := { grp := 0, gang := 1 }, admitted := 0, partition := 3, lease := 0, active := false, pinned := false, exempt := false }, _,
      by decide +kernel, rfl⟩,
    ⟨_, by decide +kernel, rfl⟩, ⟨_, rfl, by decide⟩, ⟨_, by decide +kernel, rfl⟩⟩

/-- The lab with breakpoint 7 on 0x10000 in context 1. -/
def bpLab : State := { lab0 with mmio := sput 0x1978 0x0600000000010000#64 lab0.mmio }
/-- A turn of the physical function that is over: VF 5, enabled, has the only launch. -/
def sliceLab : State :=
  { lab0 with mmio := sput 0x20A0 0x8000000000000001#64 lab0.mmio, cycles := 65536#64 :: List.replicate 159 0#64,
              launches := [(0, { probeLaunch with fn := 5 })] }
/-- VF 5 is on, and VF 16 would share context 1 with it. -/
def vfLab : State := { lab0 with mmio := sput 0x20A0 0x8000000000000001#64 (sput 0x20B0 2#64 (sput 0x2210 2#64 lab0.mmio)) }

theorem wit_stopsAndSwitches :
    (0x0000000000000000#64).getLsbD 31 = false
    ∧ (∃ g gg, StopsGroup 0 0x80000000#64 0 g lab0 ∧ aget (bits (0x80000000#64).toNat 4 0) g.gangs = some gg)
    ∧ (∃ c, curOf { grp := 0, gang := 0, frag := 0 } bpLab = some c ∧ c.frag.ready = true ∧ bpHit c bpLab = some 7
      ∧ (mreg (ownerFn c.ctx bpLab) (0x1940 + 8 * 7) bpLab).getLsbD 0 = false)
    ∧ (sliceOver sliceLab = true ∧ residentGroups sliceLab.sliceFn sliceLab = [])
    ∧ (1 ≤ 16 ∧ vfOn 16 lab0 = false ∧ vfRefused 16 0x8000000000000001#64 lab0 = false) ∧ vfRefused 16 0x8000000000000001#64 vfLab = true
    ∧ vfOn 5 vfLab = true :=
  ⟨by decide, ⟨_, _, ⟨by decide, ⟨_, _, rfl, rfl⟩, rfl, ⟨_, rfl⟩, rfl, rfl⟩, rfl⟩, ⟨_, rfl, rfl, by decide +kernel, by decide +kernel⟩,
    ⟨by decide +kernel, by decide +kernel⟩, ⟨by decide, by decide, by decide +kernel⟩, by decide +kernel, by decide⟩

/-! Faults, actions, translations. -/

/-- A fault of the lab's fragment whose record is still to be written. -/
def faultRec : FRec :=
  { cls := 0x03#8, kind := 1#8, ctx := 1#6, access := 1#8, launch := 0#64, grp := 0, gang := 0, split := 0, qdepth := 0,
    pc := 0x10000#64, mask := 0xFFFFFFFF#32, detail := 0#32, addr := 0x20000#64 }
/-- Its token. -/
def faultTok : Token :=
  { fn := 0, debug := false, vectorC := false, kind := .frags, frags := [{ grp := 0, gang := 0, frag := 0 }], key := none, record := faultRec,
    written := false, live := true }
/-- The lab with that token 4, its fragment held, an open fault ring of one record, FTOKEN 4. -/
def faultLab (tail : DWord) (written : Bool) : State :=
  { labOf probeLaunch labGroup labGang { labFrag with hold := .fault 4 0x10000#64 } [] with
    tokens := [(4, { faultTok with written := written })], serial := 5,
    mmio := sput 0x1800 0x600000#64 (sput 0x1808 0x80000000#64 (sput 0x1810 5#64 (sput 0x1818 tail (sput 0x1820 4#64 lab0.mmio)))) }

theorem wit_faults :
    (TakesFault 0 4 faultTok (faultLab 5#64 false) ∧ mreg 0 0x1810 (faultLab 5#64 false) = mreg 0 0x1818 (faultLab 5#64 false))
    ∧ (∃ gg f, HeldFor 0 4 { faultTok with written := true } { grp := 0, gang := 0, frag := 0 } gg f 0x10000#64 (faultLab 5#64 true))
    ∧ liveToken 0 (faultLab 5#64 true) = some (4, { faultTok with written := true })
    ∧ liveToken 0 lab0 = none :=
  ⟨⟨⟨by decide, by decide, by decide, by decide +kernel⟩, by decide⟩,
    ⟨_, _, by decide, ⟨rfl, rfl⟩, ⟨by decide, by decide, by decide⟩, .head _, rfl, rfl, rfl⟩, by decide, by decide⟩

/-- The lab while an invalidation of function 0 is under way, and a translation it covers. -/
def tlbLab : State :=
  { lab0 with
    mmio := sput 0x1848 0x40000000#64 lab0.mmio, tlbi := [{ fn := 0, ctx := 1#6, va := 0, size := 65536 }], atsReqs := [(1#6, 0x1FFFFFFFFFFFF)], priReqs := [(1#6, 0)],
    tlb := [{ ctx := 1#6, va := 0, size := 65536, pa := 0, mem := 0, rd := true, wr := true, ex := true }] }

theorem wit_translations : (0x0000000080000129#64).getLsbD 31 = true ∧ (0x0000000080000129#64).getLsbD 6 = false
    ∧ bits (0x0000000080000129#64).toNat 5 0 ≤ 41 ∧ (0x0000000080000140#64).getLsbD 6 = true ∧ (0#64).getLsbD 31 = false
    ∧ tlbiReady 0 tlbLab = true
    ∧ (1#6, (0xFFF#64).toNat / 4096) ∈ tlbLab.priReqs ∧ (1#6, (0x1FFFFFFFFFFFFFFF#64).toNat / 4096) ∈ tlbLab.atsReqs := by decide +kernel

/-- A logged atomic add of lane 31 that waits for its turn. -/
def waitLane : LogLane := { lane := 31, t := 31, icount := 1, va := 0x10000, place := .phys 0x300000 }
/-- What waits. -/
def waitLog : LogWait :=
  { aop := 0, size := 4, operands := [(31, 1, 0)], lanes := [waitLane], dst := 1, acq := none, since := 0, act := 0x80000000#32, frag := 0,
    mask := 0xFFFFFFFF#32, depth := 0, pc := 0x10000#64, virt := true, order := 4, pub := [] }
/-- The operation it belongs to. -/
def waitOp : PendOp := { PendOp.blank 8 .g 0 with log := some waitLog, atomic := true }
/-- A BOUND launch, its log at 0x11000, some of whose records are consumed. -/
def boundLaunch (consumed : List Nat) : Launch :=
  { probeLaunch with r := { probeRecord with order := 4, logbase := 0x11000, logsize := 4096 }, consumed := consumed }
/-- A grant record of a lane of thread 31 (R225). -/
def grantTest (lane seq : Nat) : List Byte :=
  [2#8, 0#8] ++ toBytes 2 lane ++ toBytes 4 31 ++ toBytes 8 0x10000 ++ toBytes 6 1 ++ toBytes 2 0 ++ toBytes 8 seq
/-- A log at 0x301000 with a record of lane 31, and one of lane 0 that comes before it or not. -/
def boundLab (seq : Nat) (consumed : List Nat) (now : DWord) : State :=
  { labOf (boundLaunch consumed) labGroup { labGang with ops := [waitOp] } labFrag [] with
    mem := putCells (place 0x301000 (toBytes 4 0x01474F4C ++ toBytes 4 0 ++ toBytes 8 0 ++ toBytes 8 2))
      (putCells (place 0x301040 (grantTest 31 1 ++ grantTest 0 seq)) lab0.mem), cycles := now :: List.replicate 159 0#64 }
/-- Its issuing fragment. -/
def boundCur (consumed : List Nat) : Cur := curOfLab (boundLaunch consumed) labGroup { labGang with ops := [waitOp] } labFrag []

theorem lane_waits (seq : Nat) (consumed : List Nat) (now : DWord)
    (h : ∀ ln ∈ linesOf [(waitLane.place, waitLog.size)], fatalLevel ln (boundLab seq consumed now) = 0) :
    LaneWaits { grp := 0, gang := 0 } 8 31 (boundCur consumed).grp (boundCur consumed).gang (boundLaunch consumed) waitOp waitLog waitLane
      (boundLab seq consumed now) :=
  ⟨rfl, rfl, rfl, rfl, rfl, rfl, rfl, rfl, h⟩

theorem wit_loggedLanes :
    (LaneWaits { grp := 0, gang := 0 } 8 31 (boundCur []).grp (boundCur []).gang (boundLaunch []) waitOp waitLog waitLane (boundLab 2 [] 0#64)
      ∧ logTurn (boundLaunch []) waitLane (boundLab 2 [] 0#64) = .now 0)
    ∧ (LaneWaits { grp := 0, gang := 0 } 8 31 (boundCur []).grp (boundCur []).gang (boundLaunch []) waitOp waitLog waitLane (boundLab 0 [] 0#64)
      ∧ logTurn (boundLaunch []) waitLane (boundLab 0 [] 0#64) = .later ∧ elapsed (boundCur []).grp.core waitLog.since (boundLab 0 [] 0#64) ≤ 2 ^ 26)
    ∧ (LaneWaits { grp := 0, gang := 0 } 8 31 (boundCur [0]).grp (boundCur [0]).gang (boundLaunch [0]) waitOp waitLog waitLane
        (boundLab 0 [0] 0x4000001#64)
      ∧ logTurn (boundLaunch [0]) waitLane (boundLab 0 [0] 0x4000001#64) = .absent
      ∧ 2 ^ 26 < elapsed (boundCur [0]).grp.core waitLog.since (boundLab 0 [0] 0x4000001#64)) :=
  ⟨⟨lane_waits _ _ _ (by decide +kernel), by decide +kernel⟩, ⟨lane_waits _ _ _ (by decide +kernel), by decide +kernel, by decide +kernel⟩,
    ⟨lane_waits _ _ _ (by decide +kernel), by decide +kernel, by decide +kernel⟩⟩

/-! Debug sessions, registers, tests, the platform. -/

/-- Registers of function 0 as told. -/
def regLab (l : List (Nat × DWord)) : State := { State.reset with mmio := l.foldl (fun m e => sput e.1 e.2 m) State.reset.mmio }
/-- A line of the L2. -/
def lineOf (dirty : Bool) : CLine := { owner := 1#6, dirty := dirty, below := [], flips := 0, stuck := false, seg := 0 }

/-- An open session of the physical function whose counter 63 counts flits sent and stands at its largest value. -/
def wrapLab : State := regLab [(0x1B00, 0x80000000#64), (0x1DF8, 0x10030#64), (0x1FF8, 0xFFFFFFFFFFFF#64)]

theorem wit_debugAndInjection :
    ((mreg 0 0x1A08 State.reset).getLsbD 31 = false ∧ (mreg 0 0x1A08 (regLab [(0x1A08, 0x80000000#64)])).getLsbD 31 = true
      ∧ traceUse 0 (regLab [(0x1A08, 0x80000000#64)]) < 2 ^ min ((mreg 0 0x1A08 (regLab [(0x1A08, 0x80000000#64)])).toNat % 32) 16)
    ∧ (mreg 0 0x1AC0 State.reset).getLsbD 63 = false
    ∧ ((mreg 0 0x1B00 wrapLab).getLsbD 31 = true
      ∧ running 0 wrapLab = true
      ∧ countedCode 0 ((mreg 0 (0x1C00 + 8 * (63#6).toNat) wrapLab).toNat % 65536) = true
      ∧ mreg 0 (0x1E00 + 8 * (63#6).toNat) wrapLab = 0xFFFFFFFFFFFF#64)
    ∧ ((0x80000032#64).getLsbD 31 = true ∧ bits (0x80000032#64).toNat 1 0 = 2 ∧ bits (0x80000032#64).toNat 5 4 = 3
      ∧ isRetired (128 * bits (mreg 0 0x2608 State.reset).toNat 38 7) State.reset = false
      ∧ aget (bits (mreg 0 0x2608 State.reset).toNat 38 7) State.reset.hbmFlips = none)
    ∧ ((0x90000011#64).getLsbD 31 = true ∧ bits (0x90000011#64).toNat 1 0 = 1 ∧ bits (0x90000011#64).toNat 5 4 = 1
      ∧ aget 0 { State.reset with l2 := [(0, lineOf true)] }.l2 = some (lineOf true) ∧ (lineOf true).flips = 0)
    ∧ aget (bits (mreg 0 0x2608 State.reset).toNat 38 7) State.reset.l2 = none := by
  refine ⟨?_, ?_, ?_, ?_, ?_, ?_⟩ <;> decide +kernel

theorem wit_reliability :
    ((coreOf 159 { State.reset with cores := [(159, { Core.reset with busy := 0x8000#16 })] }).busy.getLsbD (15#4).toNat = true
      ∧ overflowGang 159 { State.reset with cores := [(159, { Core.reset with busy := 0x8000#16 })] } = none)
    ∧ (∃ grp gg l, aget 0 lab0.groups = some grp ∧ aget 0 grp.gangs = some gg ∧ aget grp.launch lab0.launches = some l ∧ grp.ended = false
      ∧ gg.ended = false ∧ gg.halted = false ∧ (111#7).toNat < l.r.regs ∧ (111#7).toNat < 112 ∧ (akeys lab0.groups).Pairwise (· < ·)
      ∧ (aget (0#3).toNat gg.frags).isSome = true)
    ∧ (3 < 4 ∧ Segment.regBank 159 3 3 ∈ { State.reset with quiescing := [.regBank 159 3 3] }.quiescing
      ∧ quiesceGroups (.regBank 159 3 3) { State.reset with quiescing := [.regBank 159 3 3] } = [])
    ∧ (Segment.matrixSeg 0 7 ∈ { State.reset with testing := [.matrixSeg 0 7] }.testing)
    ∧ ({ State.reset with ringmasterBoot := true }.ringmasterBoot = true ∧ { State.reset with ringmasterBoot := true }.restarting = false)
    ∧ ({ State.reset with ringmasterBoot := true, restarting := true }.restarting = true
      ∧ { State.reset with ringmasterBoot := true, restarting := true }.quiescing = []
      ∧ { State.reset with ringmasterBoot := true, restarting := true }.testing = []) :=
  ⟨by decide, ⟨_, _, _, rfl, rfl, rfl, rfl, rfl, rfl, by decide, by decide, by decide, rfl⟩, by decide, by decide, by decide, by decide⟩

/-- A flit of context 1 that reads 8 bytes at the end of the lab's page. -/
def flitTest (op : FlitOp) : Flit :=
  { crcOk := true, type := 1#8, vc := 3#2, seq := 0#12, dst := 0#16, src := 2#16, ctx := 1#6, op := op }

theorem wit_platform :
    (mreg 0 0x2420 State.reset = 0#64 ∧ State.reset.power = .d0 ∧ State.reset.restarting = false ∧ State.reset.ringmasterBoot = false)
    ∧ (State.reset.links ≠ 0#2 ∧ { State.reset with power := .d3cold }.power = .d3cold ∧ State.reset.groups = []
      ∧ ∀ ln, badDirty ln State.reset.l2 = false ∧ badDirty ln State.reset.mirror = false)
    ∧ (8 ≤ State.reset.clockSteps ∧ State.reset.clockSteps ≤ 32)
    ∧ (0 < 1 ∧ 0x7FFFFFFFFF + 1 ≤ 2 ^ 39 ∧ LinesGood 0x7FFFFFFFFF 1 State.reset)
    ∧ (0x7FFFFFFFFF + [0xAB#8].length ≤ 2 ^ 39 ∧ [0xAB#8] ≠ ([] : List Byte))
    ∧ (0x7FFFFFFFFF < 2 ^ 39 ∧ aget (0x7FFFFFFFFF / 128) State.reset.l2 = none ∧ aget (0x7FFFFFFFFF / 128) State.reset.mirror = none)
    ∧ (aget 0 { State.reset with l2 := [(0, lineOf false)] }.l2 = some (lineOf false) ∧ (lineOf false).dirty = false) := by
  refine ⟨by decide, ⟨by decide, rfl, rfl, fun ln => ⟨rfl, rfl⟩⟩, by decide, ⟨by decide, by decide, ?_⟩, by decide, by decide, by decide⟩
  intro ln h1 h2
  have : ln = 0x7FFFFFFFFF / 128 := by omega
  subst this
  decide +kernel

/-- The lab with a peer. -/
def fabricLab : State := fabricOf lab0

theorem places_ok (x : Except FReq (List Nat)) (l : List Nat) (h : (match x with | .ok q => q == l | .error _ => false) = true) : x = .ok l := by
  cases x with
  | ok q => exact congrArg Except.ok (eq_of_beq h)
  | error e => cases h

theorem wit_flits :
    (TakesFlit 15#4 (flitTest (.read 0x1FFFC 4)) fabricLab
      ∧ isMember 1#6 2#16 (flitArrived 15#4 (flitTest (.read 0x1FFFC 4)) fabricLab) = true
      ∧ ∃ as, requestPlaces 1#6 0x1FFFC 4 .rd (flitArrived 15#4 (flitTest (.read 0x1FFFC 4)) fabricLab) = .ok as ∧ ∀ a ∈ as, fatalLevel (a / 128) fabricLab = 0)
    ∧ (TakesFlit 15#4 (flitTest (.write 0x1FFFE [1#8, 2#8])) fabricLab
      ∧ isMember 1#6 2#16 (flitArrived 15#4 (flitTest (.write 0x1FFFE [1#8, 2#8])) fabricLab) = true
      ∧ ∃ as, requestPlaces 1#6 0x1FFFE 2 .wr (flitArrived 15#4 (flitTest (.write 0x1FFFE [1#8, 2#8])) fabricLab) = .ok as
        ∧ as.Nodup ∧ ∀ a ∈ as, fatalLevel (a / 128) fabricLab = 0)
    ∧ (TakesFlit 15#4 (flitTest (.read 0 1)) lab0 ∧ isMember 1#6 2#16 (flitArrived 15#4 (flitTest (.read 0 1)) lab0) = false)
    ∧ ({ flitTest (.read 0 1) with crcOk := false }.crcOk = false)
    ∧ ({ flitTest (.read 0 1) with seq := 1#12 }.seq ≠ sget (4 * (15#4).toNat + (3#2).toNat) lab0.rxSeq)
    ∧ (lab0.ports.getLsbD (15#4).toNat = true ∧ lab0.power = .d0
      ∧ ∃ f : Flit, f = { flitTest (.acknowledge 0xFFF#12 true) with type := 3#8 } ∧ f.crcOk = true ∧ f.type = 3#8 ∧ f.op = .acknowledge 0xFFF#12 true) :=
  ⟨⟨⟨by decide, rfl, by decide⟩, by decide +kernel, [0x30FFFC, 0x30FFFD, 0x30FFFE, 0x30FFFF], places_ok _ _ (by decide +kernel), by decide +kernel⟩,
    ⟨⟨by decide, rfl, by decide⟩, by decide +kernel, [0x30FFFE, 0x30FFFF], places_ok _ _ (by decide +kernel), by decide, by decide +kernel⟩,
    ⟨⟨by decide, rfl, by decide⟩, by decide +kernel⟩, rfl, by decide, by decide, rfl, _, rfl, rfl, rfl, rfl⟩

end Sys2Proof.Tests
end

/-! The digit count of R46 over exact integers: what the model computes on dyadic numbers, said in units of a common power of two. -/
section
namespace Sys2Proof.Proofs

open Sys2Proof.Machine Sys2Proof.Claims

/-! Dyadic numbers as integers in units of `2 ^ d`. -/

/-- A dyadic number in units of `2 ^ d`, for `d` at most its exponent. -/
def units (d : Int) (a : Dy) : Int := a.m * 2 ^ (a.e - d).toNat

theorem two_pow_pos (k : Nat) : (0 : Int) < 2 ^ k := Int.pow_pos (by decide)

theorem natCast_two_pow (k : Nat) : ((2 ^ k : Nat) : Int) = 2 ^ k := Int.natCast_pow 2 k

theorem units_self (a : Dy) : units a.e a = a.m := by
  rw [units, Int.sub_self]
  exact Int.mul_one a.m

theorem units_neg (d : Int) (a : Dy) : units d a.neg = -units d a := Int.neg_mul ..

theorem units_eq_zero_iff (d : Int) (a : Dy) : units d a = 0 ↔ a.m = 0 := by
  rw [units, Int.mul_eq_zero]
  exact or_iff_left (Int.ne_of_gt (two_pow_pos _))

/-- Coarser units of `2 ^ k` are finer units of `2 ^ d` by the factor between them. -/
theorem units_of_le {d k : Int} {a : Dy} (hd : d ≤ k) (hk : k ≤ a.e) : units d a = units k a * 2 ^ (k - d).toNat := by
  have h : (a.e - d).toNat = (a.e - k).toNat + (k - d).toNat := by omega
  rw [units, units, h, Int.pow_add, Int.mul_assoc]

theorem e_add (a b : Dy) : (Dy.add a b).e = min a.e b.e := by
  unfold Dy.add
  split
  · next h => exact (Int.min_eq_left h).symm
  · next h => exact (Int.min_eq_right (Int.le_of_not_le h)).symm

/-- Addition of dyadic numbers is exact. -/
theorem units_add {d : Int} {a b : Dy} (ha : d ≤ a.e) (hb : d ≤ b.e) : units d (Dy.add a b) = units d a + units d b := by
  by_cases h : a.e ≤ b.e
  · rw [units_of_le ha h]
    simp only [units, Dy.add, h, ↓reduceIte, Int.add_mul, natCast_two_pow]
  · have h' : b.e ≤ a.e := by omega
    rw [units_of_le hb h']
    simp only [units, Dy.add, h, ↓reduceIte, Int.add_mul, natCast_two_pow]

/-- The sum of three dyadic numbers: its units are the finest of theirs. -/
theorem add_add_eq {d : Int} {a b c : Dy} (hd : d = min (min a.e b.e) c.e) :
    Dy.add (Dy.add a b) c = { m := units d a + units d b + units d c, e := d } := by
  have he : (Dy.add (Dy.add a b) c).e = d := by rw [e_add, e_add, hd]
  have hm : (Dy.add (Dy.add a b) c).m = units d a + units d b + units d c := by
    rw [← units_self, he, units_add (by rw [e_add]; omega) (by omega), units_add (by omega) (by omega)]
  rw [← hm, ← he]

theorem units_nonneg_iff (d : Int) (a : Dy) : 0 ≤ units d a ↔ 0 ≤ a.m := 
  Int.mul_nonneg_iff_of_pos_right (two_pow_pos _)

/-- The magnitude of a dyadic number. -/
def magnitude (a : Dy) : Dy := { m := a.m.natAbs, e := a.e }

theorem units_magnitude (d : Int) (a : Dy) : units d (magnitude a) = (units d a).natAbs := by
  simp only [units, magnitude, Int.natAbs_mul, Int.natAbs_pow, Int.natCast_mul]
  exact congrArg _ (natCast_two_pow _).symm

/-- The comparison of magnitudes is the one of integers in common units. -/
theorem absLe_iff {d : Int} {a b : Dy} (ha : d ≤ a.e) (hb : d ≤ b.e) :
    a.absLe b = true ↔ (units d a).natAbs ≤ (units d b).natAbs :=
  calc a.absLe b = true
    _ ↔ 0 ≤ (Dy.add (magnitude b) (magnitude a).neg).m := decide_eq_true_iff
    _ ↔ 0 ≤ units d (Dy.add (magnitude b) (magnitude a).neg) := (units_nonneg_iff d _).symm
    _ ↔ (units d a).natAbs ≤ (units d b).natAbs := by
      rw [units_add (a := magnitude b) (b := (magnitude a).neg) hb ha, units_neg, units_magnitude, units_magnitude]
      omega

theorem log2_mul_two_pow {n : Nat} (hn : n ≠ 0) (k : Nat) : Nat.log2 (n * 2 ^ k) = Nat.log2 n + k := by
  induction k with
  | zero => rw [Nat.pow_zero, Nat.mul_one, Nat.add_zero]
  | succ k ih =>
    have hne : n * 2 ^ k ≠ 0 := Nat.mul_ne_zero hn (Nat.ne_of_gt (Nat.two_pow_pos k))
    rw [Nat.pow_succ, ← Nat.mul_assoc, Nat.mul_comm _ 2, Nat.log2_two_mul hne, ih, Nat.add_assoc]

/-- The exponent of the leading bit, from a number's integer in common units. -/
theorem ilogb_eq {d : Int} {a : Dy} (hm : a.m ≠ 0) (hd : d ≤ a.e) : a.ilogb = (Nat.log2 (units d a).natAbs : Int) + d := by
  have hlog : Nat.log2 (units d a).natAbs = Nat.log2 a.m.natAbs + (a.e - d).toNat := by
    rw [units, Int.natAbs_mul, Int.natAbs_pow]
    exact log2_mul_two_pow (by omega) _
  rw [hlog, Dy.ilogb]
  omega

/-- A finite value in units of `2 ^ d` is its dyadic number in them. -/
theorem inUnits_eq_units (s : Bool) (m : Nat) (e d : Int) : inUnits s m e d = units d (Fv.fin s m e).dy := by
  cases s
  · simp only [inUnits, units, Fv.dy, Bool.false_eq_true, ↓reduceIte, Int.one_mul]
  · simp only [inUnits, units, Fv.dy, ↓reduceIte, Int.neg_mul, Int.one_mul]

/-! Digits (R46). -/

/-- Of two dyadic numbers the one of the larger magnitude. -/
def farther (a b : Dy) : Dy := if a.absLe b then b else a

theorem le_e_farther {d : Int} {a b : Dy} (ha : d ≤ a.e) (hb : d ≤ b.e) : d ≤ (farther a b).e := by
  unfold farther
  split <;> assumption

theorem natAbs_units_farther {d : Int} {a b : Dy} (ha : d ≤ a.e) (hb : d ≤ b.e) :
    (units d (farther a b)).natAbs = max (units d a).natAbs (units d b).natAbs := by
  have h := absLe_iff ha hb
  unfold farther
  split
  · next hle => exact (Nat.max_eq_right (h.1 hle)).symm
  · next hlt => exact (Nat.max_eq_left (Nat.le_of_not_le fun hba => hlt (h.2 hba))).symm

/-- The digits of precision `p` on which values of mean `m` agree, the farthest of them `s` away from it. -/
def digitCount (p : Nat) (m s : Dy) : Nat :=
  if s.m = 0 then p
  else if m.m = 0 then 0
  else if m.ilogb - s.ilogb - 1 < 0 then 0 else min (m.ilogb - s.ilogb - 1).toNat p

theorem digitCount_eq {d : Int} {m s : Dy} (p : Nat) (hm : d ≤ m.e) (hs : d ≤ s.e) :
    digitCount p m s = if (units d s).natAbs = 0 then p else if units d m = 0 then 0
      else (min (max ((Nat.log2 (units d m).natAbs : Int) - Nat.log2 (units d s).natAbs - 1) 0) p).toNat := by
  simp only [digitCount, Int.natAbs_eq_zero, units_eq_zero_iff]
  split
  · rfl
  · next hs0 =>
    split
    · rfl
    · next hm0 =>
      rw [ilogb_eq hm0 hm, ilogb_eq hs0 hs]
      split <;> omega

theorem digitsOf_of_not_finite {f : Fmt} {x0 x1 x2 : Nat}
    (h : ((f.dec x0).finite && (f.dec x1).finite && (f.dec x2).finite) = false) : digitsOf f x0 x1 x2 = 0 := by
  unfold digitsOf
  split
  · next h0 h1 h2 =>
    rw [h0, h1, h2] at h
    cases h
  · rfl

/-- How far a value lies from a mean, in the finer of their units. -/
theorem natAbs_units_sub {d e : Int} {y m : Dy} (hy : e ≤ y.e) (hd : d = min e m.e) :
    (units d (Dy.add y m.neg)).natAbs = (units e y * 2 ^ (e - d).toNat - units d m).natAbs := by
  have hm : d ≤ m.neg.e := by rw [hd]; exact Int.min_le_right ..
  rw [units_add (by omega) hm, units_neg, units_of_le (by omega) hy]
  rfl

/-- The digit count of three values and a mean, over the integers of R46. -/
theorem digitCount_farthest (p : Nat) {d e : Int} {y0 y1 y2 m : Dy} (h0 : e ≤ y0.e) (h1 : e ≤ y1.e) (h2 : e ≤ y2.e)
    (hd : d = min e m.e) :
    let far := fun n : Int => (n * 2 ^ (e - d).toNat - units d m).natAbs
    let s := max (far (units e y0)) (max (far (units e y1)) (far (units e y2)))
    digitCount p m (farther (farther (Dy.add y0 m.neg) (Dy.add y1 m.neg)) (Dy.add y2 m.neg))
      = if s = 0 then p else if units d m = 0 then 0
        else (min (max ((Nat.log2 (units d m).natAbs : Int) - Nat.log2 s - 1) 0) p).toNat := by
  have hm : d ≤ m.e := by omega
  have hle : ∀ {y : Dy}, e ≤ y.e → d ≤ (Dy.add y m.neg).e := fun {y} hy => by
    rw [e_add, show m.neg.e = m.e from rfl]; omega
  have h01 := le_e_farther (hle h0) (hle h1)
  rw [digitCount_eq p hm (le_e_farther h01 (hle h2)), natAbs_units_farther h01 (hle h2), natAbs_units_farther (hle h0) (hle h1),
    natAbs_units_sub h0 hd, natAbs_units_sub h1 hd, natAbs_units_sub h2 hd, Nat.max_assoc]

/-- The digit count of three finite values, from their dyadic numbers and that of their rounded mean. -/
theorem digitsOf_of_finite {f : Fmt} {x0 x1 x2 : Nat} {s0 s1 s2 : Bool} {m0 m1 m2 : Nat} {e0 e1 e2 : Int} {sum m : Dy}
    (h0 : f.dec x0 = .fin s0 m0 e0) (h1 : f.dec x1 = .fin s1 m1 e1) (h2 : f.dec x2 = .fin s2 m2 e2)
    (hsum : Dy.add (Dy.add (f.dec x0).dy (f.dec x1).dy) (f.dec x2).dy = sum)
    (hm : (Fmt.f64.dec (Fmt.f64.round .rn (third false sum.m sum.e))).dy = m) :
    digitsOf f x0 x1 x2 = digitCount f.p m (farther (farther (Dy.add (f.dec x0).dy m.neg) (Dy.add (f.dec x1).dy m.neg))
      (Dy.add (f.dec x2).dy m.neg)) := by
  subst hm hsum
  simp only [digitsOf, h0, h1, h2]
  rfl

/-- The model's digit count is the one of R46. -/
theorem isDigits_digitsOf (f : Fmt) (x0 x1 x2 : Nat) : IsDigits f x0 x1 x2 (digitsOf f x0 x1 x2) := by
  refine ⟨digitsOf_of_not_finite, ?_⟩
  rintro e n0 n1 n2 sm mm em ⟨s0, m0, e0, s1, m1, e1, s2, m2, e2, h0, h1, h2, he, rfl, rfl, rfl⟩ hmean
  obtain ⟨hle0, hle1, hle2⟩ : e ≤ e0 ∧ e ≤ e1 ∧ e ≤ e2 := by omega
  have he' : e = min (min (f.dec x0).dy.e (f.dec x1).dy.e) (f.dec x2).dy.e := by rw [h0, h1, h2, he]; rfl
  simp only [inUnits_eq_units, ← h0, ← h1, ← h2] at hmean ⊢
  rw [digitsOf_of_finite h0 h1 h2 (add_add_eq he') (congrArg Fv.dy hmean)]
  exact digitCount_farthest f.p (by omega) (by omega) (by omega) rfl

/-! What DIGITS does (R316). -/

theorem sats_eq_zero (o : VOp) (c : Cur) {f : LaneFn} (hf : ∀ l, (f c l).2 = 0) : o.sats c f = 0 := by
  unfold VOp.sats
  induction lanesIn (c.act (pfxGuard o.x)) with
  | nil => rfl
  | cons l ls ih =>
    rw [List.foldl_cons, hf]
    exact ih

/-- A vector instruction without events or flags that writes the whole of its destination, under checks of its own. -/
theorem runPre_plain (o : VOp) (pre : Cur → Pre) (f : LaneFn) (kind : Nat) {c : Cur} {s : State} (h : Issues o.i c s)
    (hp : pre c = .go) (hd : dstOk c.regs o.dst o.wide = true) (hk : o.kept = 0) (hf : ∀ l, (f c l).2 = 0) :
    VectorDone o true c s (fun l => (f c (c.lane o.fp l)).1) id (o.runPre pre f kind noHits s) := by
  have hval : (fun l => o.merge c l (f c (c.lane o.fp l)).1) = fun l => (f c (c.lane o.fp l)).1 := by
    funext l
    rw [VOp.merge, if_pos hk]
  have hmark : (fun x => countNit kind (countedHits c kind (noHits c)) (withSat (o.sats c f) x)) = id := by
    funext x
    have hcount : countedHits c kind (noHits c) = 0 := by simp only [countedHits, noHits, List.length_nil, ite_self]
    rw [hcount, countNit_zero, sats_eq_zero o c hf, withSat_zero, id]
  have hdone := runPre_done o pre f kind noHits h hp hd (.inl rfl)
  rwa [hval, hmark] at hdone

/-- Under MODE.SIB = 1 every lane receives what it computes itself (R20). -/
theorem lane_of_sib {c : Cur} {l : Nat} (h : (c.gang.quad (l / 4)).sib = true) (fp : Bool) : c.lane fp l = l := by
  simp only [Cur.lane, Cur.computes, h, Bool.or_true, Bool.true_or, ↓reduceIte]

/-- DIGITS as a vector operation. -/
def digitsOp (ft : BitVec 2) (x : AF) : VOp :=
  afOp (.digits ft x) x (Fty.of ft.toNat).ix (Fty.of ft.toNat).wide false true

/-- An element of the source of DIGITS in a lane. -/
def digitsEl (ft : BitVec 2) (x : AF) (c : Cur) (l j : Nat) : Nat :=
  (Fty.of ft.toNat).fmt.smod (smodA x.x) ((Fty.of ft.toNat).el (srcAt (digitsOp ft x) 0 c l) j)

/-- The digit count that a lane computes: of its quad's three siblings, or of its own value (R46, R47). -/
def digitsAt (ft : BitVec 2) (x : AF) (c : Cur) (l j : Nat) : Nat :=
  if c.triple && (c.gang.quad (l / 4)).sib then
    digitsOf (Fty.of ft.toNat).fmt (digitsEl ft x c (l / 4 * 4) j) (digitsEl ft x c (l / 4 * 4 + 1) j) (digitsEl ft x c (l / 4 * 4 + 2) j)
  else digitsOne (Fty.of ft.toNat).fmt (digitsEl ft x c l j)

/-- The lanes whose poison the check of DIGITS looks at are those it reads. -/
theorem digitsReads_of_checked {o : VOp} {c : Cur} {l : Nat} (hl : l ∈ lanesIn (c.act (pfxGuard o.x)))
    (hc : (c.computes true l && !(c.triple && (c.gang.quad (l / 4)).sib && l % 4 == 3)) = true) :
    l < 32 ∧ digitsReads o c l = true := by
  obtain ⟨hlt, hact⟩ := mem_lanesIn.1 hl
  refine ⟨hlt, ?_⟩
  rw [Bool.and_eq_true] at hc
  obtain ⟨hcomp, hsib⟩ := hc
  rw [digitsReads, VOp.acts, hact, Bool.true_and]
  split
  · next hq =>
    rw [hq, Bool.true_and] at hsib
    exact hsib
  · exact hcomp

/-- DIGITS whose operands are within their limits and clean is done: every acting lane receives its count. -/
theorem digits_done {ft : BitVec 2} {x : AF} {c : Cur} {s : State} (h : Issues (.digits ft x) c s)
    (hsrc : ∀ a ∈ (digitsOp ft x).srcs, a.ok c.regs = true) (hdst : dstOk c.regs x.d false = true)
    (hg : c.guardPoisoned (pfxGuard x.x) = false)
    (hclean : ∀ l, l < 32 → digitsReads (digitsOp ft x) c l = true → ∀ a ∈ (digitsOp ft x).srcs, a.poisoned c l = false) :
    VectorDone (digitsOp ft x) true c s (fun l => (Fty.of ft.toNat).pack (digitsAt ft x c (c.lane true l))) id
      (exec (.digits ft x) s) := by
  refine runPre_plain (digitsOp ft x) _ _ 1 h (preOf_go ?_ ?_) hdst rfl (fun _ => rfl)
  · rw [Bool.and_eq_true]
    exact ⟨List.all_eq_true.2 hsrc, hdst⟩
  · rw [hg, Bool.false_or, List.any_eq_false]
    intro l hl
    obtain ⟨hmem, hc⟩ := List.mem_filter.1 hl
    obtain ⟨hlt, hread⟩ := digitsReads_of_checked (o := digitsOp ft x) hmem hc
    rw [List.any_eq_true]
    rintro ⟨a, ha, hpois⟩
    rw [hclean l hlt hread a ha] at hpois
    cases hpois

/-- Settles O10: each lane of a sibling quad takes the model's count of the three, which is that of R46. -/
theorem digitsOfSiblings : Obligations.DigitsOfSiblings := by
  intro ft x c s t o el h hsrc hdst hg htriple hclean
  refine ⟨fun l => digitsAt ft x c (c.lane true l), fun l j _ _ hsib _ => ?_, digits_done h hsrc hdst hg hclean⟩
  simp only [lane_of_sib hsib, digitsAt, htriple, hsib, Bool.and_self, ↓reduceIte]
  exact isDigits_digitsOf t.fmt _ _ _

end Sys2Proof.Proofs
end

/-! The compares (R321, R335): their conditions, and which quads raise a CMP event. -/
section
namespace Sys2Proof.Proofs

open Sys2Proof.Machine Sys2Proof.Claims

/-- The model's conditions of ICMP are those of R121. -/
theorem icond_eq_intHolds (k : BitVec 4) (a b : Int) : icond k.toNat a b = intHolds k a b := by
  unfold icond
  split
  · next h => rw [show k = 0#4 from BitVec.eq_of_toNat_eq h]; rfl
  · next h => rw [show k = 1#4 from BitVec.eq_of_toNat_eq h]; exact (decide_not ..).symm
  · next h => rw [show k = 2#4 from BitVec.eq_of_toNat_eq h]; rfl
  · next h => rw [show k = 3#4 from BitVec.eq_of_toNat_eq h]; rfl
  · next h => rw [show k = 4#4 from BitVec.eq_of_toNat_eq h]; rfl
  · rw [intHolds, if_neg (by bv_omega), if_neg (by bv_omega), if_neg (by bv_omega), if_neg (by bv_omega), if_neg (by bv_omega)]

/-- A compare row runs as a compare of its outcome in each lane. -/
theorem exec_cmpRow {i : Instr} {r : CmpRow} (hr : cmpRow i = some r) (s : State) : exec i s = r.o.run r.f s := by
  unfold cmpRow at hr
  split at hr
  · next k pd o =>
    cases hr
    simp only [← icond_eq_intHolds]
    rfl
  · next k pd o =>
    cases hr
    simp only [← icond_eq_intHolds]
    rfl
  · next k pd o =>
    cases hr
    rfl
  · cases hr

/-- The test of a split vote says that not all three siblings agree (R52). -/
theorem votesDiffer_iff (x y z : Bool) : (!(x == y && x == z)) = true ↔ ¬(x = y ∧ x = z) := by
  revert x y z
  decide

/-- The quads that raise a CMP event: the acting sibling quads whose votes differ (R48, R52). -/
theorem mem_split_quads (c : Cur) (f : Nat → Bool) (a : Mask) (q : Nat) :
    q ∈ (c.split f a).map (fun h => h.quad) ↔ c.triple = true ∧ q < 8 ∧ quadBits a q ≠ 0#4 ∧ (c.gang.quad q).sib = true
      ∧ ¬(f (4 * q) = f (4 * q + 1) ∧ f (4 * q) = f (4 * q + 2)) := by
  unfold Cur.split quadsIn
  split
  · next htriple =>
    simp only [htriple, List.map_map, List.mem_map, List.mem_filter, List.mem_range, Function.comp_apply, exists_eq_right,
      decide_eq_true_eq, Bool.and_eq_true, votesDiffer_iff]
    rw [and_assoc, true_and]
  · next htriple => simp only [htriple, List.map_nil, List.not_mem_nil, Bool.false_eq_true, false_and]

/-- Settles O13: every compare row is a compare of the model, and a split vote is a quad of its list of events. -/
theorem comparesWritePredicates : Obligations.ComparesWritePredicates := by
  refine ⟨fun i r c s hr h hsrc hclean hevents => ?_, mem_split_quads⟩
  rw [exec_cmpRow hr]
  exact compare_done r.o r.f h hsrc hclean hevents

end Sys2Proof.Proofs
end

/-! What is no instruction (R109, R111, R112, R120, R131): its words, the fetch that finds them, and the ILLOP they raise. -/
section
namespace Sys2Proof.Proofs

open Sys2Proof.Machine Sys2Proof.Claims

/-! Words. -/

/-- Every word of major opcode 0x7E is the row ILLEGAL (R111). -/
theorem decode_illegal {w : Nat} (h : majorOf w = 0x7E) :
    decode (.word w) = .ok (.illegal (BitVec.ofNat 23 (w / 512)) (w / 2 % 2 == 1)) := by
  have hrow : dWord w none = .ok (.illegal (fld w 9 23) (bit w 1)) := by
    unfold dWord
    rw [h]
    rfl
  simp only [decode, hrow, Decoded.checked]
  rfl

/-! A fault of the kind ILLOP. -/

/-- Folds from the right of functions that agree on the list's members are equal; stated here because the package's modules do not import
Mathlib's `List.foldr_ext`. -/
theorem foldr_eq_of_mem {α β : Type} (f g : α → β → β) (b : β) (L : List α) (h : ∀ x ∈ L, ∀ y, f x y = g x y) :
    L.foldr f b = L.foldr g b := by
  induction L with
  | nil => rfl
  | cons x t ih => rw [List.foldr_cons, List.foldr_cons, ih (fun z hz => h z (List.mem_cons_of_mem x hz)), h x List.mem_cons_self]

/-- The registers that say who owns a context count nothing. -/
theorem ownerFn_of_apart {c : Cur} {s u : State} (h : Apart c s u) (ctx : BitVec 6) : ownerFn ctx u = ownerFn ctx s := by
  have hreg : ∀ off, 0x2000 ≤ off → off < 65536 → mreg 0 off u = mreg 0 off s := by
    intro off hlo hhi
    refine h.regs _ ?_
    have hoff : (65536 * 0 + off) % 65536 = off := by omega
    simp only [hoff, countingReg, Bool.or_eq_false_iff, Bool.and_eq_false_iff, beq_eq_false_iff_ne, decide_eq_false_iff_not]
    omega
  refine foldr_eq_of_mem _ _ _ _ (fun n hn owner => ?_)
  obtain ⟨m, hm, rfl⟩ := List.mem_map.1 hn
  have hm16 := List.mem_range.1 hm
  rw [vfOn, vfOn, hreg (0x2000 + 32 * (m + 1)) (by omega) (by omega), hreg (0x2010 + 32 * (m + 1)) (by omega) (by omega)]

/-- An ILLOP taken in `u` holds the fragment at its word, as seen from any state `s` that `u` is apart from (R131, R239). -/
theorem illop_held {c : Cur} (k : Illop) {s u : State} (hu : Apart c s u)
    (hgang : gangOf (gangRefOf c.r) u = some c.gang) :
    FaultHeld c c.frag.pc c.frag.pc { cls := 0x01, kind := k.code } c.gang s (takeFault c (illop k) u) := by
  have hcls : ¬((illop k).cls = 0x0A ∨ (illop k).cls = 0x0B) := by simp [illop]
  rw [takeFault, takeFaultAt, if_neg hcls]
  have htok : u.tokens = s.tokens := by rw [hu.rest]
  exact holdFault_held c _ _ (illop k) s u hu htok hgang (ownerFn_of_apart hu c.ctx) rfl

theorem runIllop_held {c : Cur} {s : State} (k : Illop) (h : cur s = some c) :
    ∃ t, runIllop k s = .next t ∧ FaultHeld c c.frag.pc c.frag.pc { cls := 0x01, kind := k.code } c.gang s t := by
  refine ⟨takeFault c (illop k) s, ?_, illop_held k (Apart.refl c s) (gangOf_cur h)⟩
  rw [runIllop, h]

/-- A row that is no instruction runs as an ILLOP of its kind. -/
theorem exec_badWord {i : Instr} {n : Nat} (h : badWord i = some n) (s : State) :
    ∃ k : Illop, k.code = n ∧ exec i s = runIllop k s := by
  unfold badWord at h
  split at h
  · cases h; exact ⟨.illegal, rfl, rfl⟩
  · cases h; exact ⟨.illegal, rfl, rfl⟩
  · cases h; exact ⟨.illegal, rfl, rfl⟩
  · cases h; exact ⟨.reserved, rfl, rfl⟩
  · cases h

/-! The halfwords of a fetch. -/

theorem aget_filter_key {α : Type} (p : Nat → Bool) (k : Nat) (hk : p k = true) (l : AList α) :
    aget k (l.filter (fun e => p e.1)) = aget k l := by
  induction l with
  | nil => rfl
  | cons e t ih =>
    obtain ⟨j, v⟩ := e
    rw [List.filter_cons]
    split
    · simp only [aget, ih]
    · next hj =>
      have hne : j ≠ k := fun hjk => hj (hjk ▸ hk)
      simp only [aget, if_neg hne, ih]

/-- One byte read as a number. -/
theorem getNum_one (m : Memory) (a : Nat) : getNum m a 1 = (sget a m).toNat := by
  have hbyte : sget a (slice m a 1) = sget a m := by
    rw [sget, sget, slice, aget_filter_key (fun k => decide (a ≤ k) && decide (k < a + 1)) a (by simp)]
  simp only [getNum, getBytes, List.range_one, List.map_cons, List.map_nil, Nat.add_zero, hbyte, ofBytes, Nat.mul_zero]

theorem fetchHalf_of_halfAt {c : Cur} {k v : Nat} {s : State} (h : HalfAt c k v s) :
    fetchHalf c (c.frag.pc.toNat + 2 * k) k s = .ok v := by
  obtain ⟨a, hres, hline, hlink, hpois, hval⟩ := h.spot
  simp only [fetchHalf, hres, Place.key, hline, hlink, hpois, getNum_one, half2, hval, Bool.false_eq_true, ↓reduceIte]

/-- The fetch reads the halfwords that it calls for, and no more (R106, R112). -/
theorem fetch_of_fetchAt {c : Cur} {h0 h1 h2 h3 : Nat} {s : State} (h : FetchAt c h0 h1 h2 h3 s) :
    fetch c s = .ok (frame h0 h1 h2 h3) := by
  have f0 := fetchHalf_of_halfAt h.first
  rw [Nat.mul_zero, Nat.add_zero] at f0
  unfold fetch frame
  by_cases e0 : h0 % 2 = 0
  · simp only [f0, e0, ↓reduceIte]
  · have o0 : h0 % 2 = 1 := Nat.mod_two_ne_zero.1 e0
    have f1 := fetchHalf_of_halfAt (h.second o0)
    by_cases x0 : majorOf h0 = 0x7F
    · have f2 := fetchHalf_of_halfAt (h.third o0 x0)
      by_cases e2 : h2 % 2 = 0
      · simp only [f0, e0, f1, x0, f2, e2, ↓reduceIte]
      · have f3 := fetchHalf_of_halfAt (h.fourth o0 x0 (Nat.mod_two_ne_zero.1 e2))
        simp only [f0, e0, f1, x0, f2, e2, f3, ↓reduceIte]
    · simp only [f0, e0, f1, x0, ↓reduceIte]

/-! What a fetch leaves: its translations, and the lines of its tables in the caches, which count as read (R249, R280). -/

/-- A state with the TLBs, the caches and the flipped bits of another. -/
def withCachesOf (v s : State) : State := { s with tlb := v.tlb, l2 := v.l2, mirror := v.mirror, hbmFlips := v.hbmFlips }

/-- A state that differs in the TLBs and the caches, and in what counts events (R280). -/
structure LinesRead (c : Cur) (s t : State) : Prop where
  apart : Apart c (withCachesOf t s) t
  groups : t.groups = s.groups

namespace LinesRead

variable {c : Cur} {s t u : State}

theorem of_caches (h : t = withCachesOf t s) : LinesRead c s t where
  apart := by rw [← h]; exact Apart.refl c t
  groups := (congrArg State.groups h).trans rfl

theorem refl (c : Cur) (s : State) : LinesRead c s s := of_caches rfl

theorem trans (h1 : LinesRead c s t) (h2 : LinesRead c t u) : LinesRead c s u where
  apart :=
    have h : Apart c (withCachesOf u s) (withCachesOf u t) :=
      ⟨congrArg (withCachesOf u) h1.apart.rest, h1.apart.groups, h1.apart.gangs, h1.apart.regs⟩
    h.trans h2.apart
  groups := h2.groups.trans h1.groups

theorem foldl {α : Type} {F : State → α → State} (hF : ∀ s x, LinesRead c s (F s x)) (L : List α) (s : State) :
    LinesRead c s (L.foldl F s) := by
  induction L generalizing s with
  | nil => exact refl c s
  | cons x t ih => exact (hF s x).trans (ih _)

theorem of_apart (h : Apart c s t) (hg : t.groups = s.groups) : LinesRead c s t where
  apart := by
    have hs : withCachesOf t s = s := by rw [h.rest]; rfl
    rw [hs]
    exact h
  groups := hg

theorem of_countEvents (c : Cur) (code : Nat) (ctx : BitVec 6) (k : Nat) (s : State) :
    LinesRead c s (countEvents code ctx k s) :=
  of_apart (apart_countEvents c code ctx k s) (groups_countEvents code ctx k s)

/-- A corrected line changes at most its copies in the caches, whichever level holds them (R264, R402). -/
theorem of_scrubLine (c : Cur) (ln : Nat) (s : State) : LinesRead c s (scrubLine ln s) := by
  unfold scrubLine
  simp only []
  repeat' split
  all_goals exact of_caches rfl

theorem of_scrubLines (c : Cur) (lns : List Nat) (s : State) : LinesRead c s (scrubLines lns s) := by
  unfold scrubLines
  split
  · exact refl c s
  · exact foldl (fun s ln => of_scrubLine c ln s) lns s

/-- A line that comes into the Mirror changes the Mirror alone (R154). -/
theorem of_allocMirror (c : Cur) (ln : Nat) (s : State) : LinesRead c s (allocMirror ln s) := by
  unfold allocMirror
  simp only []
  repeat' split
  all_goals exact of_caches rfl

/-- A line that comes into the L2 changes the L2 alone (R153). -/
theorem of_allocL2 (c : Cur) (ln die : Nat) (s : State) : LinesRead c s (allocL2 ln s die) := by
  unfold allocL2
  repeat' split
  all_goals exact of_caches rfl

theorem of_touchMirror (c : Cur) (ln : Nat) (s : State) : LinesRead c s (touchMirror ln s) := by
  unfold touchMirror
  split
  · simp only []
    split
    · exact (of_allocMirror c ln s).trans (of_countEvents c 0x0020 _ 1 _)
    · exact ((of_allocMirror c ln s).trans (of_countEvents c 0x0020 _ 1 _)).trans (of_countEvents c 0x0021 _ 1 _)
  · exact refl c s

/-- An access at the home brings the line into the caches, and counts (R153, R154, R280). -/
theorem of_touchLine (c : Cur) (ln die : Nat) (s : State) : LinesRead c s (touchLine ln s die) := by
  unfold touchLine
  split
  · exact of_countEvents c 0x0010 _ 1 s
  · exact (((of_touchMirror c ln s).trans (of_allocL2 c ln die _)).trans (of_countEvents c 0x0010 _ 1 _)).trans (of_countEvents c 0x0011 _ 1 _)

theorem of_homeReads (c : Cur) (die : Nat) (lns : List Nat) (s : State) : LinesRead c s (homeReads die lns s) :=
  foldl (fun s ln => (of_scrubLine c ln s).trans (of_touchLine c ln die _)) lns s

/-- A translation that stays changes the TLBs, and its walk has read the tables (R246, R249). -/
theorem of_tlbTouch (c : Cur) (ctx : BitVec 6) (va : Nat) (s : State) : LinesRead c s (tlbTouch ctx va s) := by
  unfold tlbTouch
  split
  · split
    · exact refl c s
    · exact ((of_scrubLines c _ s).trans (of_homeReads c 0 _ _)).trans (of_caches rfl)
  · exact refl c s

theorem of_fetchTouch (c : Cur) (len : Nat) (s : State) : LinesRead c s (fetchTouch c len s) :=
  foldl (fun s _ => of_tlbTouch c _ _ s) _ s

end LinesRead

/-! The step. -/

/-- The state in which a fetched word is decoded. -/
def fetched (r : FragRef) (c : Cur) (len : Nat) (s : State) : State := { fetchTouch c len s with sel := some r }

/-- A step whose picked fragment fetches words that decode to nothing takes their ILLOP in the state after the fetch. -/
theorem step_of_bad {r : FragRef} {c : Cur} {h0 h1 h2 h3 : Nat} {k : Illop} {s : State} (hp : Picked r c s)
    (hf : FetchAt c h0 h1 h2 h3 (atTurn s)) (hk : decode (frame h0 h1 h2 h3) = .bad k) :
    step s = .next (takeFault c (illop k) (fetched r c (frame h0 h1 h2 h3).len (atTurn s))) := by
  have hstep : step s = stepFrag r (atTurn s) := by
    simp only [step, atTurn, hp.quiet, hp.turn]
  have hlines : fetchLines c 8 [] (atTurn s) = (.ok (frame h0 h1 h2 h3), [], atTurn s) := by
    simp only [fetchLines, fetch_of_fetchAt hf]
  simp only [hstep, stepFrag, hp.here, hp.runs, hlines, hk, afterLines, containAll, List.foldr_nil, fetched, Bool.false_eq_true, ↓reduceIte]

/-- The same step seen from the state before its fetch counted anything: the fragment is held at the words. -/
theorem step_bad_held {r : FragRef} {c : Cur} {h0 h1 h2 h3 : Nat} {k : Illop} {s : State} (hp : Picked r c s)
    (hf : FetchAt c h0 h1 h2 h3 (atTurn s)) (hk : decode (frame h0 h1 h2 h3) = .bad k) :
    ∃ t u, step s = .next t ∧ FaultHeld c c.frag.pc c.frag.pc { cls := 0x01, kind := k.code } c.gang u t
      ∧ u = { atTurn s with sel := some r, tlb := u.tlb, l2 := u.l2, mirror := u.mirror, hbmFlips := u.hbmFlips } := by
  have hread := LinesRead.of_fetchTouch c (frame h0 h1 h2 h3).len (atTurn s)
  obtain ⟨hr, hgrp, hgang, _, _⟩ := curOf_some hp.here
  generalize hv : fetchTouch c (frame h0 h1 h2 h3).len (atTurn s) = v at hread
  have hap : Apart c { withCachesOf v (atTurn s) with sel := some r } { v with sel := some r } :=
    ⟨congrArg (fun x : State => { x with sel := some r }) hread.apart.rest, hread.apart.groups, hread.apart.gangs, hread.apart.regs⟩
  refine ⟨_, { withCachesOf v (atTurn s) with sel := some r }, step_of_bad hp hf hk, ?_, rfl⟩
  rw [fetched, hv]
  refine illop_held k hap ?_
  simp [gangOf, gangRefOf, hr, hread.groups, hgrp, hgang]

/-- Settles O33: the rows that are no instruction run as an ILLOP of their kind, and a step whose fetch decodes to none takes one; what the
fetch itself counts (R280) is in registers that `FaultHeld` leaves open. -/
theorem badWordsTakeIllop : Obligations.BadWordsTakeIllop := by
  refine ⟨fun i n c s hbad hcur => ?_, rfl, fun w _ _ hw => ⟨decode_illegal hw, by decide,
    fun r c h0 h1 h2 h3 k s hp hf hk => step_bad_held hp hf hk⟩⟩
  obtain ⟨k, rfl, hexec⟩ := exec_badWord hbad s
  rw [hexec]
  exact runIllop_held k hcur

end Sys2Proof.Proofs
end
